-- ==== Sys2Proof/Word.lean ====
section
/-! DEFINITION. The word types of the machine (00_scope.md R8, R17): a byte, a 16-bit word, a 32-bit long.
Every helper over them stands in Machine/Bits.lean. -/

namespace Sys2Proof

/-- An 8-bit value (size B of R17). -/
abbrev Byte := BitVec 8

/-- A 16-bit value: an operation word, an extension word, or an operand of size W. -/
abbrev Word := BitVec 16

/-- A 32-bit value: a register, a computed address, or an operand of size L. -/
abbrev Long := BitVec 32

end Sys2Proof
end

