-- ==== Sys2Proof/Config.lean ====
section
/-! DEFINITION. What an implementation fixes (00_scope.md R3, R9–R15), as plain data with the spec's defaults, and
the free values of the spec's `draw()` (R20) and `CYCLES` (R12). The free values have no body: no proof can see one. -/

namespace Sys2Proof

/-- The modelled variants (R2, R3). -/
inductive Variant where
  | m68000
  | m68008
  | m68010
  deriving DecidableEq, Repr

/-- What a host may ask for at configuration: the modelled variants and the M68020, which is refused (R29). -/
inductive RequestedVariant where
  | m68000
  | m68008
  | m68010
  | m68020
  deriving DecidableEq, Repr

/-- The two M68008 packages: 20 or 22 address lines (R9). -/
inductive M68008Pins where
  | pins20
  | pins22
  deriving DecidableEq, Repr

/-- `ADDRESS_ERROR_MODE` (R10). -/
inductive AddressErrorMode where
  | fault
  | exception
  deriving DecidableEq, Repr

/-- `INT_LINE_MODE` (R11, R416). -/
inductive IntLineMode where
  | consumed
  | levelHeld
  deriving DecidableEq, Repr

/-- The answer to an interrupt acknowledge (R15). -/
inductive IackAnswer where
  | autovector
  | vector (n : Byte)
  | spurious
  | uninitialized
  deriving DecidableEq, Repr

/-- The parameters of R9–R15, fixed for the life of a core. DESIGN CHOICE (log 1): State carries one of these and no
step changes it. The defaults are the spec's; `m68000` is the spec's baseline (log 2). -/
structure Config where
  /-- `VARIANT` (R3). -/
  variant : Variant := .m68000
  /-- The M68008's `ADDRESS_BITS` (R9). -/
  m68008Pins : M68008Pins := .pins22
  /-- `ADDRESS_ERROR_MODE` (R10). -/
  addressErrorMode : AddressErrorMode := .fault
  /-- `INT_LINE_MODE` (R11). -/
  intLineMode : IntLineMode := .consumed
  /-- `LEVEL7_NMI` (R11). -/
  level7Nmi : Bool := true
  /-- `IACK` (R11): the answer for each level, the level as index (index 0 is never asked). -/
  iack : Vector IackAnswer 8 := Vector.replicate 8 .autovector
  /-- `TRACE_ENABLED` (R13). -/
  traceEnabled : Bool := true
  /-- `FC_SEPARATE_SPACES` (R14). -/
  fcSeparateSpaces : Bool := false
  /-- `DUMMY_READS` (R14). -/
  dummyReads : Bool := true
  /-- `SMC_WINDOW_BYTES` (R14). -/
  smcWindowBytes : Nat := 4
  /-- Whether a bus collaborator is installed (R27, R453). -/
  busCollaborator : Bool := true
  deriving DecidableEq, Repr

/-- What a step cost is charged for (R12, R465): an instruction by its operation word (which holds its addressing
modes) with the vector of the exception it entered, if any, or an entry made by no instruction. -/
inductive CycleEvent where
  | instruction (w : Word) (entered : Option Byte)
  | entry (vector : Byte)
  | hold
  deriving DecidableEq, Repr

/-- The n-th free bit (R20 `draw()`; log 6). -/
opaque Config.freeBit : Nat → Bool

/-- The n-th free byte (R20 `draw()`; log 6). -/
opaque Config.freeByte : Nat → Byte

/-- The n-th free 16-bit value (R20 `draw()`; log 6). -/
opaque Config.freeWord : Nat → Word

/-- The n-th free 32-bit value (R20 `draw()`; log 6). -/
opaque Config.freeLong : Nat → Long

/-- The part of `CYCLES` the spec leaves open (R12; log 22). -/
opaque Config.freeCycles : Variant → CycleEvent → Nat

end Sys2Proof
end

