-- ==== Sys2Proof/Syntax.lean ====
section
/-! DEFINITION. The instructions, one constructor per row of spec/opcode_table.json (30_encoding.md R110), as the
operation word gives them (R101: decode is a function of the operation word; extension words are fetched by the
instruction's rule, R100, R200; log 11). -/

namespace Sys2Proof

/-- Operand sizes (R17). -/
inductive Size where
  | b
  | w
  | l
  deriving DecidableEq, Repr

/-- The twelve addressing modes with their register (R102). -/
inductive Ea where
  | dn (n : Fin 8)
  | an (n : Fin 8)
  | ind (n : Fin 8)
  | pi (n : Fin 8)
  | pd (n : Fin 8)
  | d16 (n : Fin 8)
  | d8x (n : Fin 8)
  | absW
  | absL
  | pc16
  | pc8x
  | imm
  deriving DecidableEq, Repr

/-- The sixteen conditions, in the order of their codes (R109, R180). -/
inductive Cond where
  | t
  | f
  | hi
  | ls
  | cc
  | cs
  | ne
  | eq
  | vc
  | vs
  | pl
  | mi
  | ge
  | lt
  | gt
  | le
  deriving DecidableEq, Repr

/-- The R/M bit of ADDX, SUBX, ABCD and SBCD (R108): data registers or predecremented memory. -/
inductive RegMem where
  | reg
  | mem
  deriving DecidableEq, Repr

/-- The direction of MOVEP (R205). -/
inductive MoveDir where
  | memToReg
  | regToMem
  deriving DecidableEq, Repr

/-- The count type `g` of the register shifts (R285): the field itself or a data register. -/
inductive CountKind where
  | immediate
  | register
  deriving DecidableEq, Repr

/-- The instructions. Names of arguments: `dn`, `an` register numbers, `x` and `y` the Rx and Ry fields (R108), `q` and
`k` the three-bit quick and count fields, `d8` the 8-bit displacement or data. -/
inductive Instr where
  -- line 0
  /-- R342 -/
  | oriToCcr
  /-- R345 -/
  | oriToSr
  /-- R274 -/
  | ori (sz : Size) (ea : Ea)
  /-- R341 -/
  | andiToCcr
  /-- R344 -/
  | andiToSr
  /-- R272 -/
  | andi (sz : Size) (ea : Ea)
  /-- R238 -/
  | subi (sz : Size) (ea : Ea)
  /-- R233 -/
  | addi (sz : Size) (ea : Ea)
  /-- R301, static -/
  | btstImm (ea : Ea)
  /-- R302, static -/
  | bchgImm (ea : Ea)
  /-- R303, static -/
  | bclrImm (ea : Ea)
  /-- R304, static -/
  | bsetImm (ea : Ea)
  /-- R343 -/
  | eoriToCcr
  /-- R346 -/
  | eoriToSr
  /-- R276 -/
  | eori (sz : Size) (ea : Ea)
  /-- R243 -/
  | cmpi (sz : Size) (ea : Ea)
  /-- R361, M68010 -/
  | moves (sz : Size) (ea : Ea)
  /-- R301, dynamic -/
  | btstReg (dn : Fin 8) (ea : Ea)
  /-- R302, dynamic -/
  | bchgReg (dn : Fin 8) (ea : Ea)
  /-- R303, dynamic -/
  | bclrReg (dn : Fin 8) (ea : Ea)
  /-- R304, dynamic -/
  | bsetReg (dn : Fin 8) (ea : Ea)
  /-- R205 -/
  | movep (dn : Fin 8) (dir : MoveDir) (sz : Size) (an : Fin 8)
  -- lines 1, 2, 3
  /-- R201 -/
  | moveB (src dst : Ea)
  /-- R201 -/
  | moveW (src dst : Ea)
  /-- R201 -/
  | moveL (src dst : Ea)
  /-- R202 -/
  | moveaW (an : Fin 8) (src : Ea)
  /-- R202 -/
  | moveaL (an : Fin 8) (src : Ea)
  -- line 4
  /-- R246 -/
  | negx (sz : Size) (ea : Ea)
  /-- R351 -/
  | moveFromSr (ea : Ea)
  /-- R254 -/
  | chk (dn : Fin 8) (ea : Ea)
  /-- R206 -/
  | lea (an : Fin 8) (ea : Ea)
  /-- R247 -/
  | clr (sz : Size) (ea : Ea)
  /-- R348, M68010 -/
  | moveFromCcr (ea : Ea)
  /-- R245 -/
  | neg (sz : Size) (ea : Ea)
  /-- R347 -/
  | moveToCcr (ea : Ea)
  /-- R277 -/
  | notOp (sz : Size) (ea : Ea)
  /-- R349 -/
  | moveToSr (ea : Ea)
  /-- R313 -/
  | nbcd (ea : Ea)
  /-- R209 -/
  | swap (dn : Fin 8)
  /-- R359, M68010 -/
  | bkpt (v : BitVec 3)
  /-- R207 -/
  | pea (ea : Ea)
  /-- R248 -/
  | extW (dn : Fin 8)
  /-- R248 -/
  | extL (dn : Fin 8)
  /-- R204, registers to memory -/
  | movemToMem (sz : Size) (ea : Ea)
  /-- R249 -/
  | tst (sz : Size) (ea : Ea)
  /-- R278 -/
  | tas (ea : Ea)
  /-- R358 -/
  | illegal
  /-- R204, memory to registers -/
  | movemToRegs (sz : Size) (ea : Ea)
  /-- R356 -/
  | trap (v : BitVec 4)
  /-- R210 -/
  | link (an : Fin 8)
  /-- R211 -/
  | unlk (an : Fin 8)
  /-- R352, An to USP -/
  | moveAnUsp (an : Fin 8)
  /-- R352, USP to An -/
  | moveUspAn (an : Fin 8)
  /-- R353 -/
  | reset
  /-- R330 -/
  | nop
  /-- R350 -/
  | stop
  /-- R354 -/
  | rte
  /-- R355, M68010 -/
  | rtd
  /-- R328 -/
  | rts
  /-- R357 -/
  | trapv
  /-- R329 -/
  | rtr
  /-- R360, Rc to Rn, M68010 -/
  | movecRcRn
  /-- R360, Rn to Rc, M68010 -/
  | movecRnRc
  /-- R327 -/
  | jsr (ea : Ea)
  /-- R326 -/
  | jmp (ea : Ea)
  -- line 5
  /-- R234 -/
  | addq (q : BitVec 3) (sz : Size) (ea : Ea)
  /-- R239 -/
  | subq (q : BitVec 3) (sz : Size) (ea : Ea)
  /-- R324 -/
  | dbcc (c : Cond) (dn : Fin 8)
  /-- R325 -/
  | scc (c : Cond) (ea : Ea)
  -- line 6
  /-- R321 -/
  | bra (d8 : Byte)
  /-- R322 -/
  | bsr (d8 : Byte)
  /-- R323 -/
  | bcc (c : Cond) (d8 : Byte)
  -- line 7
  /-- R203 -/
  | moveq (dn : Fin 8) (d8 : Byte)
  -- line 8
  /-- R273, `OR <ea>,Dn` -/
  | orEaDn (dn : Fin 8) (sz : Size) (ea : Ea)
  /-- R273, `OR Dn,<ea>` -/
  | orDnEa (dn : Fin 8) (sz : Size) (ea : Ea)
  /-- R252 -/
  | divu (dn : Fin 8) (ea : Ea)
  /-- R253 -/
  | divs (dn : Fin 8) (ea : Ea)
  /-- R312 -/
  | sbcd (x : Fin 8) (form : RegMem) (y : Fin 8)
  -- line 9
  /-- R236, `SUB <ea>,Dn` -/
  | subEaDn (dn : Fin 8) (sz : Size) (ea : Ea)
  /-- R236, `SUB Dn,<ea>` -/
  | subDnEa (dn : Fin 8) (sz : Size) (ea : Ea)
  /-- R237 -/
  | suba (an : Fin 8) (sz : Size) (ea : Ea)
  /-- R240 -/
  | subx (x : Fin 8) (sz : Size) (form : RegMem) (y : Fin 8)
  -- line A
  /-- R362 -/
  | lineA (low : BitVec 12)
  -- line B
  /-- R241 -/
  | cmp (dn : Fin 8) (sz : Size) (ea : Ea)
  /-- R242 -/
  | cmpa (an : Fin 8) (sz : Size) (ea : Ea)
  /-- R275 -/
  | eor (dn : Fin 8) (sz : Size) (ea : Ea)
  /-- R244 -/
  | cmpm (x : Fin 8) (sz : Size) (y : Fin 8)
  -- line C
  /-- R271, `AND <ea>,Dn` -/
  | andEaDn (dn : Fin 8) (sz : Size) (ea : Ea)
  /-- R271, `AND Dn,<ea>` -/
  | andDnEa (dn : Fin 8) (sz : Size) (ea : Ea)
  /-- R250 -/
  | mulu (dn : Fin 8) (ea : Ea)
  /-- R251 -/
  | muls (dn : Fin 8) (ea : Ea)
  /-- R311 -/
  | abcd (x : Fin 8) (form : RegMem) (y : Fin 8)
  /-- R208, `EXG Dx,Dy` -/
  | exgDxDy (x y : Fin 8)
  /-- R208, `EXG Ax,Ay` -/
  | exgAxAy (x y : Fin 8)
  /-- R208, `EXG Dx,Ay` -/
  | exgDxAy (x y : Fin 8)
  -- line D
  /-- R231, `ADD <ea>,Dn` -/
  | addEaDn (dn : Fin 8) (sz : Size) (ea : Ea)
  /-- R231, `ADD Dn,<ea>` -/
  | addDnEa (dn : Fin 8) (sz : Size) (ea : Ea)
  /-- R232 -/
  | adda (an : Fin 8) (sz : Size) (ea : Ea)
  /-- R235 -/
  | addx (x : Fin 8) (sz : Size) (form : RegMem) (y : Fin 8)
  -- line E
  /-- R287, register -/
  | asrReg (k : Fin 8) (sz : Size) (g : CountKind) (y : Fin 8)
  /-- R286, register -/
  | aslReg (k : Fin 8) (sz : Size) (g : CountKind) (y : Fin 8)
  /-- R289, register -/
  | lsrReg (k : Fin 8) (sz : Size) (g : CountKind) (y : Fin 8)
  /-- R288, register -/
  | lslReg (k : Fin 8) (sz : Size) (g : CountKind) (y : Fin 8)
  /-- R293, register -/
  | roxrReg (k : Fin 8) (sz : Size) (g : CountKind) (y : Fin 8)
  /-- R292, register -/
  | roxlReg (k : Fin 8) (sz : Size) (g : CountKind) (y : Fin 8)
  /-- R291, register -/
  | rorReg (k : Fin 8) (sz : Size) (g : CountKind) (y : Fin 8)
  /-- R290, register -/
  | rolReg (k : Fin 8) (sz : Size) (g : CountKind) (y : Fin 8)
  /-- R287, memory -/
  | asrEa (ea : Ea)
  /-- R286, memory -/
  | aslEa (ea : Ea)
  /-- R289, memory -/
  | lsrEa (ea : Ea)
  /-- R288, memory -/
  | lslEa (ea : Ea)
  /-- R293, memory -/
  | roxrEa (ea : Ea)
  /-- R292, memory -/
  | roxlEa (ea : Ea)
  /-- R291, memory -/
  | rorEa (ea : Ea)
  /-- R290, memory -/
  | rolEa (ea : Ea)
  -- line F
  /-- R363 -/
  | lineF (low : BitVec 12)
  deriving DecidableEq, Repr

end Sys2Proof
end

