-- ==== Sys2Proof/Machine/Bits.lean ====
section
/-! DEFINITION. Bit helpers at the three operand sizes (00_scope.md R16, R17) and the bit fields of words. An operand of
any size is held in a Long whose bits above the size are 0. -/

namespace Sys2Proof

/-- `bits(sz)` (R17). -/
def Size.bits : Size → Nat
  | .b => 8
  | .w => 16
  | .l => 32

/-- `bytes(sz)` (R17). -/
def Size.bytes : Size → Nat
  | .b => 1
  | .w => 2
  | .l => 4

/-- `mask(sz)` (R17). -/
def Size.mask : Size → Long
  | .b => 0x000000FF
  | .w => 0x0000FFFF
  | .l => 0xFFFFFFFF

/-- `low(v, sz)` (R17). -/
def low (sz : Size) (v : Long) : Long := v &&& sz.mask

/-- `msb(v, sz)` (R17). -/
def msb (sz : Size) (v : Long) : Bool := v.getLsbD (sz.bits - 1)

/-- `low(v, sz) = 0`. -/
def isZero (sz : Size) (v : Long) : Bool := low sz v == 0

/-- `old` with its low `bits(sz)` bits replaced by those of `new` (`Dw` of R18). -/
def mergeLow (sz : Size) (old new : Long) : Long := (old &&& ~~~sz.mask) ||| (new &&& sz.mask)

/-- `sext_8` (R17). -/
def sext8 (v : Byte) : Long := v.signExtend 32

/-- `sext_16` (R17). -/
def sext16 (v : Word) : Long := v.signExtend 32

/-- The low byte of a long. -/
def lowByte (v : Long) : Byte := v.setWidth 8

/-- The low word of a long. -/
def lowWord (v : Long) : Word := v.setWidth 16

/-- The high word of a long. -/
def highWord (v : Long) : Word := v.extractLsb' 16 16

/-- The low byte of a word, `ext[7:0]`. -/
def wordLowByte (v : Word) : Byte := v.setWidth 8

/-- `hi ++ lo` of two words (R16, R19 Fetch32). -/
def joinWords (hi lo : Word) : Long := hi ++ lo

/-- Sign extension from size `sz` to 32 bits. -/
def sextSize (sz : Size) (v : Long) : Long :=
  match sz with
  | .b => sext8 (lowByte v)
  | .w => sext16 (lowWord v)
  | .l => v

/-- `signed(v, sz)` (R17). -/
def signedVal (sz : Size) (v : Long) : Int := (sextSize sz v).toInt

/-- An odd address (20_memory.md R74: `a[0] = 1`). -/
def isOdd (a : Long) : Bool := a.getLsbD 0

/-- Quick data and immediate shift counts (30_encoding.md R107): `000` means 8. -/
def quickValue (q : Nat) : Nat := if q = 0 then 8 else q

/-- Bits `lo+2..lo` of a word as a register number. -/
def field3 (w : Word) (lo : Nat) : Fin 8 := Fin.ofNat 8 (w.toNat >>> lo)

/-- The two-bit size field in bits 7–6 (30_encoding.md R105); `11` is not a size. -/
def sizeField (w : Word) : Option Size :=
  match (w.toNat >>> 6) % 4 with
  | 0 => some .b
  | 1 => some .w
  | 2 => some .l
  | _ => none

/-- The code of a size in bits 7–6 (R105). -/
def Size.code : Size → Nat
  | .b => 0
  | .w => 1
  | .l => 2

/-- A one-bit size field (R105: 0 = W, 1 = L). -/
def wordLongField (w : Word) (bit : Nat) : Size := if w.getLsbD bit then .l else .w

/-- The code of a one-bit size (R105). -/
def Size.wordLongCode : Size → Nat
  | .l => 1
  | _ => 0

/-- The condition of a four-bit code (41_flag_model.md R180). -/
def Cond.ofCode : Nat → Cond
  | 0 => .t
  | 1 => .f
  | 2 => .hi
  | 3 => .ls
  | 4 => .cc
  | 5 => .cs
  | 6 => .ne
  | 7 => .eq
  | 8 => .vc
  | 9 => .vs
  | 10 => .pl
  | 11 => .mi
  | 12 => .ge
  | 13 => .lt
  | 14 => .gt
  | _ => .le

/-- The four-bit code of a condition (R180). -/
def Cond.code : Cond → Nat
  | .t => 0
  | .f => 1
  | .hi => 2
  | .ls => 3
  | .cc => 4
  | .cs => 5
  | .ne => 6
  | .eq => 7
  | .vc => 8
  | .vs => 9
  | .pl => 10
  | .mi => 11
  | .ge => 12
  | .lt => 13
  | .gt => 14
  | .le => 15

end Sys2Proof
end

