-- ==== Sys2Proof/Machine/EaClass.lean ====
section
/-! DEFINITION. The EA field (30_encoding.md R102), the extension-word counts of the modes (R103) and the EA classes
(R104), each class written as its row of R104. -/

namespace Sys2Proof

/-- The mode names of R102, without a register. -/
inductive EaMode where
  | dn
  | an
  | ind
  | pi
  | pd
  | d16
  | d8x
  | absW
  | absL
  | pc16
  | pc8x
  | imm
  deriving DecidableEq, Repr

/-- The mode of an operand. -/
def Ea.mode : Ea → EaMode
  | .dn _ => .dn
  | .an _ => .an
  | .ind _ => .ind
  | .pi _ => .pi
  | .pd _ => .pd
  | .d16 _ => .d16
  | .d8x _ => .d8x
  | .absW => .absW
  | .absL => .absL
  | .pc16 => .pc16
  | .pc8x => .pc8x
  | .imm => .imm

/-- The EA named by a mode field and a register field (R102); `111/101`, `111/110` and `111/111` name none. -/
def Ea.ofFields (mode reg : Fin 8) : Option Ea :=
  match mode.val with
  | 0 => some (.dn reg)
  | 1 => some (.an reg)
  | 2 => some (.ind reg)
  | 3 => some (.pi reg)
  | 4 => some (.pd reg)
  | 5 => some (.d16 reg)
  | 6 => some (.d8x reg)
  | _ =>
    match reg.val with
    | 0 => some .absW
    | 1 => some .absL
    | 2 => some .pc16
    | 3 => some .pc8x
    | 4 => some .imm
    | _ => none

/-- The mode field of an EA (R102). -/
def Ea.modeCode : Ea → Nat
  | .dn _ => 0
  | .an _ => 1
  | .ind _ => 2
  | .pi _ => 3
  | .pd _ => 4
  | .d16 _ => 5
  | .d8x _ => 6
  | _ => 7

/-- The register field of an EA (R102). -/
def Ea.regCode : Ea → Nat
  | .dn n => n.val
  | .an n => n.val
  | .ind n => n.val
  | .pi n => n.val
  | .pd n => n.val
  | .d16 n => n.val
  | .d8x n => n.val
  | .absW => 0
  | .absL => 1
  | .pc16 => 2
  | .pc8x => 3
  | .imm => 4

/-- Extension words by mode and size (R103). -/
def Ea.extWords (sz : Size) : Ea → Nat
  | .dn _ => 0
  | .an _ => 0
  | .ind _ => 0
  | .pi _ => 0
  | .pd _ => 0
  | .d16 _ => 1
  | .d8x _ => 1
  | .absW => 1
  | .absL => 2
  | .pc16 => 1
  | .pc8x => 1
  | .imm => match sz with
    | .b => 1
    | .w => 1
    | .l => 2

/-- The class names of R104. `alterableNoAnIfByte` is the constraint of ADDQ and SUBQ in R110. -/
inductive EaClass where
  | all
  | data
  | memory
  | control
  | alterable
  | dataAlterable
  | memoryAlterable
  | controlAlterable
  | dataNoImm
  | movemToMem
  | movemToReg
  | allNoAnIfByte
  | alterableNoAnIfByte
  deriving DecidableEq, Repr

/-- The modes of a class (R104); the last two lose An when the size is B. -/
def EaClass.modes (sz : Size) : EaClass → List EaMode
  | .all => [.dn, .an, .ind, .pi, .pd, .d16, .d8x, .absW, .absL, .pc16, .pc8x, .imm]
  | .data => [.dn, .ind, .pi, .pd, .d16, .d8x, .absW, .absL, .pc16, .pc8x, .imm]
  | .memory => [.ind, .pi, .pd, .d16, .d8x, .absW, .absL, .pc16, .pc8x, .imm]
  | .control => [.ind, .d16, .d8x, .absW, .absL, .pc16, .pc8x]
  | .alterable => [.dn, .an, .ind, .pi, .pd, .d16, .d8x, .absW, .absL]
  | .dataAlterable => [.dn, .ind, .pi, .pd, .d16, .d8x, .absW, .absL]
  | .memoryAlterable => [.ind, .pi, .pd, .d16, .d8x, .absW, .absL]
  | .controlAlterable => [.ind, .d16, .d8x, .absW, .absL]
  | .dataNoImm => [.dn, .ind, .pi, .pd, .d16, .d8x, .absW, .absL, .pc16, .pc8x]
  | .movemToMem => [.ind, .pd, .d16, .d8x, .absW, .absL]
  | .movemToReg => [.ind, .pi, .d16, .d8x, .absW, .absL, .pc16, .pc8x]
  | .allNoAnIfByte => match sz with
    | .b => [.dn, .ind, .pi, .pd, .d16, .d8x, .absW, .absL, .pc16, .pc8x, .imm]
    | _ => [.dn, .an, .ind, .pi, .pd, .d16, .d8x, .absW, .absL, .pc16, .pc8x, .imm]
  | .alterableNoAnIfByte => match sz with
    | .b => [.dn, .ind, .pi, .pd, .d16, .d8x, .absW, .absL]
    | _ => [.dn, .an, .ind, .pi, .pd, .d16, .d8x, .absW, .absL]

/-- Whether a class admits an EA at a size (R104). -/
def EaClass.admits (c : EaClass) (sz : Size) (ea : Ea) : Bool := (c.modes sz).contains ea.mode

end Sys2Proof
end

