-- ==== Sys2Proof/WellFormed.lean ====
section
/-! DEFINITION. Which instruction terms an encoding of 30_encoding.md R110 has: the class and size constraints of its
rows. Decode yields only these, and encode is meant for these. -/

namespace Sys2Proof

/-- A size that is W or L (R105). -/
def Size.isWordLong : Size → Bool
  | .b => false
  | .w => true
  | .l => true

/-- A condition that Bcc takes (R109, R110: not 0000, not 0001). -/
def Cond.isBranch : Cond → Bool
  | .t => false
  | .f => false
  | _ => true

/-- The constraint column of R110, row by row. -/
def Instr.wellFormed : Instr → Bool
  | .oriToCcr => true
  | .oriToSr => true
  | .ori sz ea => EaClass.dataAlterable.admits sz ea
  | .andiToCcr => true
  | .andiToSr => true
  | .andi sz ea => EaClass.dataAlterable.admits sz ea
  | .subi sz ea => EaClass.dataAlterable.admits sz ea
  | .addi sz ea => EaClass.dataAlterable.admits sz ea
  | .btstImm ea => EaClass.dataNoImm.admits .b ea
  | .bchgImm ea => EaClass.dataAlterable.admits .b ea
  | .bclrImm ea => EaClass.dataAlterable.admits .b ea
  | .bsetImm ea => EaClass.dataAlterable.admits .b ea
  | .eoriToCcr => true
  | .eoriToSr => true
  | .eori sz ea => EaClass.dataAlterable.admits sz ea
  | .cmpi sz ea => EaClass.dataAlterable.admits sz ea
  | .moves sz ea => EaClass.memoryAlterable.admits sz ea
  | .btstReg _ ea => EaClass.data.admits .b ea
  | .bchgReg _ ea => EaClass.dataAlterable.admits .b ea
  | .bclrReg _ ea => EaClass.dataAlterable.admits .b ea
  | .bsetReg _ ea => EaClass.dataAlterable.admits .b ea
  | .movep _ _ sz _ => sz.isWordLong
  | .moveB src dst => EaClass.data.admits .b src && EaClass.dataAlterable.admits .b dst
  | .moveW src dst => EaClass.all.admits .w src && EaClass.dataAlterable.admits .w dst
  | .moveL src dst => EaClass.all.admits .l src && EaClass.dataAlterable.admits .l dst
  | .moveaW _ src => EaClass.all.admits .w src
  | .moveaL _ src => EaClass.all.admits .l src
  | .negx sz ea => EaClass.dataAlterable.admits sz ea
  | .moveFromSr ea => EaClass.dataAlterable.admits .w ea
  | .chk _ ea => EaClass.data.admits .w ea
  | .lea _ ea => EaClass.control.admits .l ea
  | .clr sz ea => EaClass.dataAlterable.admits sz ea
  | .moveFromCcr ea => EaClass.dataAlterable.admits .w ea
  | .neg sz ea => EaClass.dataAlterable.admits sz ea
  | .moveToCcr ea => EaClass.data.admits .w ea
  | .notOp sz ea => EaClass.dataAlterable.admits sz ea
  | .moveToSr ea => EaClass.data.admits .w ea
  | .nbcd ea => EaClass.dataAlterable.admits .b ea
  | .swap _ => true
  | .bkpt _ => true
  | .pea ea => EaClass.control.admits .l ea
  | .extW _ => true
  | .extL _ => true
  | .movemToMem sz ea => sz.isWordLong && EaClass.movemToMem.admits sz ea
  | .tst sz ea => EaClass.dataAlterable.admits sz ea
  | .tas ea => EaClass.dataAlterable.admits .b ea
  | .illegal => true
  | .movemToRegs sz ea => sz.isWordLong && EaClass.movemToReg.admits sz ea
  | .trap _ => true
  | .link _ => true
  | .unlk _ => true
  | .moveAnUsp _ => true
  | .moveUspAn _ => true
  | .reset => true
  | .nop => true
  | .stop => true
  | .rte => true
  | .rtd => true
  | .rts => true
  | .trapv => true
  | .rtr => true
  | .movecRcRn => true
  | .movecRnRc => true
  | .jsr ea => EaClass.control.admits .l ea
  | .jmp ea => EaClass.control.admits .l ea
  | .addq _ sz ea => EaClass.alterableNoAnIfByte.admits sz ea
  | .subq _ sz ea => EaClass.alterableNoAnIfByte.admits sz ea
  | .dbcc _ _ => true
  | .scc _ ea => EaClass.dataAlterable.admits .b ea
  | .bra _ => true
  | .bsr _ => true
  | .bcc c _ => c.isBranch
  | .moveq _ _ => true
  | .orEaDn _ sz ea => EaClass.data.admits sz ea
  | .orDnEa _ sz ea => EaClass.memoryAlterable.admits sz ea
  | .divu _ ea => EaClass.data.admits .w ea
  | .divs _ ea => EaClass.data.admits .w ea
  | .sbcd _ _ _ => true
  | .subEaDn _ sz ea => EaClass.allNoAnIfByte.admits sz ea
  | .subDnEa _ sz ea => EaClass.memoryAlterable.admits sz ea
  | .suba _ sz ea => sz.isWordLong && EaClass.all.admits sz ea
  | .subx _ _ _ _ => true
  | .lineA _ => true
  | .cmp _ sz ea => EaClass.allNoAnIfByte.admits sz ea
  | .cmpa _ sz ea => sz.isWordLong && EaClass.all.admits sz ea
  | .eor _ sz ea => EaClass.dataAlterable.admits sz ea
  | .cmpm _ _ _ => true
  | .andEaDn _ sz ea => EaClass.data.admits sz ea
  | .andDnEa _ sz ea => EaClass.memoryAlterable.admits sz ea
  | .mulu _ ea => EaClass.data.admits .w ea
  | .muls _ ea => EaClass.data.admits .w ea
  | .abcd _ _ _ => true
  | .exgDxDy _ _ => true
  | .exgAxAy _ _ => true
  | .exgDxAy _ _ => true
  | .addEaDn _ sz ea => EaClass.allNoAnIfByte.admits sz ea
  | .addDnEa _ sz ea => EaClass.memoryAlterable.admits sz ea
  | .adda _ sz ea => sz.isWordLong && EaClass.all.admits sz ea
  | .addx _ _ _ _ => true
  | .asrReg _ _ _ _ => true
  | .aslReg _ _ _ _ => true
  | .lsrReg _ _ _ _ => true
  | .lslReg _ _ _ _ => true
  | .roxrReg _ _ _ _ => true
  | .roxlReg _ _ _ _ => true
  | .rorReg _ _ _ _ => true
  | .rolReg _ _ _ _ => true
  | .asrEa ea => EaClass.memoryAlterable.admits .w ea
  | .aslEa ea => EaClass.memoryAlterable.admits .w ea
  | .lsrEa ea => EaClass.memoryAlterable.admits .w ea
  | .lslEa ea => EaClass.memoryAlterable.admits .w ea
  | .roxrEa ea => EaClass.memoryAlterable.admits .w ea
  | .roxlEa ea => EaClass.memoryAlterable.admits .w ea
  | .rorEa ea => EaClass.memoryAlterable.admits .w ea
  | .rolEa ea => EaClass.memoryAlterable.admits .w ea
  | .lineF _ => true

end Sys2Proof
end

