-- ==== Sys2Proof/Decode.lean ====
section
/-! DEFINITION. Decode (30_encoding.md R101, R110, R111, R112) as the opcode map's rows, line by line; the reader of an
instruction's bytes; the length of an instruction (R115); and encode, from the same map. -/

namespace Sys2Proof

/-- A row of R110: the table's mnemonic, the mask of its fixed bits, their values, and how its fields make an
instruction, or not when a constraint of the row fails (R111 conditions 2 and 3). -/
structure OpRow where
  name : String
  mask : Nat
  pat : Nat
  build : Word → Option Instr

/-- The instruction a row takes a word for (R111 conditions 1 to 3). -/
def OpRow.decode (r : OpRow) (w : Word) : Option Instr :=
  if w.toNat &&& r.mask = r.pat then r.build w else none

/-- The Rx field, bits 11–9 (R108). -/
def rxField (w : Word) : Fin 8 := field3 w 9

/-- The Ry field, bits 2–0 (R108). -/
def ryField (w : Word) : Fin 8 := field3 w 0

/-- The standard EA field, bits 5–0, if a class admits it at a size (R102, R104). -/
def eaField (c : EaClass) (sz : Size) (w : Word) : Option Ea :=
  (Ea.ofFields (field3 w 3) (field3 w 0)).filter (c.admits sz)

/-- MOVE's destination EA field: mode in bits 8–6, register in bits 11–9 (R102). -/
def destField (c : EaClass) (sz : Size) (w : Word) : Option Ea :=
  (Ea.ofFields (field3 w 6) (field3 w 9)).filter (c.admits sz)

/-- A row with no fields. -/
def fixedRow (i : Instr) (_ : Word) : Option Instr := some i

/-- A row with an EA at one size. -/
def eaRow (c : EaClass) (sz : Size) (mk : Ea → Instr) (w : Word) : Option Instr := (eaField c sz w).map mk

/-- A row with a two-bit size and an EA. -/
def sizeEaRow (c : EaClass) (mk : Size → Ea → Instr) (w : Word) : Option Instr :=
  (sizeField w).bind fun sz => (eaField c sz w).map (mk sz)

/-- A row with Rx and an EA at one size. -/
def regEaRow (c : EaClass) (sz : Size) (mk : Fin 8 → Ea → Instr) (w : Word) : Option Instr :=
  (eaField c sz w).map (mk (rxField w))

/-- A row with Rx, a two-bit size and an EA. -/
def regSizeEaRow (c : EaClass) (mk : Fin 8 → Size → Ea → Instr) (w : Word) : Option Instr :=
  (sizeField w).bind fun sz => (eaField c sz w).map (mk (rxField w) sz)

/-- ADDA, SUBA, CMPA: Rx, the size in bit 8 (R105) and any EA. -/
def addrRow (mk : Fin 8 → Size → Ea → Instr) (w : Word) : Option Instr :=
  (eaField .all (wordLongField w 8) w).map (mk (rxField w) (wordLongField w 8))

/-- MOVEM: the size in bit 6 (R105) and an EA. -/
def movemRow (c : EaClass) (mk : Size → Ea → Instr) (w : Word) : Option Instr :=
  (eaField c (wordLongField w 6) w).map (mk (wordLongField w 6))

/-- MOVE: a source of the given class and a data alterable destination (R110). -/
def moveRow (src : EaClass) (sz : Size) (mk : Ea → Ea → Instr) (w : Word) : Option Instr :=
  (eaField src sz w).bind fun s => (destField .dataAlterable sz w).map (mk s)

/-- A row with Ry alone. -/
def ryRow (mk : Fin 8 → Instr) (w : Word) : Option Instr := some (mk (ryField w))

/-- EXG: Rx and Ry. -/
def rxRyRow (mk : Fin 8 → Fin 8 → Instr) (w : Word) : Option Instr := some (mk (rxField w) (ryField w))

/-- The R/M bit, bit 3 (R108). -/
def rmField (w : Word) : RegMem := if w.getLsbD 3 then .mem else .reg

/-- ABCD and SBCD (R108). -/
def rmRow (mk : Fin 8 → RegMem → Fin 8 → Instr) (w : Word) : Option Instr :=
  some (mk (rxField w) (rmField w) (ryField w))

/-- ADDX and SUBX (R108). -/
def extendRow (mk : Fin 8 → Size → RegMem → Fin 8 → Instr) (w : Word) : Option Instr :=
  (sizeField w).map fun sz => mk (rxField w) sz (rmField w) (ryField w)

/-- CMPM (R108). -/
def cmpmRow (w : Word) : Option Instr := (sizeField w).map fun sz => .cmpm (rxField w) sz (ryField w)

/-- MOVEP: bit 7 is the direction, bit 6 the size (R205). -/
def movepRow (w : Word) : Option Instr :=
  some (.movep (rxField w) (if w.getLsbD 7 then .regToMem else .memToReg) (wordLongField w 6) (ryField w))

/-- BKPT: bits 2–0 (R107). -/
def bkptRow (w : Word) : Option Instr := some (.bkpt (w.setWidth 3))

/-- TRAP: bits 3–0 (R107). -/
def trapRow (w : Word) : Option Instr := some (.trap (w.setWidth 4))

/-- ADDQ and SUBQ: the quick field in bits 11–9 (R107). -/
def quickRow (mk : BitVec 3 → Size → Ea → Instr) (w : Word) : Option Instr :=
  (sizeField w).bind fun sz => (eaField .alterableNoAnIfByte sz w).map (mk (w.extractLsb' 9 3) sz)

/-- The condition field, bits 11–8 (R109). -/
def condField (w : Word) : Cond := Cond.ofCode ((w.toNat >>> 8) % 16)

/-- DBcc: the condition and Ry. -/
def dbccRow (w : Word) : Option Instr := some (.dbcc (condField w) (ryField w))

/-- Scc: the condition and a data alterable byte. -/
def sccRow (w : Word) : Option Instr := (eaField .dataAlterable .b w).map (.scc (condField w))

/-- BRA and BSR: the 8-bit displacement. -/
def dispRow (mk : Byte → Instr) (w : Word) : Option Instr := some (mk (wordLowByte w))

/-- Bcc: a condition other than 0000 and 0001, and the 8-bit displacement. -/
def bccRow (w : Word) : Option Instr :=
  if (condField w).isBranch then some (.bcc (condField w) (wordLowByte w)) else none

/-- MOVEQ: Rx and the data byte. -/
def moveqRow (w : Word) : Option Instr := some (.moveq (rxField w) (wordLowByte w))

/-- The register shifts: the count field, the size, the count type in bit 5, Ry (R285). -/
def shiftRow (mk : Fin 8 → Size → CountKind → Fin 8 → Instr) (w : Word) : Option Instr :=
  (sizeField w).map fun sz => mk (rxField w) sz (if w.getLsbD 5 then .register else .immediate) (ryField w)

/-- Lines A and F: the low twelve bits are not examined (R362, R363). -/
def emulatorRow (mk : BitVec 12 → Instr) (w : Word) : Option Instr := some (mk (w.setWidth 12))

/-- Line 0 of R110. -/
def line0Rows : List OpRow :=
  [ ⟨"ORI_to_CCR", 0xFFFF, 0x003C, fixedRow .oriToCcr⟩
  , ⟨"ORI_to_SR", 0xFFFF, 0x007C, fixedRow .oriToSr⟩
  , ⟨"ORI", 0xFF00, 0x0000, sizeEaRow .dataAlterable .ori⟩
  , ⟨"ANDI_to_CCR", 0xFFFF, 0x023C, fixedRow .andiToCcr⟩
  , ⟨"ANDI_to_SR", 0xFFFF, 0x027C, fixedRow .andiToSr⟩
  , ⟨"ANDI", 0xFF00, 0x0200, sizeEaRow .dataAlterable .andi⟩
  , ⟨"SUBI", 0xFF00, 0x0400, sizeEaRow .dataAlterable .subi⟩
  , ⟨"ADDI", 0xFF00, 0x0600, sizeEaRow .dataAlterable .addi⟩
  , ⟨"BTST__n", 0xFFC0, 0x0800, eaRow .dataNoImm .b .btstImm⟩
  , ⟨"BCHG__n", 0xFFC0, 0x0840, eaRow .dataAlterable .b .bchgImm⟩
  , ⟨"BCLR__n", 0xFFC0, 0x0880, eaRow .dataAlterable .b .bclrImm⟩
  , ⟨"BSET__n", 0xFFC0, 0x08C0, eaRow .dataAlterable .b .bsetImm⟩
  , ⟨"EORI_to_CCR", 0xFFFF, 0x0A3C, fixedRow .eoriToCcr⟩
  , ⟨"EORI_to_SR", 0xFFFF, 0x0A7C, fixedRow .eoriToSr⟩
  , ⟨"EORI", 0xFF00, 0x0A00, sizeEaRow .dataAlterable .eori⟩
  , ⟨"CMPI", 0xFF00, 0x0C00, sizeEaRow .dataAlterable .cmpi⟩
  , ⟨"MOVES", 0xFF00, 0x0E00, sizeEaRow .memoryAlterable .moves⟩
  , ⟨"BTST_Dn", 0xF1C0, 0x0100, regEaRow .data .b .btstReg⟩
  , ⟨"BCHG_Dn", 0xF1C0, 0x0140, regEaRow .dataAlterable .b .bchgReg⟩
  , ⟨"BCLR_Dn", 0xF1C0, 0x0180, regEaRow .dataAlterable .b .bclrReg⟩
  , ⟨"BSET_Dn", 0xF1C0, 0x01C0, regEaRow .dataAlterable .b .bsetReg⟩
  , ⟨"MOVEP", 0xF138, 0x0108, movepRow⟩ ]

/-- Line 1 of R110. -/
def line1Rows : List OpRow :=
  [ ⟨"MOVE.B", 0xF000, 0x1000, moveRow .data .b .moveB⟩ ]

/-- Line 2 of R110. -/
def line2Rows : List OpRow :=
  [ ⟨"MOVE.L", 0xF000, 0x2000, moveRow .all .l .moveL⟩
  , ⟨"MOVEA.L", 0xF1C0, 0x2040, regEaRow .all .l .moveaL⟩ ]

/-- Line 3 of R110. -/
def line3Rows : List OpRow :=
  [ ⟨"MOVE.W", 0xF000, 0x3000, moveRow .all .w .moveW⟩
  , ⟨"MOVEA.W", 0xF1C0, 0x3040, regEaRow .all .w .moveaW⟩ ]

/-- Line 4 of R110. -/
def line4Rows : List OpRow :=
  [ ⟨"NEGX", 0xFF00, 0x4000, sizeEaRow .dataAlterable .negx⟩
  , ⟨"MOVE_from_SR", 0xFFC0, 0x40C0, eaRow .dataAlterable .w .moveFromSr⟩
  , ⟨"CHK", 0xF1C0, 0x4180, regEaRow .data .w .chk⟩
  , ⟨"LEA", 0xF1C0, 0x41C0, regEaRow .control .l .lea⟩
  , ⟨"CLR", 0xFF00, 0x4200, sizeEaRow .dataAlterable .clr⟩
  , ⟨"MOVE_from_CCR", 0xFFC0, 0x42C0, eaRow .dataAlterable .w .moveFromCcr⟩
  , ⟨"NEG", 0xFF00, 0x4400, sizeEaRow .dataAlterable .neg⟩
  , ⟨"MOVE_to_CCR", 0xFFC0, 0x44C0, eaRow .data .w .moveToCcr⟩
  , ⟨"NOT", 0xFF00, 0x4600, sizeEaRow .dataAlterable .notOp⟩
  , ⟨"MOVE_to_SR", 0xFFC0, 0x46C0, eaRow .data .w .moveToSr⟩
  , ⟨"NBCD", 0xFFC0, 0x4800, eaRow .dataAlterable .b .nbcd⟩
  , ⟨"SWAP", 0xFFF8, 0x4840, ryRow .swap⟩
  , ⟨"BKPT", 0xFFF8, 0x4848, bkptRow⟩
  , ⟨"PEA", 0xFFC0, 0x4840, eaRow .control .l .pea⟩
  , ⟨"EXT.W", 0xFFF8, 0x4880, ryRow .extW⟩
  , ⟨"EXT.L", 0xFFF8, 0x48C0, ryRow .extL⟩
  , ⟨"MOVEM_regs_mem", 0xFF80, 0x4880, movemRow .movemToMem .movemToMem⟩
  , ⟨"TST", 0xFF00, 0x4A00, sizeEaRow .dataAlterable .tst⟩
  , ⟨"TAS", 0xFFC0, 0x4AC0, eaRow .dataAlterable .b .tas⟩
  , ⟨"ILLEGAL", 0xFFFF, 0x4AFC, fixedRow .illegal⟩
  , ⟨"MOVEM_mem_regs", 0xFF80, 0x4C80, movemRow .movemToReg .movemToRegs⟩
  , ⟨"TRAP", 0xFFF0, 0x4E40, trapRow⟩
  , ⟨"LINK", 0xFFF8, 0x4E50, ryRow .link⟩
  , ⟨"UNLK", 0xFFF8, 0x4E58, ryRow .unlk⟩
  , ⟨"MOVE_An_USP", 0xFFF8, 0x4E60, ryRow .moveAnUsp⟩
  , ⟨"MOVE_USP_An", 0xFFF8, 0x4E68, ryRow .moveUspAn⟩
  , ⟨"RESET", 0xFFFF, 0x4E70, fixedRow .reset⟩
  , ⟨"NOP", 0xFFFF, 0x4E71, fixedRow .nop⟩
  , ⟨"STOP", 0xFFFF, 0x4E72, fixedRow .stop⟩
  , ⟨"RTE", 0xFFFF, 0x4E73, fixedRow .rte⟩
  , ⟨"RTD", 0xFFFF, 0x4E74, fixedRow .rtd⟩
  , ⟨"RTS", 0xFFFF, 0x4E75, fixedRow .rts⟩
  , ⟨"TRAPV", 0xFFFF, 0x4E76, fixedRow .trapv⟩
  , ⟨"RTR", 0xFFFF, 0x4E77, fixedRow .rtr⟩
  , ⟨"MOVEC_Rc_Rn", 0xFFFF, 0x4E7A, fixedRow .movecRcRn⟩
  , ⟨"MOVEC_Rn_Rc", 0xFFFF, 0x4E7B, fixedRow .movecRnRc⟩
  , ⟨"JSR", 0xFFC0, 0x4E80, eaRow .control .l .jsr⟩
  , ⟨"JMP", 0xFFC0, 0x4EC0, eaRow .control .l .jmp⟩ ]

/-- Line 5 of R110. -/
def line5Rows : List OpRow :=
  [ ⟨"ADDQ", 0xF100, 0x5000, quickRow .addq⟩
  , ⟨"SUBQ", 0xF100, 0x5100, quickRow .subq⟩
  , ⟨"DBcc", 0xF0F8, 0x50C8, dbccRow⟩
  , ⟨"Scc", 0xF0C0, 0x50C0, sccRow⟩ ]

/-- Line 6 of R110. -/
def line6Rows : List OpRow :=
  [ ⟨"BRA", 0xFF00, 0x6000, dispRow .bra⟩
  , ⟨"BSR", 0xFF00, 0x6100, dispRow .bsr⟩
  , ⟨"Bcc", 0xF000, 0x6000, bccRow⟩ ]

/-- Line 7 of R110. -/
def line7Rows : List OpRow :=
  [ ⟨"MOVEQ", 0xF100, 0x7000, moveqRow⟩ ]

/-- Line 8 of R110. -/
def line8Rows : List OpRow :=
  [ ⟨"OR__ea__Dn", 0xF100, 0x8000, regSizeEaRow .data .orEaDn⟩
  , ⟨"OR_Dn__ea", 0xF100, 0x8100, regSizeEaRow .memoryAlterable .orDnEa⟩
  , ⟨"DIVU", 0xF1C0, 0x80C0, regEaRow .data .w .divu⟩
  , ⟨"DIVS", 0xF1C0, 0x81C0, regEaRow .data .w .divs⟩
  , ⟨"SBCD", 0xF1F0, 0x8100, rmRow .sbcd⟩ ]

/-- Line 9 of R110. -/
def line9Rows : List OpRow :=
  [ ⟨"SUB__ea__Dn", 0xF100, 0x9000, regSizeEaRow .allNoAnIfByte .subEaDn⟩
  , ⟨"SUB_Dn__ea", 0xF100, 0x9100, regSizeEaRow .memoryAlterable .subDnEa⟩
  , ⟨"SUBA", 0xF0C0, 0x90C0, addrRow .suba⟩
  , ⟨"SUBX", 0xF130, 0x9100, extendRow .subx⟩ ]

/-- Line A of R110. -/
def lineARows : List OpRow :=
  [ ⟨"line_1010_emulator", 0xF000, 0xA000, emulatorRow .lineA⟩ ]

/-- Line B of R110. -/
def lineBRows : List OpRow :=
  [ ⟨"CMP", 0xF100, 0xB000, regSizeEaRow .allNoAnIfByte .cmp⟩
  , ⟨"CMPA", 0xF0C0, 0xB0C0, addrRow .cmpa⟩
  , ⟨"EOR", 0xF100, 0xB100, regSizeEaRow .dataAlterable .eor⟩
  , ⟨"CMPM", 0xF138, 0xB108, cmpmRow⟩ ]

/-- Line C of R110. -/
def lineCRows : List OpRow :=
  [ ⟨"AND__ea__Dn", 0xF100, 0xC000, regSizeEaRow .data .andEaDn⟩
  , ⟨"AND_Dn__ea", 0xF100, 0xC100, regSizeEaRow .memoryAlterable .andDnEa⟩
  , ⟨"MULU", 0xF1C0, 0xC0C0, regEaRow .data .w .mulu⟩
  , ⟨"MULS", 0xF1C0, 0xC1C0, regEaRow .data .w .muls⟩
  , ⟨"ABCD", 0xF1F0, 0xC100, rmRow .abcd⟩
  , ⟨"EXG_Dx_Dy", 0xF1F8, 0xC140, rxRyRow .exgDxDy⟩
  , ⟨"EXG_Ax_Ay", 0xF1F8, 0xC148, rxRyRow .exgAxAy⟩
  , ⟨"EXG_Dx_Ay", 0xF1F8, 0xC188, rxRyRow .exgDxAy⟩ ]

/-- Line D of R110. -/
def lineDRows : List OpRow :=
  [ ⟨"ADD__ea__Dn", 0xF100, 0xD000, regSizeEaRow .allNoAnIfByte .addEaDn⟩
  , ⟨"ADD_Dn__ea", 0xF100, 0xD100, regSizeEaRow .memoryAlterable .addDnEa⟩
  , ⟨"ADDA", 0xF0C0, 0xD0C0, addrRow .adda⟩
  , ⟨"ADDX", 0xF130, 0xD100, extendRow .addx⟩ ]

/-- Line E of R110. -/
def lineERows : List OpRow :=
  [ ⟨"ASR_reg", 0xF118, 0xE000, shiftRow .asrReg⟩
  , ⟨"ASL_reg", 0xF118, 0xE100, shiftRow .aslReg⟩
  , ⟨"LSR_reg", 0xF118, 0xE008, shiftRow .lsrReg⟩
  , ⟨"LSL_reg", 0xF118, 0xE108, shiftRow .lslReg⟩
  , ⟨"ROXR_reg", 0xF118, 0xE010, shiftRow .roxrReg⟩
  , ⟨"ROXL_reg", 0xF118, 0xE110, shiftRow .roxlReg⟩
  , ⟨"ROR_reg", 0xF118, 0xE018, shiftRow .rorReg⟩
  , ⟨"ROL_reg", 0xF118, 0xE118, shiftRow .rolReg⟩
  , ⟨"ASR__ea", 0xFFC0, 0xE0C0, eaRow .memoryAlterable .w .asrEa⟩
  , ⟨"ASL__ea", 0xFFC0, 0xE1C0, eaRow .memoryAlterable .w .aslEa⟩
  , ⟨"LSR__ea", 0xFFC0, 0xE2C0, eaRow .memoryAlterable .w .lsrEa⟩
  , ⟨"LSL__ea", 0xFFC0, 0xE3C0, eaRow .memoryAlterable .w .lslEa⟩
  , ⟨"ROXR__ea", 0xFFC0, 0xE4C0, eaRow .memoryAlterable .w .roxrEa⟩
  , ⟨"ROXL__ea", 0xFFC0, 0xE5C0, eaRow .memoryAlterable .w .roxlEa⟩
  , ⟨"ROR__ea", 0xFFC0, 0xE6C0, eaRow .memoryAlterable .w .rorEa⟩
  , ⟨"ROL__ea", 0xFFC0, 0xE7C0, eaRow .memoryAlterable .w .rolEa⟩ ]

/-- Line F of R110. -/
def lineFRows : List OpRow :=
  [ ⟨"line_1111_emulator", 0xF000, 0xF000, emulatorRow .lineF⟩ ]
/-- The rows of one line, bits 15–12 of the operation word (R101). -/
def lineRows : Nat → List OpRow
  | 0 => line0Rows
  | 1 => line1Rows
  | 2 => line2Rows
  | 3 => line3Rows
  | 4 => line4Rows
  | 5 => line5Rows
  | 6 => line6Rows
  | 7 => line7Rows
  | 8 => line8Rows
  | 9 => line9Rows
  | 10 => lineARows
  | 11 => lineBRows
  | 12 => lineCRows
  | 13 => lineDRows
  | 14 => lineERows
  | _ => lineFRows

/-- The line of a word: its bits 15–12 (R101). -/
def lineOf (w : Word) : Nat := w.toNat >>> 12

/-- The instruction of an operation word, or none when no row takes it (R111, R112). It is the decode of R111 for the
variant that has every row; a row the variant lacks is refused by the instruction's own meaning, which raises the same
illegal-instruction exception (R112, 90_conflicts.md C9; log 12). -/
def decodeWord (w : Word) : Option Instr := (lineRows (lineOf w)).findSome? fun r => r.decode w

/-- The rows that exist on M68010 only (R110 column var). -/
def Instr.m68010Only : Instr → Bool
  | .moves _ _ => true
  | .moveFromCcr _ => true
  | .bkpt _ => true
  | .rtd => true
  | .movecRcRn => true
  | .movecRnRc => true
  | _ => false

/-- `decode(w, V)` of R111, with its condition 4. -/
def decodeFor (v : Variant) (w : Word) : Option Instr :=
  (decodeWord w).filter fun i => v == .m68010 || !i.m68010Only

/-- Why a list of bytes is no instruction. -/
inductive DecodeError where
  /-- Fewer bytes than an operation word. -/
  | tooShort
  /-- No row of R110 takes the word (R112). -/
  | illegal (w : Word)
  deriving DecidableEq, Repr

/-- The operation word of two bytes, most significant first (20_memory.md R73). -/
def wordOfBytes (hi lo : Byte) : Word := hi ++ lo

/-- The two bytes of a word, most significant first (R73). -/
def bytesOfWord (w : Word) : List Byte := [w.extractLsb' 8 8, w.setWidth 8]

/-- The instruction at the head of a list of bytes with the bytes after its operation word, where its extension words
begin (R100). -/
def decode : List Byte → Except DecodeError (Instr × List Byte)
  | hi :: lo :: rest =>
    match decodeWord (wordOfBytes hi lo) with
    | some i => .ok (i, rest)
    | none => .error (.illegal (wordOfBytes hi lo))
  | _ => .error .tooShort

/-- The operation word of an instruction given by the opcode table's numbering: bits 15–0 of its first `nbits`. -/
def tableWord (nbits w : Nat) : Word := BitVec.ofNat 16 (w % 2 ^ nbits)

/-- The decoder on a table word, laid out as the hardware stores it. -/
def decodeTableWord (nbits w : Nat) : Option Instr :=
  match decode (bytesOfWord (tableWord nbits w)) with
  | .ok (i, _) => some i
  | .error _ => none

/-- The words of an immediate operand (R107, R115). -/
def immWords : Size → Nat
  | .b => 1
  | .w => 1
  | .l => 2

/-- The displacement word of BRA, BSR and Bcc (R115: exactly when bits 7–0 are 0). -/
def dispWords (d8 : Byte) : Nat := if d8 = 0 then 1 else 0

/-- The number of extension words of an instruction (R100, R103, R115). -/
def Instr.extWords : Instr → Nat
  | .oriToCcr => 1
  | .oriToSr => 1
  | .ori sz ea => immWords sz + ea.extWords sz
  | .andiToCcr => 1
  | .andiToSr => 1
  | .andi sz ea => immWords sz + ea.extWords sz
  | .subi sz ea => immWords sz + ea.extWords sz
  | .addi sz ea => immWords sz + ea.extWords sz
  | .btstImm ea => 1 + ea.extWords .b
  | .bchgImm ea => 1 + ea.extWords .b
  | .bclrImm ea => 1 + ea.extWords .b
  | .bsetImm ea => 1 + ea.extWords .b
  | .eoriToCcr => 1
  | .eoriToSr => 1
  | .eori sz ea => immWords sz + ea.extWords sz
  | .cmpi sz ea => immWords sz + ea.extWords sz
  | .moves sz ea => 1 + ea.extWords sz
  | .btstReg _ ea => ea.extWords .b
  | .bchgReg _ ea => ea.extWords .b
  | .bclrReg _ ea => ea.extWords .b
  | .bsetReg _ ea => ea.extWords .b
  | .movep _ _ _ _ => 1
  | .moveB src dst => src.extWords .b + dst.extWords .b
  | .moveW src dst => src.extWords .w + dst.extWords .w
  | .moveL src dst => src.extWords .l + dst.extWords .l
  | .moveaW _ src => src.extWords .w
  | .moveaL _ src => src.extWords .l
  | .negx sz ea => ea.extWords sz
  | .moveFromSr ea => ea.extWords .w
  | .chk _ ea => ea.extWords .w
  | .lea _ ea => ea.extWords .l
  | .clr sz ea => ea.extWords sz
  | .moveFromCcr ea => ea.extWords .w
  | .neg sz ea => ea.extWords sz
  | .moveToCcr ea => ea.extWords .w
  | .notOp sz ea => ea.extWords sz
  | .moveToSr ea => ea.extWords .w
  | .nbcd ea => ea.extWords .b
  | .swap _ => 0
  | .bkpt _ => 0
  | .pea ea => ea.extWords .l
  | .extW _ => 0
  | .extL _ => 0
  | .movemToMem sz ea => 1 + ea.extWords sz
  | .tst sz ea => ea.extWords sz
  | .tas ea => ea.extWords .b
  | .illegal => 0
  | .movemToRegs sz ea => 1 + ea.extWords sz
  | .trap _ => 0
  | .link _ => 1
  | .unlk _ => 0
  | .moveAnUsp _ => 0
  | .moveUspAn _ => 0
  | .reset => 0
  | .nop => 0
  | .stop => 1
  | .rte => 0
  | .rtd => 1
  | .rts => 0
  | .trapv => 0
  | .rtr => 0
  | .movecRcRn => 1
  | .movecRnRc => 1
  | .jsr ea => ea.extWords .l
  | .jmp ea => ea.extWords .l
  | .addq _ sz ea => ea.extWords sz
  | .subq _ sz ea => ea.extWords sz
  | .dbcc _ _ => 1
  | .scc _ ea => ea.extWords .b
  | .bra d8 => dispWords d8
  | .bsr d8 => dispWords d8
  | .bcc _ d8 => dispWords d8
  | .moveq _ _ => 0
  | .orEaDn _ sz ea => ea.extWords sz
  | .orDnEa _ sz ea => ea.extWords sz
  | .divu _ ea => ea.extWords .w
  | .divs _ ea => ea.extWords .w
  | .sbcd _ _ _ => 0
  | .subEaDn _ sz ea => ea.extWords sz
  | .subDnEa _ sz ea => ea.extWords sz
  | .suba _ sz ea => ea.extWords sz
  | .subx _ _ _ _ => 0
  | .lineA _ => 0
  | .cmp _ sz ea => ea.extWords sz
  | .cmpa _ sz ea => ea.extWords sz
  | .eor _ sz ea => ea.extWords sz
  | .cmpm _ _ _ => 0
  | .andEaDn _ sz ea => ea.extWords sz
  | .andDnEa _ sz ea => ea.extWords sz
  | .mulu _ ea => ea.extWords .w
  | .muls _ ea => ea.extWords .w
  | .abcd _ _ _ => 0
  | .exgDxDy _ _ => 0
  | .exgAxAy _ _ => 0
  | .exgDxAy _ _ => 0
  | .addEaDn _ sz ea => ea.extWords sz
  | .addDnEa _ sz ea => ea.extWords sz
  | .adda _ sz ea => ea.extWords sz
  | .addx _ _ _ _ => 0
  | .asrReg _ _ _ _ => 0
  | .aslReg _ _ _ _ => 0
  | .lsrReg _ _ _ _ => 0
  | .lslReg _ _ _ _ => 0
  | .roxrReg _ _ _ _ => 0
  | .roxlReg _ _ _ _ => 0
  | .rorReg _ _ _ _ => 0
  | .rolReg _ _ _ _ => 0
  | .asrEa ea => ea.extWords .w
  | .aslEa ea => ea.extWords .w
  | .lsrEa ea => ea.extWords .w
  | .lslEa ea => ea.extWords .w
  | .roxrEa ea => ea.extWords .w
  | .roxlEa ea => ea.extWords .w
  | .rorEa ea => ea.extWords .w
  | .rolEa ea => ea.extWords .w
  | .lineF _ => 0

/-- The length of an instruction in bytes (R100, R115). -/
def Instr.lengthBytes (i : Instr) : Nat := 2 + 2 * i.extWords

/-- The EA field of an operand, bits 5–0 (R102). -/
def Ea.fieldCode (ea : Ea) : Nat := ea.modeCode * 8 + ea.regCode

/-- MOVE's destination field, bits 11–6 (R102). -/
def Ea.destCode (ea : Ea) : Nat := ea.regCode * 512 + ea.modeCode * 64

/-- The R/M bit (R108). -/
def RegMem.code : RegMem → Nat
  | .reg => 0
  | .mem => 1

/-- Bit 7 of MOVEP (R205). -/
def MoveDir.code : MoveDir → Nat
  | .memToReg => 0
  | .regToMem => 1

/-- The count type, bit 5 of the register shifts (R285). -/
def CountKind.code : CountKind → Nat
  | .immediate => 0
  | .register => 1

/-- A register shift: `base` holds the direction and type bits. -/
def shiftCode (base : Nat) (k : Fin 8) (sz : Size) (g : CountKind) (y : Fin 8) : Nat :=
  base + k.val * 512 + sz.code * 64 + g.code * 32 + y.val

/-- The operation word of an instruction as a number (R110). -/
def Instr.opcode : Instr → Nat
  | .oriToCcr => 0x003C
  | .oriToSr => 0x007C
  | .ori sz ea => 0x0000 + sz.code * 64 + ea.fieldCode
  | .andiToCcr => 0x023C
  | .andiToSr => 0x027C
  | .andi sz ea => 0x0200 + sz.code * 64 + ea.fieldCode
  | .subi sz ea => 0x0400 + sz.code * 64 + ea.fieldCode
  | .addi sz ea => 0x0600 + sz.code * 64 + ea.fieldCode
  | .btstImm ea => 0x0800 + ea.fieldCode
  | .bchgImm ea => 0x0840 + ea.fieldCode
  | .bclrImm ea => 0x0880 + ea.fieldCode
  | .bsetImm ea => 0x08C0 + ea.fieldCode
  | .eoriToCcr => 0x0A3C
  | .eoriToSr => 0x0A7C
  | .eori sz ea => 0x0A00 + sz.code * 64 + ea.fieldCode
  | .cmpi sz ea => 0x0C00 + sz.code * 64 + ea.fieldCode
  | .moves sz ea => 0x0E00 + sz.code * 64 + ea.fieldCode
  | .btstReg dn ea => 0x0100 + dn.val * 512 + ea.fieldCode
  | .bchgReg dn ea => 0x0140 + dn.val * 512 + ea.fieldCode
  | .bclrReg dn ea => 0x0180 + dn.val * 512 + ea.fieldCode
  | .bsetReg dn ea => 0x01C0 + dn.val * 512 + ea.fieldCode
  | .movep dn dir sz an => 0x0108 + dn.val * 512 + dir.code * 128 + sz.wordLongCode * 64 + an.val
  | .moveB src dst => 0x1000 + dst.destCode + src.fieldCode
  | .moveW src dst => 0x3000 + dst.destCode + src.fieldCode
  | .moveL src dst => 0x2000 + dst.destCode + src.fieldCode
  | .moveaW an src => 0x3040 + an.val * 512 + src.fieldCode
  | .moveaL an src => 0x2040 + an.val * 512 + src.fieldCode
  | .negx sz ea => 0x4000 + sz.code * 64 + ea.fieldCode
  | .moveFromSr ea => 0x40C0 + ea.fieldCode
  | .chk dn ea => 0x4180 + dn.val * 512 + ea.fieldCode
  | .lea an ea => 0x41C0 + an.val * 512 + ea.fieldCode
  | .clr sz ea => 0x4200 + sz.code * 64 + ea.fieldCode
  | .moveFromCcr ea => 0x42C0 + ea.fieldCode
  | .neg sz ea => 0x4400 + sz.code * 64 + ea.fieldCode
  | .moveToCcr ea => 0x44C0 + ea.fieldCode
  | .notOp sz ea => 0x4600 + sz.code * 64 + ea.fieldCode
  | .moveToSr ea => 0x46C0 + ea.fieldCode
  | .nbcd ea => 0x4800 + ea.fieldCode
  | .swap dn => 0x4840 + dn.val
  | .bkpt v => 0x4848 + v.toNat
  | .pea ea => 0x4840 + ea.fieldCode
  | .extW dn => 0x4880 + dn.val
  | .extL dn => 0x48C0 + dn.val
  | .movemToMem sz ea => 0x4880 + sz.wordLongCode * 64 + ea.fieldCode
  | .tst sz ea => 0x4A00 + sz.code * 64 + ea.fieldCode
  | .tas ea => 0x4AC0 + ea.fieldCode
  | .illegal => 0x4AFC
  | .movemToRegs sz ea => 0x4C80 + sz.wordLongCode * 64 + ea.fieldCode
  | .trap v => 0x4E40 + v.toNat
  | .link an => 0x4E50 + an.val
  | .unlk an => 0x4E58 + an.val
  | .moveAnUsp an => 0x4E60 + an.val
  | .moveUspAn an => 0x4E68 + an.val
  | .reset => 0x4E70
  | .nop => 0x4E71
  | .stop => 0x4E72
  | .rte => 0x4E73
  | .rtd => 0x4E74
  | .rts => 0x4E75
  | .trapv => 0x4E76
  | .rtr => 0x4E77
  | .movecRcRn => 0x4E7A
  | .movecRnRc => 0x4E7B
  | .jsr ea => 0x4E80 + ea.fieldCode
  | .jmp ea => 0x4EC0 + ea.fieldCode
  | .addq q sz ea => 0x5000 + q.toNat * 512 + sz.code * 64 + ea.fieldCode
  | .subq q sz ea => 0x5100 + q.toNat * 512 + sz.code * 64 + ea.fieldCode
  | .dbcc c dn => 0x50C8 + c.code * 256 + dn.val
  | .scc c ea => 0x50C0 + c.code * 256 + ea.fieldCode
  | .bra d8 => 0x6000 + d8.toNat
  | .bsr d8 => 0x6100 + d8.toNat
  | .bcc c d8 => 0x6000 + c.code * 256 + d8.toNat
  | .moveq dn d8 => 0x7000 + dn.val * 512 + d8.toNat
  | .orEaDn dn sz ea => 0x8000 + dn.val * 512 + sz.code * 64 + ea.fieldCode
  | .orDnEa dn sz ea => 0x8100 + dn.val * 512 + sz.code * 64 + ea.fieldCode
  | .divu dn ea => 0x80C0 + dn.val * 512 + ea.fieldCode
  | .divs dn ea => 0x81C0 + dn.val * 512 + ea.fieldCode
  | .sbcd x form y => 0x8100 + x.val * 512 + form.code * 8 + y.val
  | .subEaDn dn sz ea => 0x9000 + dn.val * 512 + sz.code * 64 + ea.fieldCode
  | .subDnEa dn sz ea => 0x9100 + dn.val * 512 + sz.code * 64 + ea.fieldCode
  | .suba an sz ea => 0x90C0 + an.val * 512 + sz.wordLongCode * 256 + ea.fieldCode
  | .subx x sz form y => 0x9100 + x.val * 512 + sz.code * 64 + form.code * 8 + y.val
  | .lineA low => 0xA000 + low.toNat
  | .cmp dn sz ea => 0xB000 + dn.val * 512 + sz.code * 64 + ea.fieldCode
  | .cmpa an sz ea => 0xB0C0 + an.val * 512 + sz.wordLongCode * 256 + ea.fieldCode
  | .eor dn sz ea => 0xB100 + dn.val * 512 + sz.code * 64 + ea.fieldCode
  | .cmpm x sz y => 0xB108 + x.val * 512 + sz.code * 64 + y.val
  | .andEaDn dn sz ea => 0xC000 + dn.val * 512 + sz.code * 64 + ea.fieldCode
  | .andDnEa dn sz ea => 0xC100 + dn.val * 512 + sz.code * 64 + ea.fieldCode
  | .mulu dn ea => 0xC0C0 + dn.val * 512 + ea.fieldCode
  | .muls dn ea => 0xC1C0 + dn.val * 512 + ea.fieldCode
  | .abcd x form y => 0xC100 + x.val * 512 + form.code * 8 + y.val
  | .exgDxDy x y => 0xC140 + x.val * 512 + y.val
  | .exgAxAy x y => 0xC148 + x.val * 512 + y.val
  | .exgDxAy x y => 0xC188 + x.val * 512 + y.val
  | .addEaDn dn sz ea => 0xD000 + dn.val * 512 + sz.code * 64 + ea.fieldCode
  | .addDnEa dn sz ea => 0xD100 + dn.val * 512 + sz.code * 64 + ea.fieldCode
  | .adda an sz ea => 0xD0C0 + an.val * 512 + sz.wordLongCode * 256 + ea.fieldCode
  | .addx x sz form y => 0xD100 + x.val * 512 + sz.code * 64 + form.code * 8 + y.val
  | .asrReg k sz g y => shiftCode 0xE000 k sz g y
  | .aslReg k sz g y => shiftCode 0xE100 k sz g y
  | .lsrReg k sz g y => shiftCode 0xE008 k sz g y
  | .lslReg k sz g y => shiftCode 0xE108 k sz g y
  | .roxrReg k sz g y => shiftCode 0xE010 k sz g y
  | .roxlReg k sz g y => shiftCode 0xE110 k sz g y
  | .rorReg k sz g y => shiftCode 0xE018 k sz g y
  | .rolReg k sz g y => shiftCode 0xE118 k sz g y
  | .asrEa ea => 0xE0C0 + ea.fieldCode
  | .aslEa ea => 0xE1C0 + ea.fieldCode
  | .lsrEa ea => 0xE2C0 + ea.fieldCode
  | .lslEa ea => 0xE3C0 + ea.fieldCode
  | .roxrEa ea => 0xE4C0 + ea.fieldCode
  | .roxlEa ea => 0xE5C0 + ea.fieldCode
  | .rorEa ea => 0xE6C0 + ea.fieldCode
  | .rolEa ea => 0xE7C0 + ea.fieldCode
  | .lineF low => 0xF000 + low.toNat

/-- The operation word of an instruction (R110). -/
def encode (i : Instr) : Word := BitVec.ofNat 16 i.opcode

end Sys2Proof
end

