-- ==== Sys2Proof/Machine/State.lean ====
section
/-! DEFINITION. The state of the core (10_state.md R55) with the memory its collaborator holds and what is to happen outside
the core (20_memory.md R70, R76, R81), the model's own fields, the reasons a step stops (00_scope.md R24), and the machine right after reset (R54, R450). -/

namespace Sys2Proof.Machine

/-- The reasons of R24 for a fault. The machine stops and the fault is never final. -/
inductive Fault where
  /-- Raised by a word or long access or a fetch at an odd address with `ADDRESS_ERROR_MODE = fault` (R74). Safe: the
  hardware goes on in a way this mode does not give. -/
  | addressErrorFault
  /-- Raised by a fetch of bytes the instruction before has stored into its own prefetch window (R461), and by the
  M68010 loop form (R462). Safe: the spec gives no value for the fetch. -/
  | prefetchHazard
  /-- Raised on M68010 by an address error in exception mode (R74) and by RTE of a format-8 frame (R354). Safe: the
  frame is out of the spec's scope. -/
  | unsupportedFrame
  /-- Raised by an address error during group-0 processing or the reset fetch (R427, R451), and by every step of a
  HALTED core (R431). Safe: the hardware has halted. -/
  | haltedDoubleFault
  deriving DecidableEq, Repr

/-- The reasons of R24 for a refusal, the checker's own and the two for terms no encoding has. -/
inductive Refusal where
  /-- Raised by exec's arm of an instruction that has no meaning yet. Safe. No arm raises it. -/
  | notModelled (mnemonic : String)
  /-- Raised at configuration when the M68020 is asked for (R29). Safe. -/
  | variantNotModelled
  /-- Raised by a host call that breaks its precondition (R27, R440–R443). Safe. -/
  | hostPrecondition
  /-- Raised by a step, `execute` or `reset()` of a core with no bus collaborator (R27; `reset()` log 31). Safe. -/
  | noBusCollaborator
  /-- Raised by a write through an immediate or a PC-relative operand (R155: never). Safe. Only a term that no encoding
  has reaches it (log 25). -/
  | operandNotWritable
  /-- Raised where an address is needed of an operand that is not in memory (R157). Safe. Only a term that no encoding
  has reaches it (log 25). -/
  | operandNotMemory
  deriving DecidableEq, Repr

/-- X, N, Z, V, C: `SR[4:0]` (R40). -/
structure Ccr where
  x : Bool
  n : Bool
  z : Bool
  v : Bool
  c : Bool
  deriving DecidableEq, Repr

/-- `run_state` (R48). -/
inductive RunState where
  | running
  | stopped
  | halted
  deriving DecidableEq, Repr

/-- A call of the bus collaborator (20_memory.md R70): the 32-bit address, the function code and, for a write, the
value. -/
inductive BusCall where
  | read (sz : Size) (a : Long) (fc : BitVec 3)
  | write (sz : Size) (a : Long) (fc : BitVec 3) (v : Long)
  | fetch16 (a : Long) (fc : BitVec 3)
  | resetOut
  | iack (level : Fin 8) (fc : BitVec 3)
  deriving DecidableEq, Repr

/-- A byte that the collaborator, the host or another agent changes between two steps (20_memory.md R76, R81,
60_exceptions.md R447): the store of a function code (R71), a computed address, the byte it holds from then on. -/
structure Change where
  fc : BitVec 3
  addr : Long
  value : Byte
  deriving DecidableEq, Repr

/-- A call made into the core from inside a call of the collaborator (60_exceptions.md R440–R443). -/
inductive Callback where
  | raiseInterrupt (level : Int)
  | execute
  | reset
  | registerAccess
  deriving DecidableEq, Repr

/-- What the collaborator does in one call beyond what its byte store gives: the answer of a read or fetch that is not the
store's (R77, R81: no call is assumed idempotent), and the calls it makes back into the core. -/
structure Reaction where
  answer : Option Long := none
  callbacks : List Callback := []
  deriving DecidableEq, Repr

/-- The state. -/
structure State where
  /-- The configuration (R9–R15), which no step changes (log 1). -/
  cfg : Config
  /-- D0–D7 (R30, R31). -/
  d : Vector Long 8
  /-- A0–A7 (R30, R32); A7 is the active stack pointer (R33). -/
  a : Vector Long 8
  /-- `SP_inactive` (R33). -/
  spInactive : Long
  /-- PC (R36). -/
  pc : Long
  /-- T (R40). -/
  tBit : Bool
  /-- S (R40). -/
  sBit : Bool
  /-- I (R40). -/
  iMask : BitVec 3
  /-- X N Z V C (R40). -/
  ccr : Ccr
  /-- VBR (R44), reached on M68010 only. -/
  vbr : Long
  /-- SFC (R45), reached on M68010 only. -/
  sfc : BitVec 3
  /-- DFC (R45), reached on M68010 only. -/
  dfc : BitVec 3
  /-- `run_state` (R48). -/
  runState : RunState
  /-- `int_level` (R49). -/
  intLevel : Fin 8
  /-- `prev_level` (R49). -/
  prevLevel : Fin 8
  /-- `trace_pending` (R50). -/
  tracePending : Bool
  /-- `last_stores` (R51, R461), as bus addresses. -/
  lastStores : List Nat
  /-- `seq_end` (R461): the sequential next address of the instruction that filled `lastStores`. -/
  seqEnd : Long
  /-- `fault_mark` (R53). -/
  faultMark : Option Fault
  /-- `refused_mark` (R53). -/
  refusedMark : Option Refusal
  /-- The collaborator's bytes (R70, R73), strictly rising in the key, none equal to what an unlisted key reads as. -/
  mem : List Host.Cell
  /-- MODEL'S OWN (log 5): what the collaborator does in the bus calls to come, one entry a call, the next call first (R77,
  R81, 60_exceptions.md R441). An input, any list; past its end reads answer the byte store and nothing else happens. -/
  script : List Reaction
  /-- MODEL'S OWN (log 5): the bytes that something outside the core changes before each step to come, the next step first
  (R76, R81, 60_exceptions.md R447). An input, any list; past its end nothing is changed. -/
  agents : List (List Change)
  /-- MODEL'S OWN (log 6): how many free values have been drawn (R20). -/
  draws : Nat
  /-- MODEL'S OWN (log 15): the bus calls of the current step, newest first (R70, R77). -/
  calls : List BusCall
  /-- MODEL'S OWN (log 16): the operation word of the current step's instruction (R426 IR). -/
  ir : Option Word
  /-- MODEL'S OWN (log 16): the vector the current step has entered (R461, R465). -/
  entered : Option Byte
  /-- MODEL'S OWN (log 16): no step has run since reset (R451). -/
  resetFetch : Bool
  deriving DecidableEq, Repr

/-- The machine right after reset (R54, R450): supervisor mode, T = 0, I = 7, VBR = 0, RUNNING; A7 and PC as read at
addresses 0 and 4 of a memory with nothing listed, which read 0 (log 4). DESIGN CHOICE (log 3): D0–D7, A0–A6,
`SP_inactive`, the flags, SFC and DFC are 0 where the spec leaves them open; (log 8, 10) no interrupt is requested and
no mark is set; (log 2) the configuration is M68000 with the spec's defaults; (log 5)
nothing is to happen outside the core. -/
def State.reset : State where
  cfg := { }
  d := Vector.replicate 8 0
  a := Vector.replicate 8 0
  spInactive := 0
  pc := 0
  tBit := false
  sBit := true
  iMask := 7
  ccr := ⟨false, false, false, false, false⟩
  vbr := 0
  sfc := 0
  dfc := 0
  runState := .running
  intLevel := 0
  prevLevel := 0
  tracePending := false
  lastStores := []
  seqEnd := 0
  faultMark := none
  refusedMark := none
  mem := []
  script := []
  agents := []
  draws := 0
  calls := []
  ir := none
  entered := none
  resetFetch := true

end Sys2Proof.Machine
end

