-- ==== Sys2Proof/Machine/Ops.lean ====
section
/-! DEFINITION. The named operations over memory, registers, the status register and the bus, the way a meaning ends
early, taking an exception (60_exceptions.md R410, R426, R427) and returning from one (49_system_control.md R354). -/

namespace Sys2Proof.Machine

/-! Memory: a list of key and byte pairs in one canonical form. -/

/-- What a key that is not listed reads as. DESIGN CHOICE (log 4): the spec gives no contents (20_memory.md R81). -/
def unlistedByte : Byte := 0

/-- The byte at a key. -/
def Memory.read : List Host.Cell → Nat → Byte
  | [], _ => unlistedByte
  | (k, v) :: rest, a => if k = a then v else Memory.read rest a

/-- A cell put in its place. -/
def Memory.insert (a : Nat) (v : Byte) : List Host.Cell → List Host.Cell
  | [] => [(a, v)]
  | (k, w) :: rest => if a < k then (a, v) :: (k, w) :: rest else (k, w) :: Memory.insert a v rest

/-- A key taken out. -/
def Memory.erase (a : Nat) : List Host.Cell → List Host.Cell
  | [] => []
  | (k, w) :: rest => if k = a then Memory.erase a rest else (k, w) :: Memory.erase a rest

/-- A byte written: the key is listed afterwards unless the byte is what an unlisted key reads as. -/
def Memory.write (m : List Host.Cell) (a : Nat) (v : Byte) : List Host.Cell :=
  if v = unlistedByte then Memory.erase a m else Memory.insert a v (Memory.erase a m)

/-- The canonical form: keys strictly rising, no byte that an unlisted key reads as. -/
def Memory.wf : List Host.Cell → Bool
  | [] => true
  | (k, v) :: rest => v != unlistedByte && rest.all (fun c => decide (k < c.1)) && Memory.wf rest

/-! Addresses and the byte store (20_memory.md R71–R73). -/

/-- `ADDRESS_BITS` (00_scope.md R9). -/
def addressBits (cfg : Config) : Nat :=
  match cfg.variant with
  | .m68000 => 24
  | .m68010 => 24
  | .m68008 => match cfg.m68008Pins with
    | .pins20 => 20
    | .pins22 => 22

/-- The bus address of a computed address (R72). -/
def busAddr (cfg : Config) (a : Long) : Nat := a.toNat % 2 ^ addressBits cfg

/-- The key of a byte: its bus address, in the store of its function code when `FC_SEPARATE_SPACES` (R71; log 14). -/
def memKey (cfg : Config) (fc : BitVec 3) (a : Long) : Nat :=
  busAddr cfg a + (if cfg.fcSeparateSpaces then fc.toNat * 2 ^ 32 else 0)

/-- The data function code (R71). -/
def State.dataFc (s : State) : BitVec 3 := if s.sBit then 5 else 1

/-- The program function code (R71). -/
def State.progFc (s : State) : BitVec 3 := if s.sBit then 6 else 2

/-- `m[a]` (R73) as the byte store holds it. -/
def State.peekByte (s : State) (fc : BitVec 3) (a : Long) : Byte := Memory.read s.mem (memKey s.cfg fc a)

/-- `m[a] ++ m[a+1]` (R73). -/
def State.peekWord (s : State) (fc : BitVec 3) (a : Long) : Word :=
  wordOfBytes (s.peekByte fc a) (s.peekByte fc (a + 1))

/-- `m[a] ++ … ++ m[a+3]` (R73). -/
def State.peekLong (s : State) (fc : BitVec 3) (a : Long) : Long :=
  joinWords (s.peekWord fc a) (s.peekWord fc (a + 2))

/-- The big-endian value of size `sz` at `a` (R73), zero-extended. -/
def State.peek (s : State) (sz : Size) (fc : BitVec 3) (a : Long) : Long :=
  match sz with
  | .b => (s.peekByte fc a).setWidth 32
  | .w => (s.peekWord fc a).setWidth 32
  | .l => s.peekLong fc a

/-- A byte stored. -/
def State.pokeByte (s : State) (fc : BitVec 3) (a : Long) (v : Byte) : State :=
  { s with mem := Memory.write s.mem (memKey s.cfg fc a) v }

/-- A word stored, most significant byte first (R73). -/
def State.pokeWord (s : State) (fc : BitVec 3) (a : Long) (v : Word) : State :=
  (s.pokeByte fc a (v.extractLsb' 8 8)).pokeByte fc (a + 1) (wordLowByte v)

/-- A long stored, most significant word first (R73). -/
def State.pokeLong (s : State) (fc : BitVec 3) (a : Long) (v : Long) : State :=
  (s.pokeWord fc a (highWord v)).pokeWord fc (a + 2) (lowWord v)

/-- The low `bits(sz)` bits of a value stored (R73). -/
def State.poke (s : State) (sz : Size) (fc : BitVec 3) (a : Long) (v : Long) : State :=
  match sz with
  | .b => s.pokeByte fc a (lowByte v)
  | .w => s.pokeWord fc a (lowWord v)
  | .l => s.pokeLong fc a v

/-! Registers (10_state.md R30–R42). -/

/-- `D[n] <- v` (00_scope.md R18). -/
def State.setD (s : State) (n : Fin 8) (v : Long) : State := { s with d := s.d.set n.val v n.isLt }

/-- `Dw(n, sz, v)` (R18, R31). -/
def State.setDw (s : State) (n : Fin 8) (sz : Size) (v : Long) : State := s.setD n (mergeLow sz s.d[n] v)

/-- `A[n] <- v` (R18). -/
def State.setA (s : State) (n : Fin 8) (v : Long) : State := { s with a := s.a.set n.val v n.isLt }

/-- `Aw(n, sz, v)` (R18, R32): all 32 bits; a word is sign-extended. -/
def State.setAw (s : State) (n : Fin 8) (sz : Size) (v : Long) : State := s.setA n (sextSize sz v)

/-- `pc <- t`. -/
def State.setPc (s : State) (v : Long) : State := { s with pc := v }

/-- The flags written. -/
def State.setCcr (s : State) (c : Ccr) : State := { s with ccr := c }

/-- `SP_inactive <- v` (R33). -/
def State.setSpInactive (s : State) (v : Long) : State := { s with spInactive := v }

/-- `USP` (R33). -/
def State.usp (s : State) : Long := if s.sBit then s.spInactive else s.a[7]

/-- `SSP` (R33). -/
def State.ssp (s : State) : Long := if s.sBit then s.a[7] else s.spInactive

/-- `SetS(b)` (R35): the stack pointers swap when S changes. -/
def State.setS (s : State) (b : Bool) : State :=
  if b = s.sBit then s else { s with a := s.a.set 7 s.spInactive, spInactive := s.a[7], sBit := b }

/-- `SR[7:0]` (R40): bits 7–5 read 0. -/
def Ccr.toByte (c : Ccr) : Byte :=
  0#3 ++ BitVec.ofBool c.x ++ BitVec.ofBool c.n ++ BitVec.ofBool c.z ++ BitVec.ofBool c.v ++ BitVec.ofBool c.c

/-- The flags of a byte (R42): `v[4:0]`. -/
def Ccr.ofByte (v : Byte) : Ccr := ⟨v.getLsbD 4, v.getLsbD 3, v.getLsbD 2, v.getLsbD 1, v.getLsbD 0⟩

/-- `SR` (R40): bits 14, 12, 11 and 7–5 read 0. -/
def State.sr (s : State) : Word :=
  BitVec.ofBool s.tBit ++ 0#1 ++ BitVec.ofBool s.sBit ++ 0#2 ++ s.iMask ++ s.ccr.toByte

/-- `SR_MASK` (R39). -/
def srMask : Word := 0xA71F

/-- `WriteSR(v)` (R41). -/
def State.writeSr (s : State) (v : Word) : State :=
  State.setS
    { s with
      tBit := (v &&& srMask).getLsbD 15
      iMask := (v &&& srMask).extractLsb' 8 3
      ccr := Ccr.ofByte (wordLowByte (v &&& srMask)) }
    ((v &&& srMask).getLsbD 13)

/-- `WriteCCR(v)` (R42). -/
def State.writeCcr (s : State) (v : Byte) : State := s.setCcr (Ccr.ofByte v)

/-! The collaborator, and the host and other agents behind it (20_memory.md R70, R81; 60_exceptions.md R440–R443). -/

/-- Bytes changed, the first change first (R81). -/
def changeBytes (cfg : Config) : List Change → List Host.Cell → List Host.Cell
  | [], m => m
  | c :: rest, m => changeBytes cfg rest (Memory.write m (memKey cfg c.fc c.addr) c.value)

/-- A level that `raise_interrupt` takes (R441). -/
def validLevel (level : Int) : Bool := decide (0 ≤ level) && decide (level ≤ 7)

/-- `int_level` after a call into the core (R416, R441). -/
def Callback.level (c : Callback) (l : Fin 8) : Fin 8 :=
  match c with
  | .raiseInterrupt n => if validLevel n then Fin.ofNat 8 n.toNat else l
  | .execute => l
  | .reset => l
  | .registerAccess => l

/-- Why a call into the core from inside a call of the collaborator is refused, if it is (R440–R443). -/
def Callback.refusal (c : Callback) : Option Refusal :=
  match c with
  | .raiseInterrupt n => if validLevel n then none else some .hostPrecondition
  | .execute => some .hostPrecondition
  | .reset => some .hostPrecondition
  | .registerAccess => some .hostPrecondition

/-- `int_level` after calls into the core, the first call first. -/
def callbackLevel : List Callback → Fin 8 → Fin 8
  | [], l => l
  | c :: rest, l => callbackLevel rest (c.level l)

/-- The first refusal of calls into the core. -/
def callbackRefusal : List Callback → Option Refusal
  | [] => none
  | c :: rest => c.refusal.or (callbackRefusal rest)

/-- The changes before the next step: none past the end of the list. -/
def nextChanges : List (List Change) → List Change
  | [] => []
  | cs :: _ => cs

/-- What the collaborator does in the next bus call: nothing of its own past the end of the script. -/
def nextReaction : List Reaction → Reaction
  | [] => {}
  | r :: _ => r

/-- The value a read answers (R77, R81): the byte store's, unless the collaborator's answer is another. -/
def Reaction.value (r : Reaction) (sz : Size) (stored : Long) : Long :=
  match r.answer with
  | some v => low sz v
  | none => stored

/-- The value of a read made now (R73, R81). -/
def State.loaded (s : State) (sz : Size) (fc : BitVec 3) (a : Long) : Long :=
  (nextReaction s.script).value sz (s.peek sz fc a)

/-- One call's entry of the script taken: `int_level` as the calls into the core leave it, and a mark where one of them is
refused (10_state.md R53: a mark is never replaced). No byte changes: an instruction is indivisible (R76, R83), and a request
acts at the next boundary (R441). -/
def State.react (s : State) : State :=
  { s with
    intLevel := callbackLevel (nextReaction s.script).callbacks s.intLevel
    refusedMark := s.refusedMark.or (callbackRefusal (nextReaction s.script).callbacks)
    script := s.script.tail }

/-- A bus call made (R70): its entry of the script taken, and its record kept (log 15). -/
def State.addCall (s : State) (c : BusCall) : State := { s.react with calls := c :: s.calls }

/-- `vbase` (60_exceptions.md R412). -/
def State.vbase (s : State) : Long := if s.cfg.variant = .m68010 then s.vbr else 0

/-- The address of vector `v` (R412). -/
def State.vectorAddr (s : State) (v : Byte) : Long := s.vbase + 4 * v.setWidth 32

/-! How a meaning runs: on a state, to a value and a state, or to an early exit with the state written so far (R20). -/

/-- A faulting access (R74, R426): the computed address, whether it writes, its function code, and whether it belongs to
exception processing. -/
structure AddressError where
  access : Long
  write : Bool
  fc : BitVec 3
  inException : Bool
  deriving DecidableEq, Repr

/-- Why a meaning ends early (R20, R74). -/
inductive Exit where
  /-- `raise Exc(vector, saved_pc)`. -/
  | exception (v : Byte) (savedPc : Long)
  /-- An access at an odd address (R74). -/
  | addressError (e : AddressError)
  /-- `fault(reason)`. -/
  | fault (r : Fault)
  /-- `refuse(reason)`. -/
  | refused (r : Refusal)
  deriving DecidableEq, Repr

/-- A computation over the state that may end early and keeps what it wrote (R20). -/
abbrev M := EStateM Exit State

/-- A reading of the state. -/
def look {α : Type} (f : State → α) : M α := fun s => .ok (f s) s

/-- A change of the state. -/
def upd (f : State → State) : M Unit := fun s => .ok () (f s)

/-- An early exit. -/
def stop {α : Type} (e : Exit) : M α := fun s => .error e s

/-- An early exit unless a condition holds of the state. -/
def require (p : State → Bool) (e : State → Exit) : M Unit := fun s => if p s then .ok () s else .error (e s) s

/-- `draw()` of one bit (R20): a free value, another one each time (log 6). -/
def drawBit : M Bool := fun s => .ok (Config.freeBit s.draws) { s with draws := s.draws + 1 }

/-- `draw()` of a byte (R20; log 6). -/
def drawByte : M Byte := fun s => .ok (Config.freeByte s.draws) { s with draws := s.draws + 1 }

/-- `draw()` of 16 bits (R20; log 6). -/
def drawWord : M Word := fun s => .ok (Config.freeWord s.draws) { s with draws := s.draws + 1 }

/-- `draw()` of 32 bits (R20; log 6). -/
def drawLong : M Long := fun s => .ok (Config.freeLong s.draws) { s with draws := s.draws + 1 }

/-! The bus primitives (00_scope.md R19; 20_memory.md R74, R86; 70_reset_and_hazards.md R461). -/

/-- The alignment check of R74: a word or long access needs an even computed address. -/
def checkAligned (sz : Size) (write : Bool) (fc : BitVec 3) (a : Long) : M Unit :=
  require (fun _ => sz == .b || !isOdd a) fun _ => .addressError ⟨a, write, fc, false⟩

/-- `MemRead(a, bytes(sz))` with a function code (R19): the collaborator's answer (R81). -/
def memRead (sz : Size) (fc : BitVec 3) (a : Long) : M Long := do
  checkAligned sz false fc a
  let v ← look fun s => s.loaded sz fc a
  upd fun s => s.addCall (.read sz a fc)
  pure v

/-- `MemWrite(a, bytes(sz), v)` with a function code (R19). -/
def memWrite (sz : Size) (fc : BitVec 3) (a : Long) (v : Long) : M Unit := do
  checkAligned sz true fc a
  upd fun s => (s.addCall (.write sz a fc (low sz v))).poke sz fc a v

/-- `MemRead` with the data function code of the current S (R71). -/
def readData (sz : Size) (a : Long) : M Long := do
  let fc ← look State.dataFc
  memRead sz fc a

/-- `MemWrite` with the data function code of the current S (R71). -/
def writeData (sz : Size) (a : Long) (v : Long) : M Unit := do
  let fc ← look State.dataFc
  memWrite sz fc a v

/-- Whether a bus address lies in `[seq_end, seq_end + SMC_WINDOW_BYTES)` (R461). -/
def State.inWindow (s : State) (b : Nat) : Bool :=
  (List.range s.cfg.smcWindowBytes).any fun k => busAddr s.cfg (s.seqEnd + BitVec.ofNat 32 k) == b

/-- The condition of R461 for a byte: stored by the instruction before, inside its window. -/
def State.staleByte (s : State) (a : Long) : Bool :=
  s.lastStores.contains (busAddr s.cfg a) && s.inWindow (busAddr s.cfg a)

/-- The condition of R461 for `Fetch16(a)`. -/
def State.staleWord (s : State) (a : Long) : Bool := s.staleByte a || s.staleByte (a + 1)

/-- `Fetch16()` (R19): the alignment check, the hazard check of R461, the fetch, and `pc <- pc + 2`. -/
def fetch16 : M Word := do
  let a ← look State.pc
  let fc ← look State.progFc
  checkAligned .w false fc a
  require (fun s => !s.staleWord a) fun _ => .fault .prefetchHazard
  let w ← look fun s => lowWord (s.loaded .w fc a)
  upd fun s => (s.addCall (.fetch16 a fc)).setPc (a + 2)
  pure w

/-- `Fetch32()` (R19): high word first. -/
def fetch32 : M Long := do
  let hi ← fetch16
  let lo ← fetch16
  pure (joinWords hi lo)

/-- `Push(bytes(sz), v)` (R86). -/
def push (sz : Size) (v : Long) : M Unit := do
  upd fun s => s.setA 7 (s.a[7] - BitVec.ofNat 32 sz.bytes)
  let sp ← look fun s => s.a[7]
  writeData sz sp v

/-- `Pop(bytes(sz))` (R86). -/
def pop (sz : Size) : M Long := do
  let sp ← look fun s => s.a[7]
  let v ← readData sz sp
  upd fun s => s.setA 7 (s.a[7] + BitVec.ofNat 32 sz.bytes)
  pure v

/-! Exceptions (60_exceptions.md). -/

/-- `ipc`, the address of the operation word, while only the operation word is fetched: when a meaning starts,
`pc = ipc + 2` (42_data_movement.md R200). -/
def State.ipc (s : State) : Long := s.pc - 2

/-- `raise Exc(v, saved_pc)` (R20). -/
def raise {α : Type} (v : Byte) (savedPc : Long) : M α := stop (.exception v savedPc)

/-- The privilege check of 49_system_control.md R340: vector 8 with saved PC `ipc` when S = 0. -/
def privileged : M Unit := require State.sBit fun s => .exception 8 s.ipc

/-- The rows of M68010 alone: on the other variants the illegal-instruction exception, vector 4, saved PC `ipc`
(30_encoding.md R112). -/
def onM68010 : M Unit := require (fun s => s.cfg.variant == .m68010) fun s => .exception 4 s.ipc

/-- The vectors whose entry discards a pending trace (R410). -/
def discardsTrace (v : Byte) : Bool := [(4 : Byte), 8, 9, 10, 11].contains v

/-- The vector offset `4·v`, with format 0 in bits 15–12 (R411). -/
def formatWord (v : Byte) : Word := 4 * v.setWidth 16

/-- The format word of an M68010 frame pushed (R410, R411). -/
def pushFormatWord (v : Byte) : M Unit := do
  let variant ← look fun s => s.cfg.variant
  match variant with
  | .m68010 => push .w ((formatWord v).setWidth 32)
  | .m68000 => pure ()
  | .m68008 => pure ()

/-- The handler's address read and taken, the last act of an entry (R410, R413, R426). -/
def loadVector (v : Byte) (discard : Bool) : M Unit := do
  let va ← look fun s => s.vectorAddr v
  let target ← readData .l va
  upd fun s =>
    { s with
      pc := target
      tracePending := s.tracePending && !discard
      runState := .running
      lastStores := []
      entered := some v }

/-- `Enter(v, saved_pc, new_I)` (R410). -/
def enter (v : Byte) (savedPc : Long) (newI : Option (BitVec 3)) : M Unit := do
  let old ← look State.sr
  upd fun s => s.setS true
  upd fun s => { s with tBit := false, iMask := newI.getD s.iMask }
  pushFormatWord v
  push .l savedPc
  push .w (old.setWidth 32)
  loadVector v (discardsTrace v)

/-- The status word of the group-0 frame (R426): bits 15–5 free, R/W, I/N, the function code. -/
def groupZeroStatus (free : Word) (e : AddressError) : Word :=
  (free &&& 0xFFE0) ||| (if e.write then 0 else 0x0010) ||| (if e.inException then 0x0008 else 0) ||| e.fc.setWidth 16

/-- The access address of the group-0 frame (R426): bits 31..ADDRESS_BITS free. -/
def groupZeroAddress (cfg : Config) (free : Long) (a : Long) : Long :=
  (free &&& ~~~(BitVec.ofNat 32 (2 ^ addressBits cfg - 1))) ||| (a &&& BitVec.ofNat 32 (2 ^ addressBits cfg - 1))

/-- IR of the group-0 frame (R426): the operation word, or a free value when the step has fetched none (log 18). -/
def groupZeroIr : M Word := do
  let ir ← look State.ir
  match ir with
  | some w => pure w
  | none => drawWord

/-- The group-0 sequence of an address error (R426). -/
def enterGroupZero (e : AddressError) : M Unit := do
  let old ← look State.sr
  upd fun s => s.setS true
  upd fun s => { s with tBit := false }
  let saved ← drawLong
  push .l saved
  push .w (old.setWidth 32)
  let ir ← groupZeroIr
  push .w (ir.setWidth 32)
  let freeAddr ← drawLong
  let cfg ← look State.cfg
  push .l (groupZeroAddress cfg freeAddr e.access)
  let freeStatus ← drawWord
  push .w ((groupZeroStatus freeStatus e).setWidth 32)
  loadVector 3 true

/-- An outcome of a step. -/
abbrev StepOutcome := Host.Outcome State Fault Refusal

/-- An address error taken (R74, R426, R427): a fault in fault mode, an unsupported frame on M68010, else the group-0
sequence, in which another address error is a double fault. -/
def takeAddressError (e : AddressError) (s : State) : StepOutcome :=
  match s.cfg.addressErrorMode with
  | .fault => .fault .addressErrorFault
  | .exception =>
    match s.cfg.variant with
    | .m68010 => .fault .unsupportedFrame
    | _ =>
      match enterGroupZero e s with
      | .ok _ t => .next t
      | .error _ _ => .fault .haltedDoubleFault

/-- An exception taken (R410): an address error in its pushes or its vector read starts the group-0 sequence (R427). -/
def takeException (v : Byte) (savedPc : Long) (newI : Option (BitVec 3)) (s : State) : StepOutcome :=
  match enter v savedPc newI s with
  | .ok _ t => .next t
  | .error (.addressError e) t => takeAddressError { e with inException := true } t
  | .error (.fault r) _ => .fault r
  | .error (.refused r) _ => .refused r
  | .error (.exception _ _) _ => .fault .haltedDoubleFault

/-- The outcome of a meaning's computation: a raise enters its exception from the state written so far (R20). -/
def finish : EStateM.Result Exit State Unit → StepOutcome
  | .ok _ s => .next s
  | .error (.exception v savedPc) s => takeException v savedPc none s
  | .error (.addressError e) s => takeAddressError e s
  | .error (.fault r) _ => .fault r
  | .error (.refused r) _ => .refused r

/-- A meaning run to its outcome. -/
def run (m : M Unit) (s : State) : StepOutcome := finish (m s)

/-- The return from an exception, after the privilege check (R354): the frame of the variant popped, `WriteSR`, the PC. -/
def returnFromException : M Unit := do
  let ipc ← look State.ipc
  let sp ← look fun s => s.a[7]
  let sr ← readData .w sp
  let pcv ← readData .l (sp + 2)
  let variant ← look fun s => s.cfg.variant
  match variant with
  | .m68010 =>
    let fv ← readData .w (sp + 6)
    match (fv.extractLsb' 12 4).toNat with
    | 0 =>
      upd fun s => s.setA 7 (sp + 8)
      upd fun s => (s.writeSr (lowWord sr)).setPc pcv
    | 8 => stop (.fault .unsupportedFrame)
    | _ => raise 14 ipc
  | .m68000 =>
    upd fun s => s.setA 7 (sp + 6)
    upd fun s => (s.writeSr (lowWord sr)).setPc pcv
  | .m68008 =>
    upd fun s => s.setA 7 (sp + 6)
    upd fun s => (s.writeSr (lowWord sr)).setPc pcv

end Sys2Proof.Machine
end

