-- ==== Sys2Proof/Machine/Flags.lean ====
section
/-! DEFINITION. The flag formulas (41_flag_model.md R170–R177), the results of the arithmetic, logical, shift, decimal
and division operations with the flags they write (files 43 to 47), and the condition tests (R180). -/

namespace Sys2Proof.Machine

/-- A result and the flags after it. -/
structure Alu where
  r : Long
  ccr : Ccr
  deriving DecidableEq, Repr

/-- The NZ00 formula (R176): N and Z from the value, V = C = 0, X unchanged. -/
def nz00 (sz : Size) (r : Long) (f : Ccr) : Ccr := ⟨f.x, msb sz r, isZero sz r, false, false⟩

/-- C of an addition (R173). -/
def addCarry (sz : Size) (s d r : Long) : Bool :=
  (msb sz s && msb sz d) || (!msb sz r && msb sz d) || (msb sz s && !msb sz r)

/-- V of an addition (R173). -/
def addOverflow (sz : Size) (s d r : Long) : Bool :=
  (msb sz s && msb sz d && !msb sz r) || (!msb sz s && !msb sz d && msb sz r)

/-- C of a subtraction (R174). -/
def subCarry (sz : Size) (s d r : Long) : Bool :=
  (msb sz s && !msb sz d) || (msb sz r && !msb sz d) || (msb sz s && msb sz r)

/-- V of a subtraction (R174). -/
def subOverflow (sz : Size) (s d r : Long) : Bool :=
  (!msb sz s && msb sz d && !msb sz r) || (msb sz s && !msb sz d && msb sz r)

/-- A carry or borrow as a number. -/
def bitValue (b : Bool) : Long := if b then 1 else 0

/-- `low(D + S + cin, sz)` (R173). -/
def addResult (sz : Size) (s d : Long) (cin : Bool) : Long := low sz (d + s + bitValue cin)

/-- `low(D − S − bin, sz)` (R174). -/
def subResult (sz : Size) (s d : Long) (bin : Bool) : Long := low sz (d - s - bitValue bin)

/-- ADD, ADDI, ADDQ (R231, R233, R234): X = C, N Z from R. -/
def aluAdd (sz : Size) (s d : Long) (_ : Ccr) : Alu :=
  let r := addResult sz s d false
  ⟨r, ⟨addCarry sz s d r, msb sz r, isZero sz r, addOverflow sz s d r, addCarry sz s d r⟩⟩

/-- ADDX (R235): carry-in X, X = C, Z extended (R172). -/
def aluAddx (sz : Size) (s d : Long) (f : Ccr) : Alu :=
  let r := addResult sz s d f.x
  ⟨r, ⟨addCarry sz s d r, msb sz r, f.z && isZero sz r, addOverflow sz s d r, addCarry sz s d r⟩⟩

/-- SUB, SUBI, SUBQ, and NEG with D = 0 (R236, R238, R239, R245): X = C, N Z from R. -/
def aluSub (sz : Size) (s d : Long) (_ : Ccr) : Alu :=
  let r := subResult sz s d false
  ⟨r, ⟨subCarry sz s d r, msb sz r, isZero sz r, subOverflow sz s d r, subCarry sz s d r⟩⟩

/-- SUBX, and NEGX with D = 0 (R240, R246): borrow-in X, X = C, Z extended (R172). -/
def aluSubx (sz : Size) (s d : Long) (f : Ccr) : Alu :=
  let r := subResult sz s d f.x
  ⟨r, ⟨subCarry sz s d r, msb sz r, f.z && isZero sz r, subOverflow sz s d r, subCarry sz s d r⟩⟩

/-- CMP, CMPA, CMPI, CMPM (R241–R244): the flags of the subtraction, X unchanged. -/
def cmpFlags (sz : Size) (s d : Long) (f : Ccr) : Ccr :=
  let r := subResult sz s d false
  ⟨f.x, msb sz r, isZero sz r, subOverflow sz s d r, subCarry sz s d r⟩

/-- AND, ANDI (R271, R272). -/
def aluAnd (sz : Size) (s d : Long) (f : Ccr) : Alu := ⟨low sz (d &&& s), nz00 sz (d &&& s) f⟩

/-- OR, ORI (R273, R274). -/
def aluOr (sz : Size) (s d : Long) (f : Ccr) : Alu := ⟨low sz (d ||| s), nz00 sz (d ||| s) f⟩

/-- EOR, EORI (R275, R276). -/
def aluEor (sz : Size) (s d : Long) (f : Ccr) : Alu := ⟨low sz (d ^^^ s), nz00 sz (d ^^^ s) f⟩

/-- NOT (R277). -/
def aluNot (sz : Size) (d : Long) (f : Ccr) : Alu := ⟨low sz (~~~d), nz00 sz (~~~d) f⟩

/-- NEG (R245): 0 − D. -/
def aluNeg (sz : Size) (d : Long) (f : Ccr) : Alu := aluSub sz d 0 f

/-- NEGX (R246): 0 − D − X. -/
def aluNegx (sz : Size) (d : Long) (f : Ccr) : Alu := aluSubx sz d 0 f

/-- MULU (R250): the 32-bit product of the low words. -/
def aluMulu (s d : Long) (f : Ccr) : Alu :=
  let r := low .w d * low .w s
  ⟨r, nz00 .l r f⟩

/-- MULS (R251): the 32-bit product of the sign-extended low words. -/
def aluMuls (s d : Long) (f : Ccr) : Alu :=
  let r := sextSize .w d * sextSize .w s
  ⟨r, nz00 .l r f⟩

/-- A quotient and a remainder, or an overflow of the quotient (R252, R253). -/
inductive Division where
  | overflow
  | result (r : Long) (n z : Bool)
  deriving DecidableEq, Repr

/-- The remainder and the quotient in one register: `r[15:0] ++ q[15:0]` (R252, R253). -/
def packDivision (r q : Word) : Long := r ++ q

/-- DIVU with a divisor other than 0 (R252). -/
def divideUnsigned (s d : Long) : Division :=
  let q := d.toNat / s.toNat
  let r := d.toNat % s.toNat
  if q > 0xFFFF then .overflow
  else .result (packDivision (BitVec.ofNat 16 r) (BitVec.ofNat 16 q)) (q.testBit 15) (q == 0)

/-- DIVS with a divisor other than 0 (R253): the quotient rounded toward zero, the remainder with the dividend's sign. -/
def divideSigned (s d : Long) : Division :=
  let sv := signedVal .w s
  let dv := signedVal .l d
  let q := dv.tdiv sv
  let r := dv - q * sv
  if q < -32768 ∨ q > 32767 then .overflow
  else .result (packDivision (BitVec.ofInt 16 r) (BitVec.ofInt 16 q)) (decide (q < 0)) (q == 0)

/-! Shifts and rotates (45_shift_rotate.md). Values are unbounded naturals before any reduction (00_scope.md R21). -/

/-- A shift's result, C, V and X. -/
structure Shifted where
  r : Nat
  c : Bool
  v : Bool
  x : Bool
  deriving DecidableEq, Repr

/-- Bits `hi..lo` of a value all equal. -/
def allEqual (v : Nat) (hi lo : Nat) : Bool :=
  let f := (v >>> lo) % 2 ^ (hi + 1 - lo)
  f == 0 || f == 2 ^ (hi + 1 - lo) - 1

/-- ASL for n ≥ 1 (R286). -/
def shiftAsl (w v n : Nat) (_ : Bool) : Shifted :=
  let c := if n ≤ w then v.testBit (w - n) else false
  ⟨(v <<< n) % 2 ^ w, c, if n < w then !allEqual v (w - 1) (w - 1 - n) else v != 0, c⟩

/-- LSL for n ≥ 1 (R288). -/
def shiftLsl (w v n : Nat) (_ : Bool) : Shifted :=
  let c := if n ≤ w then v.testBit (w - n) else false
  ⟨(v <<< n) % 2 ^ w, c, false, c⟩

/-- The value with `n` copies of its sign bit shifted in from the top (R287). -/
def arithmeticRight (w v n : Nat) : Nat :=
  if v.testBit (w - 1) then
    (v >>> n) ||| ((2 ^ w - 1) - ((2 ^ w - 1) >>> n))
  else v >>> n

/-- ASR for n ≥ 1 (R287). -/
def shiftAsr (w v n : Nat) (_ : Bool) : Shifted :=
  let c := v.testBit (min n w - 1)
  ⟨arithmeticRight w v n, c, false, c⟩

/-- LSR for n ≥ 1 (R289). -/
def shiftLsr (w v n : Nat) (_ : Bool) : Shifted :=
  let c := if n ≤ w then v.testBit (n - 1) else false
  ⟨v >>> n, c, false, c⟩

/-- A value of `w` bits rotated left by `r < w` (R290). -/
def rotateLeft (w v r : Nat) : Nat := ((v <<< r) ||| (v >>> (w - r))) % 2 ^ w

/-- A value of `w` bits rotated right by `r < w` (R291). -/
def rotateRight (w v r : Nat) : Nat := ((v >>> r) ||| (v <<< (w - r))) % 2 ^ w

/-- ROL for n ≥ 1 (R290): X unchanged. -/
def shiftRol (w v n : Nat) (x : Bool) : Shifted :=
  let r := rotateLeft w v (n % w)
  ⟨r, r.testBit 0, false, x⟩

/-- ROR for n ≥ 1 (R291): X unchanged. -/
def shiftRor (w v n : Nat) (x : Bool) : Shifted :=
  let r := rotateRight w v (n % w)
  ⟨r, r.testBit (w - 1), false, x⟩

/-- `X ++ Dv`, X at bit `w` (R292). -/
def extendedValue (w v : Nat) (x : Bool) : Nat := (if x then 2 ^ w else 0) + v

/-- ROXL for n ≥ 1 (R292). -/
def shiftRoxl (w v n : Nat) (x : Bool) : Shifted :=
  let t := rotateLeft (w + 1) (extendedValue w v x) (n % (w + 1))
  ⟨t % 2 ^ w, t.testBit w, false, t.testBit w⟩

/-- ROXR for n ≥ 1 (R293). -/
def shiftRoxr (w v n : Nat) (x : Bool) : Shifted :=
  let t := rotateRight (w + 1) (extendedValue w v x) (n % (w + 1))
  ⟨t % 2 ^ w, t.testBit w, false, t.testBit w⟩

/-- The eight operations. -/
inductive ShiftOp where
  | asl
  | asr
  | lsl
  | lsr
  | rol
  | ror
  | roxl
  | roxr
  deriving DecidableEq, Repr

/-- The rule of an operation for n ≥ 1. -/
def ShiftOp.apply : ShiftOp → Nat → Nat → Nat → Bool → Shifted
  | .asl => shiftAsl
  | .asr => shiftAsr
  | .lsl => shiftLsl
  | .lsr => shiftLsr
  | .rol => shiftRol
  | .ror => shiftRor
  | .roxl => shiftRoxl
  | .roxr => shiftRoxr

/-- Whether an operation rotates through X. -/
def ShiftOp.throughX : ShiftOp → Bool
  | .roxl => true
  | .roxr => true
  | _ => false

/-- Count 0 (R285): the value unchanged, C = 0 or, through X, C = X; V = 0; X unchanged. -/
def shiftZero (op : ShiftOp) (v : Nat) (x : Bool) : Shifted := ⟨v, op.throughX && x, false, x⟩

/-- A shift of a value of size `sz` by a count (R285–R293): N and Z from the result. -/
def aluShift (op : ShiftOp) (sz : Size) (n : Nat) (dv : Long) (f : Ccr) : Alu :=
  let v := (low sz dv).toNat
  let o := if n = 0 then shiftZero op v f.x else op.apply sz.bits v n f.x
  let r := BitVec.ofNat 32 o.r
  ⟨r, ⟨o.x, msb sz r, isZero sz r, o.v, o.c⟩⟩

/-! Decimal arithmetic (47_bcd.md R310–R313). -/

/-- A valid BCD byte (R310). -/
def validBcd (v : Long) : Bool :=
  decide ((v.toNat >>> 4) % 16 ≤ 9) && decide (v.toNat % 16 ≤ 9)

/-- `dec(v)` (R310). -/
def bcdValue (v : Long) : Nat := 10 * ((v.toNat >>> 4) % 16) + v.toNat % 16

/-- `bcd(t)` (R310). -/
def bcdByte (t : Nat) : Long := BitVec.ofNat 32 (((t / 10) <<< 4) ||| (t % 10))

/-- The result byte and the decimal carry of ABCD on valid operands (R311). -/
def decimalAdd (s d : Long) (x : Bool) : Long × Bool :=
  let t := bcdValue d + bcdValue s + (if x then 1 else 0)
  (bcdByte (t % 100), decide (t > 99))

/-- The result byte and the decimal borrow of SBCD on valid operands (R312); NBCD is this with D = 0 (R313). -/
def decimalSub (s d : Long) (x : Bool) : Long × Bool :=
  let t : Int := (bcdValue d : Int) - (bcdValue s : Int) - (if x then 1 else 0)
  (bcdByte ((t + 100) % 100).toNat, decide (t < 0))

/-- The condition tests (R180). -/
def condHolds (c : Cond) (f : Ccr) : Bool :=
  match c with
  | .t => true
  | .f => false
  | .hi => !f.c && !f.z
  | .ls => f.c || f.z
  | .cc => !f.c
  | .cs => f.c
  | .ne => !f.z
  | .eq => f.z
  | .vc => !f.v
  | .vs => f.v
  | .pl => !f.n
  | .mi => f.n
  | .ge => f.n == f.v
  | .lt => f.n != f.v
  | .gt => !f.z && (f.n == f.v)
  | .le => f.z || (f.n != f.v)

end Sys2Proof.Machine
end

