-- ==== Sys2Proof/Machine/Operands.lean ====
section
/-! DEFINITION. The effective-address resolver (40_ea_resolver.md R140–R160), reading and writing through its
descriptors (R155), immediates (30_encoding.md R107) and the register lists of MOVEM (42_data_movement.md R204). -/

namespace Sys2Proof.Machine

/-- The space of a memory operand (R140). -/
inductive Space where
  | data
  | program
  deriving DecidableEq, Repr

/-- A descriptor (R140). -/
inductive Desc where
  | regD (n : Fin 8)
  | regA (n : Fin 8)
  | mem (a : Long) (space : Space)
  | imm (v : Long)
  deriving DecidableEq, Repr

/-- The step of postincrement and predecrement (R143): a byte through A7 steps by 2. -/
def stepSize (n : Fin 8) (sz : Size) : Long :=
  if n = 7 ∧ sz = .b then 2 else BitVec.ofNat 32 sz.bytes

/-- The general register an extension word names in bits 15–12 (30_encoding.md R106, R107). -/
def State.extReg (s : State) (e : Word) : Long :=
  if e.getLsbD 15 then s.a[field3 e 12] else s.d[field3 e 12]

/-- The index value of a brief extension word (R154). -/
def State.indexValue (s : State) (e : Word) : Long :=
  if e.getLsbD 11 then s.extReg e else sext16 (lowWord (s.extReg e))

/-- An immediate operand of size `sz` (R107, R153): the low byte of one word, a word, or a long. -/
def immediate (sz : Size) : M Long :=
  match sz with
  | .b => do
    let e ← fetch16
    pure ((wordLowByte e).setWidth 32)
  | .w => do
    let e ← fetch16
    pure (e.setWidth 32)
  | .l => fetch32

/-- `ResolveEA(ea, sz)` (R140–R154): the extension words fetched, the increment or decrement written. -/
def resolve (ea : Ea) (sz : Size) : M Desc :=
  match ea with
  | .dn n => pure (.regD n)
  | .an n => pure (.regA n)
  | .ind n => do
    let a ← look fun s => s.a[n]
    pure (.mem a .data)
  | .pi n => do
    let a ← look fun s => s.a[n]
    upd fun s => s.setA n (a + stepSize n sz)
    pure (.mem a .data)
  | .pd n => do
    upd fun s => s.setA n (s.a[n] - stepSize n sz)
    let a ← look fun s => s.a[n]
    pure (.mem a .data)
  | .d16 n => do
    let e ← fetch16
    let a ← look fun s => s.a[n] + sext16 e
    pure (.mem a .data)
  | .d8x n => do
    let e ← fetch16
    let a ← look fun s => s.a[n] + sext8 (wordLowByte e) + s.indexValue e
    pure (.mem a .data)
  | .absW => do
    let e ← fetch16
    pure (.mem (sext16 e) .data)
  | .absL => do
    let a ← fetch32
    pure (.mem a .data)
  | .pc16 => do
    let base ← look State.pc
    let e ← fetch16
    pure (.mem (base + sext16 e) .program)
  | .pc8x => do
    let base ← look State.pc
    let e ← fetch16
    let a ← look fun s => base + sext8 (wordLowByte e) + s.indexValue e
    pure (.mem a .program)
  | .imm => do
    let v ← immediate sz
    pure (.imm v)

/-- The function code of a space under the current S (R71, R155). -/
def State.spaceFc (s : State) (sp : Space) : BitVec 3 :=
  match sp with
  | .data => s.dataFc
  | .program => s.progFc

/-- `EARead(d, sz)` (R155). -/
def eaRead (d : Desc) (sz : Size) : M Long :=
  match d with
  | .regD n => look fun s => low sz s.d[n]
  | .regA n => look fun s => low sz s.a[n]
  | .mem a sp => do
    let fc ← look fun s => s.spaceFc sp
    memRead sz fc a
  | .imm v => pure v

/-- `EAWrite(d, sz, v)` (R155): never through a program-space operand or an immediate. -/
def eaWrite (d : Desc) (sz : Size) (v : Long) : M Unit :=
  match d with
  | .regD n => upd fun s => s.setDw n sz v
  | .regA n => upd fun s => s.setAw n sz v
  | .mem a .data => writeData sz a v
  | .mem _ .program => stop (.refused .operandNotWritable)
  | .imm _ => stop (.refused .operandNotWritable)

/-- `EAAddr(d)` (R157), with the space of the operand. -/
def eaAddr (d : Desc) : M (Long × Space) :=
  match d with
  | .mem a sp => pure (a, sp)
  | .regD _ => stop (.refused .operandNotMemory)
  | .regA _ => stop (.refused .operandNotMemory)
  | .imm _ => stop (.refused .operandNotMemory)

/-- `EARead(ResolveEA(ea, sz), sz)`. -/
def readEa (ea : Ea) (sz : Size) : M Long := do
  let d ← resolve ea sz
  eaRead d sz

/-- `EAAddr(ResolveEA(ea, sz, address))` (R157). -/
def addressEa (ea : Ea) (sz : Size) : M Long := do
  let d ← resolve ea sz
  let r ← eaAddr d
  pure r.1

/-- A predecremented operand of ADDX, SUBX, ABCD and SBCD (R235, R311): the new address. -/
def predecrement (n : Fin 8) (sz : Size) : M Long := do
  upd fun s => s.setA n (s.a[n] - stepSize n sz)
  look fun s => s.a[n]

/-- A postincremented operand of CMPM (R244): the increment is written before the read, as R145 and R159 have it (log 32). -/
def readPostincrement (n : Fin 8) (sz : Size) : M Long := do
  let a ← look fun s => s.a[n]
  upd fun s => s.setA n (a + stepSize n sz)
  readData sz a

/-- A general register, as MOVEM's lists and the extension words of MOVEC and MOVES name one. -/
inductive GenReg where
  | d (n : Fin 8)
  | a (n : Fin 8)
  deriving DecidableEq, Repr

/-- The value of a general register. -/
def State.genReg (s : State) : GenReg → Long
  | .d n => s.d[n]
  | .a n => s.a[n]

/-- All 32 bits of a general register written. -/
def State.setGenReg (s : State) (r : GenReg) (v : Long) : State :=
  match r with
  | .d n => s.setD n v
  | .a n => s.setA n v

/-- The register named by bits 15–12 of the extension word of MOVEC or MOVES (R107). -/
def extGenReg (e : Word) : GenReg := if e.getLsbD 15 then .a (field3 e 12) else .d (field3 e 12)

/-- The registers of mask bits 0 to 15 in every form but predecrement (R204): D0–D7, A0–A7. -/
def movemOrder : List GenReg :=
  [.d 0, .d 1, .d 2, .d 3, .d 4, .d 5, .d 6, .d 7, .a 0, .a 1, .a 2, .a 3, .a 4, .a 5, .a 6, .a 7]

/-- The registers of mask bits 0 to 15 in the predecrement form (R204): A7–A0, D7–D0. -/
def movemPredecrementOrder : List GenReg :=
  [.a 7, .a 6, .a 5, .a 4, .a 3, .a 2, .a 1, .a 0, .d 7, .d 6, .d 5, .d 4, .d 3, .d 2, .d 1, .d 0]

/-- The registers a mask selects, from bit `i` of the mask on, in bit order (R204). -/
def maskedFrom (mask : Word) (i : Nat) : List GenReg → List GenReg
  | [] => []
  | r :: rest => if mask.getLsbD i then r :: maskedFrom mask (i + 1) rest else maskedFrom mask (i + 1) rest

/-- The registers a mask selects, in bit order (R204). -/
def maskedRegs (mask : Word) (order : List GenReg) : List GenReg := maskedFrom mask 0 order

/-- The registers stored downwards from `a`, and the last address (R204, predecrement form). -/
def storeDown (sz : Size) : List GenReg → Long → M Long
  | [], a => pure a
  | r :: rest, a => do
    let v ← look fun s => s.genReg r
    writeData sz (a - BitVec.ofNat 32 sz.bytes) v
    storeDown sz rest (a - BitVec.ofNat 32 sz.bytes)

/-- The registers stored upwards from `a` (R204, control modes). -/
def storeUp (sz : Size) : List GenReg → Long → M Unit
  | [], _ => pure ()
  | r :: rest, a => do
    let v ← look fun s => s.genReg r
    writeData sz a v
    storeUp sz rest (a + BitVec.ofNat 32 sz.bytes)

/-- The registers loaded upwards from `a`, and the address after them (R204): a word is sign-extended. -/
def loadUp (sz : Size) (sp : Space) : List GenReg → Long → M Long
  | [], a => pure a
  | r :: rest, a => do
    let fc ← look fun s => s.spaceFc sp
    let v ← memRead sz fc a
    upd fun s => s.setGenReg r (sextSize sz v)
    loadUp sz sp rest (a + BitVec.ofNat 32 sz.bytes)

end Sys2Proof.Machine
end

