-- ==== Sys2Proof/Machine/Arith.lean ====
section
/-! DEFINITION. Integer arithmetic (43_integer_arithmetic.md): the ADD, SUB and CMP groups, NEG, NEGX, CLR, EXT, TST, the
multiplications, the divisions, CHK; and the shapes the logical family shares with them. -/

namespace Sys2Proof.Machine

/-- A two-operand result from source, destination and the flags before. -/
abbrev AluOp := Size → Long → Long → Ccr → Alu

/-- `<ea>,Dn` (R230, w[8] = 0). -/
def eaDnBody (f : AluOp) (dn : Fin 8) (sz : Size) (ea : Ea) : M Unit := do
  let src ← readEa ea sz
  upd fun s =>
    let o := f sz src (low sz s.d[dn]) s.ccr
    (s.setDw dn sz o.r).setCcr o.ccr

/-- A read-modify-write of the operand a descriptor names (40_ea_resolver.md R156): read, computed, written once. -/
def modifyDesc (f : Long → Ccr → Alu) (sz : Size) (d : Desc) : M Unit := do
  let v ← eaRead d sz
  let o ← look fun s => f v s.ccr
  eaWrite d sz o.r
  upd fun s => s.setCcr o.ccr

/-- A read-modify-write of an EA, resolved once (R156). -/
def modifyEa (f : Long → Ccr → Alu) (sz : Size) (ea : Ea) : M Unit := do
  let d ← resolve ea sz
  modifyDesc f sz d

/-- `Dn,<ea>` (R230, w[8] = 1). -/
def dnEaBody (f : AluOp) (dn : Fin 8) (sz : Size) (ea : Ea) : M Unit := do
  let src ← look fun s => low sz s.d[dn]
  modifyEa (f sz src) sz ea

/-- `#imm,<ea>` (R233): the immediate's words before the EA's. -/
def immEaBody (f : AluOp) (sz : Size) (ea : Ea) : M Unit := do
  let src ← immediate sz
  modifyEa (f sz src) sz ea

/-- ADD `<ea>,Dn` (R231). -/
def execAddEaDn (dn : Fin 8) (sz : Size) (ea : Ea) (s : State) : StepOutcome := run (eaDnBody aluAdd dn sz ea) s

/-- ADD `Dn,<ea>` (R231). -/
def execAddDnEa (dn : Fin 8) (sz : Size) (ea : Ea) (s : State) : StepOutcome := run (dnEaBody aluAdd dn sz ea) s

/-- ADDI (R233). -/
def execAddi (sz : Size) (ea : Ea) (s : State) : StepOutcome := run (immEaBody aluAdd sz ea) s

/-- SUB `<ea>,Dn` (R236). -/
def execSubEaDn (dn : Fin 8) (sz : Size) (ea : Ea) (s : State) : StepOutcome := run (eaDnBody aluSub dn sz ea) s

/-- SUB `Dn,<ea>` (R236). -/
def execSubDnEa (dn : Fin 8) (sz : Size) (ea : Ea) (s : State) : StepOutcome := run (dnEaBody aluSub dn sz ea) s

/-- SUBI (R238). -/
def execSubi (sz : Size) (ea : Ea) (s : State) : StepOutcome := run (immEaBody aluSub sz ea) s

/-- ADDA (R232): the source sign-extended, all 32 bits of An, no flags. -/
def execAdda (an : Fin 8) (sz : Size) (ea : Ea) (s : State) : StepOutcome :=
  run
    (do
      let v ← readEa ea sz
      upd fun s => s.setA an (s.a[an] + sextSize sz v))
    s

/-- SUBA (R237). -/
def execSuba (an : Fin 8) (sz : Size) (ea : Ea) (s : State) : StepOutcome :=
  run
    (do
      let v ← readEa ea sz
      upd fun s => s.setA an (s.a[an] - sextSize sz v))
    s

/-- The quick operand (30_encoding.md R107): 1 to 8. -/
def quickLong (q : BitVec 3) : Long := BitVec.ofNat 32 (quickValue q.toNat)

/-- ADDQ (R234): an address register takes the sum at 32 bits and no flags. -/
def execAddq (q : BitVec 3) (sz : Size) (ea : Ea) (s : State) : StepOutcome :=
  run
    (match ea with
      | .an n => upd fun s => s.setA n (s.a[n] + quickLong q)
      | ea => modifyEa (aluAdd sz (quickLong q)) sz ea)
    s

/-- SUBQ (R239). -/
def execSubq (q : BitVec 3) (sz : Size) (ea : Ea) (s : State) : StepOutcome :=
  run
    (match ea with
      | .an n => upd fun s => s.setA n (s.a[n] - quickLong q)
      | ea => modifyEa (aluSub sz (quickLong q)) sz ea)
    s

/-- ADDX and SUBX (R235, R240): data registers, or both operands predecremented, source first. -/
def extendBody (f : AluOp) (x : Fin 8) (sz : Size) (form : RegMem) (y : Fin 8) : M Unit :=
  match form with
  | .reg => upd fun s =>
    let o := f sz (low sz s.d[y]) (low sz s.d[x]) s.ccr
    (s.setDw x sz o.r).setCcr o.ccr
  | .mem => do
    let ay ← predecrement y sz
    let src ← readData sz ay
    let ax ← predecrement x sz
    let dst ← readData sz ax
    let o ← look fun s => f sz src dst s.ccr
    writeData sz ax o.r
    upd fun s => s.setCcr o.ccr

/-- ADDX (R235). -/
def execAddx (x : Fin 8) (sz : Size) (form : RegMem) (y : Fin 8) (s : State) : StepOutcome :=
  run (extendBody aluAddx x sz form y) s

/-- SUBX (R240). -/
def execSubx (x : Fin 8) (sz : Size) (form : RegMem) (y : Fin 8) (s : State) : StepOutcome :=
  run (extendBody aluSubx x sz form y) s

/-- CMP (R241): flags only. -/
def execCmp (dn : Fin 8) (sz : Size) (ea : Ea) (s : State) : StepOutcome :=
  run
    (do
      let src ← readEa ea sz
      upd fun s => s.setCcr (cmpFlags sz src (low sz s.d[dn]) s.ccr))
    s

/-- CMPA (R242): at 32 bits after the sign extension. -/
def execCmpa (an : Fin 8) (sz : Size) (ea : Ea) (s : State) : StepOutcome :=
  run
    (do
      let v ← readEa ea sz
      upd fun s => s.setCcr (cmpFlags .l (sextSize sz v) s.a[an] s.ccr))
    s

/-- CMPI (R243). -/
def execCmpi (sz : Size) (ea : Ea) (s : State) : StepOutcome :=
  run
    (do
      let src ← immediate sz
      let dst ← readEa ea sz
      upd fun s => s.setCcr (cmpFlags sz src dst s.ccr))
    s

/-- CMPM (R244): `(Ay)+` then `(Ax)+`. -/
def execCmpm (x : Fin 8) (sz : Size) (y : Fin 8) (s : State) : StepOutcome :=
  run
    (do
      let src ← readPostincrement y sz
      let dst ← readPostincrement x sz
      upd fun s => s.setCcr (cmpFlags sz src dst s.ccr))
    s

/-- NEG (R245). -/
def execNeg (sz : Size) (ea : Ea) (s : State) : StepOutcome := run (modifyEa (aluNeg sz) sz ea) s

/-- NEGX (R246). -/
def execNegx (sz : Size) (ea : Ea) (s : State) : StepOutcome := run (modifyEa (aluNegx sz) sz ea) s

/-- Whether CLR reads a memory operand before it writes it (R247). -/
def State.clrReads (s : State) : Bool := s.cfg.dummyReads && s.cfg.variant != .m68010

/-- CLR's read of the destination, whose value is discarded (R247). -/
def clrDummyRead (sz : Size) (d : Desc) : M Unit :=
  match d with
  | .mem _ _ => do
    let on ← look State.clrReads
    match on with
    | true => do
      let _ ← eaRead d sz
      pure ()
    | false => pure ()
  | .regD _ => pure ()
  | .regA _ => pure ()
  | .imm _ => pure ()

/-- CLR (R247). -/
def execClr (sz : Size) (ea : Ea) (s : State) : StepOutcome :=
  run
    (do
      let d ← resolve ea sz
      clrDummyRead sz d
      eaWrite d sz 0
      upd fun s => s.setCcr ⟨s.ccr.x, false, true, false, false⟩)
    s

/-- EXT.W (R248): bits 31–16 unchanged. -/
def execExtW (dn : Fin 8) (s : State) : StepOutcome :=
  run
    (upd fun s =>
      let r := low .w (sext8 (lowByte s.d[dn]))
      (s.setDw dn .w r).setCcr (nz00 .w r s.ccr))
    s

/-- EXT.L (R248). -/
def execExtL (dn : Fin 8) (s : State) : StepOutcome :=
  run
    (upd fun s =>
      let r := sext16 (lowWord s.d[dn])
      (s.setD dn r).setCcr (nz00 .l r s.ccr))
    s

/-- TST (R249). -/
def execTst (sz : Size) (ea : Ea) (s : State) : StepOutcome :=
  run
    (do
      let v ← readEa ea sz
      upd fun s => s.setCcr (nz00 sz v s.ccr))
    s

/-- A multiplication into all 32 bits of Dn. -/
def multiplyBody (f : Long → Long → Ccr → Alu) (dn : Fin 8) (ea : Ea) : M Unit := do
  let src ← readEa ea .w
  upd fun s =>
    let o := f src s.d[dn] s.ccr
    (s.setD dn o.r).setCcr o.ccr

/-- MULU (R250). -/
def execMulu (dn : Fin 8) (ea : Ea) (s : State) : StepOutcome := run (multiplyBody aluMulu dn ea) s

/-- MULS (R251). -/
def execMuls (dn : Fin 8) (ea : Ea) (s : State) : StepOutcome := run (multiplyBody aluMuls dn ea) s

/-- The zero divide (R252, R253, 60_exceptions.md R406): N, Z and V free, C = 0, vector 5 with the next instruction's
address. -/
def zeroDivide : M Unit := do
  let n ← drawBit
  let z ← drawBit
  let v ← drawBit
  upd fun s => s.setCcr ⟨s.ccr.x, n, z, v, false⟩
  let pc ← look State.pc
  raise 5 pc

/-- A division's outcome written (R252, R253): on overflow Dn is unchanged, V = 1, C = 0, N and Z free. -/
def writeDivision (dn : Fin 8) : Division → M Unit
  | .overflow => do
    let n ← drawBit
    let z ← drawBit
    upd fun s => s.setCcr ⟨s.ccr.x, n, z, true, false⟩
  | .result r n z => upd fun s => (s.setD dn r).setCcr ⟨s.ccr.x, n, z, false, false⟩

/-- A division (R252, R253). -/
def divideBody (f : Long → Long → Division) (dn : Fin 8) (ea : Ea) : M Unit := do
  let src ← readEa ea .w
  match isZero .w src with
  | true => zeroDivide
  | false => do
    let o ← look fun s => f src s.d[dn]
    writeDivision dn o

/-- DIVU (R252). -/
def execDivu (dn : Fin 8) (ea : Ea) (s : State) : StepOutcome := run (divideBody divideUnsigned dn ea) s

/-- DIVS (R253). -/
def execDivs (dn : Fin 8) (ea : Ea) (s : State) : StepOutcome := run (divideBody divideSigned dn ea) s

/-- CHK (R254): signed; N says which bound was broken; Z, V and C free, N free when in bounds. -/
def execChk (dn : Fin 8) (ea : Ea) (s : State) : StepOutcome :=
  run
    (do
      let bound ← readEa ea .w
      let z ← drawBit
      let v ← drawBit
      let c ← drawBit
      let pc ← look State.pc
      let value ← look fun s => signedVal .w s.d[dn]
      match decide (value < 0), decide (value > signedVal .w bound) with
      | true, _ => do
        upd fun s => s.setCcr ⟨s.ccr.x, true, z, v, c⟩
        raise 6 pc
      | false, true => do
        upd fun s => s.setCcr ⟨s.ccr.x, false, z, v, c⟩
        raise 6 pc
      | false, false => do
        let n ← drawBit
        upd fun s => s.setCcr ⟨s.ccr.x, n, z, v, c⟩)
    s

end Sys2Proof.Machine
end

