-- ==== Sys2Proof/Machine/Bcd.lean ====
section
/-! DEFINITION. Binary-coded decimal (47_bcd.md R310–R313): ABCD, SBCD, NBCD. -/

namespace Sys2Proof.Machine

/-- The result byte and the carry (R310): exact on valid operands, else both free. -/
def bcdResult (valid : Bool) (exact : Long × Bool) : M (Long × Bool) :=
  match valid with
  | true => pure exact
  | false => do
    let r ← drawByte
    let c ← drawBit
    pure (r.setWidth 32, c)

/-- The flags (R310): X = C, Z extended, N and V free. -/
def bcdFlags (o : Long × Bool) : M Unit := do
  let n ← drawBit
  let v ← drawBit
  upd fun s => s.setCcr ⟨o.2, n, s.ccr.z && isZero .b o.1, v, o.2⟩

/-- ABCD and SBCD (R311, R312): low bytes of data registers, or predecremented bytes, source first. -/
def bcdBody (f : Long → Long → Bool → Long × Bool) (x : Fin 8) (form : RegMem) (y : Fin 8) : M Unit :=
  match form with
  | .reg => do
    let src ← look fun s => low .b s.d[y]
    let dst ← look fun s => low .b s.d[x]
    let xf ← look fun s => s.ccr.x
    let o ← bcdResult (validBcd src && validBcd dst) (f src dst xf)
    bcdFlags o
    upd fun s => s.setDw x .b o.1
  | .mem => do
    let ay ← predecrement y .b
    let src ← readData .b ay
    let ax ← predecrement x .b
    let dst ← readData .b ax
    let xf ← look fun s => s.ccr.x
    let o ← bcdResult (validBcd src && validBcd dst) (f src dst xf)
    bcdFlags o
    writeData .b ax o.1

/-- ABCD (R311). -/
def execAbcd (x : Fin 8) (form : RegMem) (y : Fin 8) (s : State) : StepOutcome := run (bcdBody decimalAdd x form y) s

/-- SBCD (R312). -/
def execSbcd (x : Fin 8) (form : RegMem) (y : Fin 8) (s : State) : StepOutcome := run (bcdBody decimalSub x form y) s

/-- NBCD (R313): 0 − Dst − X. -/
def execNbcd (ea : Ea) (s : State) : StepOutcome :=
  run
    (do
      let d ← resolve ea .b
      let dst ← eaRead d .b
      let xf ← look fun s => s.ccr.x
      let o ← bcdResult (validBcd dst) (decimalSub dst 0 xf)
      bcdFlags o
      eaWrite d .b o.1)
    s

end Sys2Proof.Machine
end

