-- ==== Sys2Proof/Machine/BitOps.lean ====
section
/-! DEFINITION. Bit manipulation (46_bit_manipulation.md R300–R304), static and dynamic forms. -/

namespace Sys2Proof.Machine

/-- The operand size (R300): the whole of a data register, or a byte. -/
def bitSize : Ea → Size
  | .dn _ => .l
  | _ => .b

/-- The bit tested (R300): the number modulo 32 or 8. -/
def bitIndex (sz : Size) (number : Nat) : Nat := number % sz.bits

/-- Z from a bit (R300): the other flags unchanged. -/
def bitFlags (sz : Size) (number : Nat) (v : Long) (f : Ccr) : Ccr :=
  ⟨f.x, f.n, !v.getLsbD (bitIndex sz number), f.v, f.c⟩

/-- What happens to the bit (R302–R304). -/
inductive BitOp where
  | change
  | clear
  | set
  deriving DecidableEq, Repr

/-- The operand with its bit changed, cleared or set (R302–R304), and the flags. -/
def aluBit (op : BitOp) (sz : Size) (number : Nat) (v : Long) (f : Ccr) : Alu :=
  let m : Long := 1 <<< bitIndex sz number
  let r := match op with
    | .change => v ^^^ m
    | .clear => v &&& ~~~m
    | .set => v ||| m
  ⟨r, bitFlags sz number v f⟩

/-- The bit number of a static form (R300): the low byte of one extension word. -/
def staticBit : M Nat := do
  let e ← fetch16
  pure (wordLowByte e).toNat

/-- The bit number of a dynamic form (R300). -/
def dynamicBit (dn : Fin 8) : M Nat := look fun s => s.d[dn].toNat

/-- BTST after its bit number (R301). -/
def testBody (number : M Nat) (ea : Ea) : M Unit := do
  let k ← number
  let v ← readEa ea (bitSize ea)
  upd fun s => s.setCcr (bitFlags (bitSize ea) k v s.ccr)

/-- BCHG, BCLR, BSET after their bit number (R302–R304). -/
def bitBody (op : BitOp) (number : M Nat) (ea : Ea) : M Unit := do
  let k ← number
  modifyEa (aluBit op (bitSize ea) k) (bitSize ea) ea

/-- BTST, static (R301). -/
def execBtstImm (ea : Ea) (s : State) : StepOutcome := run (testBody staticBit ea) s

/-- BTST, dynamic (R301). -/
def execBtstReg (dn : Fin 8) (ea : Ea) (s : State) : StepOutcome := run (testBody (dynamicBit dn) ea) s

/-- BCHG, static (R302). -/
def execBchgImm (ea : Ea) (s : State) : StepOutcome := run (bitBody .change staticBit ea) s

/-- BCHG, dynamic (R302). -/
def execBchgReg (dn : Fin 8) (ea : Ea) (s : State) : StepOutcome := run (bitBody .change (dynamicBit dn) ea) s

/-- BCLR, static (R303). -/
def execBclrImm (ea : Ea) (s : State) : StepOutcome := run (bitBody .clear staticBit ea) s

/-- BCLR, dynamic (R303). -/
def execBclrReg (dn : Fin 8) (ea : Ea) (s : State) : StepOutcome := run (bitBody .clear (dynamicBit dn) ea) s

/-- BSET, static (R304). -/
def execBsetImm (ea : Ea) (s : State) : StepOutcome := run (bitBody .set staticBit ea) s

/-- BSET, dynamic (R304). -/
def execBsetReg (dn : Fin 8) (ea : Ea) (s : State) : StepOutcome := run (bitBody .set (dynamicBit dn) ea) s

end Sys2Proof.Machine
end

