-- ==== Sys2Proof/Machine/Control.lean ====
section
/-! DEFINITION. Program control (48_program_control.md): BRA, BSR, Bcc, DBcc, Scc, JMP, JSR, RTS, RTR, NOP. -/

namespace Sys2Proof.Machine

/-- The branch target (R320): `ipc + 2` plus the 8-bit displacement, or the 16-bit one when the 8-bit one is 0. -/
def branchTarget (d8 : Byte) : M Long := do
  let base ← look State.pc
  match d8 == 0 with
  | true => do
    let e ← fetch16
    pure (base + sext16 e)
  | false => pure (base + sext8 d8)

/-- BRA (R321). -/
def execBra (d8 : Byte) (s : State) : StepOutcome :=
  run
    (do
      let t ← branchTarget d8
      upd fun s => s.setPc t)
    s

/-- BSR (R322): the address after the instruction is pushed. -/
def execBsr (d8 : Byte) (s : State) : StepOutcome :=
  run
    (do
      let t ← branchTarget d8
      let pc ← look State.pc
      push .l pc
      upd fun s => s.setPc t)
    s

/-- Bcc (R323). -/
def execBcc (c : Cond) (d8 : Byte) (s : State) : StepOutcome :=
  run
    (do
      let t ← branchTarget d8
      upd fun s => if condHolds c s.ccr then s.setPc t else s)
    s

/-- Whether the stores of the instruction before meet `[a − 2, a + 4)` (70_reset_and_hazards.md R462). -/
def State.storesMeetLoop (s : State) (a : Long) : Bool :=
  [(0 : Long), 1, 2, 3, 4, 5].any fun k => s.lastStores.contains (busAddr s.cfg (a - 2 + k))

/-- The M68010 loop-mode check of R462 for a DBcc at `a` whose branch is taken. -/
def loopModeCheck (a : Long) (e : Word) : M Unit :=
  require
    (fun s => !(s.cfg.variant == .m68010 && e == 0xFFFC && s.storesMeetLoop a))
    fun _ => .fault .prefetchHazard

/-- DBcc (R324): the low word of Dn counts; the base of the branch is the displacement word's address. -/
def execDbcc (c : Cond) (dn : Fin 8) (s : State) : StepOutcome :=
  run
    (do
      let base ← look State.pc
      let e ← fetch16
      let term ← look fun s => condHolds c s.ccr
      match term with
      | true => pure ()
      | false => do
        let count ← look fun s => lowWord s.d[dn] - 1
        upd fun s => s.setDw dn .w (count.setWidth 32)
        match count == 0xFFFF with
        | true => pure ()
        | false => do
          loopModeCheck (base - 2) e
          upd fun s => s.setPc (base + sext16 e))
    s

/-- Scc (R325). -/
def execScc (c : Cond) (ea : Ea) (s : State) : StepOutcome :=
  run
    (do
      let d ← resolve ea .b
      let v ← look fun s => if condHolds c s.ccr then (0xFF : Long) else 0
      eaWrite d .b v)
    s

/-- JMP (R326). -/
def execJmp (ea : Ea) (s : State) : StepOutcome :=
  run
    (do
      let a ← addressEa ea .l
      upd fun s => s.setPc a)
    s

/-- JSR (R327): the EA is computed before the push. -/
def execJsr (ea : Ea) (s : State) : StepOutcome :=
  run
    (do
      let a ← addressEa ea .l
      let pc ← look State.pc
      push .l pc
      upd fun s => s.setPc a)
    s

/-- RTS (R328). -/
def execRts (s : State) : StepOutcome :=
  run
    (do
      let t ← pop .l
      upd fun s => s.setPc t)
    s

/-- RTR (R329): the CCR from the low byte of a popped word, then the PC. -/
def execRtr (s : State) : StepOutcome :=
  run
    (do
      let c ← pop .w
      upd fun s => s.writeCcr (lowByte c)
      let t ← pop .l
      upd fun s => s.setPc t)
    s

/-- NOP (R330): the PC has already advanced. -/
def execNop (s : State) : StepOutcome := run (pure ()) s

end Sys2Proof.Machine
end

