-- ==== Sys2Proof/Machine/DataMove.lean ====
section
/-! DEFINITION. Data movement (42_data_movement.md): MOVE, MOVEA, MOVEQ, MOVEM, MOVEP, LEA, PEA, EXG, SWAP, LINK, UNLK. -/

namespace Sys2Proof.Machine

/-- MOVE at a size (R201): the source is resolved and read before the destination is resolved. -/
def moveBody (sz : Size) (src dst : Ea) : M Unit := do
  let v ← readEa src sz
  let d ← resolve dst sz
  eaWrite d sz v
  upd fun s => s.setCcr (nz00 sz v s.ccr)

/-- MOVE.B (R201). -/
def execMoveB (src dst : Ea) (s : State) : StepOutcome := run (moveBody .b src dst) s

/-- MOVE.W (R201). -/
def execMoveW (src dst : Ea) (s : State) : StepOutcome := run (moveBody .w src dst) s

/-- MOVE.L (R201). -/
def execMoveL (src dst : Ea) (s : State) : StepOutcome := run (moveBody .l src dst) s

/-- MOVEA at a size (R202): all 32 bits, a word sign-extended; no flags. -/
def moveaBody (sz : Size) (an : Fin 8) (src : Ea) : M Unit := do
  let v ← readEa src sz
  upd fun s => s.setAw an sz v

/-- MOVEA.W (R202). -/
def execMoveaW (an : Fin 8) (src : Ea) (s : State) : StepOutcome := run (moveaBody .w an src) s

/-- MOVEA.L (R202). -/
def execMoveaL (an : Fin 8) (src : Ea) (s : State) : StepOutcome := run (moveaBody .l an src) s

/-- MOVEQ (R203). -/
def execMoveq (dn : Fin 8) (d8 : Byte) (s : State) : StepOutcome :=
  run (upd fun s => (s.setD dn (sext8 d8)).setCcr (nz00 .l (sext8 d8) s.ccr)) s

/-- MOVEM, registers to memory (R204): the predecrement form stores downwards and writes An last; the other forms store
upwards from the address of the EA. -/
def execMovemToMem (sz : Size) (ea : Ea) (s : State) : StepOutcome :=
  run
    (do
      let mask ← fetch16
      match ea with
      | .pd n => do
        let a ← look fun s => s.a[n]
        let last ← storeDown sz (maskedRegs mask movemPredecrementOrder) a
        upd fun s => s.setA n last
      | ea => do
        let a ← addressEa ea sz
        storeUp sz (maskedRegs mask movemOrder) a)
    s

/-- The extra word read of MOVEM, memory to registers (R204, 00_scope.md R14). -/
def movemDummyRead (sp : Space) (a : Long) : M Unit := do
  let on ← look fun s => s.cfg.dummyReads
  match on with
  | true => do
    let fc ← look fun s => s.spaceFc sp
    let _ ← memRead .w fc a
    pure ()
  | false => pure ()

/-- MOVEM, memory to registers (R204): the postincrement form writes An last, over a value loaded into it. -/
def execMovemToRegs (sz : Size) (ea : Ea) (s : State) : StepOutcome :=
  run
    (do
      let mask ← fetch16
      match ea with
      | .pi n => do
        let a ← look fun s => s.a[n]
        let next ← loadUp sz .data (maskedRegs mask movemOrder) a
        movemDummyRead .data next
        upd fun s => s.setA n next
      | ea => do
        let d ← resolve ea sz
        let p ← eaAddr d
        let next ← loadUp sz p.2 (maskedRegs mask movemOrder) p.1
        movemDummyRead p.2 next)
    s

/-- Byte `n − 1 − k` of a register, the k-th byte MOVEP moves (R205: high byte first). -/
def movepByte (n k : Nat) (v : Long) : Byte := v.extractLsb' (8 * (n - 1 - k)) 8

/-- `v` with byte `n − 1 − k` replaced (R205). -/
def setMovepByte (n k : Nat) (v : Long) (b : Byte) : Long :=
  (v &&& ~~~((0xFF : Long) <<< (8 * (n - 1 - k)))) ||| (b.setWidth 32 <<< (8 * (n - 1 - k)))

/-- The bytes `k`, `k + 1`, … of MOVEP loaded from every other address from `a` (R205). -/
def movepLoad (dn : Fin 8) (n : Nat) : List Nat → Long → M Unit
  | [], _ => pure ()
  | k :: rest, a => do
    let b ← readData .b a
    upd fun s => s.setD dn (setMovepByte n k s.d[dn] (lowByte b))
    movepLoad dn n rest (a + 2)

/-- The bytes of MOVEP stored to every other address from `a` (R205). -/
def movepStore (dn : Fin 8) (n : Nat) : List Nat → Long → M Unit
  | [], _ => pure ()
  | k :: rest, a => do
    let b ← look fun s => movepByte n k s.d[dn]
    writeData .b a (b.setWidth 32)
    movepStore dn n rest (a + 2)

/-- The byte numbers of MOVEP at a size (R205: 2 or 4 bytes). -/
def movepIndexes : Size → List Nat
  | .l => [0, 1, 2, 3]
  | _ => [0, 1]

/-- MOVEP (R205). -/
def execMovep (dn : Fin 8) (dir : MoveDir) (sz : Size) (an : Fin 8) (s : State) : StepOutcome :=
  run
    (do
      let e ← fetch16
      let a ← look fun s => s.a[an] + sext16 e
      match dir with
      | .memToReg => movepLoad dn (movepIndexes sz).length (movepIndexes sz) a
      | .regToMem => movepStore dn (movepIndexes sz).length (movepIndexes sz) a)
    s

/-- LEA (R206): the full 32-bit address; no memory access. -/
def execLea (an : Fin 8) (ea : Ea) (s : State) : StepOutcome :=
  run
    (do
      let a ← addressEa ea .l
      upd fun s => s.setA an a)
    s

/-- PEA (R207): the address is computed before A7 is decremented. -/
def execPea (ea : Ea) (s : State) : StepOutcome :=
  run
    (do
      let a ← addressEa ea .l
      push .l a)
    s

/-- EXG Dx,Dy (R208). -/
def execExgDxDy (x y : Fin 8) (s : State) : StepOutcome :=
  run (upd fun s => (s.setD x s.d[y]).setD y s.d[x]) s

/-- EXG Ax,Ay (R208). -/
def execExgAxAy (x y : Fin 8) (s : State) : StepOutcome :=
  run (upd fun s => (s.setA x s.a[y]).setA y s.a[x]) s

/-- EXG Dx,Ay (R208). -/
def execExgDxAy (x y : Fin 8) (s : State) : StepOutcome :=
  run (upd fun s => (s.setD x s.a[y]).setA y s.d[x]) s

/-- The halves of a long exchanged (R209). -/
def swapHalves (v : Long) : Long := joinWords (lowWord v) (highWord v)

/-- SWAP (R209). -/
def execSwap (dn : Fin 8) (s : State) : StepOutcome :=
  run (upd fun s => (s.setD dn (swapHalves s.d[dn])).setCcr (nz00 .l (swapHalves s.d[dn]) s.ccr)) s

/-- LINK (R210): for A7 the value stored is the one already decremented. -/
def execLink (an : Fin 8) (s : State) : StepOutcome :=
  run
    (do
      let e ← fetch16
      upd fun s => s.setA 7 (s.a[7] - 4)
      let sp ← look fun s => s.a[7]
      let v ← look fun s => s.a[an]
      writeData .l sp v
      upd fun s => s.setA an s.a[7]
      upd fun s => s.setA 7 (s.a[7] + sext16 e))
    s

/-- UNLK (R211): for A7 the value read overwrites the increment. -/
def execUnlk (an : Fin 8) (s : State) : StepOutcome :=
  run
    (do
      upd fun s => s.setA 7 s.a[an]
      let v ← pop .l
      upd fun s => s.setA an v)
    s

end Sys2Proof.Machine
end

