-- ==== Sys2Proof/Machine/Logic.lean ====
section
/-! DEFINITION. Logical instructions (44_logical.md): AND, ANDI, OR, ORI, EOR, EORI, NOT, TAS. -/

namespace Sys2Proof.Machine

/-- AND `<ea>,Dn` (R271). -/
def execAndEaDn (dn : Fin 8) (sz : Size) (ea : Ea) (s : State) : StepOutcome := run (eaDnBody aluAnd dn sz ea) s

/-- AND `Dn,<ea>` (R271). -/
def execAndDnEa (dn : Fin 8) (sz : Size) (ea : Ea) (s : State) : StepOutcome := run (dnEaBody aluAnd dn sz ea) s

/-- ANDI (R272). -/
def execAndi (sz : Size) (ea : Ea) (s : State) : StepOutcome := run (immEaBody aluAnd sz ea) s

/-- OR `<ea>,Dn` (R273). -/
def execOrEaDn (dn : Fin 8) (sz : Size) (ea : Ea) (s : State) : StepOutcome := run (eaDnBody aluOr dn sz ea) s

/-- OR `Dn,<ea>` (R273). -/
def execOrDnEa (dn : Fin 8) (sz : Size) (ea : Ea) (s : State) : StepOutcome := run (dnEaBody aluOr dn sz ea) s

/-- ORI (R274). -/
def execOri (sz : Size) (ea : Ea) (s : State) : StepOutcome := run (immEaBody aluOr sz ea) s

/-- EOR (R275). -/
def execEor (dn : Fin 8) (sz : Size) (ea : Ea) (s : State) : StepOutcome := run (dnEaBody aluEor dn sz ea) s

/-- EORI (R276). -/
def execEori (sz : Size) (ea : Ea) (s : State) : StepOutcome := run (immEaBody aluEor sz ea) s

/-- NOT (R277). -/
def execNotOp (sz : Size) (ea : Ea) (s : State) : StepOutcome := run (modifyEa (aluNot sz) sz ea) s

/-- TAS (R278): the flags from the byte before bit 7 is set. -/
def aluTas (v : Long) (f : Ccr) : Alu := ⟨v ||| 0x80, nz00 .b v f⟩

/-- TAS (R278): the read and the write back to back. -/
def execTas (ea : Ea) (s : State) : StepOutcome := run (modifyEa aluTas .b ea) s

end Sys2Proof.Machine
end

