-- ==== Sys2Proof/Machine/Shift.lean ====
section
/-! DEFINITION. Shifts and rotates (45_shift_rotate.md R285–R293), register and memory forms. -/

namespace Sys2Proof.Machine

/-- The count of a register form (R285): the field with 000 meaning 8, or a data register modulo 64. -/
def State.shiftCount (s : State) (g : CountKind) (k : Fin 8) : Nat :=
  match g with
  | .immediate => quickValue k.val
  | .register => s.d[k].toNat % 64

/-- A register form (R285): `D[y]` at size `sz` shifted by the count. -/
def shiftRegBody (op : ShiftOp) (k : Fin 8) (sz : Size) (g : CountKind) (y : Fin 8) : M Unit :=
  upd fun s =>
    let o := aluShift op sz (s.shiftCount g k) s.d[y] s.ccr
    (s.setDw y sz o.r).setCcr o.ccr

/-- A memory form (R285): a word, by 1, read and written once. -/
def shiftEaBody (op : ShiftOp) (ea : Ea) : M Unit := modifyEa (aluShift op .w 1) .w ea

/-- ASR, register form (R287). -/
def execAsrReg (k : Fin 8) (sz : Size) (g : CountKind) (y : Fin 8) (s : State) : StepOutcome :=
  run (shiftRegBody .asr k sz g y) s

/-- ASR, memory form (R287). -/
def execAsrEa (ea : Ea) (s : State) : StepOutcome := run (shiftEaBody .asr ea) s

/-- ASL, register form (R286). -/
def execAslReg (k : Fin 8) (sz : Size) (g : CountKind) (y : Fin 8) (s : State) : StepOutcome :=
  run (shiftRegBody .asl k sz g y) s

/-- ASL, memory form (R286). -/
def execAslEa (ea : Ea) (s : State) : StepOutcome := run (shiftEaBody .asl ea) s

/-- LSR, register form (R289). -/
def execLsrReg (k : Fin 8) (sz : Size) (g : CountKind) (y : Fin 8) (s : State) : StepOutcome :=
  run (shiftRegBody .lsr k sz g y) s

/-- LSR, memory form (R289). -/
def execLsrEa (ea : Ea) (s : State) : StepOutcome := run (shiftEaBody .lsr ea) s

/-- LSL, register form (R288). -/
def execLslReg (k : Fin 8) (sz : Size) (g : CountKind) (y : Fin 8) (s : State) : StepOutcome :=
  run (shiftRegBody .lsl k sz g y) s

/-- LSL, memory form (R288). -/
def execLslEa (ea : Ea) (s : State) : StepOutcome := run (shiftEaBody .lsl ea) s

/-- ROXR, register form (R293). -/
def execRoxrReg (k : Fin 8) (sz : Size) (g : CountKind) (y : Fin 8) (s : State) : StepOutcome :=
  run (shiftRegBody .roxr k sz g y) s

/-- ROXR, memory form (R293). -/
def execRoxrEa (ea : Ea) (s : State) : StepOutcome := run (shiftEaBody .roxr ea) s

/-- ROXL, register form (R292). -/
def execRoxlReg (k : Fin 8) (sz : Size) (g : CountKind) (y : Fin 8) (s : State) : StepOutcome :=
  run (shiftRegBody .roxl k sz g y) s

/-- ROXL, memory form (R292). -/
def execRoxlEa (ea : Ea) (s : State) : StepOutcome := run (shiftEaBody .roxl ea) s

/-- ROR, register form (R291). -/
def execRorReg (k : Fin 8) (sz : Size) (g : CountKind) (y : Fin 8) (s : State) : StepOutcome :=
  run (shiftRegBody .ror k sz g y) s

/-- ROR, memory form (R291). -/
def execRorEa (ea : Ea) (s : State) : StepOutcome := run (shiftEaBody .ror ea) s

/-- ROL, register form (R290). -/
def execRolReg (k : Fin 8) (sz : Size) (g : CountKind) (y : Fin 8) (s : State) : StepOutcome :=
  run (shiftRegBody .rol k sz g y) s

/-- ROL, memory form (R290). -/
def execRolEa (ea : Ea) (s : State) : StepOutcome := run (shiftEaBody .rol ea) s

end Sys2Proof.Machine
end

