-- ==== Sys2Proof/Machine/System.lean ====
section
/-! DEFINITION. System control (49_system_control.md): the CCR and SR instructions, STOP, MOVE USP, RESET, RTE, RTD, the
traps, BKPT, MOVEC, MOVES and the emulator lines. -/

namespace Sys2Proof.Machine

/-- ANDI, ORI, EORI to CCR (R341–R343): the low byte of one extension word. -/
def ccrImmBody (f : Byte → Byte → Byte) : M Unit := do
  let e ← fetch16
  upd fun s => s.writeCcr (f s.ccr.toByte (wordLowByte e))

/-- ANDI to CCR (R341). -/
def execAndiToCcr (s : State) : StepOutcome := run (ccrImmBody fun a b => a &&& b) s

/-- ORI to CCR (R342). -/
def execOriToCcr (s : State) : StepOutcome := run (ccrImmBody fun a b => a ||| b) s

/-- EORI to CCR (R343). -/
def execEoriToCcr (s : State) : StepOutcome := run (ccrImmBody fun a b => a ^^^ b) s

/-- ANDI, ORI, EORI to SR (R344–R346): privileged. -/
def srImmBody (f : Word → Word → Word) : M Unit := do
  privileged
  let e ← fetch16
  upd fun s => s.writeSr (f s.sr e)

/-- ANDI to SR (R344). -/
def execAndiToSr (s : State) : StepOutcome := run (srImmBody fun a b => a &&& b) s

/-- ORI to SR (R345). -/
def execOriToSr (s : State) : StepOutcome := run (srImmBody fun a b => a ||| b) s

/-- EORI to SR (R346). -/
def execEoriToSr (s : State) : StepOutcome := run (srImmBody fun a b => a ^^^ b) s

/-- MOVE to CCR (R347): a word source, its high byte ignored. -/
def execMoveToCcr (ea : Ea) (s : State) : StepOutcome :=
  run
    (do
      let v ← readEa ea .w
      upd fun s => s.writeCcr (lowByte v))
    s

/-- MOVE from CCR (R348), M68010. -/
def execMoveFromCcr (ea : Ea) (s : State) : StepOutcome :=
  run
    (do
      onM68010
      let d ← resolve ea .w
      let v ← look fun s => s.ccr.toByte.setWidth 32
      eaWrite d .w v)
    s

/-- MOVE to SR (R349), privileged: the source is resolved with the old S. -/
def execMoveToSr (ea : Ea) (s : State) : StepOutcome :=
  run
    (do
      privileged
      let v ← readEa ea .w
      upd fun s => s.writeSr (lowWord v))
    s

/-- The privilege check of MOVE from SR (R351): on M68010 only. -/
def privilegedOnM68010 : M Unit :=
  require (fun s => s.cfg.variant != .m68010 || s.sBit) fun s => .exception 8 s.ipc

/-- MOVE from SR (R351). -/
def execMoveFromSr (ea : Ea) (s : State) : StepOutcome :=
  run
    (do
      privilegedOnM68010
      let d ← resolve ea .w
      let v ← look fun s => s.sr.setWidth 32
      eaWrite d .w v)
    s

/-- STOP (R350), privileged. -/
def execStop (s : State) : StepOutcome :=
  run
    (do
      privileged
      let v ← fetch16
      upd fun s => { s.writeSr v with runState := .stopped })
    s

/-- MOVE An,USP (R352), privileged: S = 1, so the USP is `SP_inactive`. -/
def execMoveAnUsp (an : Fin 8) (s : State) : StepOutcome :=
  run
    (do
      privileged
      upd fun s => s.setSpInactive s.a[an])
    s

/-- MOVE USP,An (R352), privileged. -/
def execMoveUspAn (an : Fin 8) (s : State) : StepOutcome :=
  run
    (do
      privileged
      upd fun s => s.setA an s.spInactive)
    s

/-- RESET (R353), privileged: `reset_out()` and nothing else. -/
def execReset (s : State) : StepOutcome :=
  run
    (do
      privileged
      upd fun s => s.addCall .resetOut)
    s

/-- RTE (R354), privileged. -/
def execRte (s : State) : StepOutcome :=
  run
    (do
      privileged
      returnFromException)
    s

/-- RTD (R355), M68010. -/
def execRtd (s : State) : StepOutcome :=
  run
    (do
      onM68010
      let e ← fetch16
      let t ← pop .l
      upd fun s => s.setA 7 (s.a[7] + sext16 e)
      upd fun s => s.setPc t)
    s

/-- TRAP (R356): vector 32 + v, saved PC `ipc + 2`. -/
def execTrap (v : BitVec 4) (s : State) : StepOutcome :=
  run
    (do
      let pc ← look State.pc
      raise (32 + v.setWidth 8) pc)
    s

/-- TRAPV (R357): vector 7 when V = 1, saved PC `ipc + 2`. -/
def execTrapv (s : State) : StepOutcome := run (require (fun s => !s.ccr.v) fun s => .exception 7 s.pc) s

/-- A raise with saved PC `ipc`. -/
def raiseAtIpc (v : Byte) : M Unit := do
  let ipc ← look State.ipc
  raise v ipc

/-- ILLEGAL (R358). -/
def execIllegal (s : State) : StepOutcome := run (raiseAtIpc 4) s

/-- BKPT (R359): never acknowledged, so the illegal-instruction exception; on M68000 and M68008 the same (R112). -/
def execBkpt (_v : BitVec 3) (s : State) : StepOutcome := run (raiseAtIpc 4) s

/-- The control registers of MOVEC (R360). -/
inductive ControlReg where
  | sfc
  | dfc
  | usp
  | vbr
  deriving DecidableEq, Repr

/-- The control register of a code (R360); any other code names none. -/
def controlReg (code : Nat) : Option ControlReg :=
  match code with
  | 0x000 => some .sfc
  | 0x001 => some .dfc
  | 0x800 => some .usp
  | 0x801 => some .vbr
  | _ => none

/-- A control register read (R360): SFC and DFC zero-extended; the USP is `SP_inactive`, since S = 1. -/
def State.controlValue (s : State) : ControlReg → Long
  | .sfc => s.sfc.setWidth 32
  | .dfc => s.dfc.setWidth 32
  | .usp => s.spInactive
  | .vbr => s.vbr

/-- A control register written (R360): SFC and DFC keep bits 2–0. -/
def State.setControl (s : State) (r : ControlReg) (v : Long) : State :=
  match r with
  | .sfc => { s with sfc := v.setWidth 3 }
  | .dfc => { s with dfc := v.setWidth 3 }
  | .usp => s.setSpInactive v
  | .vbr => { s with vbr := v }

/-- MOVEC after its extension word (R360): an unknown code raises the illegal-instruction exception. -/
def movecBody (f : ControlReg → GenReg → State → State) : M Unit := do
  onM68010
  privileged
  let ipc ← look State.ipc
  let e ← fetch16
  match controlReg (e.toNat % 4096) with
  | some r => upd (f r (extGenReg e))
  | none => raise 4 ipc

/-- MOVEC Rc,Rn (R360). -/
def execMovecRcRn (s : State) : StepOutcome :=
  run (movecBody fun r g s => s.setGenReg g (s.controlValue r)) s

/-- MOVEC Rn,Rc (R360). -/
def execMovecRnRc (s : State) : StepOutcome :=
  run (movecBody fun r g s => s.setControl r (s.genReg g)) s

/-- Whether the EA of MOVES updates the address register that MOVES stores (R361). -/
def movesSelfUpdate (r : GenReg) (ea : Ea) : Bool :=
  match ea with
  | .pi n => r == .a n
  | .pd n => r == .a n
  | _ => false

/-- The value MOVES stores (R361): the register, or, from an address register it also updates, free between its value
before and its value after the update (log 27). -/
def movesSource (r : GenReg) (ea : Ea) (before : Long) : M Long := do
  let now ← look fun s => s.genReg r
  match movesSelfUpdate r ea with
  | true => do
    let pick ← drawBit
    pure (if pick then now else before)
  | false => pure now

/-- The value MOVES reads written to its register (R361): a data register at the size, an address register sign-extended
to 32 bits. -/
def State.setMoves (s : State) (r : GenReg) (sz : Size) (v : Long) : State :=
  match r with
  | .d n => s.setDw n sz v
  | .a n => s.setA n (sextSize sz v)

/-- MOVES (R361), M68010, privileged: a store with DFC, a read with SFC. -/
def execMoves (sz : Size) (ea : Ea) (s : State) : StepOutcome :=
  run
    (do
      onM68010
      privileged
      let e ← fetch16
      let before ← look fun s => s.genReg (extGenReg e)
      let a ← addressEa ea sz
      match e.getLsbD 11 with
      | true => do
        let v ← movesSource (extGenReg e) ea before
        let fc ← look State.dfc
        memWrite sz fc a v
      | false => do
        let fc ← look State.sfc
        let v ← memRead sz fc a
        upd fun s => s.setMoves (extGenReg e) sz v)
    s

/-- Line 1010 emulator (R362): the low bits are not examined. -/
def execLineA (_low : BitVec 12) (s : State) : StepOutcome := run (raiseAtIpc 10) s

/-- Line 1111 emulator (R363). -/
def execLineF (_low : BitVec 12) (s : State) : StepOutcome := run (raiseAtIpc 11) s

end Sys2Proof.Machine
end

