-- ==== Sys2Proof/Machine/Dispatch.lean ====
section
/-! DEFINITION. The dispatch: one arm per instruction, each one direct call of its meaning. -/

namespace Sys2Proof.Machine

/-- The effect of an instruction on a state whose PC has passed the operation word (42_data_movement.md R200). -/
def exec (i : Instr) (s : State) : Host.Outcome State Fault Refusal :=
  match i with
  | .oriToCcr => Sys2Proof.Machine.execOriToCcr s
  | .oriToSr => Sys2Proof.Machine.execOriToSr s
  | .ori sz ea => Sys2Proof.Machine.execOri sz ea s
  | .andiToCcr => Sys2Proof.Machine.execAndiToCcr s
  | .andiToSr => Sys2Proof.Machine.execAndiToSr s
  | .andi sz ea => Sys2Proof.Machine.execAndi sz ea s
  | .subi sz ea => Sys2Proof.Machine.execSubi sz ea s
  | .addi sz ea => Sys2Proof.Machine.execAddi sz ea s
  | .btstImm ea => Sys2Proof.Machine.execBtstImm ea s
  | .bchgImm ea => Sys2Proof.Machine.execBchgImm ea s
  | .bclrImm ea => Sys2Proof.Machine.execBclrImm ea s
  | .bsetImm ea => Sys2Proof.Machine.execBsetImm ea s
  | .eoriToCcr => Sys2Proof.Machine.execEoriToCcr s
  | .eoriToSr => Sys2Proof.Machine.execEoriToSr s
  | .eori sz ea => Sys2Proof.Machine.execEori sz ea s
  | .cmpi sz ea => Sys2Proof.Machine.execCmpi sz ea s
  | .moves sz ea => Sys2Proof.Machine.execMoves sz ea s
  | .btstReg dn ea => Sys2Proof.Machine.execBtstReg dn ea s
  | .bchgReg dn ea => Sys2Proof.Machine.execBchgReg dn ea s
  | .bclrReg dn ea => Sys2Proof.Machine.execBclrReg dn ea s
  | .bsetReg dn ea => Sys2Proof.Machine.execBsetReg dn ea s
  | .movep dn dir sz an => Sys2Proof.Machine.execMovep dn dir sz an s
  | .moveB src dst => Sys2Proof.Machine.execMoveB src dst s
  | .moveW src dst => Sys2Proof.Machine.execMoveW src dst s
  | .moveL src dst => Sys2Proof.Machine.execMoveL src dst s
  | .moveaW an src => Sys2Proof.Machine.execMoveaW an src s
  | .moveaL an src => Sys2Proof.Machine.execMoveaL an src s
  | .negx sz ea => Sys2Proof.Machine.execNegx sz ea s
  | .moveFromSr ea => Sys2Proof.Machine.execMoveFromSr ea s
  | .chk dn ea => Sys2Proof.Machine.execChk dn ea s
  | .lea an ea => Sys2Proof.Machine.execLea an ea s
  | .clr sz ea => Sys2Proof.Machine.execClr sz ea s
  | .moveFromCcr ea => Sys2Proof.Machine.execMoveFromCcr ea s
  | .neg sz ea => Sys2Proof.Machine.execNeg sz ea s
  | .moveToCcr ea => Sys2Proof.Machine.execMoveToCcr ea s
  | .notOp sz ea => Sys2Proof.Machine.execNotOp sz ea s
  | .moveToSr ea => Sys2Proof.Machine.execMoveToSr ea s
  | .nbcd ea => Sys2Proof.Machine.execNbcd ea s
  | .swap dn => Sys2Proof.Machine.execSwap dn s
  | .bkpt v => Sys2Proof.Machine.execBkpt v s
  | .pea ea => Sys2Proof.Machine.execPea ea s
  | .extW dn => Sys2Proof.Machine.execExtW dn s
  | .extL dn => Sys2Proof.Machine.execExtL dn s
  | .movemToMem sz ea => Sys2Proof.Machine.execMovemToMem sz ea s
  | .tst sz ea => Sys2Proof.Machine.execTst sz ea s
  | .tas ea => Sys2Proof.Machine.execTas ea s
  | .illegal => Sys2Proof.Machine.execIllegal s
  | .movemToRegs sz ea => Sys2Proof.Machine.execMovemToRegs sz ea s
  | .trap v => Sys2Proof.Machine.execTrap v s
  | .link an => Sys2Proof.Machine.execLink an s
  | .unlk an => Sys2Proof.Machine.execUnlk an s
  | .moveAnUsp an => Sys2Proof.Machine.execMoveAnUsp an s
  | .moveUspAn an => Sys2Proof.Machine.execMoveUspAn an s
  | .reset => Sys2Proof.Machine.execReset s
  | .nop => Sys2Proof.Machine.execNop s
  | .stop => Sys2Proof.Machine.execStop s
  | .rte => Sys2Proof.Machine.execRte s
  | .rtd => Sys2Proof.Machine.execRtd s
  | .rts => Sys2Proof.Machine.execRts s
  | .trapv => Sys2Proof.Machine.execTrapv s
  | .rtr => Sys2Proof.Machine.execRtr s
  | .movecRcRn => Sys2Proof.Machine.execMovecRcRn s
  | .movecRnRc => Sys2Proof.Machine.execMovecRnRc s
  | .jsr ea => Sys2Proof.Machine.execJsr ea s
  | .jmp ea => Sys2Proof.Machine.execJmp ea s
  | .addq q sz ea => Sys2Proof.Machine.execAddq q sz ea s
  | .subq q sz ea => Sys2Proof.Machine.execSubq q sz ea s
  | .dbcc c dn => Sys2Proof.Machine.execDbcc c dn s
  | .scc c ea => Sys2Proof.Machine.execScc c ea s
  | .bra d8 => Sys2Proof.Machine.execBra d8 s
  | .bsr d8 => Sys2Proof.Machine.execBsr d8 s
  | .bcc c d8 => Sys2Proof.Machine.execBcc c d8 s
  | .moveq dn d8 => Sys2Proof.Machine.execMoveq dn d8 s
  | .orEaDn dn sz ea => Sys2Proof.Machine.execOrEaDn dn sz ea s
  | .orDnEa dn sz ea => Sys2Proof.Machine.execOrDnEa dn sz ea s
  | .divu dn ea => Sys2Proof.Machine.execDivu dn ea s
  | .divs dn ea => Sys2Proof.Machine.execDivs dn ea s
  | .sbcd x form y => Sys2Proof.Machine.execSbcd x form y s
  | .subEaDn dn sz ea => Sys2Proof.Machine.execSubEaDn dn sz ea s
  | .subDnEa dn sz ea => Sys2Proof.Machine.execSubDnEa dn sz ea s
  | .suba an sz ea => Sys2Proof.Machine.execSuba an sz ea s
  | .subx x sz form y => Sys2Proof.Machine.execSubx x sz form y s
  | .lineA low => Sys2Proof.Machine.execLineA low s
  | .cmp dn sz ea => Sys2Proof.Machine.execCmp dn sz ea s
  | .cmpa an sz ea => Sys2Proof.Machine.execCmpa an sz ea s
  | .eor dn sz ea => Sys2Proof.Machine.execEor dn sz ea s
  | .cmpm x sz y => Sys2Proof.Machine.execCmpm x sz y s
  | .andEaDn dn sz ea => Sys2Proof.Machine.execAndEaDn dn sz ea s
  | .andDnEa dn sz ea => Sys2Proof.Machine.execAndDnEa dn sz ea s
  | .mulu dn ea => Sys2Proof.Machine.execMulu dn ea s
  | .muls dn ea => Sys2Proof.Machine.execMuls dn ea s
  | .abcd x form y => Sys2Proof.Machine.execAbcd x form y s
  | .exgDxDy x y => Sys2Proof.Machine.execExgDxDy x y s
  | .exgAxAy x y => Sys2Proof.Machine.execExgAxAy x y s
  | .exgDxAy x y => Sys2Proof.Machine.execExgDxAy x y s
  | .addEaDn dn sz ea => Sys2Proof.Machine.execAddEaDn dn sz ea s
  | .addDnEa dn sz ea => Sys2Proof.Machine.execAddDnEa dn sz ea s
  | .adda an sz ea => Sys2Proof.Machine.execAdda an sz ea s
  | .addx x sz form y => Sys2Proof.Machine.execAddx x sz form y s
  | .asrReg k sz g y => Sys2Proof.Machine.execAsrReg k sz g y s
  | .aslReg k sz g y => Sys2Proof.Machine.execAslReg k sz g y s
  | .lsrReg k sz g y => Sys2Proof.Machine.execLsrReg k sz g y s
  | .lslReg k sz g y => Sys2Proof.Machine.execLslReg k sz g y s
  | .roxrReg k sz g y => Sys2Proof.Machine.execRoxrReg k sz g y s
  | .roxlReg k sz g y => Sys2Proof.Machine.execRoxlReg k sz g y s
  | .rorReg k sz g y => Sys2Proof.Machine.execRorReg k sz g y s
  | .rolReg k sz g y => Sys2Proof.Machine.execRolReg k sz g y s
  | .asrEa ea => Sys2Proof.Machine.execAsrEa ea s
  | .aslEa ea => Sys2Proof.Machine.execAslEa ea s
  | .lsrEa ea => Sys2Proof.Machine.execLsrEa ea s
  | .lslEa ea => Sys2Proof.Machine.execLslEa ea s
  | .roxrEa ea => Sys2Proof.Machine.execRoxrEa ea s
  | .roxlEa ea => Sys2Proof.Machine.execRoxlEa ea s
  | .rorEa ea => Sys2Proof.Machine.execRorEa ea s
  | .rolEa ea => Sys2Proof.Machine.execRolEa ea s
  | .lineF low => Sys2Proof.Machine.execLineF low s

end Sys2Proof.Machine
end

