-- ==== Sys2Proof/Machine/Boundary.lean ====
section
/-! DEFINITION. The step at a boundary (60_exceptions.md R431): marks, trace, interrupts (R416–R423), the hold of STOP
and one instruction (70_reset_and_hazards.md R461, R465). -/

namespace Sys2Proof.Machine

/-- Recognition (R417, R419), without the write of `prev_level`. -/
def State.recognized (s : State) : Bool :=
  s.intLevel.val != 0 &&
    (decide (s.intLevel.val > s.iMask.toNat) ||
      (s.intLevel.val == 7 && s.cfg.level7Nmi &&
        (s.cfg.intLineMode == .consumed || decide (s.prevLevel.val < 7))))

/-- `if INT_LINE_MODE = level_held: prev_level <- L` (R417). -/
def State.sampleLine (s : State) : State :=
  match s.cfg.intLineMode with
  | .consumed => s
  | .levelHeld => { s with prevLevel := s.intLevel }

/-- `if INT_LINE_MODE = consumed: int_level <- 0` (R421). -/
def State.consumeRequest (s : State) : State :=
  match s.cfg.intLineMode with
  | .consumed => { s with intLevel := 0 }
  | .levelHeld => s

/-- The vector an acknowledge answer selects for a level (R420). -/
def iackVector (ans : IackAnswer) (l : Fin 8) : Byte :=
  match ans with
  | .autovector => BitVec.ofNat 8 (24 + l.val)
  | .vector n => n
  | .spurious => 24
  | .uninitialized => 15

/-- The state at the start of a step: what has changed outside the core since the step before (20_memory.md R76, R81), and
the model's per-step fields cleared (log 15, 16). -/
def State.beginStep (s : State) : State :=
  { s with
    mem := changeBytes s.cfg (nextChanges s.agents) s.mem
    agents := s.agents.tail
    calls := []
    ir := none
    entered := none
    resetFetch := false }

/-- Interrupt entry (R421): the acknowledge has function code 7 (20_memory.md R71), and a request raised inside it stays
pending, since a consumed one is cleared before. -/
def interruptEntry (s : State) : StepOutcome :=
  takeException (iackVector s.cfg.iack[s.intLevel] s.intLevel) s.pc (some (BitVec.ofNat 3 s.intLevel.val))
    (s.consumeRequest.addCall (.iack s.intLevel 7))

/-- The bus addresses of the bytes of an access (20_memory.md R72). -/
def accessBytes (cfg : Config) (sz : Size) (a : Long) : List Nat :=
  (List.range sz.bytes).map fun k => busAddr cfg (a + BitVec.ofNat 32 k)

/-- The bus addresses of every byte the calls of a step wrote (R461; log 17). -/
def storedBytes (cfg : Config) : List BusCall → List Nat
  | [] => []
  | .write sz a _ _ :: rest => accessBytes cfg sz a ++ storedBytes cfg rest
  | .read _ _ _ :: rest => storedBytes cfg rest
  | .fetch16 _ _ :: rest => storedBytes cfg rest
  | .resetOut :: rest => storedBytes cfg rest
  | .iack _ _ :: rest => storedBytes cfg rest

/-- The commit of an instruction step (R461): when it entered no exception, its stores and the sequential next address
are kept for the hazard check of the next step. -/
def State.commit (seqEnd : Long) (s : State) : State :=
  match s.entered with
  | some _ => s
  | none => { s with lastStores := storedBytes s.cfg s.calls, seqEnd := seqEnd }

/-- The commit of an outcome. -/
def commitOutcome (seqEnd : Long) : StepOutcome → StepOutcome
  | .next s => .next (s.commit seqEnd)
  | .fault r => .fault r
  | .refused r => .refused r

/-- `trace_pending <- (T = 1) and TRACE_ENABLED` (R424). -/
def State.latchTrace (s : State) : State := { s with tracePending := s.tBit && s.cfg.traceEnabled }

/-- IR (R426). -/
def State.setIr (s : State) (w : Word) : State := { s with ir := some w }

/-- The instruction of an operation word run and committed (R465); a word that no row takes raises the illegal-instruction
exception (30_encoding.md R112). -/
def runOpcode (w : Word) (s : State) : StepOutcome :=
  match decodeWord w with
  | some i => commitOutcome (s.ipc + BitVec.ofNat 32 i.lengthBytes) (exec i s)
  | none => takeException 4 s.ipc none s

/-- An address error of the fetch of an operation word: the first fetch after reset is part of reset processing, so there
it is a double fault (R427, R451; on M68010 log 20). -/
def takeFetchError (afterReset : Bool) (e : AddressError) (s : State) : StepOutcome :=
  match afterReset, s.cfg.addressErrorMode, s.cfg.variant with
  | true, .exception, .m68000 => .fault .haltedDoubleFault
  | true, .exception, .m68008 => .fault .haltedDoubleFault
  | true, .exception, .m68010 => takeAddressError e s
  | true, .fault, _ => takeAddressError e s
  | false, _, _ => takeAddressError e s

/-- One instruction step (R465). -/
def executeInstruction (afterReset : Bool) (s : State) : StepOutcome :=
  match fetch16 s.latchTrace with
  | .ok w t => runOpcode w (t.setIr w)
  | .error (.addressError e) t => takeFetchError afterReset e t
  | .error e t => finish (.error e t)

/-- The step of a core that is neither marked nor halted (R431). A hold is a next state (log 9). -/
def activeStep (s : State) : StepOutcome :=
  match s.tracePending, s.recognized, s.runState with
  | true, _, _ => takeException 9 s.pc none s.beginStep
  | false, true, _ => interruptEntry s.sampleLine.beginStep
  | false, false, .stopped => .next s.sampleLine.beginStep
  | false, false, .running => executeInstruction s.resetFetch s.sampleLine.beginStep
  | false, false, .halted => .fault .haltedDoubleFault

/-- The step (R431): a marked state answers its mark (10_state.md R53; log 10), a core with no bus collaborator is
refused (00_scope.md R27), a HALTED core has no step. -/
def boundaryStep (s : State) : StepOutcome :=
  match s.faultMark, s.refusedMark, s.cfg.busCollaborator, s.runState with
  | some r, _, _, _ => .fault r
  | none, some r, _, _ => .refused r
  | none, none, false, _ => .refused .noBusCollaborator
  | none, none, true, .halted => .fault .haltedDoubleFault
  | none, none, true, .running => activeStep s
  | none, none, true, .stopped => activeStep s

/-- The bytes of an instruction of the opcode table: `words` words, most significant byte first, bits above `nbits`
zero. -/
def tableBytes (nbits w : Nat) : Nat → List Byte
  | 0 => []
  | words + 1 => tableBytes nbits w words ++ bytesOfWord (BitVec.ofNat 16 ((w % 2 ^ nbits) >>> (16 * words)))

/-- Bytes stored at rising addresses in program space (20_memory.md R73). -/
def State.pokeProgram (s : State) : Long → List Byte → State
  | _, [] => s
  | a, b :: rest => (s.pokeByte s.progFc a b).pokeProgram (a + 1) rest

end Sys2Proof.Machine
end

