-- ==== Sys2Proof/Machine/Step.lean ====
section
/-! DEFINITION. The step, and an instruction placed where the step fetches. -/

namespace Sys2Proof.Machine

/-- One step of the core (60_exceptions.md R431). -/
def step (s : State) : Host.Outcome State Fault Refusal := boundaryStep s

/-- An instruction of the opcode table stored at the PC, in the program space of the current mode, its five words (the
longest instruction, 30_encoding.md R100) in memory order; nothing outside the core changes them or
answers otherwise (log 26). -/
def State.withFetchWord (s : State) (nbits w : Nat) : State :=
  { s.pokeProgram s.pc (tableBytes nbits w 5) with script := [], agents := [] }

end Sys2Proof.Machine
end

