-- ==== Sys2Proof/Machine/HostOps.lean ====
section
/-! DEFINITION. What the host can do between steps (60_exceptions.md R440–R444): configuration (00_scope.md R29),
`raise_interrupt`, register get and set (10_state.md R52), `reset()` (70_reset_and_hazards.md R450) and `execute` (R465). -/

namespace Sys2Proof.Machine

/-- A refusal marks the whole state, and a mark is never replaced (00_scope.md R20, 10_state.md R53). -/
def State.refuse (s : State) (r : Refusal) : State := { s with refusedMark := s.refusedMark.or (some r) }

/-- Bytes changed between steps by the collaborator, the host or another agent (20_memory.md R81). -/
def State.changed (s : State) (cs : List Change) : State := { s with mem := changeBytes s.cfg cs s.mem }

/-- What is to happen outside the core in the bus calls and before the steps to come (R81, R441; log 5). -/
def State.withInputs (s : State) (script : List Reaction) (agents : List (List Change)) : State :=
  { s with script := script, agents := agents }

/-- A fault recorded (R53); a double fault halts the core (R427). -/
def State.recordFault (s : State) (r : Fault) : State :=
  { s with
    faultMark := s.faultMark.or (some r)
    runState := if r = .haltedDoubleFault then .halted else s.runState }

/-- The configuration of a requested variant (R3); the M68020 is refused (R29). -/
def configure (v : RequestedVariant) (cfg : Config) : Except Refusal Config :=
  match v with
  | .m68000 => .ok { cfg with variant := .m68000 }
  | .m68008 => .ok { cfg with variant := .m68008 }
  | .m68010 => .ok { cfg with variant := .m68010 }
  | .m68020 => .error .variantNotModelled

/-- `raise_interrupt(level)` (R441) between `execute` calls: a level outside 0..7 is refused. One from inside a call of the
collaborator is a `Callback` of the script. -/
def raiseInterrupt (level : Int) (s : State) : State :=
  if validLevel level then { s with intLevel := Fin.ofNat 8 level.toNat } else s.refuse .hostPrecondition

/-- The registers the host reaches (R52). -/
inductive HostReg where
  | d (n : Fin 8)
  | a (n : Fin 8)
  | usp
  | ssp
  | pc
  | sr
  | vbr
  | sfc
  | dfc
  deriving DecidableEq, Repr

/-- The registers that only the M68010 has (R44, R45). -/
def HostReg.m68010Only : HostReg → Bool
  | .vbr => true
  | .sfc => true
  | .dfc => true
  | .d _ => false
  | .a _ => false
  | .usp => false
  | .ssp => false
  | .pc => false
  | .sr => false

/-- Whether the variant has a register (R44, R45; log 24). -/
def State.hasReg (s : State) (r : HostReg) : Bool := !r.m68010Only || s.cfg.variant == .m68010

/-- The value of a register. -/
def State.hostValue (s : State) : HostReg → Long
  | .d n => s.d[n]
  | .a n => s.a[n]
  | .usp => s.usp
  | .ssp => s.ssp
  | .pc => s.pc
  | .sr => s.sr.setWidth 32
  | .vbr => s.vbr
  | .sfc => s.sfc.setWidth 32
  | .dfc => s.dfc.setWidth 32

/-- What a register get leaves: the state and the value, none where it is refused. -/
structure GetResult where
  state : State
  value : Option Long
  deriving DecidableEq, Repr

/-- A register get (R52, R442): it changes nothing. Of a register that the variant has not (log 24) it is refused, and marks
the state as a set does (00_scope.md R20). -/
def hostGet (r : HostReg) (s : State) : GetResult :=
  if s.hasReg r then ⟨s, some (s.hostValue r)⟩ else ⟨s.refuse .hostPrecondition, none⟩

/-- A register written (R52): the SR through `WriteSR`, the USP and the SSP wherever they are. -/
def State.hostWrite (s : State) (r : HostReg) (v : Long) : State :=
  match r with
  | .d n => s.setD n v
  | .a n => s.setA n v
  | .usp => if s.sBit then s.setSpInactive v else s.setA 7 v
  | .ssp => if s.sBit then s.setA 7 v else s.setSpInactive v
  | .pc => s.setPc v
  | .sr => s.writeSr (lowWord v)
  | .vbr => { s with vbr := v }
  | .sfc => { s with sfc := v.setWidth 3 }
  | .dfc => { s with dfc := v.setWidth 3 }

/-- A register set (R52, R442); of a register that the variant has not (log 24) it is refused. -/
def hostSet (r : HostReg) (v : Long) (s : State) : State :=
  if s.hasReg r then s.hostWrite r v else s.refuse .hostPrecondition

/-- The draws of R450 into A0–A6 and D0–D7 or one of them. -/
def drawRegs (write : State → Fin 8 → Long → State) : List (Fin 8) → M Unit
  | [] => pure ()
  | n :: rest => do
    let v ← drawLong
    upd fun s => write s n v
    drawRegs write rest

/-- The M68010's part of `reset()` (R450). -/
def resetM68010 : M Unit := do
  let variant ← look fun s => s.cfg.variant
  match variant with
  | .m68000 => pure ()
  | .m68008 => pure ()
  | .m68010 => do
    let sfc ← drawByte
    let dfc ← drawByte
    upd fun s => { s with vbr := 0, sfc := sfc.setWidth 3, dfc := dfc.setWidth 3 }

/-- `reset()` (R450, R444). -/
def resetSequence : M Unit := do
  upd fun s =>
    { s with tracePending := false, lastStores := [], tBit := false, sBit := true, iMask := 7, calls := [], ir := none,
             entered := none, resetFetch := true }
  let x ← drawBit
  let n ← drawBit
  let z ← drawBit
  let v ← drawBit
  let c ← drawBit
  upd fun s => s.setCcr ⟨x, n, z, v, c⟩
  drawRegs State.setD [0, 1, 2, 3, 4, 5, 6, 7]
  drawRegs State.setA [0, 1, 2, 3, 4, 5, 6]
  let sp ← drawLong
  upd fun s => s.setSpInactive sp
  resetM68010
  upd fun s => { s with runState := .running }
  let ssp ← memRead .l 6 0
  upd fun s => s.setA 7 ssp
  let pc ← memRead .l 6 4
  upd fun s => s.setPc pc

/-- `reset()` as a host call: it is aligned at addresses 0 and 4, so it always completes. DESIGN CHOICE (log 31): with no
bus collaborator it is refused, as 00_scope.md R27 says of host misuse; the spec names the answer of `execute` only. -/
def hostReset (s : State) : State :=
  if s.cfg.busCollaborator then
    match resetSequence s with
    | .ok _ t => t
    | .error _ t => t
  else s.refuse .noBusCollaborator

/-- What a step that has led to a state is charged for (R465). -/
def State.cycleEvent (s : State) : CycleEvent :=
  match s.ir, s.entered with
  | some w, e => .instruction w e
  | none, some v => .entry v
  | none, none => .hold

/-- `CYCLES` (00_scope.md R12, R467): NOP costs 4, every other cost is positive and free (log 22). -/
def cycles (v : Variant) (e : CycleEvent) : Nat :=
  if e = .instruction 0x4E71 none then 4 else Config.freeCycles v e + 1

/-- What `execute` leaves: the state and the cycles it returns, none of a marked state. -/
structure ExecuteResult where
  state : State
  consumed : Option Nat
  deriving DecidableEq, Repr

/-- A fault or a refusal is recorded (10_state.md R53). -/
def State.marked (s : State) : Bool := s.faultMark.isSome || s.refusedMark.isSome

/-- The hold condition of `execute` (R465): STOPPED with nothing to take. -/
def State.holds (s : State) : Bool := s.runState == .stopped && !s.tracePending && !s.recognized

/-- The loop of `execute` (R465). Every cost is positive, so `fuel = budget` steps are enough. What happens outside the core
in the calls of one step or before a step is seen by the next (R441, R447). DESIGN CHOICE (log 10): the spec does not define `execute` on a marked
state; here it leaves the state and returns no cycles, whatever the run state, a STOPPED core with nothing to take
included. -/
def executeLoop (budget : Nat) : Nat → Nat → State → ExecuteResult
  | 0, consumed, s => ⟨s, if s.marked then none else some consumed⟩
  | fuel + 1, consumed, s =>
    if s.marked then ⟨s, none⟩
    else if consumed < budget then
      if s.holds then ⟨s, some budget⟩
      else
        match step s with
        | .next t => executeLoop budget fuel (consumed + cycles t.cfg.variant t.cycleEvent) t
        | .fault r => ⟨s.recordFault r, none⟩
        | .refused r => ⟨s.refuse r, none⟩
    else ⟨s, some consumed⟩

/-- `execute(budget)` (R440, R465). On a marked state it is the model's choice (log 10). -/
def execute (budget : Int) (s : State) : ExecuteResult :=
  if budget ≤ 0 then ⟨s.refuse .hostPrecondition, none⟩
  else if s.cfg.busCollaborator then executeLoop budget.toNat budget.toNat 0 s
  else ⟨s.refuse .noBusCollaborator, none⟩

end Sys2Proof.Machine
end

