-- ==== Sys2Proof/Safety.lean ====
section
/-! DEFINITION. What counts as a safe state and a safe step, and the closed forms that statements are written with: the
instruction stream, operands, stack and exception entry read off a state, with no early exit. -/

namespace Sys2Proof.Machine

/-! The instruction stream. -/

/-- A word that can be fetched: at an even address (20_memory.md R74), not stored into by the instruction before
(70_reset_and_hazards.md R461). -/
def State.wordReady (s : State) (a : Long) : Bool := !isOdd a && !s.staleWord a

/-- The next `n` words can be fetched. -/
def State.streamReady (s : State) (n : Nat) : Bool :=
  (List.range n).all fun k => s.wordReady (s.pc + BitVec.ofNat 32 (2 * k))

/-- One word fetched (R19). -/
def State.skipWord (s : State) : State := (s.addCall (.fetch16 s.pc s.progFc)).setPc (s.pc + 2)

/-- `n` words fetched. -/
def State.skip (s : State) : Nat → State
  | 0 => s
  | n + 1 => s.skipWord.skip n

/-- The k-th word from the PC (00_scope.md R19), as it is answered when the fetches before it have been made. -/
def State.streamWord (s : State) (k : Nat) : Word :=
  lowWord ((s.skip k).loaded .w s.progFc (s.pc + BitVec.ofNat 32 (2 * k)))

/-- The long of the k-th and the next word, high word first (R19). -/
def State.streamLong (s : State) (k : Nat) : Long := joinWords (s.streamWord k) (s.streamWord (k + 1))

/-! Operands (40_ea_resolver.md). -/

/-- The immediate operand at the PC (30_encoding.md R107). -/
def State.immValue (s : State) (sz : Size) : Long :=
  match sz with
  | .b => (wordLowByte (s.streamWord 0)).setWidth 32
  | .w => (s.streamWord 0).setWidth 32
  | .l => s.streamLong 0

/-- The descriptor of an operand whose extension words begin at the PC (R141–R153). -/
def State.eaDesc (s : State) (ea : Ea) (sz : Size) : Desc :=
  match ea with
  | .dn n => .regD n
  | .an n => .regA n
  | .ind n => .mem s.a[n] .data
  | .pi n => .mem s.a[n] .data
  | .pd n => .mem (s.a[n] - stepSize n sz) .data
  | .d16 n => .mem (s.a[n] + sext16 (s.streamWord 0)) .data
  | .d8x n => .mem (s.a[n] + sext8 (wordLowByte (s.streamWord 0)) + s.indexValue (s.streamWord 0)) .data
  | .absW => .mem (sext16 (s.streamWord 0)) .data
  | .absL => .mem (s.streamLong 0) .data
  | .pc16 => .mem (s.pc + sext16 (s.streamWord 0)) .program
  | .pc8x => .mem (s.pc + sext8 (wordLowByte (s.streamWord 0)) + s.indexValue (s.streamWord 0)) .program
  | .imm => .imm (s.immValue sz)

/-- The state after an operand is resolved: its words fetched, its register stepped (R143–R153). -/
def State.afterEa (s : State) (ea : Ea) (sz : Size) : State :=
  match ea with
  | .pi n => s.setA n (s.a[n] + stepSize n sz)
  | .pd n => s.setA n (s.a[n] - stepSize n sz)
  | .dn _ => s
  | .an _ => s
  | .ind _ => s
  | .d16 _ => s.skip 1
  | .d8x _ => s.skip 1
  | .absW => s.skip 1
  | .absL => s.skip 2
  | .pc16 => s.skip 1
  | .pc8x => s.skip 1
  | .imm => s.skip (immWords sz)

/-- An address at which an access of a size is no address error (20_memory.md R74). -/
def alignedAt (sz : Size) (a : Long) : Bool := sz == .b || !isOdd a

/-- An access of a descriptor is no address error. -/
def Desc.aligned (d : Desc) (sz : Size) : Bool :=
  match d with
  | .mem a _ => alignedAt sz a
  | .regD _ => true
  | .regA _ => true
  | .imm _ => true

/-- A read made, with its bus call (20_memory.md R70). -/
def State.load (s : State) (sz : Size) (fc : BitVec 3) (a : Long) : State := s.addCall (.read sz a fc)

/-- The value a descriptor reads as (R155). -/
def State.descValue (s : State) (d : Desc) (sz : Size) : Long :=
  match d with
  | .regD n => low sz s.d[n]
  | .regA n => low sz s.a[n]
  | .mem a sp => s.loaded sz (s.spaceFc sp) a
  | .imm v => v

/-- The keys of the bytes of an access (20_memory.md R72). -/
def accessKeys (cfg : Config) (sz : Size) (fc : BitVec 3) (a : Long) : List Nat :=
  (List.range sz.bytes).map fun k => memKey cfg fc (a + BitVec.ofNat 32 k)

/-- A write made, with its bus call (R70, R73). -/
def State.store (s : State) (sz : Size) (fc : BitVec 3) (a : Long) (v : Long) : State :=
  (s.addCall (.write sz a fc (low sz v))).poke sz fc a v

/-- The state after a descriptor is read (R155). -/
def State.afterRead (s : State) (d : Desc) (sz : Size) : State :=
  match d with
  | .mem a sp => s.load sz (s.spaceFc sp) a
  | .regD _ => s
  | .regA _ => s
  | .imm _ => s

/-- The state after a descriptor is written (R155). -/
def State.afterWrite (s : State) (d : Desc) (sz : Size) (v : Long) : State :=
  match d with
  | .regD n => s.setDw n sz v
  | .regA n => s.setAw n sz v
  | .mem a _ => s.store sz s.dataFc a v
  | .imm _ => s

/-- An operand can be reached: its words can be fetched and its address is aligned. -/
def State.eaReady (s : State) (ea : Ea) (sz : Size) : Bool :=
  s.streamReady (ea.extWords sz) && (s.eaDesc ea sz).aligned sz

/-- The value of an operand (R155), read after it is resolved. -/
def State.eaValue (s : State) (ea : Ea) (sz : Size) : Long := (s.afterEa ea sz).descValue (s.eaDesc ea sz) sz

/-- The state after an operand is resolved and read. -/
def State.afterReadEa (s : State) (ea : Ea) (sz : Size) : State :=
  (s.afterEa ea sz).afterRead (s.eaDesc ea sz) sz

/-- The address of an operand in memory (R157); 0 for a register or an immediate, which has none. -/
def State.eaAddress (s : State) (ea : Ea) (sz : Size) : Long :=
  match s.eaDesc ea sz with
  | .mem a _ => a
  | .regD _ => 0
  | .regA _ => 0
  | .imm _ => 0

/-- A result written to a data register and the flags. -/
def State.putD (s : State) (dn : Fin 8) (sz : Size) (o : Alu) : State := (s.setDw dn sz o.r).setCcr o.ccr

/-- A read-modify-write of an operand: resolved and read once, written once at the same place (R156), then the flags. -/
def State.modified (s : State) (f : Long → Ccr → Alu) (sz : Size) (ea : Ea) : State :=
  let o := f (s.eaValue ea sz) s.ccr
  ((s.afterReadEa ea sz).afterWrite (s.eaDesc ea sz) sz o.r).setCcr o.ccr

/-! The stack (20_memory.md R86). -/

/-- A push made. -/
def State.pushed (s : State) (sz : Size) (v : Long) : State :=
  (s.setA 7 (s.a[7] - BitVec.ofNat 32 sz.bytes)).store sz s.dataFc (s.a[7] - BitVec.ofNat 32 sz.bytes) v

/-- The value a pop takes. -/
def State.stackTop (s : State) (sz : Size) : Long := s.loaded sz s.dataFc s.a[7]

/-- A pop made. -/
def State.popped (s : State) (sz : Size) : State :=
  (s.load sz s.dataFc s.a[7]).setA 7 (s.a[7] + BitVec.ofNat 32 sz.bytes)

/-- The stack pointer is even, so every word and long on the stack is aligned. -/
def State.stackReady (s : State) : Bool := !isOdd s.a[7]

/-! Exception entry (60_exceptions.md R410). -/

/-- Entry is no address error: the supervisor stack pointer and the vector's address are even. -/
def State.entryReady (s : State) (v : Byte) : Bool := !isOdd s.ssp && !isOdd (s.vectorAddr v)

/-- Supervisor mode, T = 0 and the new mask (R410). -/
def State.enterMode (s : State) (newI : Option (BitVec 3)) : State :=
  { s.setS true with tBit := false, iMask := newI.getD s.iMask }

/-- The format word of an M68010 frame pushed (R410, R411). -/
def State.withFormatWord (s : State) (v : Byte) : State :=
  match s.cfg.variant with
  | .m68010 => s.pushed .w ((formatWord v).setWidth 32)
  | .m68000 => s
  | .m68008 => s

/-- The frame pushed (R410, R411): on M68010 the format word, then the PC, then the old SR. -/
def State.withFrame (s : State) (v : Byte) (savedPc : Long) (old : Word) : State :=
  ((s.withFormatWord v).pushed .l savedPc).pushed .w (old.setWidth 32)

/-- The handler's address read and taken (R410, R413). -/
def State.vectored (s : State) (v : Byte) (discard : Bool) : State :=
  { s.load .l 5 (s.vectorAddr v) with
    pc := s.loaded .l 5 (s.vectorAddr v)
    tracePending := s.tracePending && !discard
    runState := .running
    lastStores := []
    entered := some v }

/-- The state after `Enter(v, savedPc, newI)` (R410). -/
def State.entry (s : State) (v : Byte) (savedPc : Long) (newI : Option (BitVec 3)) : State :=
  ((s.enterMode newI).withFrame v savedPc s.sr).vectored v (discardsTrace v)

/-! Lists of registers (42_data_movement.md R204, R205). -/

/-- Registers stored downwards from `a`. -/
def State.storedDown (s : State) (sz : Size) : List GenReg → Long → State
  | [], _ => s
  | r :: rest, a =>
    (s.store sz s.dataFc (a - BitVec.ofNat 32 sz.bytes) (s.genReg r)).storedDown sz rest (a - BitVec.ofNat 32 sz.bytes)

/-- Registers stored upwards from `a`. -/
def State.storedUp (s : State) (sz : Size) : List GenReg → Long → State
  | [], _ => s
  | r :: rest, a => (s.store sz s.dataFc a (s.genReg r)).storedUp sz rest (a + BitVec.ofNat 32 sz.bytes)

/-- Registers loaded upwards from `a`. -/
def State.loadedUp (s : State) (sz : Size) (sp : Space) : List GenReg → Long → State
  | [], _ => s
  | r :: rest, a =>
    ((s.load sz (s.spaceFc sp) a).setGenReg r (sextSize sz (s.loaded sz (s.spaceFc sp) a))).loadedUp sz sp rest
      (a + BitVec.ofNat 32 sz.bytes)

/-- The address `n` transfers of a size above `a`. -/
def addressUp (sz : Size) (n : Nat) (a : Long) : Long := a + BitVec.ofNat 32 (n * sz.bytes)

/-- The address `n` transfers of a size below `a`. -/
def addressDown (sz : Size) (n : Nat) (a : Long) : Long := a - BitVec.ofNat 32 (n * sz.bytes)

/-- The extra word read of MOVEM made, when `DUMMY_READS` (R204). -/
def State.dummyRead (s : State) (sp : Space) (a : Long) : State :=
  if s.cfg.dummyReads then s.load .w (s.spaceFc sp) a else s

/-- Bytes of a register stored to every other address (R205). -/
def State.movepStored (s : State) (dn : Fin 8) (n : Nat) : List Nat → Long → State
  | [], _ => s
  | k :: rest, a =>
    (s.store .b s.dataFc a ((movepByte n k s.d[dn]).setWidth 32)).movepStored dn n rest (a + 2)

/-- Bytes of a register loaded from every other address (R205). -/
def State.movepLoaded (s : State) (dn : Fin 8) (n : Nat) : List Nat → Long → State
  | [], _ => s
  | k :: rest, a =>
    ((s.load .b s.dataFc a).setD dn (setMovepByte n k s.d[dn] (lowByte (s.loaded .b s.dataFc a)))).movepLoaded dn n rest (a + 2)

/-- Free values drawn (00_scope.md R20). -/
def State.drawn (s : State) (n : Nat) : State := { s with draws := s.draws + n }

/-- A predecremented operand read (43_integer_arithmetic.md R235): its address, its value, and the state after. -/
def State.predAddress (s : State) (n : Fin 8) (sz : Size) : Long := s.a[n] - stepSize n sz

/-- The value of a predecremented operand. -/
def State.predValue (s : State) (n : Fin 8) (sz : Size) : Long := s.loaded sz s.dataFc (s.predAddress n sz)

/-- The state after a predecremented operand is read. -/
def State.afterPred (s : State) (n : Fin 8) (sz : Size) : State :=
  (s.setA n (s.predAddress n sz)).load sz s.dataFc (s.predAddress n sz)

/-- The value of a postincremented operand (R244). -/
def State.postValue (s : State) (n : Fin 8) (sz : Size) : Long := s.loaded sz s.dataFc s.a[n]

/-- The state after a postincremented operand is read (R244). -/
def State.afterPost (s : State) (n : Fin 8) (sz : Size) : State :=
  (s.setA n (s.a[n] + stepSize n sz)).load sz s.dataFc s.a[n]

/-- Two predecremented operands, source first, can be read (R235, R311). -/
def State.predPairReady (s : State) (x y : Fin 8) (sz : Size) : Bool :=
  alignedAt sz (s.predAddress y sz) && alignedAt sz ((s.afterPred y sz).predAddress x sz)

/-- How many free values a decimal result takes (47_bcd.md R310). -/
def bcdDraws (valid : Bool) : Nat := if valid then 0 else 2

/-- The result byte and the carry (R310): exact on valid operands, else free. -/
def State.bcdOutcome (s : State) (valid : Bool) (exact : Long × Bool) : Long × Bool :=
  if valid then exact else ((Config.freeByte s.draws).setWidth 32, Config.freeBit (s.draws + 1))

/-- The flags of a decimal result and the free values drawn (R310): X = C, Z extended, N and V free. -/
def State.afterBcd (s : State) (valid : Bool) (o : Long × Bool) : State :=
  ((s.drawn (bcdDraws valid)).drawn 2).setCcr
    ⟨o.2, Config.freeBit (s.draws + bcdDraws valid), s.ccr.z && isZero .b o.1,
      Config.freeBit (s.draws + bcdDraws valid + 1), o.2⟩

/-- The state after a branch's displacement word, if it has one (48_program_control.md R320). -/
def State.afterDisp (s : State) (d8 : Byte) : State := if d8 = 0 then s.skip 1 else s

/-- The target of a branch (R320). -/
def State.dispTarget (s : State) (d8 : Byte) : Long :=
  s.pc + (if d8 = 0 then sext16 (s.streamWord 0) else sext8 d8)

/-! What happens outside the core (20_memory.md R81; 60_exceptions.md R441). -/

/-- Nothing outside the core changes the byte of a key before the next step. -/
def State.undisturbed (s : State) (k : Nat) : Bool :=
  (nextChanges s.agents).all fun c => memKey s.cfg c.fc c.addr != k

/-- No call comes back into the core in the calls to come. -/
def State.noCallbacks (s : State) : Bool := s.script.all fun r => r.callbacks.isEmpty

/-! Safe states and safe steps. -/

/-- A key of the byte store: a bus address, in the store of some function code when the spaces are separate
(20_memory.md R71, R72). -/
def validKey (cfg : Config) (k : Nat) : Bool :=
  if cfg.fcSeparateSpaces then decide (k % 2 ^ 32 < 2 ^ addressBits cfg) && decide (k / 2 ^ 32 < 8)
  else decide (k < 2 ^ addressBits cfg)

/-- The invariant: memory in its canonical form and inside the bus address space, the hazard's addresses bus addresses
(70_reset_and_hazards.md R461), no trace pending where trace is disabled (60_exceptions.md R425), and no VBR, SFC or DFC
other than 0 on a variant that has none (10_state.md R44, R45). -/
def State.Inv (s : State) : Bool :=
  Memory.wf s.mem && (s.mem.all fun c => validKey s.cfg c.1) &&
    (s.lastStores.all fun k => decide (k < 2 ^ addressBits s.cfg)) &&
    (!s.tracePending || s.cfg.traceEnabled) &&
    (s.cfg.variant == .m68010 || (s.vbr == 0 && s.sfc == 0 && s.dfc == 0))

/-- An access of the core that R74 allows: a byte, or an even address. -/
def BusCall.aligned : BusCall → Bool
  | .read sz a _ => alignedAt sz a
  | .write sz a _ _ => alignedAt sz a
  | .fetch16 a _ => !isOdd a
  | .resetOut => true
  | .iack _ _ => true

/-- The keys of the bytes a list of calls has written. -/
def writtenKeys (cfg : Config) : List BusCall → List Nat
  | [] => []
  | .write sz a fc _ :: rest => accessKeys cfg sz fc a ++ writtenKeys cfg rest
  | .read _ _ _ :: rest => writtenKeys cfg rest
  | .fetch16 _ _ :: rest => writtenKeys cfg rest
  | .resetOut :: rest => writtenKeys cfg rest
  | .iack _ _ :: rest => writtenKeys cfg rest

/-- A core that runs an instruction at its next step (60_exceptions.md R431): unmarked, with a bus collaborator, RUNNING,
no trace pending, no interrupt recognized. -/
def State.runsNext (s : State) : Bool :=
  s.faultMark.isNone && s.refusedMark.isNone && s.cfg.busCollaborator && s.runState == .running && !s.tracePending &&
    !s.recognized

/-- A core whose next step is one of R431 at all: unmarked, with a bus collaborator, not HALTED. -/
def State.active (s : State) : Bool :=
  s.faultMark.isNone && s.refusedMark.isNone && s.cfg.busCollaborator && s.runState != .halted

/-- A finished run, between `execute` calls (R468): unmarked, and holding in STOPPED with I = 7 and nothing to take, or at
the exit address its launch names. -/
def State.finished (exit : Option Long) (s : State) : Bool :=
  !s.marked && ((s.holds && s.iMask == 7) || exit == some s.pc)

/-- The state in which a meaning starts (42_data_movement.md R200, 70_reset_and_hazards.md R465): the operation word `w`
fetched, trace latched. -/
def State.atMeaning (s : State) (w : Word) : State := (s.sampleLine.beginStep.latchTrace.skipWord).setIr w

end Sys2Proof.Machine

namespace Sys2Proof

open Machine

/-! What an instruction may change, instruction by instruction. -/

/-- The privileged rows (49_system_control.md R340), by variant. -/
def Instr.privilegedOn (v : Variant) : Instr → Bool
  | .andiToSr => true
  | .oriToSr => true
  | .eoriToSr => true
  | .moveToSr _ => true
  | .moveAnUsp _ => true
  | .moveUspAn _ => true
  | .reset => true
  | .rte => true
  | .stop => true
  | .moveFromSr _ => v == .m68010
  | .movecRcRn => v == .m68010
  | .movecRnRc => v == .m68010
  | .moves _ _ => v == .m68010
  | _ => false

/-- A data register named by an operand. -/
def Ea.dataRegs : Ea → List (Fin 8)
  | .dn n => [n]
  | _ => []

/-- The address register an operand steps (40_ea_resolver.md R143). -/
def Ea.stepped : Ea → List (Fin 8)
  | .pi n => [n]
  | .pd n => [n]
  | _ => []

/-- The data registers of a list. -/
def dataRegsOf : List GenReg → List (Fin 8)
  | [] => []
  | .d n :: rest => n :: dataRegsOf rest
  | .a _ :: rest => dataRegsOf rest

/-- The address registers of a list. -/
def addrRegsOf : List GenReg → List (Fin 8)
  | [] => []
  | .d _ :: rest => addrRegsOf rest
  | .a n :: rest => n :: addrRegsOf rest

/-- The data registers an instruction may write. -/
def Instr.dataDests (s : State) : Instr → List (Fin 8)
  | .ori _ ea => ea.dataRegs
  | .andi _ ea => ea.dataRegs
  | .subi _ ea => ea.dataRegs
  | .addi _ ea => ea.dataRegs
  | .eori _ ea => ea.dataRegs
  | .bchgImm ea => ea.dataRegs
  | .bclrImm ea => ea.dataRegs
  | .bsetImm ea => ea.dataRegs
  | .bchgReg _ ea => ea.dataRegs
  | .bclrReg _ ea => ea.dataRegs
  | .bsetReg _ ea => ea.dataRegs
  | .movep dn .memToReg _ _ => [dn]
  | .moveB _ dst => dst.dataRegs
  | .moveW _ dst => dst.dataRegs
  | .moveL _ dst => dst.dataRegs
  | .negx _ ea => ea.dataRegs
  | .moveFromSr ea => ea.dataRegs
  | .clr _ ea => ea.dataRegs
  | .moveFromCcr ea => ea.dataRegs
  | .neg _ ea => ea.dataRegs
  | .notOp _ ea => ea.dataRegs
  | .nbcd ea => ea.dataRegs
  | .swap dn => [dn]
  | .extW dn => [dn]
  | .extL dn => [dn]
  | .tas ea => ea.dataRegs
  | .movemToRegs _ _ => dataRegsOf (maskedRegs (s.streamWord 0) movemOrder)
  | .movecRcRn => dataRegsOf [extGenReg (s.streamWord 0)]
  | .moves _ _ => dataRegsOf [extGenReg (s.streamWord 0)]
  | .addq _ _ ea => ea.dataRegs
  | .subq _ _ ea => ea.dataRegs
  | .dbcc _ dn => [dn]
  | .scc _ ea => ea.dataRegs
  | .moveq dn _ => [dn]
  | .orEaDn dn _ _ => [dn]
  | .orDnEa _ _ ea => ea.dataRegs
  | .divu dn _ => [dn]
  | .divs dn _ => [dn]
  | .sbcd x .reg _ => [x]
  | .subEaDn dn _ _ => [dn]
  | .subDnEa _ _ ea => ea.dataRegs
  | .subx x _ .reg _ => [x]
  | .eor _ _ ea => ea.dataRegs
  | .andEaDn dn _ _ => [dn]
  | .andDnEa _ _ ea => ea.dataRegs
  | .mulu dn _ => [dn]
  | .muls dn _ => [dn]
  | .abcd x .reg _ => [x]
  | .exgDxDy x y => [x, y]
  | .exgDxAy x _ => [x]
  | .addEaDn dn _ _ => [dn]
  | .addDnEa _ _ ea => ea.dataRegs
  | .addx x _ .reg _ => [x]
  | .asrReg _ _ _ y => [y]
  | .aslReg _ _ _ y => [y]
  | .lsrReg _ _ _ y => [y]
  | .lslReg _ _ _ y => [y]
  | .roxrReg _ _ _ y => [y]
  | .roxlReg _ _ _ y => [y]
  | .rorReg _ _ _ y => [y]
  | .rolReg _ _ _ y => [y]
  | _ => []

/-- The address register an operand of ADDQ or SUBQ names (43_integer_arithmetic.md R234). -/
def Ea.addrRegs : Ea → List (Fin 8)
  | .an n => [n]
  | _ => []

/-- The address registers an instruction may write: its destination, those its operands step, and A7 where it moves the
stack pointer or writes S. -/
def Instr.addrDests (s : State) : Instr → List (Fin 8)
  | .oriToSr => [7]
  | .andiToSr => [7]
  | .eoriToSr => [7]
  | .ori _ ea => ea.stepped
  | .andi _ ea => ea.stepped
  | .subi _ ea => ea.stepped
  | .addi _ ea => ea.stepped
  | .eori _ ea => ea.stepped
  | .cmpi _ ea => ea.stepped
  | .btstImm ea => ea.stepped
  | .bchgImm ea => ea.stepped
  | .bclrImm ea => ea.stepped
  | .bsetImm ea => ea.stepped
  | .btstReg _ ea => ea.stepped
  | .bchgReg _ ea => ea.stepped
  | .bclrReg _ ea => ea.stepped
  | .bsetReg _ ea => ea.stepped
  | .moves _ ea => ea.stepped ++ addrRegsOf [extGenReg (s.streamWord 0)]
  | .moveB src dst => src.stepped ++ dst.stepped
  | .moveW src dst => src.stepped ++ dst.stepped
  | .moveL src dst => src.stepped ++ dst.stepped
  | .moveaW an src => an :: src.stepped
  | .moveaL an src => an :: src.stepped
  | .negx _ ea => ea.stepped
  | .moveFromSr ea => ea.stepped
  | .chk _ ea => ea.stepped
  | .lea an _ => [an]
  | .clr _ ea => ea.stepped
  | .moveFromCcr ea => ea.stepped
  | .neg _ ea => ea.stepped
  | .moveToCcr ea => ea.stepped
  | .notOp _ ea => ea.stepped
  | .moveToSr ea => 7 :: ea.stepped
  | .nbcd ea => ea.stepped
  | .pea _ => [7]
  | .movemToMem _ ea => ea.stepped
  | .tst _ ea => ea.stepped
  | .tas ea => ea.stepped
  | .movemToRegs _ ea => ea.stepped ++ addrRegsOf (maskedRegs (s.streamWord 0) movemOrder)
  | .link an => [an, 7]
  | .unlk an => [an, 7]
  | .moveUspAn an => [an]
  | .stop => [7]
  | .rte => [7]
  | .rtd => [7]
  | .rts => [7]
  | .rtr => [7]
  | .movecRcRn => addrRegsOf [extGenReg (s.streamWord 0)]
  | .jsr _ => [7]
  | .addq _ _ ea => ea.stepped ++ ea.addrRegs
  | .subq _ _ ea => ea.stepped ++ ea.addrRegs
  | .scc _ ea => ea.stepped
  | .bsr _ => [7]
  | .orEaDn _ _ ea => ea.stepped
  | .orDnEa _ _ ea => ea.stepped
  | .divu _ ea => ea.stepped
  | .divs _ ea => ea.stepped
  | .sbcd x .mem y => [x, y]
  | .subEaDn _ _ ea => ea.stepped
  | .subDnEa _ _ ea => ea.stepped
  | .suba an _ ea => an :: ea.stepped
  | .subx x _ .mem y => [x, y]
  | .cmp _ _ ea => ea.stepped
  | .cmpa _ _ ea => ea.stepped
  | .eor _ _ ea => ea.stepped
  | .cmpm x _ y => [x, y]
  | .andEaDn _ _ ea => ea.stepped
  | .andDnEa _ _ ea => ea.stepped
  | .mulu _ ea => ea.stepped
  | .muls _ ea => ea.stepped
  | .abcd x .mem y => [x, y]
  | .exgAxAy x y => [x, y]
  | .exgDxAy _ y => [y]
  | .addEaDn _ _ ea => ea.stepped
  | .addDnEa _ _ ea => ea.stepped
  | .adda an _ ea => an :: ea.stepped
  | .addx x _ .mem y => [x, y]
  | .asrEa ea => ea.stepped
  | .aslEa ea => ea.stepped
  | .lsrEa ea => ea.stepped
  | .lslEa ea => ea.stepped
  | .roxrEa ea => ea.stepped
  | .roxlEa ea => ea.stepped
  | .rorEa ea => ea.stepped
  | .rolEa ea => ea.stepped
  | _ => []

/-- Which of X, N, Z, V, C an instruction may write (41_flag_model.md R179). -/
inductive FlagUse where
  /-- none -/
  | none
  /-- Z -/
  | zero
  /-- N, Z, V, C -/
  | nzvc
  /-- all five -/
  | all
  deriving DecidableEq, Repr

/-- The use of ADDQ and SUBQ (R234, R239). -/
def Ea.quickFlags : Ea → FlagUse
  | .an _ => .none
  | _ => .all

/-- The flags an instruction may write (R179). -/
def Instr.flagUse : Instr → FlagUse
  | .oriToCcr => .all
  | .oriToSr => .all
  | .ori _ _ => .nzvc
  | .andiToCcr => .all
  | .andiToSr => .all
  | .andi _ _ => .nzvc
  | .subi _ _ => .all
  | .addi _ _ => .all
  | .btstImm _ => .zero
  | .bchgImm _ => .zero
  | .bclrImm _ => .zero
  | .bsetImm _ => .zero
  | .eoriToCcr => .all
  | .eoriToSr => .all
  | .eori _ _ => .nzvc
  | .cmpi _ _ => .nzvc
  | .btstReg _ _ => .zero
  | .bchgReg _ _ => .zero
  | .bclrReg _ _ => .zero
  | .bsetReg _ _ => .zero
  | .moveB _ _ => .nzvc
  | .moveW _ _ => .nzvc
  | .moveL _ _ => .nzvc
  | .negx _ _ => .all
  | .chk _ _ => .nzvc
  | .clr _ _ => .nzvc
  | .neg _ _ => .all
  | .moveToCcr _ => .all
  | .notOp _ _ => .nzvc
  | .moveToSr _ => .all
  | .nbcd _ => .all
  | .swap _ => .nzvc
  | .extW _ => .nzvc
  | .extL _ => .nzvc
  | .tst _ _ => .nzvc
  | .tas _ => .nzvc
  | .stop => .all
  | .rte => .all
  | .rtr => .all
  | .addq _ _ ea => ea.quickFlags
  | .subq _ _ ea => ea.quickFlags
  | .moveq _ _ => .nzvc
  | .orEaDn _ _ _ => .nzvc
  | .orDnEa _ _ _ => .nzvc
  | .divu _ _ => .nzvc
  | .divs _ _ => .nzvc
  | .sbcd _ _ _ => .all
  | .subEaDn _ _ _ => .all
  | .subDnEa _ _ _ => .all
  | .subx _ _ _ _ => .all
  | .cmp _ _ _ => .nzvc
  | .cmpa _ _ _ => .nzvc
  | .eor _ _ _ => .nzvc
  | .cmpm _ _ _ => .nzvc
  | .andEaDn _ _ _ => .nzvc
  | .andDnEa _ _ _ => .nzvc
  | .mulu _ _ => .nzvc
  | .muls _ _ => .nzvc
  | .abcd _ _ _ => .all
  | .addEaDn _ _ _ => .all
  | .addDnEa _ _ _ => .all
  | .addx _ _ _ _ => .all
  | .asrReg _ _ _ _ => .all
  | .aslReg _ _ _ _ => .all
  | .lsrReg _ _ _ _ => .all
  | .lslReg _ _ _ _ => .all
  | .roxrReg _ _ _ _ => .all
  | .roxlReg _ _ _ _ => .all
  | .rorReg _ _ _ _ => .nzvc
  | .rolReg _ _ _ _ => .nzvc
  | .asrEa _ => .all
  | .aslEa _ => .all
  | .lsrEa _ => .all
  | .lslEa _ => .all
  | .roxrEa _ => .all
  | .roxlEa _ => .all
  | .rorEa _ => .nzvc
  | .rolEa _ => .nzvc
  | _ => .none

/-- Flags that an instruction of a use leaves alone are as before. -/
def FlagUse.kept (u : FlagUse) (before after : Ccr) : Prop :=
  match u with
  | .none => after = before
  | .zero => after.x = before.x ∧ after.n = before.n ∧ after.v = before.v ∧ after.c = before.c
  | .nzvc => after.x = before.x
  | .all => True

/-- An instruction that may write T, S and I (R41): those whose destination is the SR, and RTE. -/
def Instr.writesSr : Instr → Bool
  | .oriToSr => true
  | .andiToSr => true
  | .eoriToSr => true
  | .moveToSr _ => true
  | .stop => true
  | .rte => true
  | _ => false

/-- An instruction that may write `SP_inactive`: those that may write S, MOVE An,USP and MOVEC to USP (10_state.md R33). -/
def Instr.writesSpInactive (i : Instr) : Bool :=
  i.writesSr || match i with
    | .moveAnUsp _ => true
    | .movecRnRc => true
    | _ => false

/-- A store of a size at an address with a function code. -/
abbrev Span := Size × BitVec 3 × Long

/-- The keys of the bytes of a store. -/
def spanKeys (cfg : Config) (p : Span) : List Nat := accessKeys cfg p.1 p.2.1 p.2.2

/-- The store made through an operand. -/
def Machine.State.eaSpan (s : State) (ea : Ea) (sz : Size) : List Span :=
  match s.eaDesc ea sz with
  | .mem a _ => [(sz, s.dataFc, a)]
  | .regD _ => []
  | .regA _ => []
  | .imm _ => []

/-- `n` stores upwards from `a`, `gap` bytes apart. -/
def spansUp (sz : Size) (fc : BitVec 3) (gap : Long) : Nat → Long → List Span
  | 0, _ => []
  | n + 1, a => (sz, fc, a) :: spansUp sz fc gap n (a + gap)

/-- The long stored by a push. -/
def Machine.State.pushSpan (s : State) : List Span := [(.l, s.dataFc, s.a[7] - 4)]

/-- The store of ADDX, SUBX, ABCD and SBCD in their memory forms. -/
def Machine.State.predSpan (s : State) (x y : Fin 8) (sz : Size) : List Span :=
  [(sz, s.dataFc, (s.afterPred y sz).predAddress x sz)]

/-- The stores of MOVEM, registers to memory (R204). -/
def Machine.State.movemSpans (s : State) (sz : Size) (ea : Ea) : List Span :=
  match ea with
  | .pd n =>
    spansUp sz s.dataFc (BitVec.ofNat 32 sz.bytes) (maskedRegs (s.streamWord 0) movemPredecrementOrder).length
      (addressDown sz (maskedRegs (s.streamWord 0) movemPredecrementOrder).length s.a[n])
  | ea =>
    spansUp sz s.dataFc (BitVec.ofNat 32 sz.bytes) (maskedRegs (s.streamWord 0) movemOrder).length
      ((s.skip 1).eaAddress ea sz)

/-- What an instruction stores to, computed as its meaning computes it. -/
def Instr.stores (s : State) : Instr → List Span
  | .ori sz ea => (s.skip (immWords sz)).eaSpan ea sz
  | .andi sz ea => (s.skip (immWords sz)).eaSpan ea sz
  | .subi sz ea => (s.skip (immWords sz)).eaSpan ea sz
  | .addi sz ea => (s.skip (immWords sz)).eaSpan ea sz
  | .eori sz ea => (s.skip (immWords sz)).eaSpan ea sz
  | .bchgImm ea => (s.skip 1).eaSpan ea (bitSize ea)
  | .bclrImm ea => (s.skip 1).eaSpan ea (bitSize ea)
  | .bsetImm ea => (s.skip 1).eaSpan ea (bitSize ea)
  | .bchgReg _ ea => s.eaSpan ea (bitSize ea)
  | .bclrReg _ ea => s.eaSpan ea (bitSize ea)
  | .bsetReg _ ea => s.eaSpan ea (bitSize ea)
  | .moves sz ea =>
    if (s.streamWord 0).getLsbD 11 then [(sz, s.dfc, (s.skip 1).eaAddress ea sz)] else []
  | .movep _ .regToMem sz an =>
    spansUp .b s.dataFc 2 (movepIndexes sz).length (s.a[an] + sext16 (s.streamWord 0))
  | .moveB src dst => (s.afterReadEa src .b).eaSpan dst .b
  | .moveW src dst => (s.afterReadEa src .w).eaSpan dst .w
  | .moveL src dst => (s.afterReadEa src .l).eaSpan dst .l
  | .negx sz ea => s.eaSpan ea sz
  | .moveFromSr ea => s.eaSpan ea .w
  | .clr sz ea => s.eaSpan ea sz
  | .moveFromCcr ea => s.eaSpan ea .w
  | .neg sz ea => s.eaSpan ea sz
  | .notOp sz ea => s.eaSpan ea sz
  | .nbcd ea => s.eaSpan ea .b
  | .pea _ => s.pushSpan
  | .movemToMem sz ea => s.movemSpans sz ea
  | .tas ea => s.eaSpan ea .b
  | .link _ => s.pushSpan
  | .jsr _ => s.pushSpan
  | .addq _ sz ea => s.eaSpan ea sz
  | .subq _ sz ea => s.eaSpan ea sz
  | .scc _ ea => s.eaSpan ea .b
  | .bsr _ => s.pushSpan
  | .orDnEa _ sz ea => s.eaSpan ea sz
  | .sbcd x .mem y => s.predSpan x y .b
  | .subDnEa _ sz ea => s.eaSpan ea sz
  | .subx x sz .mem y => s.predSpan x y sz
  | .eor _ sz ea => s.eaSpan ea sz
  | .andDnEa _ sz ea => s.eaSpan ea sz
  | .abcd x .mem y => s.predSpan x y .b
  | .addDnEa _ sz ea => s.eaSpan ea sz
  | .addx x sz .mem y => s.predSpan x y sz
  | .asrEa ea => s.eaSpan ea .w
  | .aslEa ea => s.eaSpan ea .w
  | .lsrEa ea => s.eaSpan ea .w
  | .lslEa ea => s.eaSpan ea .w
  | .roxrEa ea => s.eaSpan ea .w
  | .roxlEa ea => s.eaSpan ea .w
  | .rorEa ea => s.eaSpan ea .w
  | .rolEa ea => s.eaSpan ea .w
  | _ => []

/-- A control transfer: an instruction that may write the PC with a target (10_state.md R36). -/
def Instr.transfers : Instr → Bool
  | .bra _ => true
  | .bsr _ => true
  | .bcc _ _ => true
  | .dbcc _ _ => true
  | .jmp _ => true
  | .jsr _ => true
  | .rts => true
  | .rtr => true
  | .rtd => true
  | .rte => true
  | _ => false

end Sys2Proof
end

