-- ==== Sys2Proof/Certificates/Slice0/Obligations.lean ====
section
/-! DEFINITION. The statements for the provers. A meaning starts with the PC past the operation word, so `s.pc - 2` is the
instruction's address (42_data_movement.md R200). Names such as `eaReady` and `afterReadEa` are those of Safety.lean. -/

open Sys2Proof Sys2Proof.Machine

/-! Encoding and decoding. -/

/-- Words written out from the spec's encodings and what they stand for (30_encoding.md R110). -/
def Obligations.DecodedWords : Prop :=
  decodeWord 0x323C = some (.moveW .imm (.dn 1)) ∧ decodeWord 0x76FF = some (.moveq 3 0xFF) ∧
  decodeWord 0x48E7 = some (.movemToMem .l (.pd 7)) ∧ decodeWord 0xD001 = some (.addEaDn 0 .b (.dn 1)) ∧
  decodeWord 0x81FC = some (.divs 0 .imm) ∧ decodeWord 0xC041 = some (.andEaDn 0 .w (.dn 1)) ∧
  decodeWord 0xE3C8 = none ∧ decodeWord 0xE388 = some (.lslReg 1 .l .immediate 0) ∧
  decodeWord 0x0890 = some (.bclrImm (.ind 0)) ∧ decodeWord 0x8109 = some (.sbcd 0 .mem 1) ∧
  decodeWord 0x6702 = some (.bcc .eq 2) ∧ decodeWord 0x4E4F = some (.trap 15) ∧
  decodeWord 0x4E7B = some .movecRnRc ∧ decodeWord 0xA123 = some (.lineA 0x123) ∧ decodeWord 0x7100 = none

/-- Decoding an encoded instruction gives it back, at every value of its operands (R110, R111), with the bytes after it. -/
def Obligations.DecodeOfEncode : Prop :=
  ∀ (i : Instr) (rest : List Byte), i.wellFormed = true → decode (bytesOfWord (encode i) ++ rest) = .ok (i, rest)

/-- Every word that decodes does so to a well-formed instruction whose encoding is that word (R110, R111). -/
def Obligations.EncodeOfDecode : Prop :=
  ∀ (w : Word) (i : Instr), decodeWord w = some i → i.wellFormed = true ∧ encode i = w

/-- An instruction step (70_reset_and_hazards.md R465, 60_exceptions.md R431): the step of a running core with nothing to
take is `exec` of the instruction its PC's word decodes to, on the state with that word fetched and trace latched,
followed by the commit of R461. What changed outside the core since the step before is in memory first (20_memory.md R76,
R81; log 5). The per-step fields are the model's own (log 15, log 16). -/
def Obligations.StepRunsDecoded : Prop :=
  ∀ (s : State) (i : Instr), s.runsNext = true → s.wordReady s.pc = true →
    let w := s.beginStep.streamWord 0
    decodeWord w = some i →
      step s = commitOutcome (s.pc + BitVec.ofNat 32 i.lengthBytes) (exec i (s.atMeaning w))

/-- A word that no row takes raises the illegal-instruction exception, vector 4, saving the word's own address
(30_encoding.md R112, 60_exceptions.md R403). -/
def Obligations.UndecodedWordIsIllegal : Prop :=
  ∀ (s : State), s.runsNext = true → s.wordReady s.pc = true →
    let w := s.beginStep.streamWord 0
    decodeWord w = none → (s.atMeaning w).entryReady 4 = true →
      step s = .next ((s.atMeaning w).entry 4 s.pc none)

/-! Registers and memory. -/

/-- `WriteSR` keeps the implemented bits and reads back as them; `WriteCCR` writes bits 4–0 and nothing else; whatever S
becomes, the USP, the SSP and A0–A6 keep their values, A7 being the stack pointer of the mode (10_state.md R33, R35,
R39–R42). -/
def Obligations.StatusReadsBack : Prop :=
  ∀ (s : State) (v : Word) (c : Byte) (b : Bool),
    (s.writeSr v).sr = v &&& 0xA71F ∧ (s.writeSr v).usp = s.usp ∧ (s.writeSr v).ssp = s.ssp ∧
    s.writeCcr c = { s with ccr := ⟨c.getLsbD 4, c.getLsbD 3, c.getLsbD 2, c.getLsbD 1, c.getLsbD 0⟩ } ∧
    (s.writeCcr c).sr = (s.sr &&& 0xFF00) ||| (c &&& 0x1F).setWidth 16 ∧
    (s.setS b).sBit = b ∧ (s.setS b).usp = s.usp ∧ (s.setS b).ssp = s.ssp ∧
    (s.setS b).a[7] = (if b then s.ssp else s.usp) ∧
    ∀ n : Fin 8, n ≠ 7 → (s.setS b).a[n] = s.a[n] ∧ (s.writeSr v).a[n] = s.a[n]

/-- A register write by size, bit by bit: a data register keeps its bits above the size, an address register takes all 32,
a word sign-extended; every other register is kept (10_state.md R31, R32). -/
def Obligations.RegisterWritesBySize : Prop :=
  ∀ (s : State) (n m : Fin 8) (sz : Size) (v : Long),
    (∀ k < 32, (s.setDw n sz v).d[n].getLsbD k = if k < sz.bits then v.getLsbD k else s.d[n].getLsbD k) ∧
    (m ≠ n → (s.setDw n sz v).d[m] = s.d[m]) ∧
    (s.setAw n .l v).a[n] = v ∧
    (∀ k < 32, (s.setAw n .w v).a[n].getLsbD k = v.getLsbD (min k 15)) ∧
    (m ≠ n → (s.setAw n sz v).a[m] = s.a[m])

/-- Memory is big-endian and holds what is written (20_memory.md R72, R73): a store of any size reads back at its size,
its byte `k` is the `k`-th from the top, and every byte outside it is as before. -/
def Obligations.MemoryReadsBack : Prop :=
  ∀ (s : State) (sz : Size) (fc : BitVec 3) (a v : Long),
    (s.poke sz fc a v).peek sz fc a = low sz v ∧
    (∀ k < sz.bytes, (s.poke sz fc a v).peekByte fc (a + BitVec.ofNat 32 k) =
      v.extractLsb' (8 * (sz.bytes - 1 - k)) 8) ∧
    ∀ (fc' : BitVec 3) (b : Long), memKey s.cfg fc' b ∉ accessKeys s.cfg sz fc a →
      (s.poke sz fc a v).peekByte fc' b = s.peekByte fc' b

/-! Results and flags. -/

/-- Addition in integers (41_flag_model.md R170–R173): the sum modulo `2^w`, C the unsigned overflow, V the signed one;
ADDX takes X in and only clears Z. -/
def Obligations.AdditionFlags : Prop :=
  ∀ (sz : Size) (src dst : Long) (f : Ccr), low sz src = src → low sz dst = dst →
    ∀ (o : Alu) (cin zin : Bool),
      (o = aluAddx sz src dst f ∧ cin = f.x ∧ zin = f.z) ∨ (o = aluAdd sz src dst f ∧ cin = false ∧ zin = true) →
      o.r.toNat = (dst.toNat + src.toNat + cin.toNat) % 2 ^ sz.bits ∧
      o.ccr.c = decide (2 ^ sz.bits ≤ dst.toNat + src.toNat + cin.toNat) ∧
      o.ccr.v = decide (signedVal sz dst + signedVal sz src + cin.toNat < -2 ^ (sz.bits - 1) ∨
        2 ^ (sz.bits - 1) ≤ signedVal sz dst + signedVal sz src + cin.toNat) ∧
      o.ccr.x = o.ccr.c ∧ o.ccr.n = decide (2 ^ (sz.bits - 1) ≤ o.r.toNat) ∧
      o.ccr.z = (zin && decide (o.r = 0))

/-- Subtraction in integers (R174): the difference modulo `2^w`, C the borrow, V the signed overflow; SUBX takes X in and
only clears Z; the compares write the same flags but X; NEG is 0 − D, NEGX 0 − D − X. -/
def Obligations.SubtractionFlags : Prop :=
  ∀ (sz : Size) (src dst : Long) (f : Ccr), low sz src = src → low sz dst = dst →
    (let o := aluSubx sz src dst f;
      o.r.toNat = (2 ^ sz.bits + dst.toNat - src.toNat - f.x.toNat) % 2 ^ sz.bits ∧
      o.ccr.c = decide (dst.toNat < src.toNat + f.x.toNat) ∧
      o.ccr.v = decide (signedVal sz dst - signedVal sz src - f.x.toNat < -2 ^ (sz.bits - 1) ∨
        2 ^ (sz.bits - 1) ≤ signedVal sz dst - signedVal sz src - f.x.toNat) ∧
      o.ccr.x = o.ccr.c ∧ o.ccr.n = decide (2 ^ (sz.bits - 1) ≤ o.r.toNat) ∧
      o.ccr.z = (f.z && decide (o.r = 0))) ∧
    (let o := aluSub sz src dst f;
      o.r.toNat = (2 ^ sz.bits + dst.toNat - src.toNat) % 2 ^ sz.bits ∧
      o.ccr.c = decide (dst.toNat < src.toNat) ∧
      o.ccr.v = decide (signedVal sz dst - signedVal sz src < -2 ^ (sz.bits - 1) ∨
        2 ^ (sz.bits - 1) ≤ signedVal sz dst - signedVal sz src) ∧
      o.ccr.x = o.ccr.c ∧ o.ccr.n = decide (2 ^ (sz.bits - 1) ≤ o.r.toNat) ∧ o.ccr.z = decide (dst = src) ∧
      cmpFlags sz src dst f = { o.ccr with x := f.x }) ∧
    (aluNeg sz dst f = aluSub sz dst 0 f ∧ aluNegx sz dst f = aluSubx sz dst 0 f ∧
      (aluNeg sz dst f).ccr.c = decide (dst ≠ 0) ∧ (aluNeg sz dst f).ccr.v = decide (dst.toNat = 2 ^ (sz.bits - 1)))

/-- The logical results bit by bit and their flags (R176, 44_logical.md R270–R277): N the top bit, Z whether all bits are
0, V = C = 0, X kept. -/
def Obligations.LogicalFlags : Prop :=
  ∀ (sz : Size) (src dst : Long) (f : Ccr) (k : Nat), k < 32 →
    ((aluAnd sz src dst f).r.getLsbD k = (decide (k < sz.bits) && (dst.getLsbD k && src.getLsbD k)) ∧
      (aluOr sz src dst f).r.getLsbD k = (decide (k < sz.bits) && (dst.getLsbD k || src.getLsbD k)) ∧
      (aluEor sz src dst f).r.getLsbD k = (decide (k < sz.bits) && (dst.getLsbD k ^^ src.getLsbD k)) ∧
      (aluNot sz dst f).r.getLsbD k = (decide (k < sz.bits) && !dst.getLsbD k)) ∧
    ∀ o ∈ [aluAnd sz src dst f, aluOr sz src dst f, aluEor sz src dst f, aluNot sz dst f],
      o.ccr = ⟨f.x, o.r.getLsbD (sz.bits - 1), decide (o.r = 0), false, false⟩

/-- MULU and MULS are exact (43_integer_arithmetic.md R250, R251): the product of the 16-bit operands, N and Z of the
product. -/
def Obligations.ProductsAreExact : Prop :=
  ∀ (src dst : Long) (f : Ccr),
    (aluMulu src dst f).r.toNat = (dst.toNat % 65536) * (src.toNat % 65536) ∧
    (aluMuls src dst f).r.toInt = signedVal .w dst * signedVal .w src ∧
    (∀ o ∈ [aluMulu src dst f, aluMuls src dst f],
      o.ccr = ⟨f.x, decide (o.r.toInt < 0), decide (o.r = 0), false, false⟩)

/-- DIVU (43_integer_arithmetic.md R252) and DIVS (R253): a quotient that fits in 16 bits, for DIVS one rounded toward zero,
comes with the remainder in the upper half, smaller than the divisor and for DIVS of the dividend's sign; otherwise there
is an overflow. -/
def Obligations.DivisionsAreExact : Prop :=
  (∀ (src dst : Long), src.toNat < 65536 → src ≠ 0 →
    (65536 * src.toNat ≤ dst.toNat ∧ divideUnsigned src dst = .overflow) ∨
    ∃ r q : Word, divideUnsigned src dst = .result (r ++ q) (q.getLsbD 15) (decide (q = 0)) ∧
      dst.toNat = q.toNat * src.toNat + r.toNat ∧ r.toNat < src.toNat) ∧
  ∀ (src dst : Long), signedVal .w src ≠ 0 →
    (divideSigned src dst = .overflow ∧
      ¬∃ q r : Int, dst.toInt = q * signedVal .w src + r ∧ |r| < |signedVal .w src| ∧ 0 ≤ r * dst.toInt ∧
        -32768 ≤ q ∧ q ≤ 32767) ∨
    ∃ r q : Word, divideSigned src dst = .result (r ++ q) (decide (q.toInt < 0)) (decide (q = 0)) ∧
      dst.toInt = q.toInt * signedVal .w src + r.toInt ∧ |r.toInt| < |signedVal .w src| ∧ 0 ≤ r.toInt * dst.toInt

/-- Shifts (45_shift_rotate.md R285–R289). Left: the value times `2^n` modulo `2^w`, V of ASL exactly when the signed product
does not fit, V of LSL 0. Right: the value divided by `2^n`, ASR the signed value rounded down, LSR the unsigned one,
V = 0. C and X are the last bit out; a count of 0 leaves value and X and clears C. N and Z are the result's. -/
def Obligations.ShiftsAreExact : Prop :=
  ∀ (sz : Size) (n : Nat) (v : Long) (f : Ccr),
    (aluShift .asl sz n v f).r.toNat = (low sz v).toNat * 2 ^ n % 2 ^ sz.bits ∧
    (aluShift .lsl sz n v f).r.toNat = (low sz v).toNat * 2 ^ n % 2 ^ sz.bits ∧
    (aluShift .lsr sz n v f).r.toNat = (low sz v).toNat / 2 ^ n ∧
    signedVal sz (aluShift .asr sz n v f).r = signedVal sz v / 2 ^ n ∧
    low sz (aluShift .asr sz n v f).r = (aluShift .asr sz n v f).r ∧
    (aluShift .asl sz n v f).ccr.v = decide (signedVal sz v * 2 ^ n < -2 ^ (sz.bits - 1) ∨
      2 ^ (sz.bits - 1) ≤ signedVal sz v * 2 ^ n) ∧
    (aluShift .asl sz n v f).ccr.c = (decide (0 < n) && decide (n ≤ sz.bits) && v.getLsbD (sz.bits - n)) ∧
    (aluShift .lsl sz n v f).ccr.c = (decide (0 < n) && decide (n ≤ sz.bits) && v.getLsbD (sz.bits - n)) ∧
    (aluShift .lsr sz n v f).ccr.c = (decide (0 < n) && decide (n ≤ sz.bits) && v.getLsbD (n - 1)) ∧
    (aluShift .asr sz n v f).ccr.c = (decide (0 < n) && v.getLsbD (min n sz.bits - 1)) ∧
    (∀ op ∈ [ShiftOp.lsl, .lsr, .asr], (aluShift op sz n v f).ccr.v = false) ∧
    ∀ op ∈ [ShiftOp.asl, .lsl, .lsr, .asr],
      (aluShift op sz n v f).ccr.x = (if n = 0 then f.x else (aluShift op sz n v f).ccr.c) ∧
      (aluShift op sz n v f).ccr.n = msb sz (aluShift op sz n v f).r ∧
      (aluShift op sz n v f).ccr.z = isZero sz (aluShift op sz n v f).r

/-- Rotates (R285, R290–R293): ROL and ROR move bit `k` of the `w` bits by `n` places around, leave X and set C to the last
bit moved; ROXL and ROXR move the `w + 1` bits with X on top and set C to the new X; N is the top bit of the result, Z says
whether it is 0, V = 0. -/
def Obligations.Rotates : Prop :=
  ∀ (sz : Size) (n : Nat) (v : Long) (f : Ccr) (k : Nat), k < sz.bits →
    ((aluShift .rol sz n v f).r.getLsbD ((k + n) % sz.bits) = v.getLsbD k ∧
      (aluShift .ror sz n v f).r.getLsbD k = v.getLsbD ((k + n) % sz.bits) ∧
      (aluShift .rol sz n v f).ccr.x = f.x ∧ (aluShift .ror sz n v f).ccr.x = f.x ∧
      (aluShift .rol sz n v f).ccr.c = (decide (0 < n) && (aluShift .rol sz n v f).r.getLsbD 0) ∧
      (aluShift .ror sz n v f).ccr.c = (decide (0 < n) && (aluShift .ror sz n v f).r.getLsbD (sz.bits - 1))) ∧
    ((let o := aluShift .roxl sz n v f;
      (∀ j ≤ sz.bits, (if (j + n) % (sz.bits + 1) = sz.bits then o.ccr.x
        else o.r.getLsbD ((j + n) % (sz.bits + 1))) = if j = sz.bits then f.x else v.getLsbD j) ∧
      o.ccr.c = o.ccr.x)) ∧
    ((let o := aluShift .roxr sz n v f;
      (∀ j ≤ sz.bits, (if j = sz.bits then o.ccr.x else o.r.getLsbD j) =
        if (j + n) % (sz.bits + 1) = sz.bits then f.x else v.getLsbD ((j + n) % (sz.bits + 1))) ∧
      o.ccr.c = o.ccr.x)) ∧
    ∀ op ∈ [ShiftOp.rol, .ror, .roxl, .roxr],
      (aluShift op sz n v f).ccr.v = false ∧ low sz (aluShift op sz n v f).r = (aluShift op sz n v f).r ∧
      (aluShift op sz n v f).ccr.n = (aluShift op sz n v f).r.getLsbD (sz.bits - 1) ∧
      (aluShift op sz n v f).ccr.z = decide ((aluShift op sz n v f).r = 0)

/-- Decimal arithmetic on valid operands (47_bcd.md R310–R313): the result is valid and, with 100 for the carry or borrow,
is the sum or the difference. -/
def Obligations.DecimalArithmetic : Prop :=
  ∀ (src dst : Long) (x : Bool), low .b src = src → low .b dst = dst → validBcd src = true → validBcd dst = true →
    (validBcd (decimalAdd src dst x).1 = true ∧
      bcdValue (decimalAdd src dst x).1 + 100 * (decimalAdd src dst x).2.toNat =
        bcdValue dst + bcdValue src + x.toNat) ∧
    (validBcd (decimalSub src dst x).1 = true ∧
      (bcdValue (decimalSub src dst x).1 : Int) - 100 * (decimalSub src dst x).2.toNat =
        (bcdValue dst : Int) - bcdValue src - x.toNat)

/-- The sixteen conditions after a compare read as comparisons of D with S (41_flag_model.md R180, R181): T and F always
and never, VC and VS whether the signed difference fits, PL and MI the top bit of the difference modulo `2^w`. -/
def Obligations.ConditionsAfterCompare : Prop :=
  ∀ (sz : Size) (src dst : Long) (f : Ccr), low sz src = src → low sz dst = dst →
    let g := cmpFlags sz src dst f
    condHolds .hi g = decide (src.toNat < dst.toNat) ∧ condHolds .ls g = decide (dst.toNat ≤ src.toNat) ∧
    condHolds .cc g = decide (src.toNat ≤ dst.toNat) ∧ condHolds .cs g = decide (dst.toNat < src.toNat) ∧
    condHolds .gt g = decide (signedVal sz src < signedVal sz dst) ∧
    condHolds .ge g = decide (signedVal sz src ≤ signedVal sz dst) ∧
    condHolds .lt g = decide (signedVal sz dst < signedVal sz src) ∧
    condHolds .le g = decide (signedVal sz dst ≤ signedVal sz src) ∧
    condHolds .eq g = decide (dst = src) ∧ condHolds .ne g = decide (dst ≠ src) ∧
    condHolds .t g = true ∧ condHolds .f g = false ∧
    condHolds .vc g = decide (-2 ^ (sz.bits - 1) ≤ signedVal sz dst - signedVal sz src ∧
      signedVal sz dst - signedVal sz src < 2 ^ (sz.bits - 1)) ∧
    condHolds .vs g = decide (signedVal sz dst - signedVal sz src < -2 ^ (sz.bits - 1) ∨
      2 ^ (sz.bits - 1) ≤ signedVal sz dst - signedVal sz src) ∧
    condHolds .pl g = decide ((2 ^ sz.bits + dst.toNat - src.toNat) % 2 ^ sz.bits < 2 ^ (sz.bits - 1)) ∧
    condHolds .mi g = decide (2 ^ (sz.bits - 1) ≤ (2 ^ sz.bits + dst.toNat - src.toNat) % 2 ^ sz.bits)

/-! Results, instruction by instruction. Each says that `exec` answers a next state and which. -/

/-- ADD, SUB, AND, OR `<ea>,Dn` and CMP (43_integer_arithmetic.md R230, R231, R236, R241; 44_logical.md R270, R271, R273). -/
def Obligations.EaToRegisterResult : Prop :=
  ∀ (dn : Fin 8) (sz : Size) (ea : Ea) (s : State), s.eaReady ea sz = true →
    exec (.addEaDn dn sz ea) s = .next ((s.afterReadEa ea sz).putD dn sz
      (aluAdd sz (s.eaValue ea sz) (low sz s.d[dn]) s.ccr)) ∧
    exec (.subEaDn dn sz ea) s = .next ((s.afterReadEa ea sz).putD dn sz
      (aluSub sz (s.eaValue ea sz) (low sz s.d[dn]) s.ccr)) ∧
    exec (.andEaDn dn sz ea) s = .next ((s.afterReadEa ea sz).putD dn sz
      (aluAnd sz (s.eaValue ea sz) (low sz s.d[dn]) s.ccr)) ∧
    exec (.orEaDn dn sz ea) s = .next ((s.afterReadEa ea sz).putD dn sz
      (aluOr sz (s.eaValue ea sz) (low sz s.d[dn]) s.ccr)) ∧
    exec (.cmp dn sz ea) s = .next ((s.afterReadEa ea sz).setCcr
      (cmpFlags sz (s.eaValue ea sz) (low sz s.d[dn]) s.ccr))

/-- ADD, SUB, AND, OR `Dn,<ea>` and EOR (R230, R231, R236, R270, R271, R273, R275). -/
def Obligations.RegisterToEaResult : Prop :=
  ∀ (dn : Fin 8) (sz : Size) (ea : Ea) (s : State), s.eaReady ea sz = true →
    (EaClass.memoryAlterable.admits sz ea = true →
      exec (.addDnEa dn sz ea) s = .next (s.modified (aluAdd sz (low sz s.d[dn])) sz ea) ∧
      exec (.subDnEa dn sz ea) s = .next (s.modified (aluSub sz (low sz s.d[dn])) sz ea) ∧
      exec (.andDnEa dn sz ea) s = .next (s.modified (aluAnd sz (low sz s.d[dn])) sz ea) ∧
      exec (.orDnEa dn sz ea) s = .next (s.modified (aluOr sz (low sz s.d[dn])) sz ea)) ∧
    (EaClass.dataAlterable.admits sz ea = true →
      exec (.eor dn sz ea) s = .next (s.modified (aluEor sz (low sz s.d[dn])) sz ea))

/-- ADDI, SUBI, ANDI, ORI, EORI and CMPI (R233, R238, R243, R272, R274, R276): the immediate's words come before the
operand's. -/
def Obligations.ImmediateResult : Prop :=
  ∀ (sz : Size) (ea : Ea) (s : State), EaClass.dataAlterable.admits sz ea = true →
    s.streamReady (immWords sz) = true → (s.skip (immWords sz)).eaReady ea sz = true →
    exec (.addi sz ea) s = .next ((s.skip (immWords sz)).modified (aluAdd sz (s.immValue sz)) sz ea) ∧
    exec (.subi sz ea) s = .next ((s.skip (immWords sz)).modified (aluSub sz (s.immValue sz)) sz ea) ∧
    exec (.andi sz ea) s = .next ((s.skip (immWords sz)).modified (aluAnd sz (s.immValue sz)) sz ea) ∧
    exec (.ori sz ea) s = .next ((s.skip (immWords sz)).modified (aluOr sz (s.immValue sz)) sz ea) ∧
    exec (.eori sz ea) s = .next ((s.skip (immWords sz)).modified (aluEor sz (s.immValue sz)) sz ea) ∧
    exec (.cmpi sz ea) s = .next (((s.skip (immWords sz)).afterReadEa ea sz).setCcr
      (cmpFlags sz (s.immValue sz) ((s.skip (immWords sz)).eaValue ea sz) s.ccr))

/-- ADDA, SUBA and CMPA (R232, R237, R242) at 32 bits after a sign extension; ADDQ and SUBQ (R234, R239) of 1 to 8, a field
of 0 standing for 8 (30_encoding.md R107), whose address-register form takes 32 bits and no flags. -/
def Obligations.AddressAndQuickResult : Prop :=
  ∀ (n : Fin 8) (q : BitVec 3) (sz : Size) (ea : Ea) (s : State),
    (s.eaReady ea sz = true →
      exec (.adda n sz ea) s = .next ((s.afterReadEa ea sz).setA n
        ((s.afterReadEa ea sz).a[n] + sextSize sz (s.eaValue ea sz))) ∧
      exec (.suba n sz ea) s = .next ((s.afterReadEa ea sz).setA n
        ((s.afterReadEa ea sz).a[n] - sextSize sz (s.eaValue ea sz))) ∧
      exec (.cmpa n sz ea) s = .next ((s.afterReadEa ea sz).setCcr
        (cmpFlags .l (sextSize sz (s.eaValue ea sz)) (s.afterReadEa ea sz).a[n] s.ccr))) ∧
    (let k : Long := if q = 0 then 8 else q.setWidth 32;
      exec (.addq q sz (.an n)) s = .next (s.setA n (s.a[n] + k)) ∧
      exec (.subq q sz (.an n)) s = .next (s.setA n (s.a[n] - k)) ∧
      (EaClass.dataAlterable.admits sz ea = true → s.eaReady ea sz = true →
        exec (.addq q sz ea) s = .next (s.modified (aluAdd sz k) sz ea) ∧
        exec (.subq q sz ea) s = .next (s.modified (aluSub sz k) sz ea)))

/-- ADDX and SUBX (R235, R240) in both forms, and CMPM (R244): the source is read before the destination, each address
stepped before its read (40_ea_resolver.md R145, R159; for CMPM log 32), a byte through A7 by 2 (R143). -/
def Obligations.ExtendedResult : Prop :=
  ∀ (x y : Fin 8) (sz : Size) (s : State),
    (let step : Long := if y = 7 ∧ sz = .b then 2 else BitVec.ofNat 32 sz.bytes;
      s.predAddress y sz = s.a[y] - step ∧ (s.afterPred y sz).a[y] = s.a[y] - step ∧
      (s.afterPost y sz).a[y] = s.a[y] + step) ∧
    exec (.addx x sz .reg y) s = .next (s.putD x sz (aluAddx sz (low sz s.d[y]) (low sz s.d[x]) s.ccr)) ∧
    exec (.subx x sz .reg y) s = .next (s.putD x sz (aluSubx sz (low sz s.d[y]) (low sz s.d[x]) s.ccr)) ∧
    (s.predPairReady x y sz = true →
      let u := (s.afterPred y sz).afterPred x sz
      let o := fun f : AluOp => f sz (s.predValue y sz) ((s.afterPred y sz).predValue x sz) s.ccr
      exec (.addx x sz .mem y) s = .next ((u.store sz u.dataFc u.a[x] (o aluAddx).r).setCcr (o aluAddx).ccr) ∧
      exec (.subx x sz .mem y) s = .next ((u.store sz u.dataFc u.a[x] (o aluSubx).r).setCcr (o aluSubx).ccr)) ∧
    (alignedAt sz s.a[y] = true → alignedAt sz (s.afterPost y sz).a[x] = true →
      exec (.cmpm x sz y) s = .next (((s.afterPost y sz).afterPost x sz).setCcr
        (cmpFlags sz (s.postValue y sz) ((s.afterPost y sz).postValue x sz) s.ccr)))

/-- ABCD and SBCD in both forms, and NBCD (47_bcd.md R310–R313): exact on valid operands, else a free byte and carry; N and
V are free values, numbered by the model's counter (log 6). -/
def Obligations.DecimalResult : Prop :=
  ∀ (x y : Fin 8) (ea : Ea) (s : State),
    (let valid := validBcd (low .b s.d[y]) && validBcd (low .b s.d[x])
      let put := fun o : Long × Bool => (s.afterBcd valid o).setDw x .b o.1
      exec (.abcd x .reg y) s =
        .next (put (s.bcdOutcome valid (decimalAdd (low .b s.d[y]) (low .b s.d[x]) s.ccr.x))) ∧
      exec (.sbcd x .reg y) s =
        .next (put (s.bcdOutcome valid (decimalSub (low .b s.d[y]) (low .b s.d[x]) s.ccr.x)))) ∧
    (let u := (s.afterPred y .b).afterPred x .b
      let src := s.predValue y .b
      let dst := (s.afterPred y .b).predValue x .b
      let valid := validBcd src && validBcd dst
      let put := fun o : Long × Bool => (u.afterBcd valid o).store .b u.dataFc u.a[x] o.1
      exec (.abcd x .mem y) s = .next (put (s.bcdOutcome valid (decimalAdd src dst s.ccr.x))) ∧
      exec (.sbcd x .mem y) s = .next (put (s.bcdOutcome valid (decimalSub src dst s.ccr.x)))) ∧
    (EaClass.dataAlterable.admits .b ea = true → s.eaReady ea .b = true →
      let dst := s.eaValue ea .b
      let o := s.bcdOutcome (validBcd dst) (decimalSub dst 0 s.ccr.x)
      exec (.nbcd ea) s = .next (((s.afterReadEa ea .b).afterBcd (validBcd dst) o).afterWrite (s.eaDesc ea .b) .b o.1))

/-- NEG, NEGX, NOT, TAS, CLR, TST and Scc (R245–R247, R249, R277, R278; 48_program_control.md R325): CLR reads a memory
operand first where the dummy reads are on and the variant makes them; TAS sets bit 7 of the byte it has read and takes N
and Z from it, in one indivisible read and write (20_memory.md R76, R83). -/
def Obligations.UnaryResult : Prop :=
  ∀ (sz : Size) (ea : Ea) (c : Cond) (s : State), EaClass.dataAlterable.admits sz ea = true →
    (s.eaReady ea sz = true →
      exec (.neg sz ea) s = .next (s.modified (aluNeg sz) sz ea) ∧
      exec (.negx sz ea) s = .next (s.modified (aluNegx sz) sz ea) ∧
      exec (.notOp sz ea) s = .next (s.modified (aluNot sz) sz ea) ∧
      exec (.tst sz ea) s = .next ((s.afterReadEa ea sz).setCcr
        ⟨s.ccr.x, (s.eaValue ea sz).getLsbD (sz.bits - 1), decide (s.eaValue ea sz = 0), false, false⟩) ∧
      exec (.clr sz ea) s = .next
        (((if s.clrReads then s.afterReadEa ea sz else s.afterEa ea sz).afterWrite (s.eaDesc ea sz) sz 0).setCcr
          ⟨s.ccr.x, false, true, false, false⟩)) ∧
    (s.eaReady ea .b = true →
      (let v := s.eaValue ea .b;
        exec (.tas ea) s = .next (((s.afterReadEa ea .b).afterWrite (s.eaDesc ea .b) .b (v ||| 0x80)).setCcr
          ⟨s.ccr.x, v.getLsbD 7, decide (v = 0), false, false⟩)) ∧
      exec (.scc c ea) s = .next ((s.afterEa ea .b).afterWrite (s.eaDesc ea .b) .b
        (if condHolds c s.ccr then 0xFF else 0)))

/-- MOVEQ, EXG, SWAP and EXT (42_data_movement.md R203, R208, R209; 43_integer_arithmetic.md R248): their words and what
they do. -/
def Obligations.RegisterOnlyResult : Prop :=
  ∀ (x y : Fin 8) (d8 : Byte) (s : State),
    let rx : BitVec 3 := BitVec.ofFin x
    let ry : BitVec 3 := BitVec.ofFin y
    (decodeWord (0b0111#4 ++ rx ++ 0#1 ++ d8) = some (.moveq x d8) ∧
      decodeWord (0b1100#4 ++ rx ++ 0b101000#6 ++ ry) = some (.exgDxDy x y) ∧
      decodeWord (0b1100#4 ++ rx ++ 0b101001#6 ++ ry) = some (.exgAxAy x y) ∧
      decodeWord (0b1100#4 ++ rx ++ 0b110001#6 ++ ry) = some (.exgDxAy x y) ∧
      decodeWord (0b0100100001000#13 ++ ry) = some (.swap y) ∧
      decodeWord (0b0100100010000#13 ++ ry) = some (.extW y) ∧
      decodeWord (0b0100100011000#13 ++ ry) = some (.extL y)) ∧
    exec (.moveq x d8) s = .next ((s.setD x (d8.signExtend 32)).setCcr
      ⟨s.ccr.x, d8.getLsbD 7, decide (d8 = 0), false, false⟩) ∧
    exec (.exgDxDy x y) s = .next ((s.setD x s.d[y]).setD y s.d[x]) ∧
    exec (.exgAxAy x y) s = .next ((s.setA x s.a[y]).setA y s.a[x]) ∧
    exec (.exgDxAy x y) s = .next ((s.setD x s.a[y]).setA y s.d[x]) ∧
    exec (.swap x) s = .next (s.putD x .l
      ⟨lowWord s.d[x] ++ highWord s.d[x], ⟨s.ccr.x, s.d[x].getLsbD 15, decide (s.d[x] = 0), false, false⟩⟩) ∧
    exec (.extW x) s = .next (s.putD x .w
      ⟨(lowByte s.d[x]).signExtend 32, ⟨s.ccr.x, s.d[x].getLsbD 7, decide (lowByte s.d[x] = 0), false, false⟩⟩) ∧
    exec (.extL x) s = .next (s.putD x .l
      ⟨(lowWord s.d[x]).signExtend 32, ⟨s.ccr.x, s.d[x].getLsbD 15, decide (lowWord s.d[x] = 0), false, false⟩⟩)

/-- MULU, MULS, DIVU and DIVS with a divisor other than 0 (R250–R253): on overflow Dn is kept, V = 1, C = 0, N and Z are
free values, numbered by the model's counter (log 6). -/
def Obligations.MultiplyDivideResult : Prop :=
  ∀ (dn : Fin 8) (ea : Ea) (s : State), s.eaReady ea .w = true →
    let t := s.afterReadEa ea .w
    exec (.mulu dn ea) s = .next (t.putD dn .l (aluMulu (s.eaValue ea .w) s.d[dn] s.ccr)) ∧
    exec (.muls dn ea) s = .next (t.putD dn .l (aluMuls (s.eaValue ea .w) s.d[dn] s.ccr)) ∧
    (isZero .w (s.eaValue ea .w) = false →
      let after := fun o : Division => match o with
        | .overflow => (t.drawn 2).setCcr
          ⟨s.ccr.x, Config.freeBit s.draws, Config.freeBit (s.draws + 1), true, false⟩
        | .result r n z => (t.setD dn r).setCcr ⟨s.ccr.x, n, z, false, false⟩
      exec (.divu dn ea) s = .next (after (divideUnsigned (s.eaValue ea .w) s.d[dn])) ∧
      exec (.divs dn ea) s = .next (after (divideSigned (s.eaValue ea .w) s.d[dn])))

/-- A divisor of 0 takes vector 5 and a bound broken vector 6, saving the next instruction's address, Dn kept
(R252–R254; 60_exceptions.md R406, R407); CHK in bounds goes on. The flags the spec leaves open are free values, numbered
by the model's counter (log 6). -/
def Obligations.DivideByZeroAndCheck : Prop :=
  ∀ (dn : Fin 8) (ea : Ea) (s : State), s.eaReady ea .w = true →
    let t := s.afterReadEa ea .w
    let free := fun k : Nat => Config.freeBit (s.draws + k)
    let zd := (t.drawn 3).setCcr ⟨s.ccr.x, free 0, free 1, free 2, false⟩
    let ck := fun n : Bool => (t.drawn 3).setCcr ⟨s.ccr.x, n, free 0, free 1, free 2⟩
    let v := signedVal .w s.d[dn]
    let b := signedVal .w (s.eaValue ea .w)
    (isZero .w (s.eaValue ea .w) = true → zd.entryReady 5 = true →
      exec (.divu dn ea) s = .next (zd.entry 5 t.pc none) ∧ exec (.divs dn ea) s = .next (zd.entry 5 t.pc none)) ∧
    (v < 0 → t.entryReady 6 = true → exec (.chk dn ea) s = .next ((ck true).entry 6 t.pc none)) ∧
    (0 ≤ v → b < v → t.entryReady 6 = true → exec (.chk dn ea) s = .next ((ck false).entry 6 t.pc none)) ∧
    (0 ≤ v → v ≤ b → exec (.chk dn ea) s =
      .next ((t.drawn 4).setCcr ⟨s.ccr.x, free 3, free 0, free 1, free 2⟩))

/-- The shifts and rotates (45_shift_rotate.md R285–R293): register forms by the count field or a data register modulo 64,
memory forms a word by 1. -/
def Obligations.ShiftResult : Prop :=
  ∀ (k y : Fin 8) (sz : Size) (g : CountKind) (ea : Ea) (s : State),
    let n := match g with
      | .immediate => if k = 0 then 8 else k.val
      | .register => s.d[k].toNat % 64
    let reg := fun op : ShiftOp => s.putD y sz (aluShift op sz n s.d[y] s.ccr)
    let memory := fun op : ShiftOp => s.modified (aluShift op .w 1) .w ea
    (exec (.aslReg k sz g y) s = .next (reg .asl) ∧ exec (.asrReg k sz g y) s = .next (reg .asr) ∧
      exec (.lslReg k sz g y) s = .next (reg .lsl) ∧ exec (.lsrReg k sz g y) s = .next (reg .lsr) ∧
      exec (.rolReg k sz g y) s = .next (reg .rol) ∧ exec (.rorReg k sz g y) s = .next (reg .ror) ∧
      exec (.roxlReg k sz g y) s = .next (reg .roxl) ∧ exec (.roxrReg k sz g y) s = .next (reg .roxr)) ∧
    (EaClass.memoryAlterable.admits .w ea = true → s.eaReady ea .w = true →
      exec (.aslEa ea) s = .next (memory .asl) ∧ exec (.asrEa ea) s = .next (memory .asr) ∧
      exec (.lslEa ea) s = .next (memory .lsl) ∧ exec (.lsrEa ea) s = .next (memory .lsr) ∧
      exec (.rolEa ea) s = .next (memory .rol) ∧ exec (.rorEa ea) s = .next (memory .ror) ∧
      exec (.roxlEa ea) s = .next (memory .roxl) ∧ exec (.roxrEa ea) s = .next (memory .roxr))

/-- BTST, BCHG, BCLR and BSET, static and dynamic (46_bit_manipulation.md R300–R304): bit modulo 32 of a data register,
modulo 8 of a byte; Z from the bit before. -/
def Obligations.BitResult : Prop :=
  ∀ (dn : Fin 8) (ea : Ea) (s : State),
    let sz : Size := match ea with
      | .dn _ => .l
      | _ => .b
    let op := fun (f : Long → Long → Long) (number : Nat) (v : Long) (c : Ccr) =>
      (⟨f v (1 <<< (number % sz.bits)), ⟨c.x, c.n, !v.getLsbD (number % sz.bits), c.v, c.c⟩⟩ : Alu)
    let k := (wordLowByte (s.streamWord 0)).toNat
    let r := s.d[dn].toNat
    (s.streamReady 1 = true → (s.skip 1).eaReady ea sz = true →
      exec (.btstImm ea) s = .next (((s.skip 1).afterReadEa ea sz).setCcr
        (op (fun v _ => v) k ((s.skip 1).eaValue ea sz) s.ccr).ccr) ∧
      (EaClass.dataAlterable.admits .b ea = true →
        exec (.bchgImm ea) s = .next ((s.skip 1).modified (op (fun v m => v ^^^ m) k) sz ea) ∧
        exec (.bclrImm ea) s = .next ((s.skip 1).modified (op (fun v m => v &&& ~~~m) k) sz ea) ∧
        exec (.bsetImm ea) s = .next ((s.skip 1).modified (op (fun v m => v ||| m) k) sz ea))) ∧
    (s.eaReady ea sz = true →
      exec (.btstReg dn ea) s = .next ((s.afterReadEa ea sz).setCcr (op (fun v _ => v) r (s.eaValue ea sz) s.ccr).ccr) ∧
      (EaClass.dataAlterable.admits .b ea = true →
        exec (.bchgReg dn ea) s = .next (s.modified (op (fun v m => v ^^^ m) r) sz ea) ∧
        exec (.bclrReg dn ea) s = .next (s.modified (op (fun v m => v &&& ~~~m) r) sz ea) ∧
        exec (.bsetReg dn ea) s = .next (s.modified (op (fun v m => v ||| m) r) sz ea)))

/-- MOVE and MOVEA (42_data_movement.md R201, R202): the source is resolved and read before the destination is resolved.
A postincremented or predecremented register is stepped when its operand is resolved, by 2 for a byte through A7
(40_ea_resolver.md R143, R145, R146). -/
def Obligations.MoveResult : Prop :=
  ∀ (an : Fin 8) (src dst : Ea) (s : State),
    (∀ sz : Size,
      let step : Long := if an = 7 ∧ sz = .b then 2 else BitVec.ofNat 32 sz.bytes
      s.eaDesc (.pi an) sz = .mem s.a[an] .data ∧ s.afterEa (.pi an) sz = s.setA an (s.a[an] + step) ∧
      s.eaDesc (.pd an) sz = .mem (s.a[an] - step) .data ∧ s.afterEa (.pd an) sz = s.setA an (s.a[an] - step)) ∧
    (∀ sz : Size, s.eaReady src sz = true → EaClass.dataAlterable.admits sz dst = true →
      (s.afterReadEa src sz).eaReady dst sz = true →
      let t := s.afterReadEa src sz
      let v := s.eaValue src sz
      let u := ((t.afterEa dst sz).afterWrite (t.eaDesc dst sz) sz v).setCcr
        ⟨s.ccr.x, v.getLsbD (sz.bits - 1), decide (v = 0), false, false⟩
      (sz = .b → exec (.moveB src dst) s = .next u) ∧ (sz = .w → exec (.moveW src dst) s = .next u) ∧
        (sz = .l → exec (.moveL src dst) s = .next u)) ∧
    (s.eaReady src .w = true →
      exec (.moveaW an src) s = .next ((s.afterReadEa src .w).setA an (sext16 (lowWord (s.eaValue src .w))))) ∧
    (s.eaReady src .l = true →
      exec (.moveaL an src) s = .next ((s.afterReadEa src .l).setA an (s.eaValue src .l)))

/-- LEA, PEA, JMP and JSR (R206, R207; 48_program_control.md R326, R327): the address is computed before the push. -/
def Obligations.AddressResult : Prop :=
  ∀ (an : Fin 8) (ea : Ea) (s : State), EaClass.control.admits .l ea = true → s.streamReady (ea.extWords .l) = true →
    let t := s.afterEa ea .l
    let a := s.eaAddress ea .l
    exec (.lea an ea) s = .next (t.setA an a) ∧
    exec (.jmp ea) s = .next (t.setPc a) ∧
    (s.stackReady = true →
      exec (.pea ea) s = .next (t.pushed .l a) ∧ exec (.jsr ea) s = .next ((t.pushed .l t.pc).setPc a))

/-- MOVEM (R204). Mask bit `n` names Dn and bit `8 + n` An, in the predecrement form bit `15 - n` Dn and bit `7 - n` An.
Registers to memory: predecrement stores A7 to D0 downwards and writes An last, the other modes store D0
to A7 upwards. Memory to registers: D0 to A7 upwards, a word sign-extended, then the extra word read when the dummy reads
are on; the postincrement form writes An last. The function code of that extra read is DEDUCED (log 28). MOVEP (R205):
bytes at every other address, high byte first, none misaligned. -/
def Obligations.MoveMultipleResult : Prop :=
  ∀ (sz : Size) (dn an : Fin 8) (s : State), sz ≠ .b → s.streamReady 1 = true →
    let down := maskedRegs (s.streamWord 0) movemPredecrementOrder
    let regs := maskedRegs (s.streamWord 0) movemOrder
    let t := s.skip 1
    let p := s.a[an] + sext16 (s.streamWord 0)
    let mask := s.streamWord 0
    (∀ n : Fin 8, (GenReg.d n ∈ regs ↔ mask.getLsbD n.val = true) ∧ (GenReg.a n ∈ regs ↔ mask.getLsbD (8 + n.val) = true) ∧
      (GenReg.d n ∈ down ↔ mask.getLsbD (15 - n.val) = true) ∧ (GenReg.a n ∈ down ↔ mask.getLsbD (7 - n.val) = true)) ∧
    regs.Sublist [.d 0, .d 1, .d 2, .d 3, .d 4, .d 5, .d 6, .d 7, .a 0, .a 1, .a 2, .a 3, .a 4, .a 5, .a 6, .a 7] ∧
    down.Sublist [.a 7, .a 6, .a 5, .a 4, .a 3, .a 2, .a 1, .a 0, .d 7, .d 6, .d 5, .d 4, .d 3, .d 2, .d 1, .d 0] ∧
    (exec (.movep dn .memToReg .w an) s = .next (t.movepLoaded dn 2 [0, 1] p) ∧
      exec (.movep dn .memToReg .l an) s = .next (t.movepLoaded dn 4 [0, 1, 2, 3] p) ∧
      exec (.movep dn .regToMem .w an) s = .next (t.movepStored dn 2 [0, 1] p) ∧
      exec (.movep dn .regToMem .l an) s = .next (t.movepStored dn 4 [0, 1, 2, 3] p)) ∧
    (∀ n : Fin 8, (down = [] ∨ isOdd s.a[n] = false) →
      exec (.movemToMem sz (.pd n)) s = .next
        ((t.storedDown sz down s.a[n]).setA n (addressDown sz down.length s.a[n]))) ∧
    (∀ n : Fin 8, ((regs = [] ∧ s.cfg.dummyReads = false) ∨ isOdd s.a[n] = false) →
      exec (.movemToRegs sz (.pi n)) s = .next
        (((t.loadedUp sz .data regs s.a[n]).dummyRead .data (addressUp sz regs.length s.a[n])).setA n
          (addressUp sz regs.length s.a[n]))) ∧
    ∀ (ea : Ea) (a : Long) (sp : Space), EaClass.control.admits sz ea = true → t.streamReady (ea.extWords sz) = true →
      t.eaDesc ea sz = .mem a sp →
      (EaClass.controlAlterable.admits sz ea = true → (regs = [] ∨ isOdd a = false) →
        exec (.movemToMem sz ea) s = .next ((t.afterEa ea sz).storedUp sz regs a)) ∧
      (((regs = [] ∧ s.cfg.dummyReads = false) ∨ isOdd a = false) →
        exec (.movemToRegs sz ea) s = .next
          (((t.afterEa ea sz).loadedUp sz sp regs a).dummyRead sp (addressUp sz regs.length a)))

/-- BRA, BSR, Bcc and DBcc (48_program_control.md R320–R324): the base is the address after the operation word; DBcc counts
in the low word, and its M68010 loop form faults where the stores kept from the step before meet the loop. The rule of that
fault (70_reset_and_hazards.md R462) speaks of the stores of the loop instruction; taking those of the step before, whatever
instruction it ran, is the model's reading (log 29). -/
def Obligations.BranchResult : Prop :=
  ∀ (c : Cond) (d8 : Byte) (dn : Fin 8) (s : State),
    (s.streamReady (dispWords d8) = true →
      let t := s.afterDisp d8
      exec (.bra d8) s = .next (t.setPc (s.dispTarget d8)) ∧
      (s.stackReady = true → exec (.bsr d8) s = .next ((t.pushed .l t.pc).setPc (s.dispTarget d8))) ∧
      exec (.bcc c d8) s = .next (if condHolds c s.ccr then t.setPc (s.dispTarget d8) else t)) ∧
    (s.streamReady 1 = true →
      let t := s.skip 1
      let count := lowWord s.d[dn] - 1
      let u := t.setDw dn .w (count.setWidth 32)
      (condHolds c s.ccr = true → exec (.dbcc c dn) s = .next t) ∧
      (condHolds c s.ccr = false → count = 0xFFFF → exec (.dbcc c dn) s = .next u) ∧
      (condHolds c s.ccr = false → count ≠ 0xFFFF →
        ¬(s.cfg.variant = .m68010 ∧ s.streamWord 0 = 0xFFFC ∧ s.storesMeetLoop (s.pc - 2) = true) →
        exec (.dbcc c dn) s = .next (u.setPc (s.pc + sext16 (s.streamWord 0)))) ∧
      (condHolds c s.ccr = false → count ≠ 0xFFFF → s.cfg.variant = .m68010 → s.streamWord 0 = 0xFFFC →
        s.storesMeetLoop (s.pc - 2) = true → exec (.dbcc c dn) s = .fault .prefetchHazard))

/-- LINK and UNLK (42_data_movement.md R210, R211), A7 as their register included, and RTS, RTR, RTD and NOP (R328–R330;
49_system_control.md R355). -/
def Obligations.StackResult : Prop :=
  ∀ (an : Fin 8) (s : State),
    exec .nop s = .next s ∧
    (s.streamReady 1 = true → s.stackReady = true →
      let sp := s.a[7] - 4
      let t := ((s.skip 1).setA 7 sp).store .l s.dataFc sp (if an = 7 then sp else s.a[an])
      exec (.link an) s = .next ((t.setA an sp).setA 7 (sp + sext16 (s.streamWord 0)))) ∧
    (isOdd s.a[an] = false →
      exec (.unlk an) s = .next (((s.setA 7 s.a[an]).popped .l).setA an (s.loaded .l s.dataFc s.a[an]))) ∧
    (s.stackReady = true →
      let t := (s.popped .w).writeCcr (lowByte (s.stackTop .w))
      let u := (s.skip 1).popped .l
      exec .rts s = .next ((s.popped .l).setPc (s.stackTop .l)) ∧
      exec .rtr s = .next ((t.popped .l).setPc (t.stackTop .l)) ∧
      (s.cfg.variant = .m68010 → s.streamReady 1 = true →
        exec .rtd s = .next ((u.setA 7 (u.a[7] + sext16 (s.streamWord 0))).setPc ((s.skip 1).stackTop .l))))

/-- ANDI, ORI, EORI to CCR and MOVE to and from CCR in any mode; ANDI, ORI, EORI to SR, MOVE to SR and STOP in supervisor
mode; MOVE from SR, which is privileged on M68010 (49_system_control.md R341–R351). -/
def Obligations.StatusRegisterResult : Prop :=
  ∀ (ea : Ea) (s : State),
    (s.streamReady 1 = true →
      let e := s.streamWord 0
      let t := s.skip 1
      (exec .andiToCcr s = .next (t.writeCcr (s.ccr.toByte &&& wordLowByte e)) ∧
        exec .oriToCcr s = .next (t.writeCcr (s.ccr.toByte ||| wordLowByte e)) ∧
        exec .eoriToCcr s = .next (t.writeCcr (s.ccr.toByte ^^^ wordLowByte e))) ∧
      (s.sBit = true →
        exec .andiToSr s = .next (t.writeSr (s.sr &&& e)) ∧ exec .oriToSr s = .next (t.writeSr (s.sr ||| e)) ∧
        exec .eoriToSr s = .next (t.writeSr (s.sr ^^^ e)) ∧
        exec .stop s = .next { t.writeSr e with runState := .stopped })) ∧
    (s.eaReady ea .w = true →
      exec (.moveToCcr ea) s = .next ((s.afterReadEa ea .w).writeCcr (lowByte (s.eaValue ea .w))) ∧
      (s.sBit = true →
        exec (.moveToSr ea) s = .next ((s.afterReadEa ea .w).writeSr (lowWord (s.eaValue ea .w)))) ∧
      (EaClass.dataAlterable.admits .w ea = true →
        (s.cfg.variant = .m68010 → exec (.moveFromCcr ea) s =
          .next ((s.afterEa ea .w).afterWrite (s.eaDesc ea .w) .w (s.ccr.toByte.setWidth 32))) ∧
        (s.sBit = true ∨ s.cfg.variant ≠ .m68010 → exec (.moveFromSr ea) s =
          .next ((s.afterEa ea .w).afterWrite (s.eaDesc ea .w) .w (s.sr.setWidth 32)))))

/-- MOVE USP, RESET and MOVEC in supervisor mode (R352, R353, R360): RESET calls `reset_out()` and changes nothing else,
whatever happens outside the core during the call (60_exceptions.md R443); MOVEC reaches SFC, DFC, USP and VBR, and any other code is illegal. -/
def Obligations.ControlRegisterResult : Prop :=
  ∀ (an : Fin 8) (s : State), s.sBit = true →
    exec (.moveAnUsp an) s = .next { s with spInactive := s.a[an] } ∧
    exec (.moveUspAn an) s = .next (s.setA an s.spInactive) ∧
    exec .reset s = .next { s.react with calls := .resetOut :: s.calls } ∧ (s.script = [] → s.react = s) ∧
    (s.cfg.variant = .m68010 → s.streamReady 1 = true →
      let e := s.streamWord 0
      let r := extGenReg e
      let code := e.toNat % 4096
      let t := s.skip 1
      let v := s.genReg r
      (code = 0x000 → exec .movecRcRn s = .next (t.setGenReg r (s.sfc.setWidth 32)) ∧
        exec .movecRnRc s = .next { t with sfc := v.setWidth 3 }) ∧
      (code = 0x001 → exec .movecRcRn s = .next (t.setGenReg r (s.dfc.setWidth 32)) ∧
        exec .movecRnRc s = .next { t with dfc := v.setWidth 3 }) ∧
      (code = 0x800 → exec .movecRcRn s = .next (t.setGenReg r s.usp) ∧
        exec .movecRnRc s = .next { t with spInactive := v }) ∧
      (code = 0x801 → exec .movecRcRn s = .next (t.setGenReg r s.vbr) ∧
        exec .movecRnRc s = .next { t with vbr := v }) ∧
      (code ∉ [0x000, 0x001, 0x800, 0x801] → t.entryReady 4 = true →
        exec .movecRcRn s = .next (t.entry 4 (s.pc - 2) none) ∧
        exec .movecRnRc s = .next (t.entry 4 (s.pc - 2) none)))

/-- MOVES in supervisor mode on M68010 (R361): a store with DFC, a read with SFC; the value stored from an address register
that the operand itself steps is a free choice between before and after (log 6, log 27). -/
def Obligations.MovesResult : Prop :=
  ∀ (sz : Size) (ea : Ea) (s : State), s.cfg.variant = .m68010 → s.sBit = true →
    EaClass.memoryAlterable.admits sz ea = true → s.streamReady 1 = true → (s.skip 1).eaReady ea sz = true →
    let r := extGenReg (s.streamWord 0)
    let a := (s.skip 1).eaAddress ea sz
    let t := (s.skip 1).afterEa ea sz
    ((s.streamWord 0).getLsbD 11 = true → movesSelfUpdate r ea = false →
      exec (.moves sz ea) s = .next (t.store sz s.dfc a (s.genReg r))) ∧
    ((s.streamWord 0).getLsbD 11 = true → movesSelfUpdate r ea = true →
      exec (.moves sz ea) s = .next ((t.drawn 1).store sz s.dfc a
        (if Config.freeBit s.draws then t.genReg r else s.genReg r))) ∧
    ((s.streamWord 0).getLsbD 11 = false →
      exec (.moves sz ea) s = .next ((t.load sz s.sfc a).setMoves r sz (t.loaded sz s.sfc a)))

/-- RTE in supervisor mode (R354; 60_exceptions.md R409, R415): the frame of the variant is popped, SR written whole, the PC
taken; on M68010 format 8 faults and any format but 0 and 8 is a format error with nothing popped. -/
def Obligations.RteResult : Prop :=
  ∀ (s : State), s.sBit = true → s.stackReady = true →
    let sp := s.a[7]
    let t := (s.load .w 5 sp).load .l 5 (sp + 2)
    let back := fun (u : State) (size : Long) =>
      ((u.setA 7 (sp + size)).writeSr (lowWord (s.loaded .w 5 sp))).setPc ((s.load .w 5 sp).loaded .l 5 (sp + 2))
    let format := (lowWord (t.loaded .w 5 (sp + 6))).extractLsb' 12 4
    let u := t.load .w 5 (sp + 6)
    (s.cfg.variant ≠ .m68010 → exec .rte s = .next (back t 6)) ∧
    (s.cfg.variant = .m68010 → format = 0 → exec .rte s = .next (back u 8)) ∧
    (s.cfg.variant = .m68010 → format = 8 → exec .rte s = .fault .unsupportedFrame) ∧
    (s.cfg.variant = .m68010 → format ≠ 0 → format ≠ 8 → u.entryReady 14 = true →
      exec .rte s = .next (u.entry 14 (s.pc - 2) none))

/-- TRAP, TRAPV, ILLEGAL, BKPT and the emulator lines (R356–R359, R362, R363): their words, the vector and the PC each
saves, in either mode. -/
def Obligations.TrapResult : Prop :=
  ∀ (v : BitVec 4) (b : BitVec 3) (low : BitVec 12) (s : State),
    (decodeWord (0x4E4#12 ++ v) = some (.trap v) ∧ decodeWord 0x4E76 = some .trapv ∧
      decodeWord 0x4AFC = some .illegal ∧ decodeWord (0b0100100001001#13 ++ b) = some (.bkpt b) ∧
      decodeWord (0xA#4 ++ low) = some (.lineA low) ∧ decodeWord (0xF#4 ++ low) = some (.lineF low)) ∧
    (s.entryReady (32 + v.setWidth 8) = true →
      exec (.trap v) s = .next (s.entry (32 + v.setWidth 8) s.pc none)) ∧
    (s.ccr.v = false → exec .trapv s = .next s) ∧
    (s.ccr.v = true → s.entryReady 7 = true → exec .trapv s = .next (s.entry 7 s.pc none)) ∧
    (s.entryReady 4 = true → exec .illegal s = .next (s.entry 4 (s.pc - 2) none) ∧
      exec (.bkpt b) s = .next (s.entry 4 (s.pc - 2) none)) ∧
    (s.entryReady 10 = true → exec (.lineA low) s = .next (s.entry 10 (s.pc - 2) none)) ∧
    (s.entryReady 11 = true → exec (.lineF low) s = .next (s.entry 11 (s.pc - 2) none))

/-! Frames: what an instruction leaves unchanged when it completes without entering an exception. -/

/-- Every data register that an instruction does not name as its destination, and every address register that is not its
destination, not stepped by an operand and not the stack pointer of an instruction that moves it or writes S, is
unchanged. -/
def Obligations.GeneralRegisterFrame : Prop :=
  ∀ (i : Instr) (s t : State) (n : Fin 8), i.wellFormed = true → exec i s = .next t → t.entered = none →
    (n ∉ i.dataDests s → t.d[n] = s.d[n]) ∧ (n ∉ i.addrDests s → t.a[n] = s.a[n])

/-- Every flag that the table of 41_flag_model.md R179 does not give an instruction is unchanged. -/
def Obligations.FlagFrame : Prop :=
  ∀ (i : Instr) (s t : State), exec i s = .next t → t.entered = none → i.flagUse.kept s.ccr t.ccr

/-- T, S, I, `SP_inactive`, VBR, SFC, DFC, the run state, the interrupt request and the model's other fields are unchanged
but for the instructions that write them; the request and the refusal mark also change by calls that the host makes from
inside the instruction's bus calls (60_exceptions.md R441), and by nothing else. No change of another agent is taken in the
middle of it (20_memory.md R76). -/
def Obligations.SpecialRegisterFrame : Prop :=
  ∀ (i : Instr) (s t : State), exec i s = .next t → t.entered = none →
    (i.writesSr = false → t.tBit = s.tBit ∧ t.sBit = s.sBit ∧ t.iMask = s.iMask) ∧
    (i.writesSpInactive = false → t.spInactive = s.spInactive) ∧
    (i ≠ .movecRnRc → t.vbr = s.vbr ∧ t.sfc = s.sfc ∧ t.dfc = s.dfc) ∧
    (i ≠ .stop → t.runState = s.runState) ∧
    (s.noCallbacks = true → t.intLevel = s.intLevel ∧ t.refusedMark = s.refusedMark) ∧
    t.cfg = s.cfg ∧ t.prevLevel = s.prevLevel ∧ t.tracePending = s.tracePending ∧
    t.lastStores = s.lastStores ∧ t.seqEnd = s.seqEnd ∧ t.faultMark = s.faultMark ∧
    t.ir = s.ir ∧ t.resetFetch = s.resetFetch ∧ t.agents = s.agents

/-- Every byte of memory outside what an instruction stores to, at the address computed as its meaning computes it, is
unchanged; for a form that stores nothing, every byte. An instruction is indivisible (20_memory.md R76): nothing outside
the core changes a byte between its bus calls, whatever they answer and whatever is called from inside them. -/
def Obligations.MemoryFrame : Prop :=
  ∀ (i : Instr) (s t : State) (fc : BitVec 3) (a : Long), i.wellFormed = true → exec i s = .next t → t.entered = none →
    (∀ p ∈ i.stores s, memKey s.cfg fc a ∉ spanKeys s.cfg p) → t.peekByte fc a = s.peekByte fc a

/-! Exceptions. -/

/-- `Enter` (60_exceptions.md R410–R414): supervisor mode, T = 0, the new mask for an interrupt; the bus calls are, on
M68010, the vector offset, then the saved PC and the old SR written downwards from the SSP, then the vector read, which the
PC takes: what memory holds there, or the collaborator's own answer to that read (20_memory.md R81); the frame at the new A7
holds what was written; a pending trace is dropped for vectors 4, 8, 9, 10, 11; D0–D7, A0–A6, the USP, the flags and every
byte outside the frame are kept. -/
def Obligations.EntryState : Prop :=
  ∀ (s : State) (v : Byte) (p : Long) (i : Option (BitVec 3)), s.entryReady v = true →
    ∃ t, takeException v p i s = .next t ∧
      t.sBit = true ∧ t.tBit = false ∧ t.iMask = i.getD s.iMask ∧ t.ccr = s.ccr ∧ t.d = s.d ∧
      (∀ n : Fin 8, n ≠ 7 → t.a[n] = s.a[n]) ∧ t.usp = s.usp ∧
      t.a[7] = s.ssp - (if s.cfg.variant = .m68010 then 8 else 6) ∧
      (let va := (if s.cfg.variant = .m68010 then s.vbr else 0) + 4 * v.setWidth 32;
        t.pc = (nextReaction (s.script.drop (if s.cfg.variant = .m68010 then 3 else 2))).value .l (t.peekLong 5 va) ∧
        t.calls = .read .l va 5 :: .write .w t.a[7] 5 (s.sr.setWidth 32) :: .write .l (t.a[7] + 2) 5 p ::
          ((if s.cfg.variant = .m68010 then [.write .w (t.a[7] + 6) 5 (4 * v.setWidth 32)] else []) ++ s.calls)) ∧
      (t.peekWord 5 t.a[7] = s.sr ∧ t.peekLong 5 (t.a[7] + 2) = p ∧
        (s.cfg.variant = .m68010 → t.peekWord 5 (t.a[7] + 6) = 4 * v.setWidth 16)) ∧
      t.tracePending = (s.tracePending && !decide (v ∈ [(4 : Byte), 8, 9, 10, 11])) ∧
      t.runState = .running ∧ t.lastStores = [] ∧ t.vbr = s.vbr ∧ t.sfc = s.sfc ∧ t.dfc = s.dfc ∧
      ∀ (fc : BitVec 3) (a : Long),
        (∀ k < (if s.cfg.variant = .m68010 then 8 else 6), memKey s.cfg fc a ≠ memKey s.cfg 5 (t.a[7] + BitVec.ofNat 32 k)) →
        t.peekByte fc a = s.peekByte fc a

/-- A privileged instruction in user mode takes vector 8, saving its own address and the unmodified SR, and nothing else of
it happens (49_system_control.md R340; 60_exceptions.md R405). -/
def Obligations.PrivilegeViolation : Prop :=
  ∀ (i : Instr) (s : State), i.privilegedOn s.cfg.variant = true → s.sBit = false → s.entryReady 8 = true →
    exec i s = .next (s.entry 8 (s.pc - 2) none)

/-- On M68000 and M68008 the M68010's instructions are illegal, in user mode too (30_encoding.md R112, R340); the check
is in the meaning (log 12). -/
def Obligations.M68010OnlyIsIllegal : Prop :=
  ∀ (i : Instr) (s : State), i.m68010Only = true → s.cfg.variant ≠ .m68010 → s.entryReady 4 = true →
    exec i s = .next (s.entry 4 (s.pc - 2) none)

/-- An address error (20_memory.md R74; 60_exceptions.md R426, R427). A word or long access or a fetch at an odd address is
not made and leaves the state as it was. An instruction with such an operand, or a stack or a vector it cannot use, takes the
error from the state written so far; a step at an odd PC takes it before anything else, as a double fault where it is the
first fetch after reset (70_reset_and_hazards.md R451; on M68010 the model's choice, log 20). Taking it is a fault in fault
mode, an unsupported frame on M68010; else, with an even supervisor stack pointer, supervisor mode, T = 0, the 14-byte frame
written downwards and vector 3; with an odd one, a double fault. The saved PC, the upper address bits and status bits 15–5
are free. I/N is 1 in the accesses of `Enter` alone: that it is 0 for a fetch at an odd PC is the model's choice (log 19). -/
def Obligations.AddressErrorTaken : Prop :=
  ∀ (s : State),
    (∀ (sz : Size) (fc : BitVec 3) (a v : Long), sz ≠ .b → isOdd a = true →
      memRead sz fc a s = .error (.addressError ⟨a, false, fc, false⟩) s ∧
      memWrite sz fc a v s = .error (.addressError ⟨a, true, fc, false⟩) s ∧
      (s.pc = a → fetch16 s = .error (.addressError ⟨a, false, s.progFc, false⟩) s)) ∧
    (s.runsNext = true → isOdd s.pc = true →
      let double := s.resetFetch = true ∧ s.cfg.addressErrorMode = .exception ∧ s.cfg.variant ≠ .m68010
      (double → step s = .fault .haltedDoubleFault) ∧
      (¬double → step s = takeAddressError ⟨s.pc, false, s.progFc, false⟩ s.sampleLine.beginStep.latchTrace)) ∧
    (∀ (dn : Fin 8) (q : BitVec 3) (sz : Size) (ea : Ea) (a : Long) (sp : Space), s.streamReady (ea.extWords sz) = true →
      s.eaDesc ea sz = .mem a sp → alignedAt sz a = false →
      let t := s.afterEa ea sz
      let e : AddressError := ⟨a, false, s.spaceFc sp, false⟩
      (∀ i ∈ [Instr.tst sz ea, .addEaDn dn sz ea, .subEaDn dn sz ea, .andEaDn dn sz ea, .orEaDn dn sz ea, .cmp dn sz ea,
        .adda dn sz ea, .suba dn sz ea, .cmpa dn sz ea, .neg sz ea, .negx sz ea, .notOp sz ea, .addDnEa dn sz ea,
        .subDnEa dn sz ea, .andDnEa dn sz ea, .orDnEa dn sz ea, .eor dn sz ea, .addq q sz ea, .subq q sz ea],
        exec i s = takeAddressError e t) ∧
      (sz = .w → ∀ i ∈ [Instr.moveW ea (.dn dn), .moveaW dn ea, .mulu dn ea, .muls dn ea, .divu dn ea, .divs dn ea,
        .chk dn ea, .moveToCcr ea, .aslEa ea, .asrEa ea, .lslEa ea, .lsrEa ea, .rolEa ea, .rorEa ea, .roxlEa ea,
        .roxrEa ea], exec i s = takeAddressError e t) ∧
      (sz = .l → ∀ i ∈ [Instr.moveL ea (.dn dn), .moveaL dn ea], exec i s = takeAddressError e t) ∧
      (sp = .data → (sz = .w → exec (.moveW (.dn dn) ea) s = takeAddressError { e with write := true } t) ∧
        (sz = .l → exec (.moveL (.dn dn) ea) s = takeAddressError { e with write := true } t))) ∧
    (isOdd s.a[7] = true →
      exec .rts s = takeAddressError ⟨s.a[7], false, s.dataFc, false⟩ s ∧
      exec .rtr s = takeAddressError ⟨s.a[7], false, s.dataFc, false⟩ s ∧
      ∀ d8 : Byte, d8 ≠ 0 →
        exec (.bsr d8) s = takeAddressError ⟨s.a[7] - 4, true, s.dataFc, false⟩ (s.setA 7 (s.a[7] - 4))) ∧
    (∀ (v : Byte) (p : Long) (i : Option (BitVec 3)), s.entryReady v = false →
      takeException v p i s = .fault (match s.cfg.addressErrorMode, s.cfg.variant with
        | .fault, _ => .addressErrorFault
        | .exception, .m68010 => .unsupportedFrame
        | .exception, .m68000 => .haltedDoubleFault
        | .exception, .m68008 => .haltedDoubleFault)) ∧
    ∀ e : AddressError,
      (s.cfg.addressErrorMode = .fault → takeAddressError e s = .fault .addressErrorFault) ∧
      (s.cfg.addressErrorMode = .exception → s.cfg.variant = .m68010 →
        takeAddressError e s = .fault .unsupportedFrame) ∧
      (s.cfg.addressErrorMode = .exception → s.cfg.variant ≠ .m68010 → isOdd s.ssp = true →
        takeAddressError e s = .fault .haltedDoubleFault) ∧
      (s.cfg.addressErrorMode = .exception → s.cfg.variant ≠ .m68010 → isOdd s.ssp = false →
        ∃ (t : State) (status ir : Word) (access saved : Long), takeAddressError e s = .next t ∧
          t.sBit = true ∧ t.tBit = false ∧ t.iMask = s.iMask ∧ t.ccr = s.ccr ∧ t.d = s.d ∧
          (∀ n : Fin 8, n ≠ 7 → t.a[n] = s.a[n]) ∧ t.usp = s.usp ∧ t.a[7] = s.ssp - 14 ∧
          t.tracePending = false ∧ t.runState = .running ∧ t.lastStores = [] ∧
          t.pc = (nextReaction (s.script.drop 5)).value .l (t.peekLong 5 12) ∧
          t.calls = [.read .l 12 5, .write .w t.a[7] 5 (status.setWidth 32), .write .l (t.a[7] + 2) 5 access,
            .write .w (t.a[7] + 6) 5 (ir.setWidth 32), .write .w (t.a[7] + 8) 5 (s.sr.setWidth 32),
            .write .l (t.a[7] + 10) 5 saved] ++ s.calls ∧
          (∀ w, s.ir = some w → ir = w) ∧
          (∀ k < addressBits s.cfg, access.getLsbD k = e.access.getLsbD k) ∧
          status.extractLsb' 0 5 = (BitVec.ofBool (!e.write) ++ BitVec.ofBool e.inException ++ e.fc : BitVec 5) ∧
          t.peekWord 5 t.a[7] = status ∧ t.peekLong 5 (t.a[7] + 2) = access ∧ t.peekWord 5 (t.a[7] + 6) = ir ∧
          t.peekWord 5 (t.a[7] + 8) = s.sr ∧ t.peekLong 5 (t.a[7] + 10) = saved)

/-- The prefetch hazard (70_reset_and_hazards.md R461): a fetch, at an even PC, of a byte that the instruction before
stored, inside the window after it, faults: the fetch of an operation word, and that of an extension word. -/
def Obligations.PrefetchHazardFaults : Prop :=
  ∀ (s : State) (k : Nat), isOdd s.pc = false → k < s.cfg.smcWindowBytes →
    busAddr s.cfg (s.seqEnd + BitVec.ofNat 32 k) ∈ s.lastStores →
    (busAddr s.cfg s.pc = busAddr s.cfg (s.seqEnd + BitVec.ofNat 32 k) ∨
      busAddr s.cfg (s.pc + 1) = busAddr s.cfg (s.seqEnd + BitVec.ofNat 32 k)) →
    fetch16 s = .error (.fault .prefetchHazard) s ∧
    (s.runsNext = true → step s = .fault .prefetchHazard) ∧
    (∀ (c : Cond) (n : Fin 8) (dir : MoveDir) (sz : Size) (ea : Ea),
      (∀ i ∈ [Instr.bra 0, .bsr 0, .bcc c 0, .dbcc c n, .link n, .andiToCcr, .oriToCcr, .eoriToCcr, .movep n dir sz n,
        .movemToMem sz ea, .movemToRegs sz ea, .addi sz ea, .subi sz ea, .andi sz ea, .ori sz ea, .eori sz ea, .cmpi sz ea,
        .btstImm ea, .bchgImm ea, .bclrImm ea, .bsetImm ea], exec i s = .fault .prefetchHazard) ∧
      (0 < ea.extWords sz → ∀ i ∈ [Instr.tst sz ea, .neg sz ea, .addEaDn n sz ea, .addDnEa n sz ea, .cmp n sz ea],
        exec i s = .fault .prefetchHazard))

/-- An interrupt at a boundary (60_exceptions.md R417–R421): recognized when its level exceeds I, or at level 7 as a
non-maskable one; then one acknowledge with function code 7 (20_memory.md R71), the handler of the vector of its answer
(R412, R422), the PC and SR saved and I = L; the request is cleared in consumed mode only, and one that the host raises
inside the acknowledge stays pending (R421, R441). The answers are a table of the configuration (log 21). -/
def Obligations.InterruptTaken : Prop :=
  ∀ (s : State) (l : Fin 8), s.active = true → s.tracePending = false → s.intLevel = l → l ≠ 0 →
    (s.iMask.toNat < l.val ∨
      (l = 7 ∧ s.cfg.level7Nmi = true ∧ (s.cfg.intLineMode = .consumed ∨ s.prevLevel ≠ 7))) →
    let v : Byte := match s.cfg.iack[l] with
      | .autovector => BitVec.ofNat 8 (24 + l.val)
      | .vector n => n
      | .spurious => 24
      | .uninitialized => 15
    s.entryReady v = true →
    ∃ t, step s = .next t ∧ t.iMask.toNat = l.val ∧ t.sBit = true ∧ t.tBit = false ∧ t.entered = some v ∧
      t.calls.count (.iack l 7) = 1 ∧ t.runState = .running ∧
      t.pc = (nextReaction (s.script.drop (if s.cfg.variant = .m68010 then 4 else 3))).value .l
        (t.peekLong 5 ((if s.cfg.variant = .m68010 then s.vbr else 0) + 4 * v.setWidth 32)) ∧
      .write .l (t.a[7] + 2) 5 s.pc ∈ t.calls ∧ .write .w t.a[7] 5 (s.sr.setWidth 32) ∈ t.calls ∧
      t.peekLong 5 (t.a[7] + 2) = s.pc ∧ t.peekWord 5 t.a[7] = s.sr ∧
      (s.noCallbacks = true → t.intLevel = (if s.cfg.intLineMode = .consumed then 0 else l)) ∧
      ∀ (k : Fin 8) (x : Option Long) (rest : List Reaction),
        s.script = ⟨x, [.raiseInterrupt k.val]⟩ :: rest → (rest.all fun r => r.callbacks.isEmpty) = true → t.intLevel = k

/-- A request that is masked is not recognized and stays pending (R417): the core runs on, and a STOPPED core with nothing
to take holds with every register and its request as they were, and its memory but for what changes outside the core
(R423; 20_memory.md R81); the hold is a next state by the model's choice (log 9). -/
def Obligations.MaskedRequestWaits : Prop :=
  ∀ (s : State), s.active = true → s.tracePending = false → s.intLevel.val ≤ s.iMask.toNat → s.intLevel ≠ 7 →
    s.recognized = false ∧
    (s.runState = .stopped → step s = .next s.sampleLine.beginStep ∧
      s.sampleLine.beginStep.intLevel = s.intLevel ∧ s.sampleLine.beginStep.script = s.script ∧
      (s.agents = [] → s.sampleLine.beginStep.mem = s.mem))

/-- Trace (R424, R425, R431): T is latched at the start of an instruction, and a pending trace is taken before an interrupt
and before anything else, vector 9, saving the PC at the boundary. -/
def Obligations.TraceTaken : Prop :=
  ∀ (s : State), s.active = true →
    (s.tracePending = true → s.entryReady 9 = true → step s = .next (s.beginStep.entry 9 s.pc none)) ∧
    (∀ w : Word, (s.atMeaning w).tracePending = (s.tBit && s.cfg.traceEnabled))

/-- A marked, a HALTED and an unconnected core have no step (10_state.md R53; 60_exceptions.md R431; 00_scope.md R27);
what a step of one answers is the model's choice (log 10). -/
def Obligations.NoStepWhenMarked : Prop :=
  ∀ (s : State),
    (∀ r, s.faultMark = some r → step s = .fault r) ∧
    (∀ r, s.faultMark = none → s.refusedMark = some r → step s = .refused r) ∧
    (s.faultMark = none → s.refusedMark = none → s.cfg.busCollaborator = false → step s = .refused .noBusCollaborator) ∧
    (s.faultMark = none → s.refusedMark = none → s.cfg.busCollaborator = true → s.runState = .halted →
      step s = .fault .haltedDoubleFault)

/-! Reset and the host. -/

/-- What reset leaves where the spec gives a value (10_state.md R54): supervisor mode, T = 0, I = 7, VBR = 0, RUNNING, no
trace pending, no stores kept; A7 and PC are what memory holds at 0 and 4. -/
def Obligations.ResetState : Prop :=
  State.reset.sBit = true ∧ State.reset.tBit = false ∧ State.reset.iMask = 7 ∧ State.reset.vbr = 0 ∧
    State.reset.runState = .running ∧ State.reset.tracePending = false ∧ State.reset.lastStores = [] ∧
    State.reset.a[7] = State.reset.peekLong 6 0 ∧ State.reset.pc = State.reset.peekLong 6 4

/-- The host's `reset()` (70_reset_and_hazards.md R450) in any state: those values, A7 and the PC read from addresses 0 and 4
with function code 6 and nothing else on the bus; memory kept, and the interrupt request and the marks but for what is called
from inside the two reads. With no bus collaborator it is refused, by the model's choice (log 31). -/
def Obligations.HostResetState : Prop :=
  (∀ (s : State), s.cfg.busCollaborator = false → hostReset s = s.refuse .noBusCollaborator) ∧
  ∀ (s : State), s.cfg.busCollaborator = true →
    (hostReset s).sBit = true ∧ (hostReset s).tBit = false ∧ (hostReset s).iMask = 7 ∧
    (hostReset s).runState = .running ∧ (hostReset s).tracePending = false ∧ (hostReset s).lastStores = [] ∧
    (hostReset s).a[7] = s.loaded .l 6 0 ∧ (hostReset s).pc = (s.load .l 6 0).loaded .l 6 4 ∧
    (hostReset s).calls = [.read .l 4 6, .read .l 0 6] ∧ (hostReset s).script = s.script.drop 2 ∧
    (s.cfg.variant = .m68010 → (hostReset s).vbr = 0) ∧ (hostReset s).cfg = s.cfg ∧
    (hostReset s).prevLevel = s.prevLevel ∧ (hostReset s).faultMark = s.faultMark ∧
    (hostReset s).mem = s.mem ∧ (hostReset s).agents = s.agents ∧
    (s.noCallbacks = true → (hostReset s).intLevel = s.intLevel ∧ (hostReset s).refusedMark = s.refusedMark)

/-! Invariants and whole-machine rules, over every step from every state. -/

/-- The reset state meets the invariant. -/
def Obligations.ResetInvariant : Prop := State.reset.Inv = true

/-- Every step keeps the invariant: memory in canonical form inside the bus address space, hazard addresses on the bus, no
trace pending where trace is disabled, no control register of the M68010 on a variant without it (log 13). -/
def Obligations.StepKeepsInvariant : Prop := ∀ (s t : State), s.Inv = true → step s = .next t → t.Inv = true

/-- User mode is left only by exception entry (60_exceptions.md R436), and in user mode a step that enters none leaves T, I,
the supervisor stack pointer, VBR, SFC, DFC and the run state as they were (R435). No step at all changes the configuration
or a fault mark, or leads to HALTED, and a refusal mark comes only from a call that the host makes from inside a bus call
(00_scope.md R3; 10_state.md R48, R53; 60_exceptions.md R440–R443). -/
def Obligations.UserModeIsConfined : Prop :=
  ∀ (s t : State), step s = .next t →
    (t.cfg = s.cfg ∧ t.faultMark = s.faultMark ∧ t.runState ≠ .halted ∧
      (s.noCallbacks = true → t.refusedMark = s.refusedMark)) ∧
    (s.sBit = false → t.entered = none →
      t.sBit = false ∧ t.tBit = s.tBit ∧ t.iMask = s.iMask ∧ t.ssp = s.ssp ∧ t.vbr = s.vbr ∧ t.sfc = s.sfc ∧
        t.dfc = s.dfc ∧ t.runState = s.runState)

/-- Every access a step makes is a byte or at an even address (20_memory.md R74). -/
def Obligations.AccessesAreAligned : Prop :=
  ∀ (s t : State), step s = .next t → ∀ c ∈ t.calls, c.aligned = true

/-- The core changes memory only by the writes it issues (20_memory.md R70, R77, R81), and nothing outside it acts inside a
step (R76): every byte that no write call of a step covers reads as at the start of the step, whatever the step was, and
that is as before unless something outside the core changed it between the steps. The byte store and the two inputs (log 5)
and the list of calls (log 15) are the model's choice. -/
def Obligations.MemoryChangesOnlyByWrites : Prop :=
  ∀ (s t : State), step s = .next t →
    t.script = s.script.drop t.calls.length ∧ t.agents = s.agents.tail ∧
    ∀ (fc : BitVec 3) (a : Long),
      (memKey s.cfg fc a ∉ writtenKeys s.cfg t.calls → t.peekByte fc a = s.beginStep.peekByte fc a) ∧
      (s.undisturbed (memKey s.cfg fc a) = true → s.beginStep.peekByte fc a = s.peekByte fc a)

/-- When an instruction completes without a control transfer, the PC holds the address of the next instruction
(10_state.md R36): its own address plus its length. -/
def Obligations.PcAdvances : Prop :=
  ∀ (i : Instr) (s t : State), i.wellFormed = true → i.transfers = false → exec i s = .next t → t.entered = none →
    t.pc = s.pc - 2 + BitVec.ofNat 32 i.lengthBytes
end

