-- ==== Sys2Proof/Laws/Bits.lean ====
section
/-! SUPPORT. The operand-size helpers of Machine/Bits.lean bit by bit and as numbers. -/

namespace Sys2Proof

set_option Elab.async false

theorem Size.bits_pos (sz : Size) : 0 < sz.bits := by cases sz <;> decide

theorem Size.bits_le (sz : Size) : sz.bits ≤ 32 := by cases sz <;> decide

theorem Size.mask_getLsbD (sz : Size) (k : Nat) : sz.mask.getLsbD k = decide (k < sz.bits) := by
  by_cases hk : k < 32
  · revert k
    cases sz <;> decide
  · have h1 : sz.mask.getLsbD k = false := BitVec.getLsbD_of_ge _ _ (by omega)
    have := sz.bits_le
    rw [h1]
    simp
    omega

theorem low_getLsbD (sz : Size) (v : Long) (k : Nat) : (low sz v).getLsbD k = (decide (k < sz.bits) && v.getLsbD k) := by
  simp [low, Size.mask_getLsbD, Bool.and_comm]

theorem mergeLow_getLsbD (sz : Size) (old new : Long) (k : Nat) :
    (mergeLow sz old new).getLsbD k = if k < sz.bits then new.getLsbD k else old.getLsbD k := by
  by_cases hk : k < 32
  · simp only [mergeLow, BitVec.getLsbD_or, BitVec.getLsbD_and, BitVec.getLsbD_not, Size.mask_getLsbD, hk]
    by_cases h : k < sz.bits <;> simp [h]
  · have := sz.bits_le
    have hn : ¬k < sz.bits := by omega
    rw [if_neg hn, BitVec.getLsbD_of_ge _ _ (by omega), BitVec.getLsbD_of_ge _ _ (by omega)]

theorem low_toNat (sz : Size) (v : Long) : (low sz v).toNat = v.toNat % 2 ^ sz.bits := by
  have h : sz.mask.toNat = 2 ^ sz.bits - 1 := by cases sz <;> rfl
  rw [low, BitVec.toNat_and, h, Nat.and_two_pow_sub_one_eq_mod]

@[simp] theorem low_long (v : Long) : low .l v = v := by
  apply BitVec.eq_of_toNat_eq
  rw [low_toNat]
  exact Nat.mod_eq_of_lt v.isLt

@[simp] theorem mergeLow_long (old new : Long) : mergeLow .l old new = new := by
  apply BitVec.eq_of_getLsbD_eq
  intro k hk
  rw [mergeLow_getLsbD]
  exact if_pos hk

@[simp] theorem low_low (sz : Size) (v : Long) : low sz (low sz v) = low sz v := by
  apply BitVec.eq_of_toNat_eq
  simp [low_toNat]

@[simp] theorem mergeLow_low (sz : Size) (old new : Long) : mergeLow sz old (low sz new) = mergeLow sz old new := by
  apply BitVec.eq_of_getLsbD_eq
  intro k _
  rw [mergeLow_getLsbD, mergeLow_getLsbD, low_getLsbD]
  split <;> simp [*]

theorem msb_eq (sz : Size) (v : Long) : msb sz v = decide (2 ^ (sz.bits - 1) ≤ (low sz v).toNat) := by
  have key : ∀ (w : Nat) (x : Nat), 0 < w → x.testBit (w - 1) = decide (2 ^ (w - 1) ≤ x % 2 ^ w) := by
    intro w x hw
    obtain ⟨w, rfl⟩ : ∃ k, w = k + 1 := ⟨w - 1, by omega⟩
    simp only [Nat.add_sub_cancel]
    rw [Nat.testBit_eq_decide_div_mod_eq, decide_eq_decide, Nat.pow_succ, Nat.mod_mul]
    have h1 : x / 2 ^ w % 2 < 2 := Nat.mod_lt _ (by decide)
    have h2 : x % 2 ^ w < 2 ^ w := Nat.mod_lt _ (by positivity)
    constructor
    · intro h; rw [h]; omega
    · intro h
      by_contra hne
      have : x / 2 ^ w % 2 = 0 := by omega
      rw [this] at h
      omega
  rw [low_toNat]
  exact key sz.bits v.toNat sz.bits_pos

theorem isZero_eq (sz : Size) (v : Long) : isZero sz v = decide (low sz v = 0) := by
  unfold isZero
  by_cases h : low sz v = 0
  · rw [h]; rfl
  · rw [decide_eq_false h, beq_eq_false_iff_ne]; exact h

theorem toInt_cond (w n : Nat) (hw : 0 < w) :
    (if 2 * n < 2 ^ w then (n : Int) else n - (2 ^ w : Nat)) =
      if decide (2 ^ (w - 1) ≤ n) = true then (n : Int) - 2 ^ w else n := by
  obtain ⟨k, rfl⟩ : ∃ k, w = k + 1 := ⟨w - 1, by omega⟩
  have e : 2 ^ (k + 1) = 2 * 2 ^ k := Nat.pow_succ'
  simp only [Nat.add_sub_cancel, decide_eq_true_eq, Nat.cast_pow, Nat.cast_ofNat]
  split <;> split <;> first | rfl | omega

/-- The two's-complement value as a number. -/
theorem signedVal_eq (sz : Size) (v : Long) :
    signedVal sz v = if msb sz v then ((low sz v).toNat : Int) - 2 ^ sz.bits else (low sz v).toNat := by
  rw [msb_eq, low_toNat, ← toInt_cond _ _ sz.bits_pos]
  cases sz
  · unfold signedVal sextSize sext8 lowByte
    dsimp only
    rw [BitVec.toInt_signExtend_of_le (by decide), BitVec.toInt_eq_toNat_cond, BitVec.toNat_setWidth]
    rfl
  · unfold signedVal sextSize sext16 lowWord
    dsimp only
    rw [BitVec.toInt_signExtend_of_le (by decide), BitVec.toInt_eq_toNat_cond, BitVec.toNat_setWidth]
    rfl
  · unfold signedVal sextSize
    dsimp only
    rw [BitVec.toInt_eq_toNat_cond]
    have : v.toNat % 2 ^ Size.l.bits = v.toNat := Nat.mod_eq_of_lt v.isLt
    rw [this]
    rfl

end Sys2Proof
end

