-- ==== Sys2Proof/Laws/State.lean ====
section
/-! SUPPORT. One lemma per field per update of the state, so that no later proof unfolds an update. -/

namespace Sys2Proof.Machine

set_option Elab.async false

/-! `State.setD` -/

@[simp] theorem State.setD_cfg (s : State) (n : Fin 8) (v : Long) : (s.setD n v).cfg = s.cfg := rfl
@[simp] theorem State.setD_d (s : State) (n : Fin 8) (v : Long) : (s.setD n v).d = s.d.set n.val v n.isLt := rfl
@[simp] theorem State.setD_a (s : State) (n : Fin 8) (v : Long) : (s.setD n v).a = s.a := rfl
@[simp] theorem State.setD_spInactive (s : State) (n : Fin 8) (v : Long) : (s.setD n v).spInactive = s.spInactive := rfl
@[simp] theorem State.setD_pc (s : State) (n : Fin 8) (v : Long) : (s.setD n v).pc = s.pc := rfl
@[simp] theorem State.setD_tBit (s : State) (n : Fin 8) (v : Long) : (s.setD n v).tBit = s.tBit := rfl
@[simp] theorem State.setD_sBit (s : State) (n : Fin 8) (v : Long) : (s.setD n v).sBit = s.sBit := rfl
@[simp] theorem State.setD_iMask (s : State) (n : Fin 8) (v : Long) : (s.setD n v).iMask = s.iMask := rfl
@[simp] theorem State.setD_ccr (s : State) (n : Fin 8) (v : Long) : (s.setD n v).ccr = s.ccr := rfl
@[simp] theorem State.setD_vbr (s : State) (n : Fin 8) (v : Long) : (s.setD n v).vbr = s.vbr := rfl
@[simp] theorem State.setD_sfc (s : State) (n : Fin 8) (v : Long) : (s.setD n v).sfc = s.sfc := rfl
@[simp] theorem State.setD_dfc (s : State) (n : Fin 8) (v : Long) : (s.setD n v).dfc = s.dfc := rfl
@[simp] theorem State.setD_runState (s : State) (n : Fin 8) (v : Long) : (s.setD n v).runState = s.runState := rfl
@[simp] theorem State.setD_intLevel (s : State) (n : Fin 8) (v : Long) : (s.setD n v).intLevel = s.intLevel := rfl
@[simp] theorem State.setD_prevLevel (s : State) (n : Fin 8) (v : Long) : (s.setD n v).prevLevel = s.prevLevel := rfl
@[simp] theorem State.setD_tracePending (s : State) (n : Fin 8) (v : Long) : (s.setD n v).tracePending = s.tracePending := rfl
@[simp] theorem State.setD_lastStores (s : State) (n : Fin 8) (v : Long) : (s.setD n v).lastStores = s.lastStores := rfl
@[simp] theorem State.setD_seqEnd (s : State) (n : Fin 8) (v : Long) : (s.setD n v).seqEnd = s.seqEnd := rfl
@[simp] theorem State.setD_faultMark (s : State) (n : Fin 8) (v : Long) : (s.setD n v).faultMark = s.faultMark := rfl
@[simp] theorem State.setD_refusedMark (s : State) (n : Fin 8) (v : Long) : (s.setD n v).refusedMark = s.refusedMark := rfl
@[simp] theorem State.setD_mem (s : State) (n : Fin 8) (v : Long) : (s.setD n v).mem = s.mem := rfl
@[simp] theorem State.setD_script (s : State) (n : Fin 8) (v : Long) : (s.setD n v).script = s.script := rfl
@[simp] theorem State.setD_agents (s : State) (n : Fin 8) (v : Long) : (s.setD n v).agents = s.agents := rfl
@[simp] theorem State.setD_draws (s : State) (n : Fin 8) (v : Long) : (s.setD n v).draws = s.draws := rfl
@[simp] theorem State.setD_calls (s : State) (n : Fin 8) (v : Long) : (s.setD n v).calls = s.calls := rfl
@[simp] theorem State.setD_ir (s : State) (n : Fin 8) (v : Long) : (s.setD n v).ir = s.ir := rfl
@[simp] theorem State.setD_entered (s : State) (n : Fin 8) (v : Long) : (s.setD n v).entered = s.entered := rfl
@[simp] theorem State.setD_resetFetch (s : State) (n : Fin 8) (v : Long) : (s.setD n v).resetFetch = s.resetFetch := rfl

/-! `State.setDw` -/

@[simp] theorem State.setDw_cfg (s : State) (n : Fin 8) (sz : Size) (v : Long) : (s.setDw n sz v).cfg = s.cfg := rfl
@[simp] theorem State.setDw_d (s : State) (n : Fin 8) (sz : Size) (v : Long) : (s.setDw n sz v).d = s.d.set n.val (mergeLow sz s.d[n] v) n.isLt := rfl
@[simp] theorem State.setDw_a (s : State) (n : Fin 8) (sz : Size) (v : Long) : (s.setDw n sz v).a = s.a := rfl
@[simp] theorem State.setDw_spInactive (s : State) (n : Fin 8) (sz : Size) (v : Long) : (s.setDw n sz v).spInactive = s.spInactive := rfl
@[simp] theorem State.setDw_pc (s : State) (n : Fin 8) (sz : Size) (v : Long) : (s.setDw n sz v).pc = s.pc := rfl
@[simp] theorem State.setDw_tBit (s : State) (n : Fin 8) (sz : Size) (v : Long) : (s.setDw n sz v).tBit = s.tBit := rfl
@[simp] theorem State.setDw_sBit (s : State) (n : Fin 8) (sz : Size) (v : Long) : (s.setDw n sz v).sBit = s.sBit := rfl
@[simp] theorem State.setDw_iMask (s : State) (n : Fin 8) (sz : Size) (v : Long) : (s.setDw n sz v).iMask = s.iMask := rfl
@[simp] theorem State.setDw_ccr (s : State) (n : Fin 8) (sz : Size) (v : Long) : (s.setDw n sz v).ccr = s.ccr := rfl
@[simp] theorem State.setDw_vbr (s : State) (n : Fin 8) (sz : Size) (v : Long) : (s.setDw n sz v).vbr = s.vbr := rfl
@[simp] theorem State.setDw_sfc (s : State) (n : Fin 8) (sz : Size) (v : Long) : (s.setDw n sz v).sfc = s.sfc := rfl
@[simp] theorem State.setDw_dfc (s : State) (n : Fin 8) (sz : Size) (v : Long) : (s.setDw n sz v).dfc = s.dfc := rfl
@[simp] theorem State.setDw_runState (s : State) (n : Fin 8) (sz : Size) (v : Long) : (s.setDw n sz v).runState = s.runState := rfl
@[simp] theorem State.setDw_intLevel (s : State) (n : Fin 8) (sz : Size) (v : Long) : (s.setDw n sz v).intLevel = s.intLevel := rfl
@[simp] theorem State.setDw_prevLevel (s : State) (n : Fin 8) (sz : Size) (v : Long) : (s.setDw n sz v).prevLevel = s.prevLevel := rfl
@[simp] theorem State.setDw_tracePending (s : State) (n : Fin 8) (sz : Size) (v : Long) : (s.setDw n sz v).tracePending = s.tracePending := rfl
@[simp] theorem State.setDw_lastStores (s : State) (n : Fin 8) (sz : Size) (v : Long) : (s.setDw n sz v).lastStores = s.lastStores := rfl
@[simp] theorem State.setDw_seqEnd (s : State) (n : Fin 8) (sz : Size) (v : Long) : (s.setDw n sz v).seqEnd = s.seqEnd := rfl
@[simp] theorem State.setDw_faultMark (s : State) (n : Fin 8) (sz : Size) (v : Long) : (s.setDw n sz v).faultMark = s.faultMark := rfl
@[simp] theorem State.setDw_refusedMark (s : State) (n : Fin 8) (sz : Size) (v : Long) : (s.setDw n sz v).refusedMark = s.refusedMark := rfl
@[simp] theorem State.setDw_mem (s : State) (n : Fin 8) (sz : Size) (v : Long) : (s.setDw n sz v).mem = s.mem := rfl
@[simp] theorem State.setDw_script (s : State) (n : Fin 8) (sz : Size) (v : Long) : (s.setDw n sz v).script = s.script := rfl
@[simp] theorem State.setDw_agents (s : State) (n : Fin 8) (sz : Size) (v : Long) : (s.setDw n sz v).agents = s.agents := rfl
@[simp] theorem State.setDw_draws (s : State) (n : Fin 8) (sz : Size) (v : Long) : (s.setDw n sz v).draws = s.draws := rfl
@[simp] theorem State.setDw_calls (s : State) (n : Fin 8) (sz : Size) (v : Long) : (s.setDw n sz v).calls = s.calls := rfl
@[simp] theorem State.setDw_ir (s : State) (n : Fin 8) (sz : Size) (v : Long) : (s.setDw n sz v).ir = s.ir := rfl
@[simp] theorem State.setDw_entered (s : State) (n : Fin 8) (sz : Size) (v : Long) : (s.setDw n sz v).entered = s.entered := rfl
@[simp] theorem State.setDw_resetFetch (s : State) (n : Fin 8) (sz : Size) (v : Long) : (s.setDw n sz v).resetFetch = s.resetFetch := rfl

/-! `State.setA` -/

@[simp] theorem State.setA_cfg (s : State) (n : Fin 8) (v : Long) : (s.setA n v).cfg = s.cfg := rfl
@[simp] theorem State.setA_d (s : State) (n : Fin 8) (v : Long) : (s.setA n v).d = s.d := rfl
@[simp] theorem State.setA_a (s : State) (n : Fin 8) (v : Long) : (s.setA n v).a = s.a.set n.val v n.isLt := rfl
@[simp] theorem State.setA_spInactive (s : State) (n : Fin 8) (v : Long) : (s.setA n v).spInactive = s.spInactive := rfl
@[simp] theorem State.setA_pc (s : State) (n : Fin 8) (v : Long) : (s.setA n v).pc = s.pc := rfl
@[simp] theorem State.setA_tBit (s : State) (n : Fin 8) (v : Long) : (s.setA n v).tBit = s.tBit := rfl
@[simp] theorem State.setA_sBit (s : State) (n : Fin 8) (v : Long) : (s.setA n v).sBit = s.sBit := rfl
@[simp] theorem State.setA_iMask (s : State) (n : Fin 8) (v : Long) : (s.setA n v).iMask = s.iMask := rfl
@[simp] theorem State.setA_ccr (s : State) (n : Fin 8) (v : Long) : (s.setA n v).ccr = s.ccr := rfl
@[simp] theorem State.setA_vbr (s : State) (n : Fin 8) (v : Long) : (s.setA n v).vbr = s.vbr := rfl
@[simp] theorem State.setA_sfc (s : State) (n : Fin 8) (v : Long) : (s.setA n v).sfc = s.sfc := rfl
@[simp] theorem State.setA_dfc (s : State) (n : Fin 8) (v : Long) : (s.setA n v).dfc = s.dfc := rfl
@[simp] theorem State.setA_runState (s : State) (n : Fin 8) (v : Long) : (s.setA n v).runState = s.runState := rfl
@[simp] theorem State.setA_intLevel (s : State) (n : Fin 8) (v : Long) : (s.setA n v).intLevel = s.intLevel := rfl
@[simp] theorem State.setA_prevLevel (s : State) (n : Fin 8) (v : Long) : (s.setA n v).prevLevel = s.prevLevel := rfl
@[simp] theorem State.setA_tracePending (s : State) (n : Fin 8) (v : Long) : (s.setA n v).tracePending = s.tracePending := rfl
@[simp] theorem State.setA_lastStores (s : State) (n : Fin 8) (v : Long) : (s.setA n v).lastStores = s.lastStores := rfl
@[simp] theorem State.setA_seqEnd (s : State) (n : Fin 8) (v : Long) : (s.setA n v).seqEnd = s.seqEnd := rfl
@[simp] theorem State.setA_faultMark (s : State) (n : Fin 8) (v : Long) : (s.setA n v).faultMark = s.faultMark := rfl
@[simp] theorem State.setA_refusedMark (s : State) (n : Fin 8) (v : Long) : (s.setA n v).refusedMark = s.refusedMark := rfl
@[simp] theorem State.setA_mem (s : State) (n : Fin 8) (v : Long) : (s.setA n v).mem = s.mem := rfl
@[simp] theorem State.setA_script (s : State) (n : Fin 8) (v : Long) : (s.setA n v).script = s.script := rfl
@[simp] theorem State.setA_agents (s : State) (n : Fin 8) (v : Long) : (s.setA n v).agents = s.agents := rfl
@[simp] theorem State.setA_draws (s : State) (n : Fin 8) (v : Long) : (s.setA n v).draws = s.draws := rfl
@[simp] theorem State.setA_calls (s : State) (n : Fin 8) (v : Long) : (s.setA n v).calls = s.calls := rfl
@[simp] theorem State.setA_ir (s : State) (n : Fin 8) (v : Long) : (s.setA n v).ir = s.ir := rfl
@[simp] theorem State.setA_entered (s : State) (n : Fin 8) (v : Long) : (s.setA n v).entered = s.entered := rfl
@[simp] theorem State.setA_resetFetch (s : State) (n : Fin 8) (v : Long) : (s.setA n v).resetFetch = s.resetFetch := rfl

/-! `State.setAw` -/

@[simp] theorem State.setAw_cfg (s : State) (n : Fin 8) (sz : Size) (v : Long) : (s.setAw n sz v).cfg = s.cfg := rfl
@[simp] theorem State.setAw_d (s : State) (n : Fin 8) (sz : Size) (v : Long) : (s.setAw n sz v).d = s.d := rfl
@[simp] theorem State.setAw_a (s : State) (n : Fin 8) (sz : Size) (v : Long) : (s.setAw n sz v).a = s.a.set n.val (sextSize sz v) n.isLt := rfl
@[simp] theorem State.setAw_spInactive (s : State) (n : Fin 8) (sz : Size) (v : Long) : (s.setAw n sz v).spInactive = s.spInactive := rfl
@[simp] theorem State.setAw_pc (s : State) (n : Fin 8) (sz : Size) (v : Long) : (s.setAw n sz v).pc = s.pc := rfl
@[simp] theorem State.setAw_tBit (s : State) (n : Fin 8) (sz : Size) (v : Long) : (s.setAw n sz v).tBit = s.tBit := rfl
@[simp] theorem State.setAw_sBit (s : State) (n : Fin 8) (sz : Size) (v : Long) : (s.setAw n sz v).sBit = s.sBit := rfl
@[simp] theorem State.setAw_iMask (s : State) (n : Fin 8) (sz : Size) (v : Long) : (s.setAw n sz v).iMask = s.iMask := rfl
@[simp] theorem State.setAw_ccr (s : State) (n : Fin 8) (sz : Size) (v : Long) : (s.setAw n sz v).ccr = s.ccr := rfl
@[simp] theorem State.setAw_vbr (s : State) (n : Fin 8) (sz : Size) (v : Long) : (s.setAw n sz v).vbr = s.vbr := rfl
@[simp] theorem State.setAw_sfc (s : State) (n : Fin 8) (sz : Size) (v : Long) : (s.setAw n sz v).sfc = s.sfc := rfl
@[simp] theorem State.setAw_dfc (s : State) (n : Fin 8) (sz : Size) (v : Long) : (s.setAw n sz v).dfc = s.dfc := rfl
@[simp] theorem State.setAw_runState (s : State) (n : Fin 8) (sz : Size) (v : Long) : (s.setAw n sz v).runState = s.runState := rfl
@[simp] theorem State.setAw_intLevel (s : State) (n : Fin 8) (sz : Size) (v : Long) : (s.setAw n sz v).intLevel = s.intLevel := rfl
@[simp] theorem State.setAw_prevLevel (s : State) (n : Fin 8) (sz : Size) (v : Long) : (s.setAw n sz v).prevLevel = s.prevLevel := rfl
@[simp] theorem State.setAw_tracePending (s : State) (n : Fin 8) (sz : Size) (v : Long) : (s.setAw n sz v).tracePending = s.tracePending := rfl
@[simp] theorem State.setAw_lastStores (s : State) (n : Fin 8) (sz : Size) (v : Long) : (s.setAw n sz v).lastStores = s.lastStores := rfl
@[simp] theorem State.setAw_seqEnd (s : State) (n : Fin 8) (sz : Size) (v : Long) : (s.setAw n sz v).seqEnd = s.seqEnd := rfl
@[simp] theorem State.setAw_faultMark (s : State) (n : Fin 8) (sz : Size) (v : Long) : (s.setAw n sz v).faultMark = s.faultMark := rfl
@[simp] theorem State.setAw_refusedMark (s : State) (n : Fin 8) (sz : Size) (v : Long) : (s.setAw n sz v).refusedMark = s.refusedMark := rfl
@[simp] theorem State.setAw_mem (s : State) (n : Fin 8) (sz : Size) (v : Long) : (s.setAw n sz v).mem = s.mem := rfl
@[simp] theorem State.setAw_script (s : State) (n : Fin 8) (sz : Size) (v : Long) : (s.setAw n sz v).script = s.script := rfl
@[simp] theorem State.setAw_agents (s : State) (n : Fin 8) (sz : Size) (v : Long) : (s.setAw n sz v).agents = s.agents := rfl
@[simp] theorem State.setAw_draws (s : State) (n : Fin 8) (sz : Size) (v : Long) : (s.setAw n sz v).draws = s.draws := rfl
@[simp] theorem State.setAw_calls (s : State) (n : Fin 8) (sz : Size) (v : Long) : (s.setAw n sz v).calls = s.calls := rfl
@[simp] theorem State.setAw_ir (s : State) (n : Fin 8) (sz : Size) (v : Long) : (s.setAw n sz v).ir = s.ir := rfl
@[simp] theorem State.setAw_entered (s : State) (n : Fin 8) (sz : Size) (v : Long) : (s.setAw n sz v).entered = s.entered := rfl
@[simp] theorem State.setAw_resetFetch (s : State) (n : Fin 8) (sz : Size) (v : Long) : (s.setAw n sz v).resetFetch = s.resetFetch := rfl

/-! `State.setPc` -/

@[simp] theorem State.setPc_cfg (s : State) (v : Long) : (s.setPc v).cfg = s.cfg := rfl
@[simp] theorem State.setPc_d (s : State) (v : Long) : (s.setPc v).d = s.d := rfl
@[simp] theorem State.setPc_a (s : State) (v : Long) : (s.setPc v).a = s.a := rfl
@[simp] theorem State.setPc_spInactive (s : State) (v : Long) : (s.setPc v).spInactive = s.spInactive := rfl
@[simp] theorem State.setPc_pc (s : State) (v : Long) : (s.setPc v).pc = v := rfl
@[simp] theorem State.setPc_tBit (s : State) (v : Long) : (s.setPc v).tBit = s.tBit := rfl
@[simp] theorem State.setPc_sBit (s : State) (v : Long) : (s.setPc v).sBit = s.sBit := rfl
@[simp] theorem State.setPc_iMask (s : State) (v : Long) : (s.setPc v).iMask = s.iMask := rfl
@[simp] theorem State.setPc_ccr (s : State) (v : Long) : (s.setPc v).ccr = s.ccr := rfl
@[simp] theorem State.setPc_vbr (s : State) (v : Long) : (s.setPc v).vbr = s.vbr := rfl
@[simp] theorem State.setPc_sfc (s : State) (v : Long) : (s.setPc v).sfc = s.sfc := rfl
@[simp] theorem State.setPc_dfc (s : State) (v : Long) : (s.setPc v).dfc = s.dfc := rfl
@[simp] theorem State.setPc_runState (s : State) (v : Long) : (s.setPc v).runState = s.runState := rfl
@[simp] theorem State.setPc_intLevel (s : State) (v : Long) : (s.setPc v).intLevel = s.intLevel := rfl
@[simp] theorem State.setPc_prevLevel (s : State) (v : Long) : (s.setPc v).prevLevel = s.prevLevel := rfl
@[simp] theorem State.setPc_tracePending (s : State) (v : Long) : (s.setPc v).tracePending = s.tracePending := rfl
@[simp] theorem State.setPc_lastStores (s : State) (v : Long) : (s.setPc v).lastStores = s.lastStores := rfl
@[simp] theorem State.setPc_seqEnd (s : State) (v : Long) : (s.setPc v).seqEnd = s.seqEnd := rfl
@[simp] theorem State.setPc_faultMark (s : State) (v : Long) : (s.setPc v).faultMark = s.faultMark := rfl
@[simp] theorem State.setPc_refusedMark (s : State) (v : Long) : (s.setPc v).refusedMark = s.refusedMark := rfl
@[simp] theorem State.setPc_mem (s : State) (v : Long) : (s.setPc v).mem = s.mem := rfl
@[simp] theorem State.setPc_script (s : State) (v : Long) : (s.setPc v).script = s.script := rfl
@[simp] theorem State.setPc_agents (s : State) (v : Long) : (s.setPc v).agents = s.agents := rfl
@[simp] theorem State.setPc_draws (s : State) (v : Long) : (s.setPc v).draws = s.draws := rfl
@[simp] theorem State.setPc_calls (s : State) (v : Long) : (s.setPc v).calls = s.calls := rfl
@[simp] theorem State.setPc_ir (s : State) (v : Long) : (s.setPc v).ir = s.ir := rfl
@[simp] theorem State.setPc_entered (s : State) (v : Long) : (s.setPc v).entered = s.entered := rfl
@[simp] theorem State.setPc_resetFetch (s : State) (v : Long) : (s.setPc v).resetFetch = s.resetFetch := rfl

/-! `State.setCcr` -/

@[simp] theorem State.setCcr_cfg (s : State) (c : Ccr) : (s.setCcr c).cfg = s.cfg := rfl
@[simp] theorem State.setCcr_d (s : State) (c : Ccr) : (s.setCcr c).d = s.d := rfl
@[simp] theorem State.setCcr_a (s : State) (c : Ccr) : (s.setCcr c).a = s.a := rfl
@[simp] theorem State.setCcr_spInactive (s : State) (c : Ccr) : (s.setCcr c).spInactive = s.spInactive := rfl
@[simp] theorem State.setCcr_pc (s : State) (c : Ccr) : (s.setCcr c).pc = s.pc := rfl
@[simp] theorem State.setCcr_tBit (s : State) (c : Ccr) : (s.setCcr c).tBit = s.tBit := rfl
@[simp] theorem State.setCcr_sBit (s : State) (c : Ccr) : (s.setCcr c).sBit = s.sBit := rfl
@[simp] theorem State.setCcr_iMask (s : State) (c : Ccr) : (s.setCcr c).iMask = s.iMask := rfl
@[simp] theorem State.setCcr_ccr (s : State) (c : Ccr) : (s.setCcr c).ccr = c := rfl
@[simp] theorem State.setCcr_vbr (s : State) (c : Ccr) : (s.setCcr c).vbr = s.vbr := rfl
@[simp] theorem State.setCcr_sfc (s : State) (c : Ccr) : (s.setCcr c).sfc = s.sfc := rfl
@[simp] theorem State.setCcr_dfc (s : State) (c : Ccr) : (s.setCcr c).dfc = s.dfc := rfl
@[simp] theorem State.setCcr_runState (s : State) (c : Ccr) : (s.setCcr c).runState = s.runState := rfl
@[simp] theorem State.setCcr_intLevel (s : State) (c : Ccr) : (s.setCcr c).intLevel = s.intLevel := rfl
@[simp] theorem State.setCcr_prevLevel (s : State) (c : Ccr) : (s.setCcr c).prevLevel = s.prevLevel := rfl
@[simp] theorem State.setCcr_tracePending (s : State) (c : Ccr) : (s.setCcr c).tracePending = s.tracePending := rfl
@[simp] theorem State.setCcr_lastStores (s : State) (c : Ccr) : (s.setCcr c).lastStores = s.lastStores := rfl
@[simp] theorem State.setCcr_seqEnd (s : State) (c : Ccr) : (s.setCcr c).seqEnd = s.seqEnd := rfl
@[simp] theorem State.setCcr_faultMark (s : State) (c : Ccr) : (s.setCcr c).faultMark = s.faultMark := rfl
@[simp] theorem State.setCcr_refusedMark (s : State) (c : Ccr) : (s.setCcr c).refusedMark = s.refusedMark := rfl
@[simp] theorem State.setCcr_mem (s : State) (c : Ccr) : (s.setCcr c).mem = s.mem := rfl
@[simp] theorem State.setCcr_script (s : State) (c : Ccr) : (s.setCcr c).script = s.script := rfl
@[simp] theorem State.setCcr_agents (s : State) (c : Ccr) : (s.setCcr c).agents = s.agents := rfl
@[simp] theorem State.setCcr_draws (s : State) (c : Ccr) : (s.setCcr c).draws = s.draws := rfl
@[simp] theorem State.setCcr_calls (s : State) (c : Ccr) : (s.setCcr c).calls = s.calls := rfl
@[simp] theorem State.setCcr_ir (s : State) (c : Ccr) : (s.setCcr c).ir = s.ir := rfl
@[simp] theorem State.setCcr_entered (s : State) (c : Ccr) : (s.setCcr c).entered = s.entered := rfl
@[simp] theorem State.setCcr_resetFetch (s : State) (c : Ccr) : (s.setCcr c).resetFetch = s.resetFetch := rfl

/-! `State.writeCcr` -/

@[simp] theorem State.writeCcr_cfg (s : State) (v : Byte) : (s.writeCcr v).cfg = s.cfg := rfl
@[simp] theorem State.writeCcr_d (s : State) (v : Byte) : (s.writeCcr v).d = s.d := rfl
@[simp] theorem State.writeCcr_a (s : State) (v : Byte) : (s.writeCcr v).a = s.a := rfl
@[simp] theorem State.writeCcr_spInactive (s : State) (v : Byte) : (s.writeCcr v).spInactive = s.spInactive := rfl
@[simp] theorem State.writeCcr_pc (s : State) (v : Byte) : (s.writeCcr v).pc = s.pc := rfl
@[simp] theorem State.writeCcr_tBit (s : State) (v : Byte) : (s.writeCcr v).tBit = s.tBit := rfl
@[simp] theorem State.writeCcr_sBit (s : State) (v : Byte) : (s.writeCcr v).sBit = s.sBit := rfl
@[simp] theorem State.writeCcr_iMask (s : State) (v : Byte) : (s.writeCcr v).iMask = s.iMask := rfl
@[simp] theorem State.writeCcr_ccr (s : State) (v : Byte) : (s.writeCcr v).ccr = Ccr.ofByte v := rfl
@[simp] theorem State.writeCcr_vbr (s : State) (v : Byte) : (s.writeCcr v).vbr = s.vbr := rfl
@[simp] theorem State.writeCcr_sfc (s : State) (v : Byte) : (s.writeCcr v).sfc = s.sfc := rfl
@[simp] theorem State.writeCcr_dfc (s : State) (v : Byte) : (s.writeCcr v).dfc = s.dfc := rfl
@[simp] theorem State.writeCcr_runState (s : State) (v : Byte) : (s.writeCcr v).runState = s.runState := rfl
@[simp] theorem State.writeCcr_intLevel (s : State) (v : Byte) : (s.writeCcr v).intLevel = s.intLevel := rfl
@[simp] theorem State.writeCcr_prevLevel (s : State) (v : Byte) : (s.writeCcr v).prevLevel = s.prevLevel := rfl
@[simp] theorem State.writeCcr_tracePending (s : State) (v : Byte) : (s.writeCcr v).tracePending = s.tracePending := rfl
@[simp] theorem State.writeCcr_lastStores (s : State) (v : Byte) : (s.writeCcr v).lastStores = s.lastStores := rfl
@[simp] theorem State.writeCcr_seqEnd (s : State) (v : Byte) : (s.writeCcr v).seqEnd = s.seqEnd := rfl
@[simp] theorem State.writeCcr_faultMark (s : State) (v : Byte) : (s.writeCcr v).faultMark = s.faultMark := rfl
@[simp] theorem State.writeCcr_refusedMark (s : State) (v : Byte) : (s.writeCcr v).refusedMark = s.refusedMark := rfl
@[simp] theorem State.writeCcr_mem (s : State) (v : Byte) : (s.writeCcr v).mem = s.mem := rfl
@[simp] theorem State.writeCcr_script (s : State) (v : Byte) : (s.writeCcr v).script = s.script := rfl
@[simp] theorem State.writeCcr_agents (s : State) (v : Byte) : (s.writeCcr v).agents = s.agents := rfl
@[simp] theorem State.writeCcr_draws (s : State) (v : Byte) : (s.writeCcr v).draws = s.draws := rfl
@[simp] theorem State.writeCcr_calls (s : State) (v : Byte) : (s.writeCcr v).calls = s.calls := rfl
@[simp] theorem State.writeCcr_ir (s : State) (v : Byte) : (s.writeCcr v).ir = s.ir := rfl
@[simp] theorem State.writeCcr_entered (s : State) (v : Byte) : (s.writeCcr v).entered = s.entered := rfl
@[simp] theorem State.writeCcr_resetFetch (s : State) (v : Byte) : (s.writeCcr v).resetFetch = s.resetFetch := rfl

/-! `State.setSpInactive` -/

@[simp] theorem State.setSpInactive_cfg (s : State) (v : Long) : (s.setSpInactive v).cfg = s.cfg := rfl
@[simp] theorem State.setSpInactive_d (s : State) (v : Long) : (s.setSpInactive v).d = s.d := rfl
@[simp] theorem State.setSpInactive_a (s : State) (v : Long) : (s.setSpInactive v).a = s.a := rfl
@[simp] theorem State.setSpInactive_spInactive (s : State) (v : Long) : (s.setSpInactive v).spInactive = v := rfl
@[simp] theorem State.setSpInactive_pc (s : State) (v : Long) : (s.setSpInactive v).pc = s.pc := rfl
@[simp] theorem State.setSpInactive_tBit (s : State) (v : Long) : (s.setSpInactive v).tBit = s.tBit := rfl
@[simp] theorem State.setSpInactive_sBit (s : State) (v : Long) : (s.setSpInactive v).sBit = s.sBit := rfl
@[simp] theorem State.setSpInactive_iMask (s : State) (v : Long) : (s.setSpInactive v).iMask = s.iMask := rfl
@[simp] theorem State.setSpInactive_ccr (s : State) (v : Long) : (s.setSpInactive v).ccr = s.ccr := rfl
@[simp] theorem State.setSpInactive_vbr (s : State) (v : Long) : (s.setSpInactive v).vbr = s.vbr := rfl
@[simp] theorem State.setSpInactive_sfc (s : State) (v : Long) : (s.setSpInactive v).sfc = s.sfc := rfl
@[simp] theorem State.setSpInactive_dfc (s : State) (v : Long) : (s.setSpInactive v).dfc = s.dfc := rfl
@[simp] theorem State.setSpInactive_runState (s : State) (v : Long) : (s.setSpInactive v).runState = s.runState := rfl
@[simp] theorem State.setSpInactive_intLevel (s : State) (v : Long) : (s.setSpInactive v).intLevel = s.intLevel := rfl
@[simp] theorem State.setSpInactive_prevLevel (s : State) (v : Long) : (s.setSpInactive v).prevLevel = s.prevLevel := rfl
@[simp] theorem State.setSpInactive_tracePending (s : State) (v : Long) : (s.setSpInactive v).tracePending = s.tracePending := rfl
@[simp] theorem State.setSpInactive_lastStores (s : State) (v : Long) : (s.setSpInactive v).lastStores = s.lastStores := rfl
@[simp] theorem State.setSpInactive_seqEnd (s : State) (v : Long) : (s.setSpInactive v).seqEnd = s.seqEnd := rfl
@[simp] theorem State.setSpInactive_faultMark (s : State) (v : Long) : (s.setSpInactive v).faultMark = s.faultMark := rfl
@[simp] theorem State.setSpInactive_refusedMark (s : State) (v : Long) : (s.setSpInactive v).refusedMark = s.refusedMark := rfl
@[simp] theorem State.setSpInactive_mem (s : State) (v : Long) : (s.setSpInactive v).mem = s.mem := rfl
@[simp] theorem State.setSpInactive_script (s : State) (v : Long) : (s.setSpInactive v).script = s.script := rfl
@[simp] theorem State.setSpInactive_agents (s : State) (v : Long) : (s.setSpInactive v).agents = s.agents := rfl
@[simp] theorem State.setSpInactive_draws (s : State) (v : Long) : (s.setSpInactive v).draws = s.draws := rfl
@[simp] theorem State.setSpInactive_calls (s : State) (v : Long) : (s.setSpInactive v).calls = s.calls := rfl
@[simp] theorem State.setSpInactive_ir (s : State) (v : Long) : (s.setSpInactive v).ir = s.ir := rfl
@[simp] theorem State.setSpInactive_entered (s : State) (v : Long) : (s.setSpInactive v).entered = s.entered := rfl
@[simp] theorem State.setSpInactive_resetFetch (s : State) (v : Long) : (s.setSpInactive v).resetFetch = s.resetFetch := rfl

/-! `State.react` -/

@[simp] theorem State.react_cfg (s : State) : (s.react).cfg = s.cfg := rfl
@[simp] theorem State.react_d (s : State) : (s.react).d = s.d := rfl
@[simp] theorem State.react_a (s : State) : (s.react).a = s.a := rfl
@[simp] theorem State.react_spInactive (s : State) : (s.react).spInactive = s.spInactive := rfl
@[simp] theorem State.react_pc (s : State) : (s.react).pc = s.pc := rfl
@[simp] theorem State.react_tBit (s : State) : (s.react).tBit = s.tBit := rfl
@[simp] theorem State.react_sBit (s : State) : (s.react).sBit = s.sBit := rfl
@[simp] theorem State.react_iMask (s : State) : (s.react).iMask = s.iMask := rfl
@[simp] theorem State.react_ccr (s : State) : (s.react).ccr = s.ccr := rfl
@[simp] theorem State.react_vbr (s : State) : (s.react).vbr = s.vbr := rfl
@[simp] theorem State.react_sfc (s : State) : (s.react).sfc = s.sfc := rfl
@[simp] theorem State.react_dfc (s : State) : (s.react).dfc = s.dfc := rfl
@[simp] theorem State.react_runState (s : State) : (s.react).runState = s.runState := rfl
@[simp] theorem State.react_intLevel (s : State) : (s.react).intLevel = callbackLevel (nextReaction s.script).callbacks s.intLevel := rfl
@[simp] theorem State.react_prevLevel (s : State) : (s.react).prevLevel = s.prevLevel := rfl
@[simp] theorem State.react_tracePending (s : State) : (s.react).tracePending = s.tracePending := rfl
@[simp] theorem State.react_lastStores (s : State) : (s.react).lastStores = s.lastStores := rfl
@[simp] theorem State.react_seqEnd (s : State) : (s.react).seqEnd = s.seqEnd := rfl
@[simp] theorem State.react_faultMark (s : State) : (s.react).faultMark = s.faultMark := rfl
@[simp] theorem State.react_refusedMark (s : State) : (s.react).refusedMark = s.refusedMark.or (callbackRefusal (nextReaction s.script).callbacks) := rfl
@[simp] theorem State.react_mem (s : State) : (s.react).mem = s.mem := rfl
@[simp] theorem State.react_script (s : State) : (s.react).script = s.script.tail := rfl
@[simp] theorem State.react_agents (s : State) : (s.react).agents = s.agents := rfl
@[simp] theorem State.react_draws (s : State) : (s.react).draws = s.draws := rfl
@[simp] theorem State.react_calls (s : State) : (s.react).calls = s.calls := rfl
@[simp] theorem State.react_ir (s : State) : (s.react).ir = s.ir := rfl
@[simp] theorem State.react_entered (s : State) : (s.react).entered = s.entered := rfl
@[simp] theorem State.react_resetFetch (s : State) : (s.react).resetFetch = s.resetFetch := rfl

/-! `State.addCall` -/

@[simp] theorem State.addCall_cfg (s : State) (c : BusCall) : (s.addCall c).cfg = s.cfg := rfl
@[simp] theorem State.addCall_d (s : State) (c : BusCall) : (s.addCall c).d = s.d := rfl
@[simp] theorem State.addCall_a (s : State) (c : BusCall) : (s.addCall c).a = s.a := rfl
@[simp] theorem State.addCall_spInactive (s : State) (c : BusCall) : (s.addCall c).spInactive = s.spInactive := rfl
@[simp] theorem State.addCall_pc (s : State) (c : BusCall) : (s.addCall c).pc = s.pc := rfl
@[simp] theorem State.addCall_tBit (s : State) (c : BusCall) : (s.addCall c).tBit = s.tBit := rfl
@[simp] theorem State.addCall_sBit (s : State) (c : BusCall) : (s.addCall c).sBit = s.sBit := rfl
@[simp] theorem State.addCall_iMask (s : State) (c : BusCall) : (s.addCall c).iMask = s.iMask := rfl
@[simp] theorem State.addCall_ccr (s : State) (c : BusCall) : (s.addCall c).ccr = s.ccr := rfl
@[simp] theorem State.addCall_vbr (s : State) (c : BusCall) : (s.addCall c).vbr = s.vbr := rfl
@[simp] theorem State.addCall_sfc (s : State) (c : BusCall) : (s.addCall c).sfc = s.sfc := rfl
@[simp] theorem State.addCall_dfc (s : State) (c : BusCall) : (s.addCall c).dfc = s.dfc := rfl
@[simp] theorem State.addCall_runState (s : State) (c : BusCall) : (s.addCall c).runState = s.runState := rfl
@[simp] theorem State.addCall_intLevel (s : State) (c : BusCall) : (s.addCall c).intLevel = callbackLevel (nextReaction s.script).callbacks s.intLevel := rfl
@[simp] theorem State.addCall_prevLevel (s : State) (c : BusCall) : (s.addCall c).prevLevel = s.prevLevel := rfl
@[simp] theorem State.addCall_tracePending (s : State) (c : BusCall) : (s.addCall c).tracePending = s.tracePending := rfl
@[simp] theorem State.addCall_lastStores (s : State) (c : BusCall) : (s.addCall c).lastStores = s.lastStores := rfl
@[simp] theorem State.addCall_seqEnd (s : State) (c : BusCall) : (s.addCall c).seqEnd = s.seqEnd := rfl
@[simp] theorem State.addCall_faultMark (s : State) (c : BusCall) : (s.addCall c).faultMark = s.faultMark := rfl
@[simp] theorem State.addCall_refusedMark (s : State) (c : BusCall) : (s.addCall c).refusedMark = s.refusedMark.or (callbackRefusal (nextReaction s.script).callbacks) := rfl
@[simp] theorem State.addCall_mem (s : State) (c : BusCall) : (s.addCall c).mem = s.mem := rfl
@[simp] theorem State.addCall_script (s : State) (c : BusCall) : (s.addCall c).script = s.script.tail := rfl
@[simp] theorem State.addCall_agents (s : State) (c : BusCall) : (s.addCall c).agents = s.agents := rfl
@[simp] theorem State.addCall_draws (s : State) (c : BusCall) : (s.addCall c).draws = s.draws := rfl
@[simp] theorem State.addCall_calls (s : State) (c : BusCall) : (s.addCall c).calls = c :: s.calls := rfl
@[simp] theorem State.addCall_ir (s : State) (c : BusCall) : (s.addCall c).ir = s.ir := rfl
@[simp] theorem State.addCall_entered (s : State) (c : BusCall) : (s.addCall c).entered = s.entered := rfl
@[simp] theorem State.addCall_resetFetch (s : State) (c : BusCall) : (s.addCall c).resetFetch = s.resetFetch := rfl

/-! `State.setIr` -/

@[simp] theorem State.setIr_cfg (s : State) (w : Word) : (s.setIr w).cfg = s.cfg := rfl
@[simp] theorem State.setIr_d (s : State) (w : Word) : (s.setIr w).d = s.d := rfl
@[simp] theorem State.setIr_a (s : State) (w : Word) : (s.setIr w).a = s.a := rfl
@[simp] theorem State.setIr_spInactive (s : State) (w : Word) : (s.setIr w).spInactive = s.spInactive := rfl
@[simp] theorem State.setIr_pc (s : State) (w : Word) : (s.setIr w).pc = s.pc := rfl
@[simp] theorem State.setIr_tBit (s : State) (w : Word) : (s.setIr w).tBit = s.tBit := rfl
@[simp] theorem State.setIr_sBit (s : State) (w : Word) : (s.setIr w).sBit = s.sBit := rfl
@[simp] theorem State.setIr_iMask (s : State) (w : Word) : (s.setIr w).iMask = s.iMask := rfl
@[simp] theorem State.setIr_ccr (s : State) (w : Word) : (s.setIr w).ccr = s.ccr := rfl
@[simp] theorem State.setIr_vbr (s : State) (w : Word) : (s.setIr w).vbr = s.vbr := rfl
@[simp] theorem State.setIr_sfc (s : State) (w : Word) : (s.setIr w).sfc = s.sfc := rfl
@[simp] theorem State.setIr_dfc (s : State) (w : Word) : (s.setIr w).dfc = s.dfc := rfl
@[simp] theorem State.setIr_runState (s : State) (w : Word) : (s.setIr w).runState = s.runState := rfl
@[simp] theorem State.setIr_intLevel (s : State) (w : Word) : (s.setIr w).intLevel = s.intLevel := rfl
@[simp] theorem State.setIr_prevLevel (s : State) (w : Word) : (s.setIr w).prevLevel = s.prevLevel := rfl
@[simp] theorem State.setIr_tracePending (s : State) (w : Word) : (s.setIr w).tracePending = s.tracePending := rfl
@[simp] theorem State.setIr_lastStores (s : State) (w : Word) : (s.setIr w).lastStores = s.lastStores := rfl
@[simp] theorem State.setIr_seqEnd (s : State) (w : Word) : (s.setIr w).seqEnd = s.seqEnd := rfl
@[simp] theorem State.setIr_faultMark (s : State) (w : Word) : (s.setIr w).faultMark = s.faultMark := rfl
@[simp] theorem State.setIr_refusedMark (s : State) (w : Word) : (s.setIr w).refusedMark = s.refusedMark := rfl
@[simp] theorem State.setIr_mem (s : State) (w : Word) : (s.setIr w).mem = s.mem := rfl
@[simp] theorem State.setIr_script (s : State) (w : Word) : (s.setIr w).script = s.script := rfl
@[simp] theorem State.setIr_agents (s : State) (w : Word) : (s.setIr w).agents = s.agents := rfl
@[simp] theorem State.setIr_draws (s : State) (w : Word) : (s.setIr w).draws = s.draws := rfl
@[simp] theorem State.setIr_calls (s : State) (w : Word) : (s.setIr w).calls = s.calls := rfl
@[simp] theorem State.setIr_ir (s : State) (w : Word) : (s.setIr w).ir = some w := rfl
@[simp] theorem State.setIr_entered (s : State) (w : Word) : (s.setIr w).entered = s.entered := rfl
@[simp] theorem State.setIr_resetFetch (s : State) (w : Word) : (s.setIr w).resetFetch = s.resetFetch := rfl

/-! `State.drawn` -/

@[simp] theorem State.drawn_cfg (s : State) (n : Nat) : (s.drawn n).cfg = s.cfg := rfl
@[simp] theorem State.drawn_d (s : State) (n : Nat) : (s.drawn n).d = s.d := rfl
@[simp] theorem State.drawn_a (s : State) (n : Nat) : (s.drawn n).a = s.a := rfl
@[simp] theorem State.drawn_spInactive (s : State) (n : Nat) : (s.drawn n).spInactive = s.spInactive := rfl
@[simp] theorem State.drawn_pc (s : State) (n : Nat) : (s.drawn n).pc = s.pc := rfl
@[simp] theorem State.drawn_tBit (s : State) (n : Nat) : (s.drawn n).tBit = s.tBit := rfl
@[simp] theorem State.drawn_sBit (s : State) (n : Nat) : (s.drawn n).sBit = s.sBit := rfl
@[simp] theorem State.drawn_iMask (s : State) (n : Nat) : (s.drawn n).iMask = s.iMask := rfl
@[simp] theorem State.drawn_ccr (s : State) (n : Nat) : (s.drawn n).ccr = s.ccr := rfl
@[simp] theorem State.drawn_vbr (s : State) (n : Nat) : (s.drawn n).vbr = s.vbr := rfl
@[simp] theorem State.drawn_sfc (s : State) (n : Nat) : (s.drawn n).sfc = s.sfc := rfl
@[simp] theorem State.drawn_dfc (s : State) (n : Nat) : (s.drawn n).dfc = s.dfc := rfl
@[simp] theorem State.drawn_runState (s : State) (n : Nat) : (s.drawn n).runState = s.runState := rfl
@[simp] theorem State.drawn_intLevel (s : State) (n : Nat) : (s.drawn n).intLevel = s.intLevel := rfl
@[simp] theorem State.drawn_prevLevel (s : State) (n : Nat) : (s.drawn n).prevLevel = s.prevLevel := rfl
@[simp] theorem State.drawn_tracePending (s : State) (n : Nat) : (s.drawn n).tracePending = s.tracePending := rfl
@[simp] theorem State.drawn_lastStores (s : State) (n : Nat) : (s.drawn n).lastStores = s.lastStores := rfl
@[simp] theorem State.drawn_seqEnd (s : State) (n : Nat) : (s.drawn n).seqEnd = s.seqEnd := rfl
@[simp] theorem State.drawn_faultMark (s : State) (n : Nat) : (s.drawn n).faultMark = s.faultMark := rfl
@[simp] theorem State.drawn_refusedMark (s : State) (n : Nat) : (s.drawn n).refusedMark = s.refusedMark := rfl
@[simp] theorem State.drawn_mem (s : State) (n : Nat) : (s.drawn n).mem = s.mem := rfl
@[simp] theorem State.drawn_script (s : State) (n : Nat) : (s.drawn n).script = s.script := rfl
@[simp] theorem State.drawn_agents (s : State) (n : Nat) : (s.drawn n).agents = s.agents := rfl
@[simp] theorem State.drawn_draws (s : State) (n : Nat) : (s.drawn n).draws = s.draws + n := rfl
@[simp] theorem State.drawn_calls (s : State) (n : Nat) : (s.drawn n).calls = s.calls := rfl
@[simp] theorem State.drawn_ir (s : State) (n : Nat) : (s.drawn n).ir = s.ir := rfl
@[simp] theorem State.drawn_entered (s : State) (n : Nat) : (s.drawn n).entered = s.entered := rfl
@[simp] theorem State.drawn_resetFetch (s : State) (n : Nat) : (s.drawn n).resetFetch = s.resetFetch := rfl

/-! `State.pokeByte` -/

@[simp] theorem State.pokeByte_cfg (s : State) (fc : BitVec 3) (x : Long) (v : Byte) : (s.pokeByte fc x v).cfg = s.cfg := rfl
@[simp] theorem State.pokeByte_d (s : State) (fc : BitVec 3) (x : Long) (v : Byte) : (s.pokeByte fc x v).d = s.d := rfl
@[simp] theorem State.pokeByte_a (s : State) (fc : BitVec 3) (x : Long) (v : Byte) : (s.pokeByte fc x v).a = s.a := rfl
@[simp] theorem State.pokeByte_spInactive (s : State) (fc : BitVec 3) (x : Long) (v : Byte) : (s.pokeByte fc x v).spInactive = s.spInactive := rfl
@[simp] theorem State.pokeByte_pc (s : State) (fc : BitVec 3) (x : Long) (v : Byte) : (s.pokeByte fc x v).pc = s.pc := rfl
@[simp] theorem State.pokeByte_tBit (s : State) (fc : BitVec 3) (x : Long) (v : Byte) : (s.pokeByte fc x v).tBit = s.tBit := rfl
@[simp] theorem State.pokeByte_sBit (s : State) (fc : BitVec 3) (x : Long) (v : Byte) : (s.pokeByte fc x v).sBit = s.sBit := rfl
@[simp] theorem State.pokeByte_iMask (s : State) (fc : BitVec 3) (x : Long) (v : Byte) : (s.pokeByte fc x v).iMask = s.iMask := rfl
@[simp] theorem State.pokeByte_ccr (s : State) (fc : BitVec 3) (x : Long) (v : Byte) : (s.pokeByte fc x v).ccr = s.ccr := rfl
@[simp] theorem State.pokeByte_vbr (s : State) (fc : BitVec 3) (x : Long) (v : Byte) : (s.pokeByte fc x v).vbr = s.vbr := rfl
@[simp] theorem State.pokeByte_sfc (s : State) (fc : BitVec 3) (x : Long) (v : Byte) : (s.pokeByte fc x v).sfc = s.sfc := rfl
@[simp] theorem State.pokeByte_dfc (s : State) (fc : BitVec 3) (x : Long) (v : Byte) : (s.pokeByte fc x v).dfc = s.dfc := rfl
@[simp] theorem State.pokeByte_runState (s : State) (fc : BitVec 3) (x : Long) (v : Byte) : (s.pokeByte fc x v).runState = s.runState := rfl
@[simp] theorem State.pokeByte_intLevel (s : State) (fc : BitVec 3) (x : Long) (v : Byte) : (s.pokeByte fc x v).intLevel = s.intLevel := rfl
@[simp] theorem State.pokeByte_prevLevel (s : State) (fc : BitVec 3) (x : Long) (v : Byte) : (s.pokeByte fc x v).prevLevel = s.prevLevel := rfl
@[simp] theorem State.pokeByte_tracePending (s : State) (fc : BitVec 3) (x : Long) (v : Byte) : (s.pokeByte fc x v).tracePending = s.tracePending := rfl
@[simp] theorem State.pokeByte_lastStores (s : State) (fc : BitVec 3) (x : Long) (v : Byte) : (s.pokeByte fc x v).lastStores = s.lastStores := rfl
@[simp] theorem State.pokeByte_seqEnd (s : State) (fc : BitVec 3) (x : Long) (v : Byte) : (s.pokeByte fc x v).seqEnd = s.seqEnd := rfl
@[simp] theorem State.pokeByte_faultMark (s : State) (fc : BitVec 3) (x : Long) (v : Byte) : (s.pokeByte fc x v).faultMark = s.faultMark := rfl
@[simp] theorem State.pokeByte_refusedMark (s : State) (fc : BitVec 3) (x : Long) (v : Byte) : (s.pokeByte fc x v).refusedMark = s.refusedMark := rfl
@[simp] theorem State.pokeByte_mem (s : State) (fc : BitVec 3) (x : Long) (v : Byte) : (s.pokeByte fc x v).mem = Memory.write s.mem (memKey s.cfg fc x) v := rfl
@[simp] theorem State.pokeByte_script (s : State) (fc : BitVec 3) (x : Long) (v : Byte) : (s.pokeByte fc x v).script = s.script := rfl
@[simp] theorem State.pokeByte_agents (s : State) (fc : BitVec 3) (x : Long) (v : Byte) : (s.pokeByte fc x v).agents = s.agents := rfl
@[simp] theorem State.pokeByte_draws (s : State) (fc : BitVec 3) (x : Long) (v : Byte) : (s.pokeByte fc x v).draws = s.draws := rfl
@[simp] theorem State.pokeByte_calls (s : State) (fc : BitVec 3) (x : Long) (v : Byte) : (s.pokeByte fc x v).calls = s.calls := rfl
@[simp] theorem State.pokeByte_ir (s : State) (fc : BitVec 3) (x : Long) (v : Byte) : (s.pokeByte fc x v).ir = s.ir := rfl
@[simp] theorem State.pokeByte_entered (s : State) (fc : BitVec 3) (x : Long) (v : Byte) : (s.pokeByte fc x v).entered = s.entered := rfl
@[simp] theorem State.pokeByte_resetFetch (s : State) (fc : BitVec 3) (x : Long) (v : Byte) : (s.pokeByte fc x v).resetFetch = s.resetFetch := rfl

/-! `State.pokeWord` -/

@[simp] theorem State.pokeWord_cfg (s : State) (fc : BitVec 3) (x : Long) (v : Word) : (s.pokeWord fc x v).cfg = s.cfg := by simp [State.pokeWord]
@[simp] theorem State.pokeWord_d (s : State) (fc : BitVec 3) (x : Long) (v : Word) : (s.pokeWord fc x v).d = s.d := by simp [State.pokeWord]
@[simp] theorem State.pokeWord_a (s : State) (fc : BitVec 3) (x : Long) (v : Word) : (s.pokeWord fc x v).a = s.a := by simp [State.pokeWord]
@[simp] theorem State.pokeWord_spInactive (s : State) (fc : BitVec 3) (x : Long) (v : Word) : (s.pokeWord fc x v).spInactive = s.spInactive := by simp [State.pokeWord]
@[simp] theorem State.pokeWord_pc (s : State) (fc : BitVec 3) (x : Long) (v : Word) : (s.pokeWord fc x v).pc = s.pc := by simp [State.pokeWord]
@[simp] theorem State.pokeWord_tBit (s : State) (fc : BitVec 3) (x : Long) (v : Word) : (s.pokeWord fc x v).tBit = s.tBit := by simp [State.pokeWord]
@[simp] theorem State.pokeWord_sBit (s : State) (fc : BitVec 3) (x : Long) (v : Word) : (s.pokeWord fc x v).sBit = s.sBit := by simp [State.pokeWord]
@[simp] theorem State.pokeWord_iMask (s : State) (fc : BitVec 3) (x : Long) (v : Word) : (s.pokeWord fc x v).iMask = s.iMask := by simp [State.pokeWord]
@[simp] theorem State.pokeWord_ccr (s : State) (fc : BitVec 3) (x : Long) (v : Word) : (s.pokeWord fc x v).ccr = s.ccr := by simp [State.pokeWord]
@[simp] theorem State.pokeWord_vbr (s : State) (fc : BitVec 3) (x : Long) (v : Word) : (s.pokeWord fc x v).vbr = s.vbr := by simp [State.pokeWord]
@[simp] theorem State.pokeWord_sfc (s : State) (fc : BitVec 3) (x : Long) (v : Word) : (s.pokeWord fc x v).sfc = s.sfc := by simp [State.pokeWord]
@[simp] theorem State.pokeWord_dfc (s : State) (fc : BitVec 3) (x : Long) (v : Word) : (s.pokeWord fc x v).dfc = s.dfc := by simp [State.pokeWord]
@[simp] theorem State.pokeWord_runState (s : State) (fc : BitVec 3) (x : Long) (v : Word) : (s.pokeWord fc x v).runState = s.runState := by simp [State.pokeWord]
@[simp] theorem State.pokeWord_intLevel (s : State) (fc : BitVec 3) (x : Long) (v : Word) : (s.pokeWord fc x v).intLevel = s.intLevel := by simp [State.pokeWord]
@[simp] theorem State.pokeWord_prevLevel (s : State) (fc : BitVec 3) (x : Long) (v : Word) : (s.pokeWord fc x v).prevLevel = s.prevLevel := by simp [State.pokeWord]
@[simp] theorem State.pokeWord_tracePending (s : State) (fc : BitVec 3) (x : Long) (v : Word) : (s.pokeWord fc x v).tracePending = s.tracePending := by simp [State.pokeWord]
@[simp] theorem State.pokeWord_lastStores (s : State) (fc : BitVec 3) (x : Long) (v : Word) : (s.pokeWord fc x v).lastStores = s.lastStores := by simp [State.pokeWord]
@[simp] theorem State.pokeWord_seqEnd (s : State) (fc : BitVec 3) (x : Long) (v : Word) : (s.pokeWord fc x v).seqEnd = s.seqEnd := by simp [State.pokeWord]
@[simp] theorem State.pokeWord_faultMark (s : State) (fc : BitVec 3) (x : Long) (v : Word) : (s.pokeWord fc x v).faultMark = s.faultMark := by simp [State.pokeWord]
@[simp] theorem State.pokeWord_refusedMark (s : State) (fc : BitVec 3) (x : Long) (v : Word) : (s.pokeWord fc x v).refusedMark = s.refusedMark := by simp [State.pokeWord]
@[simp] theorem State.pokeWord_script (s : State) (fc : BitVec 3) (x : Long) (v : Word) : (s.pokeWord fc x v).script = s.script := by simp [State.pokeWord]
@[simp] theorem State.pokeWord_agents (s : State) (fc : BitVec 3) (x : Long) (v : Word) : (s.pokeWord fc x v).agents = s.agents := by simp [State.pokeWord]
@[simp] theorem State.pokeWord_draws (s : State) (fc : BitVec 3) (x : Long) (v : Word) : (s.pokeWord fc x v).draws = s.draws := by simp [State.pokeWord]
@[simp] theorem State.pokeWord_calls (s : State) (fc : BitVec 3) (x : Long) (v : Word) : (s.pokeWord fc x v).calls = s.calls := by simp [State.pokeWord]
@[simp] theorem State.pokeWord_ir (s : State) (fc : BitVec 3) (x : Long) (v : Word) : (s.pokeWord fc x v).ir = s.ir := by simp [State.pokeWord]
@[simp] theorem State.pokeWord_entered (s : State) (fc : BitVec 3) (x : Long) (v : Word) : (s.pokeWord fc x v).entered = s.entered := by simp [State.pokeWord]
@[simp] theorem State.pokeWord_resetFetch (s : State) (fc : BitVec 3) (x : Long) (v : Word) : (s.pokeWord fc x v).resetFetch = s.resetFetch := by simp [State.pokeWord]

/-! `State.pokeLong` -/

@[simp] theorem State.pokeLong_cfg (s : State) (fc : BitVec 3) (x : Long) (v : Long) : (s.pokeLong fc x v).cfg = s.cfg := by simp [State.pokeLong]
@[simp] theorem State.pokeLong_d (s : State) (fc : BitVec 3) (x : Long) (v : Long) : (s.pokeLong fc x v).d = s.d := by simp [State.pokeLong]
@[simp] theorem State.pokeLong_a (s : State) (fc : BitVec 3) (x : Long) (v : Long) : (s.pokeLong fc x v).a = s.a := by simp [State.pokeLong]
@[simp] theorem State.pokeLong_spInactive (s : State) (fc : BitVec 3) (x : Long) (v : Long) : (s.pokeLong fc x v).spInactive = s.spInactive := by simp [State.pokeLong]
@[simp] theorem State.pokeLong_pc (s : State) (fc : BitVec 3) (x : Long) (v : Long) : (s.pokeLong fc x v).pc = s.pc := by simp [State.pokeLong]
@[simp] theorem State.pokeLong_tBit (s : State) (fc : BitVec 3) (x : Long) (v : Long) : (s.pokeLong fc x v).tBit = s.tBit := by simp [State.pokeLong]
@[simp] theorem State.pokeLong_sBit (s : State) (fc : BitVec 3) (x : Long) (v : Long) : (s.pokeLong fc x v).sBit = s.sBit := by simp [State.pokeLong]
@[simp] theorem State.pokeLong_iMask (s : State) (fc : BitVec 3) (x : Long) (v : Long) : (s.pokeLong fc x v).iMask = s.iMask := by simp [State.pokeLong]
@[simp] theorem State.pokeLong_ccr (s : State) (fc : BitVec 3) (x : Long) (v : Long) : (s.pokeLong fc x v).ccr = s.ccr := by simp [State.pokeLong]
@[simp] theorem State.pokeLong_vbr (s : State) (fc : BitVec 3) (x : Long) (v : Long) : (s.pokeLong fc x v).vbr = s.vbr := by simp [State.pokeLong]
@[simp] theorem State.pokeLong_sfc (s : State) (fc : BitVec 3) (x : Long) (v : Long) : (s.pokeLong fc x v).sfc = s.sfc := by simp [State.pokeLong]
@[simp] theorem State.pokeLong_dfc (s : State) (fc : BitVec 3) (x : Long) (v : Long) : (s.pokeLong fc x v).dfc = s.dfc := by simp [State.pokeLong]
@[simp] theorem State.pokeLong_runState (s : State) (fc : BitVec 3) (x : Long) (v : Long) : (s.pokeLong fc x v).runState = s.runState := by simp [State.pokeLong]
@[simp] theorem State.pokeLong_intLevel (s : State) (fc : BitVec 3) (x : Long) (v : Long) : (s.pokeLong fc x v).intLevel = s.intLevel := by simp [State.pokeLong]
@[simp] theorem State.pokeLong_prevLevel (s : State) (fc : BitVec 3) (x : Long) (v : Long) : (s.pokeLong fc x v).prevLevel = s.prevLevel := by simp [State.pokeLong]
@[simp] theorem State.pokeLong_tracePending (s : State) (fc : BitVec 3) (x : Long) (v : Long) : (s.pokeLong fc x v).tracePending = s.tracePending := by simp [State.pokeLong]
@[simp] theorem State.pokeLong_lastStores (s : State) (fc : BitVec 3) (x : Long) (v : Long) : (s.pokeLong fc x v).lastStores = s.lastStores := by simp [State.pokeLong]
@[simp] theorem State.pokeLong_seqEnd (s : State) (fc : BitVec 3) (x : Long) (v : Long) : (s.pokeLong fc x v).seqEnd = s.seqEnd := by simp [State.pokeLong]
@[simp] theorem State.pokeLong_faultMark (s : State) (fc : BitVec 3) (x : Long) (v : Long) : (s.pokeLong fc x v).faultMark = s.faultMark := by simp [State.pokeLong]
@[simp] theorem State.pokeLong_refusedMark (s : State) (fc : BitVec 3) (x : Long) (v : Long) : (s.pokeLong fc x v).refusedMark = s.refusedMark := by simp [State.pokeLong]
@[simp] theorem State.pokeLong_script (s : State) (fc : BitVec 3) (x : Long) (v : Long) : (s.pokeLong fc x v).script = s.script := by simp [State.pokeLong]
@[simp] theorem State.pokeLong_agents (s : State) (fc : BitVec 3) (x : Long) (v : Long) : (s.pokeLong fc x v).agents = s.agents := by simp [State.pokeLong]
@[simp] theorem State.pokeLong_draws (s : State) (fc : BitVec 3) (x : Long) (v : Long) : (s.pokeLong fc x v).draws = s.draws := by simp [State.pokeLong]
@[simp] theorem State.pokeLong_calls (s : State) (fc : BitVec 3) (x : Long) (v : Long) : (s.pokeLong fc x v).calls = s.calls := by simp [State.pokeLong]
@[simp] theorem State.pokeLong_ir (s : State) (fc : BitVec 3) (x : Long) (v : Long) : (s.pokeLong fc x v).ir = s.ir := by simp [State.pokeLong]
@[simp] theorem State.pokeLong_entered (s : State) (fc : BitVec 3) (x : Long) (v : Long) : (s.pokeLong fc x v).entered = s.entered := by simp [State.pokeLong]
@[simp] theorem State.pokeLong_resetFetch (s : State) (fc : BitVec 3) (x : Long) (v : Long) : (s.pokeLong fc x v).resetFetch = s.resetFetch := by simp [State.pokeLong]

/-! `State.poke` -/

@[simp] theorem State.poke_cfg (s : State) (sz : Size) (fc : BitVec 3) (x : Long) (v : Long) : (s.poke sz fc x v).cfg = s.cfg := by cases sz <;> simp [State.poke]
@[simp] theorem State.poke_d (s : State) (sz : Size) (fc : BitVec 3) (x : Long) (v : Long) : (s.poke sz fc x v).d = s.d := by cases sz <;> simp [State.poke]
@[simp] theorem State.poke_a (s : State) (sz : Size) (fc : BitVec 3) (x : Long) (v : Long) : (s.poke sz fc x v).a = s.a := by cases sz <;> simp [State.poke]
@[simp] theorem State.poke_spInactive (s : State) (sz : Size) (fc : BitVec 3) (x : Long) (v : Long) : (s.poke sz fc x v).spInactive = s.spInactive := by cases sz <;> simp [State.poke]
@[simp] theorem State.poke_pc (s : State) (sz : Size) (fc : BitVec 3) (x : Long) (v : Long) : (s.poke sz fc x v).pc = s.pc := by cases sz <;> simp [State.poke]
@[simp] theorem State.poke_tBit (s : State) (sz : Size) (fc : BitVec 3) (x : Long) (v : Long) : (s.poke sz fc x v).tBit = s.tBit := by cases sz <;> simp [State.poke]
@[simp] theorem State.poke_sBit (s : State) (sz : Size) (fc : BitVec 3) (x : Long) (v : Long) : (s.poke sz fc x v).sBit = s.sBit := by cases sz <;> simp [State.poke]
@[simp] theorem State.poke_iMask (s : State) (sz : Size) (fc : BitVec 3) (x : Long) (v : Long) : (s.poke sz fc x v).iMask = s.iMask := by cases sz <;> simp [State.poke]
@[simp] theorem State.poke_ccr (s : State) (sz : Size) (fc : BitVec 3) (x : Long) (v : Long) : (s.poke sz fc x v).ccr = s.ccr := by cases sz <;> simp [State.poke]
@[simp] theorem State.poke_vbr (s : State) (sz : Size) (fc : BitVec 3) (x : Long) (v : Long) : (s.poke sz fc x v).vbr = s.vbr := by cases sz <;> simp [State.poke]
@[simp] theorem State.poke_sfc (s : State) (sz : Size) (fc : BitVec 3) (x : Long) (v : Long) : (s.poke sz fc x v).sfc = s.sfc := by cases sz <;> simp [State.poke]
@[simp] theorem State.poke_dfc (s : State) (sz : Size) (fc : BitVec 3) (x : Long) (v : Long) : (s.poke sz fc x v).dfc = s.dfc := by cases sz <;> simp [State.poke]
@[simp] theorem State.poke_runState (s : State) (sz : Size) (fc : BitVec 3) (x : Long) (v : Long) : (s.poke sz fc x v).runState = s.runState := by cases sz <;> simp [State.poke]
@[simp] theorem State.poke_intLevel (s : State) (sz : Size) (fc : BitVec 3) (x : Long) (v : Long) : (s.poke sz fc x v).intLevel = s.intLevel := by cases sz <;> simp [State.poke]
@[simp] theorem State.poke_prevLevel (s : State) (sz : Size) (fc : BitVec 3) (x : Long) (v : Long) : (s.poke sz fc x v).prevLevel = s.prevLevel := by cases sz <;> simp [State.poke]
@[simp] theorem State.poke_tracePending (s : State) (sz : Size) (fc : BitVec 3) (x : Long) (v : Long) : (s.poke sz fc x v).tracePending = s.tracePending := by cases sz <;> simp [State.poke]
@[simp] theorem State.poke_lastStores (s : State) (sz : Size) (fc : BitVec 3) (x : Long) (v : Long) : (s.poke sz fc x v).lastStores = s.lastStores := by cases sz <;> simp [State.poke]
@[simp] theorem State.poke_seqEnd (s : State) (sz : Size) (fc : BitVec 3) (x : Long) (v : Long) : (s.poke sz fc x v).seqEnd = s.seqEnd := by cases sz <;> simp [State.poke]
@[simp] theorem State.poke_faultMark (s : State) (sz : Size) (fc : BitVec 3) (x : Long) (v : Long) : (s.poke sz fc x v).faultMark = s.faultMark := by cases sz <;> simp [State.poke]
@[simp] theorem State.poke_refusedMark (s : State) (sz : Size) (fc : BitVec 3) (x : Long) (v : Long) : (s.poke sz fc x v).refusedMark = s.refusedMark := by cases sz <;> simp [State.poke]
@[simp] theorem State.poke_script (s : State) (sz : Size) (fc : BitVec 3) (x : Long) (v : Long) : (s.poke sz fc x v).script = s.script := by cases sz <;> simp [State.poke]
@[simp] theorem State.poke_agents (s : State) (sz : Size) (fc : BitVec 3) (x : Long) (v : Long) : (s.poke sz fc x v).agents = s.agents := by cases sz <;> simp [State.poke]
@[simp] theorem State.poke_draws (s : State) (sz : Size) (fc : BitVec 3) (x : Long) (v : Long) : (s.poke sz fc x v).draws = s.draws := by cases sz <;> simp [State.poke]
@[simp] theorem State.poke_calls (s : State) (sz : Size) (fc : BitVec 3) (x : Long) (v : Long) : (s.poke sz fc x v).calls = s.calls := by cases sz <;> simp [State.poke]
@[simp] theorem State.poke_ir (s : State) (sz : Size) (fc : BitVec 3) (x : Long) (v : Long) : (s.poke sz fc x v).ir = s.ir := by cases sz <;> simp [State.poke]
@[simp] theorem State.poke_entered (s : State) (sz : Size) (fc : BitVec 3) (x : Long) (v : Long) : (s.poke sz fc x v).entered = s.entered := by cases sz <;> simp [State.poke]
@[simp] theorem State.poke_resetFetch (s : State) (sz : Size) (fc : BitVec 3) (x : Long) (v : Long) : (s.poke sz fc x v).resetFetch = s.resetFetch := by cases sz <;> simp [State.poke]

/-! `State.load` -/

@[simp] theorem State.load_cfg (s : State) (sz : Size) (fc : BitVec 3) (x : Long) : (s.load sz fc x).cfg = s.cfg := rfl
@[simp] theorem State.load_d (s : State) (sz : Size) (fc : BitVec 3) (x : Long) : (s.load sz fc x).d = s.d := rfl
@[simp] theorem State.load_a (s : State) (sz : Size) (fc : BitVec 3) (x : Long) : (s.load sz fc x).a = s.a := rfl
@[simp] theorem State.load_spInactive (s : State) (sz : Size) (fc : BitVec 3) (x : Long) : (s.load sz fc x).spInactive = s.spInactive := rfl
@[simp] theorem State.load_pc (s : State) (sz : Size) (fc : BitVec 3) (x : Long) : (s.load sz fc x).pc = s.pc := rfl
@[simp] theorem State.load_tBit (s : State) (sz : Size) (fc : BitVec 3) (x : Long) : (s.load sz fc x).tBit = s.tBit := rfl
@[simp] theorem State.load_sBit (s : State) (sz : Size) (fc : BitVec 3) (x : Long) : (s.load sz fc x).sBit = s.sBit := rfl
@[simp] theorem State.load_iMask (s : State) (sz : Size) (fc : BitVec 3) (x : Long) : (s.load sz fc x).iMask = s.iMask := rfl
@[simp] theorem State.load_ccr (s : State) (sz : Size) (fc : BitVec 3) (x : Long) : (s.load sz fc x).ccr = s.ccr := rfl
@[simp] theorem State.load_vbr (s : State) (sz : Size) (fc : BitVec 3) (x : Long) : (s.load sz fc x).vbr = s.vbr := rfl
@[simp] theorem State.load_sfc (s : State) (sz : Size) (fc : BitVec 3) (x : Long) : (s.load sz fc x).sfc = s.sfc := rfl
@[simp] theorem State.load_dfc (s : State) (sz : Size) (fc : BitVec 3) (x : Long) : (s.load sz fc x).dfc = s.dfc := rfl
@[simp] theorem State.load_runState (s : State) (sz : Size) (fc : BitVec 3) (x : Long) : (s.load sz fc x).runState = s.runState := rfl
@[simp] theorem State.load_intLevel (s : State) (sz : Size) (fc : BitVec 3) (x : Long) : (s.load sz fc x).intLevel = callbackLevel (nextReaction s.script).callbacks s.intLevel := rfl
@[simp] theorem State.load_prevLevel (s : State) (sz : Size) (fc : BitVec 3) (x : Long) : (s.load sz fc x).prevLevel = s.prevLevel := rfl
@[simp] theorem State.load_tracePending (s : State) (sz : Size) (fc : BitVec 3) (x : Long) : (s.load sz fc x).tracePending = s.tracePending := rfl
@[simp] theorem State.load_lastStores (s : State) (sz : Size) (fc : BitVec 3) (x : Long) : (s.load sz fc x).lastStores = s.lastStores := rfl
@[simp] theorem State.load_seqEnd (s : State) (sz : Size) (fc : BitVec 3) (x : Long) : (s.load sz fc x).seqEnd = s.seqEnd := rfl
@[simp] theorem State.load_faultMark (s : State) (sz : Size) (fc : BitVec 3) (x : Long) : (s.load sz fc x).faultMark = s.faultMark := rfl
@[simp] theorem State.load_refusedMark (s : State) (sz : Size) (fc : BitVec 3) (x : Long) : (s.load sz fc x).refusedMark = s.refusedMark.or (callbackRefusal (nextReaction s.script).callbacks) := rfl
@[simp] theorem State.load_mem (s : State) (sz : Size) (fc : BitVec 3) (x : Long) : (s.load sz fc x).mem = s.mem := rfl
@[simp] theorem State.load_script (s : State) (sz : Size) (fc : BitVec 3) (x : Long) : (s.load sz fc x).script = s.script.tail := rfl
@[simp] theorem State.load_agents (s : State) (sz : Size) (fc : BitVec 3) (x : Long) : (s.load sz fc x).agents = s.agents := rfl
@[simp] theorem State.load_draws (s : State) (sz : Size) (fc : BitVec 3) (x : Long) : (s.load sz fc x).draws = s.draws := rfl
@[simp] theorem State.load_calls (s : State) (sz : Size) (fc : BitVec 3) (x : Long) : (s.load sz fc x).calls = .read sz x fc :: s.calls := rfl
@[simp] theorem State.load_ir (s : State) (sz : Size) (fc : BitVec 3) (x : Long) : (s.load sz fc x).ir = s.ir := rfl
@[simp] theorem State.load_entered (s : State) (sz : Size) (fc : BitVec 3) (x : Long) : (s.load sz fc x).entered = s.entered := rfl
@[simp] theorem State.load_resetFetch (s : State) (sz : Size) (fc : BitVec 3) (x : Long) : (s.load sz fc x).resetFetch = s.resetFetch := rfl

/-! `State.store` -/

@[simp] theorem State.store_cfg (s : State) (sz : Size) (fc : BitVec 3) (x : Long) (v : Long) : (s.store sz fc x v).cfg = s.cfg := by simp [State.store]
@[simp] theorem State.store_d (s : State) (sz : Size) (fc : BitVec 3) (x : Long) (v : Long) : (s.store sz fc x v).d = s.d := by simp [State.store]
@[simp] theorem State.store_a (s : State) (sz : Size) (fc : BitVec 3) (x : Long) (v : Long) : (s.store sz fc x v).a = s.a := by simp [State.store]
@[simp] theorem State.store_spInactive (s : State) (sz : Size) (fc : BitVec 3) (x : Long) (v : Long) : (s.store sz fc x v).spInactive = s.spInactive := by simp [State.store]
@[simp] theorem State.store_pc (s : State) (sz : Size) (fc : BitVec 3) (x : Long) (v : Long) : (s.store sz fc x v).pc = s.pc := by simp [State.store]
@[simp] theorem State.store_tBit (s : State) (sz : Size) (fc : BitVec 3) (x : Long) (v : Long) : (s.store sz fc x v).tBit = s.tBit := by simp [State.store]
@[simp] theorem State.store_sBit (s : State) (sz : Size) (fc : BitVec 3) (x : Long) (v : Long) : (s.store sz fc x v).sBit = s.sBit := by simp [State.store]
@[simp] theorem State.store_iMask (s : State) (sz : Size) (fc : BitVec 3) (x : Long) (v : Long) : (s.store sz fc x v).iMask = s.iMask := by simp [State.store]
@[simp] theorem State.store_ccr (s : State) (sz : Size) (fc : BitVec 3) (x : Long) (v : Long) : (s.store sz fc x v).ccr = s.ccr := by simp [State.store]
@[simp] theorem State.store_vbr (s : State) (sz : Size) (fc : BitVec 3) (x : Long) (v : Long) : (s.store sz fc x v).vbr = s.vbr := by simp [State.store]
@[simp] theorem State.store_sfc (s : State) (sz : Size) (fc : BitVec 3) (x : Long) (v : Long) : (s.store sz fc x v).sfc = s.sfc := by simp [State.store]
@[simp] theorem State.store_dfc (s : State) (sz : Size) (fc : BitVec 3) (x : Long) (v : Long) : (s.store sz fc x v).dfc = s.dfc := by simp [State.store]
@[simp] theorem State.store_runState (s : State) (sz : Size) (fc : BitVec 3) (x : Long) (v : Long) : (s.store sz fc x v).runState = s.runState := by simp [State.store]
@[simp] theorem State.store_intLevel (s : State) (sz : Size) (fc : BitVec 3) (x : Long) (v : Long) : (s.store sz fc x v).intLevel = callbackLevel (nextReaction s.script).callbacks s.intLevel := by simp [State.store]
@[simp] theorem State.store_prevLevel (s : State) (sz : Size) (fc : BitVec 3) (x : Long) (v : Long) : (s.store sz fc x v).prevLevel = s.prevLevel := by simp [State.store]
@[simp] theorem State.store_tracePending (s : State) (sz : Size) (fc : BitVec 3) (x : Long) (v : Long) : (s.store sz fc x v).tracePending = s.tracePending := by simp [State.store]
@[simp] theorem State.store_lastStores (s : State) (sz : Size) (fc : BitVec 3) (x : Long) (v : Long) : (s.store sz fc x v).lastStores = s.lastStores := by simp [State.store]
@[simp] theorem State.store_seqEnd (s : State) (sz : Size) (fc : BitVec 3) (x : Long) (v : Long) : (s.store sz fc x v).seqEnd = s.seqEnd := by simp [State.store]
@[simp] theorem State.store_faultMark (s : State) (sz : Size) (fc : BitVec 3) (x : Long) (v : Long) : (s.store sz fc x v).faultMark = s.faultMark := by simp [State.store]
@[simp] theorem State.store_refusedMark (s : State) (sz : Size) (fc : BitVec 3) (x : Long) (v : Long) : (s.store sz fc x v).refusedMark = s.refusedMark.or (callbackRefusal (nextReaction s.script).callbacks) := by simp [State.store]
@[simp] theorem State.store_mem (s : State) (sz : Size) (fc : BitVec 3) (x : Long) (v : Long) : (s.store sz fc x v).mem = ((s.addCall (.write sz x fc (low sz v))).poke sz fc x v).mem := by simp [State.store]
@[simp] theorem State.store_script (s : State) (sz : Size) (fc : BitVec 3) (x : Long) (v : Long) : (s.store sz fc x v).script = s.script.tail := by simp [State.store]
@[simp] theorem State.store_agents (s : State) (sz : Size) (fc : BitVec 3) (x : Long) (v : Long) : (s.store sz fc x v).agents = s.agents := by simp [State.store]
@[simp] theorem State.store_draws (s : State) (sz : Size) (fc : BitVec 3) (x : Long) (v : Long) : (s.store sz fc x v).draws = s.draws := by simp [State.store]
@[simp] theorem State.store_calls (s : State) (sz : Size) (fc : BitVec 3) (x : Long) (v : Long) : (s.store sz fc x v).calls = .write sz x fc (low sz v) :: s.calls := by simp [State.store]
@[simp] theorem State.store_ir (s : State) (sz : Size) (fc : BitVec 3) (x : Long) (v : Long) : (s.store sz fc x v).ir = s.ir := by simp [State.store]
@[simp] theorem State.store_entered (s : State) (sz : Size) (fc : BitVec 3) (x : Long) (v : Long) : (s.store sz fc x v).entered = s.entered := by simp [State.store]
@[simp] theorem State.store_resetFetch (s : State) (sz : Size) (fc : BitVec 3) (x : Long) (v : Long) : (s.store sz fc x v).resetFetch = s.resetFetch := by simp [State.store]

/-! `State.skipWord` -/

@[simp] theorem State.skipWord_cfg (s : State) : (s.skipWord).cfg = s.cfg := rfl
@[simp] theorem State.skipWord_d (s : State) : (s.skipWord).d = s.d := rfl
@[simp] theorem State.skipWord_a (s : State) : (s.skipWord).a = s.a := rfl
@[simp] theorem State.skipWord_spInactive (s : State) : (s.skipWord).spInactive = s.spInactive := rfl
@[simp] theorem State.skipWord_pc (s : State) : (s.skipWord).pc = s.pc + 2 := rfl
@[simp] theorem State.skipWord_tBit (s : State) : (s.skipWord).tBit = s.tBit := rfl
@[simp] theorem State.skipWord_sBit (s : State) : (s.skipWord).sBit = s.sBit := rfl
@[simp] theorem State.skipWord_iMask (s : State) : (s.skipWord).iMask = s.iMask := rfl
@[simp] theorem State.skipWord_ccr (s : State) : (s.skipWord).ccr = s.ccr := rfl
@[simp] theorem State.skipWord_vbr (s : State) : (s.skipWord).vbr = s.vbr := rfl
@[simp] theorem State.skipWord_sfc (s : State) : (s.skipWord).sfc = s.sfc := rfl
@[simp] theorem State.skipWord_dfc (s : State) : (s.skipWord).dfc = s.dfc := rfl
@[simp] theorem State.skipWord_runState (s : State) : (s.skipWord).runState = s.runState := rfl
@[simp] theorem State.skipWord_intLevel (s : State) : (s.skipWord).intLevel = callbackLevel (nextReaction s.script).callbacks s.intLevel := rfl
@[simp] theorem State.skipWord_prevLevel (s : State) : (s.skipWord).prevLevel = s.prevLevel := rfl
@[simp] theorem State.skipWord_tracePending (s : State) : (s.skipWord).tracePending = s.tracePending := rfl
@[simp] theorem State.skipWord_lastStores (s : State) : (s.skipWord).lastStores = s.lastStores := rfl
@[simp] theorem State.skipWord_seqEnd (s : State) : (s.skipWord).seqEnd = s.seqEnd := rfl
@[simp] theorem State.skipWord_faultMark (s : State) : (s.skipWord).faultMark = s.faultMark := rfl
@[simp] theorem State.skipWord_refusedMark (s : State) : (s.skipWord).refusedMark = s.refusedMark.or (callbackRefusal (nextReaction s.script).callbacks) := rfl
@[simp] theorem State.skipWord_mem (s : State) : (s.skipWord).mem = s.mem := rfl
@[simp] theorem State.skipWord_script (s : State) : (s.skipWord).script = s.script.tail := rfl
@[simp] theorem State.skipWord_agents (s : State) : (s.skipWord).agents = s.agents := rfl
@[simp] theorem State.skipWord_draws (s : State) : (s.skipWord).draws = s.draws := rfl
@[simp] theorem State.skipWord_calls (s : State) : (s.skipWord).calls = .fetch16 s.pc s.progFc :: s.calls := rfl
@[simp] theorem State.skipWord_ir (s : State) : (s.skipWord).ir = s.ir := rfl
@[simp] theorem State.skipWord_entered (s : State) : (s.skipWord).entered = s.entered := rfl
@[simp] theorem State.skipWord_resetFetch (s : State) : (s.skipWord).resetFetch = s.resetFetch := rfl

/-! `State.setS` -/

@[simp] theorem State.setS_cfg (s : State) (b : Bool) : (s.setS b).cfg = s.cfg := by unfold State.setS; split <;> simp_all
@[simp] theorem State.setS_d (s : State) (b : Bool) : (s.setS b).d = s.d := by unfold State.setS; split <;> simp_all
@[simp] theorem State.setS_pc (s : State) (b : Bool) : (s.setS b).pc = s.pc := by unfold State.setS; split <;> simp_all
@[simp] theorem State.setS_tBit (s : State) (b : Bool) : (s.setS b).tBit = s.tBit := by unfold State.setS; split <;> simp_all
@[simp] theorem State.setS_sBit (s : State) (b : Bool) : (s.setS b).sBit = b := by unfold State.setS; split <;> simp_all
@[simp] theorem State.setS_iMask (s : State) (b : Bool) : (s.setS b).iMask = s.iMask := by unfold State.setS; split <;> simp_all
@[simp] theorem State.setS_ccr (s : State) (b : Bool) : (s.setS b).ccr = s.ccr := by unfold State.setS; split <;> simp_all
@[simp] theorem State.setS_vbr (s : State) (b : Bool) : (s.setS b).vbr = s.vbr := by unfold State.setS; split <;> simp_all
@[simp] theorem State.setS_sfc (s : State) (b : Bool) : (s.setS b).sfc = s.sfc := by unfold State.setS; split <;> simp_all
@[simp] theorem State.setS_dfc (s : State) (b : Bool) : (s.setS b).dfc = s.dfc := by unfold State.setS; split <;> simp_all
@[simp] theorem State.setS_runState (s : State) (b : Bool) : (s.setS b).runState = s.runState := by unfold State.setS; split <;> simp_all
@[simp] theorem State.setS_intLevel (s : State) (b : Bool) : (s.setS b).intLevel = s.intLevel := by unfold State.setS; split <;> simp_all
@[simp] theorem State.setS_prevLevel (s : State) (b : Bool) : (s.setS b).prevLevel = s.prevLevel := by unfold State.setS; split <;> simp_all
@[simp] theorem State.setS_tracePending (s : State) (b : Bool) : (s.setS b).tracePending = s.tracePending := by unfold State.setS; split <;> simp_all
@[simp] theorem State.setS_lastStores (s : State) (b : Bool) : (s.setS b).lastStores = s.lastStores := by unfold State.setS; split <;> simp_all
@[simp] theorem State.setS_seqEnd (s : State) (b : Bool) : (s.setS b).seqEnd = s.seqEnd := by unfold State.setS; split <;> simp_all
@[simp] theorem State.setS_faultMark (s : State) (b : Bool) : (s.setS b).faultMark = s.faultMark := by unfold State.setS; split <;> simp_all
@[simp] theorem State.setS_refusedMark (s : State) (b : Bool) : (s.setS b).refusedMark = s.refusedMark := by unfold State.setS; split <;> simp_all
@[simp] theorem State.setS_mem (s : State) (b : Bool) : (s.setS b).mem = s.mem := by unfold State.setS; split <;> simp_all
@[simp] theorem State.setS_script (s : State) (b : Bool) : (s.setS b).script = s.script := by unfold State.setS; split <;> simp_all
@[simp] theorem State.setS_agents (s : State) (b : Bool) : (s.setS b).agents = s.agents := by unfold State.setS; split <;> simp_all
@[simp] theorem State.setS_draws (s : State) (b : Bool) : (s.setS b).draws = s.draws := by unfold State.setS; split <;> simp_all
@[simp] theorem State.setS_calls (s : State) (b : Bool) : (s.setS b).calls = s.calls := by unfold State.setS; split <;> simp_all
@[simp] theorem State.setS_ir (s : State) (b : Bool) : (s.setS b).ir = s.ir := by unfold State.setS; split <;> simp_all
@[simp] theorem State.setS_entered (s : State) (b : Bool) : (s.setS b).entered = s.entered := by unfold State.setS; split <;> simp_all
@[simp] theorem State.setS_resetFetch (s : State) (b : Bool) : (s.setS b).resetFetch = s.resetFetch := by unfold State.setS; split <;> simp_all

/-! `State.writeSr` -/

@[simp] theorem State.writeSr_cfg (s : State) (v : Word) : (s.writeSr v).cfg = s.cfg := by simp [State.writeSr]
@[simp] theorem State.writeSr_d (s : State) (v : Word) : (s.writeSr v).d = s.d := by simp [State.writeSr]
@[simp] theorem State.writeSr_pc (s : State) (v : Word) : (s.writeSr v).pc = s.pc := by simp [State.writeSr]
@[simp] theorem State.writeSr_tBit (s : State) (v : Word) : (s.writeSr v).tBit = (v &&& srMask).getLsbD 15 := by simp [State.writeSr]
@[simp] theorem State.writeSr_sBit (s : State) (v : Word) : (s.writeSr v).sBit = (v &&& srMask).getLsbD 13 := by simp [State.writeSr]
@[simp] theorem State.writeSr_iMask (s : State) (v : Word) : (s.writeSr v).iMask = (v &&& srMask).extractLsb' 8 3 := by simp [State.writeSr]
@[simp] theorem State.writeSr_ccr (s : State) (v : Word) : (s.writeSr v).ccr = Ccr.ofByte (wordLowByte (v &&& srMask)) := by simp [State.writeSr]
@[simp] theorem State.writeSr_vbr (s : State) (v : Word) : (s.writeSr v).vbr = s.vbr := by simp [State.writeSr]
@[simp] theorem State.writeSr_sfc (s : State) (v : Word) : (s.writeSr v).sfc = s.sfc := by simp [State.writeSr]
@[simp] theorem State.writeSr_dfc (s : State) (v : Word) : (s.writeSr v).dfc = s.dfc := by simp [State.writeSr]
@[simp] theorem State.writeSr_runState (s : State) (v : Word) : (s.writeSr v).runState = s.runState := by simp [State.writeSr]
@[simp] theorem State.writeSr_intLevel (s : State) (v : Word) : (s.writeSr v).intLevel = s.intLevel := by simp [State.writeSr]
@[simp] theorem State.writeSr_prevLevel (s : State) (v : Word) : (s.writeSr v).prevLevel = s.prevLevel := by simp [State.writeSr]
@[simp] theorem State.writeSr_tracePending (s : State) (v : Word) : (s.writeSr v).tracePending = s.tracePending := by simp [State.writeSr]
@[simp] theorem State.writeSr_lastStores (s : State) (v : Word) : (s.writeSr v).lastStores = s.lastStores := by simp [State.writeSr]
@[simp] theorem State.writeSr_seqEnd (s : State) (v : Word) : (s.writeSr v).seqEnd = s.seqEnd := by simp [State.writeSr]
@[simp] theorem State.writeSr_faultMark (s : State) (v : Word) : (s.writeSr v).faultMark = s.faultMark := by simp [State.writeSr]
@[simp] theorem State.writeSr_refusedMark (s : State) (v : Word) : (s.writeSr v).refusedMark = s.refusedMark := by simp [State.writeSr]
@[simp] theorem State.writeSr_mem (s : State) (v : Word) : (s.writeSr v).mem = s.mem := by simp [State.writeSr]
@[simp] theorem State.writeSr_script (s : State) (v : Word) : (s.writeSr v).script = s.script := by simp [State.writeSr]
@[simp] theorem State.writeSr_agents (s : State) (v : Word) : (s.writeSr v).agents = s.agents := by simp [State.writeSr]
@[simp] theorem State.writeSr_draws (s : State) (v : Word) : (s.writeSr v).draws = s.draws := by simp [State.writeSr]
@[simp] theorem State.writeSr_calls (s : State) (v : Word) : (s.writeSr v).calls = s.calls := by simp [State.writeSr]
@[simp] theorem State.writeSr_ir (s : State) (v : Word) : (s.writeSr v).ir = s.ir := by simp [State.writeSr]
@[simp] theorem State.writeSr_entered (s : State) (v : Word) : (s.writeSr v).entered = s.entered := by simp [State.writeSr]
@[simp] theorem State.writeSr_resetFetch (s : State) (v : Word) : (s.writeSr v).resetFetch = s.resetFetch := by simp [State.writeSr]

/-! `State.pushed` -/

@[simp] theorem State.pushed_cfg (s : State) (sz : Size) (v : Long) : (s.pushed sz v).cfg = s.cfg := by simp [State.pushed]
@[simp] theorem State.pushed_d (s : State) (sz : Size) (v : Long) : (s.pushed sz v).d = s.d := by simp [State.pushed]
@[simp] theorem State.pushed_a (s : State) (sz : Size) (v : Long) : (s.pushed sz v).a = s.a.set 7 (s.a[7] - BitVec.ofNat 32 sz.bytes) := by simp [State.pushed]
@[simp] theorem State.pushed_spInactive (s : State) (sz : Size) (v : Long) : (s.pushed sz v).spInactive = s.spInactive := by simp [State.pushed]
@[simp] theorem State.pushed_pc (s : State) (sz : Size) (v : Long) : (s.pushed sz v).pc = s.pc := by simp [State.pushed]
@[simp] theorem State.pushed_tBit (s : State) (sz : Size) (v : Long) : (s.pushed sz v).tBit = s.tBit := by simp [State.pushed]
@[simp] theorem State.pushed_sBit (s : State) (sz : Size) (v : Long) : (s.pushed sz v).sBit = s.sBit := by simp [State.pushed]
@[simp] theorem State.pushed_iMask (s : State) (sz : Size) (v : Long) : (s.pushed sz v).iMask = s.iMask := by simp [State.pushed]
@[simp] theorem State.pushed_ccr (s : State) (sz : Size) (v : Long) : (s.pushed sz v).ccr = s.ccr := by simp [State.pushed]
@[simp] theorem State.pushed_vbr (s : State) (sz : Size) (v : Long) : (s.pushed sz v).vbr = s.vbr := by simp [State.pushed]
@[simp] theorem State.pushed_sfc (s : State) (sz : Size) (v : Long) : (s.pushed sz v).sfc = s.sfc := by simp [State.pushed]
@[simp] theorem State.pushed_dfc (s : State) (sz : Size) (v : Long) : (s.pushed sz v).dfc = s.dfc := by simp [State.pushed]
@[simp] theorem State.pushed_runState (s : State) (sz : Size) (v : Long) : (s.pushed sz v).runState = s.runState := by simp [State.pushed]
@[simp] theorem State.pushed_intLevel (s : State) (sz : Size) (v : Long) : (s.pushed sz v).intLevel = callbackLevel (nextReaction s.script).callbacks s.intLevel := by simp [State.pushed]
@[simp] theorem State.pushed_prevLevel (s : State) (sz : Size) (v : Long) : (s.pushed sz v).prevLevel = s.prevLevel := by simp [State.pushed]
@[simp] theorem State.pushed_tracePending (s : State) (sz : Size) (v : Long) : (s.pushed sz v).tracePending = s.tracePending := by simp [State.pushed]
@[simp] theorem State.pushed_lastStores (s : State) (sz : Size) (v : Long) : (s.pushed sz v).lastStores = s.lastStores := by simp [State.pushed]
@[simp] theorem State.pushed_seqEnd (s : State) (sz : Size) (v : Long) : (s.pushed sz v).seqEnd = s.seqEnd := by simp [State.pushed]
@[simp] theorem State.pushed_faultMark (s : State) (sz : Size) (v : Long) : (s.pushed sz v).faultMark = s.faultMark := by simp [State.pushed]
@[simp] theorem State.pushed_refusedMark (s : State) (sz : Size) (v : Long) : (s.pushed sz v).refusedMark = s.refusedMark.or (callbackRefusal (nextReaction s.script).callbacks) := by simp [State.pushed]
@[simp] theorem State.pushed_script (s : State) (sz : Size) (v : Long) : (s.pushed sz v).script = s.script.tail := by simp [State.pushed]
@[simp] theorem State.pushed_agents (s : State) (sz : Size) (v : Long) : (s.pushed sz v).agents = s.agents := by simp [State.pushed]
@[simp] theorem State.pushed_draws (s : State) (sz : Size) (v : Long) : (s.pushed sz v).draws = s.draws := by simp [State.pushed]
@[simp] theorem State.pushed_calls (s : State) (sz : Size) (v : Long) : (s.pushed sz v).calls = .write sz (s.a[7] - BitVec.ofNat 32 sz.bytes) s.dataFc (low sz v) :: s.calls := by simp [State.pushed]
@[simp] theorem State.pushed_ir (s : State) (sz : Size) (v : Long) : (s.pushed sz v).ir = s.ir := by simp [State.pushed]
@[simp] theorem State.pushed_entered (s : State) (sz : Size) (v : Long) : (s.pushed sz v).entered = s.entered := by simp [State.pushed]
@[simp] theorem State.pushed_resetFetch (s : State) (sz : Size) (v : Long) : (s.pushed sz v).resetFetch = s.resetFetch := by simp [State.pushed]

/-! `State.popped` -/

@[simp] theorem State.popped_cfg (s : State) (sz : Size) : (s.popped sz).cfg = s.cfg := rfl
@[simp] theorem State.popped_d (s : State) (sz : Size) : (s.popped sz).d = s.d := rfl
@[simp] theorem State.popped_a (s : State) (sz : Size) : (s.popped sz).a = s.a.set 7 (s.a[7] + BitVec.ofNat 32 sz.bytes) := rfl
@[simp] theorem State.popped_spInactive (s : State) (sz : Size) : (s.popped sz).spInactive = s.spInactive := rfl
@[simp] theorem State.popped_pc (s : State) (sz : Size) : (s.popped sz).pc = s.pc := rfl
@[simp] theorem State.popped_tBit (s : State) (sz : Size) : (s.popped sz).tBit = s.tBit := rfl
@[simp] theorem State.popped_sBit (s : State) (sz : Size) : (s.popped sz).sBit = s.sBit := rfl
@[simp] theorem State.popped_iMask (s : State) (sz : Size) : (s.popped sz).iMask = s.iMask := rfl
@[simp] theorem State.popped_ccr (s : State) (sz : Size) : (s.popped sz).ccr = s.ccr := rfl
@[simp] theorem State.popped_vbr (s : State) (sz : Size) : (s.popped sz).vbr = s.vbr := rfl
@[simp] theorem State.popped_sfc (s : State) (sz : Size) : (s.popped sz).sfc = s.sfc := rfl
@[simp] theorem State.popped_dfc (s : State) (sz : Size) : (s.popped sz).dfc = s.dfc := rfl
@[simp] theorem State.popped_runState (s : State) (sz : Size) : (s.popped sz).runState = s.runState := rfl
@[simp] theorem State.popped_intLevel (s : State) (sz : Size) : (s.popped sz).intLevel = callbackLevel (nextReaction s.script).callbacks s.intLevel := rfl
@[simp] theorem State.popped_prevLevel (s : State) (sz : Size) : (s.popped sz).prevLevel = s.prevLevel := rfl
@[simp] theorem State.popped_tracePending (s : State) (sz : Size) : (s.popped sz).tracePending = s.tracePending := rfl
@[simp] theorem State.popped_lastStores (s : State) (sz : Size) : (s.popped sz).lastStores = s.lastStores := rfl
@[simp] theorem State.popped_seqEnd (s : State) (sz : Size) : (s.popped sz).seqEnd = s.seqEnd := rfl
@[simp] theorem State.popped_faultMark (s : State) (sz : Size) : (s.popped sz).faultMark = s.faultMark := rfl
@[simp] theorem State.popped_refusedMark (s : State) (sz : Size) : (s.popped sz).refusedMark = s.refusedMark.or (callbackRefusal (nextReaction s.script).callbacks) := rfl
@[simp] theorem State.popped_mem (s : State) (sz : Size) : (s.popped sz).mem = s.mem := rfl
@[simp] theorem State.popped_script (s : State) (sz : Size) : (s.popped sz).script = s.script.tail := rfl
@[simp] theorem State.popped_agents (s : State) (sz : Size) : (s.popped sz).agents = s.agents := rfl
@[simp] theorem State.popped_draws (s : State) (sz : Size) : (s.popped sz).draws = s.draws := rfl
@[simp] theorem State.popped_calls (s : State) (sz : Size) : (s.popped sz).calls = .read sz s.a[7] s.dataFc :: s.calls := rfl
@[simp] theorem State.popped_ir (s : State) (sz : Size) : (s.popped sz).ir = s.ir := rfl
@[simp] theorem State.popped_entered (s : State) (sz : Size) : (s.popped sz).entered = s.entered := rfl
@[simp] theorem State.popped_resetFetch (s : State) (sz : Size) : (s.popped sz).resetFetch = s.resetFetch := rfl

/-! `State.enterMode` -/

@[simp] theorem State.enterMode_cfg (s : State) (i : Option (BitVec 3)) : (s.enterMode i).cfg = s.cfg := by simp [State.enterMode]
@[simp] theorem State.enterMode_d (s : State) (i : Option (BitVec 3)) : (s.enterMode i).d = s.d := by simp [State.enterMode]
@[simp] theorem State.enterMode_a (s : State) (i : Option (BitVec 3)) : (s.enterMode i).a = (s.setS true).a := by simp [State.enterMode]
@[simp] theorem State.enterMode_spInactive (s : State) (i : Option (BitVec 3)) : (s.enterMode i).spInactive = (s.setS true).spInactive := by simp [State.enterMode]
@[simp] theorem State.enterMode_pc (s : State) (i : Option (BitVec 3)) : (s.enterMode i).pc = s.pc := by simp [State.enterMode]
@[simp] theorem State.enterMode_tBit (s : State) (i : Option (BitVec 3)) : (s.enterMode i).tBit = false := by simp [State.enterMode]
@[simp] theorem State.enterMode_sBit (s : State) (i : Option (BitVec 3)) : (s.enterMode i).sBit = true := by simp [State.enterMode]
@[simp] theorem State.enterMode_iMask (s : State) (i : Option (BitVec 3)) : (s.enterMode i).iMask = i.getD s.iMask := by simp [State.enterMode]
@[simp] theorem State.enterMode_ccr (s : State) (i : Option (BitVec 3)) : (s.enterMode i).ccr = s.ccr := by simp [State.enterMode]
@[simp] theorem State.enterMode_vbr (s : State) (i : Option (BitVec 3)) : (s.enterMode i).vbr = s.vbr := by simp [State.enterMode]
@[simp] theorem State.enterMode_sfc (s : State) (i : Option (BitVec 3)) : (s.enterMode i).sfc = s.sfc := by simp [State.enterMode]
@[simp] theorem State.enterMode_dfc (s : State) (i : Option (BitVec 3)) : (s.enterMode i).dfc = s.dfc := by simp [State.enterMode]
@[simp] theorem State.enterMode_runState (s : State) (i : Option (BitVec 3)) : (s.enterMode i).runState = s.runState := by simp [State.enterMode]
@[simp] theorem State.enterMode_intLevel (s : State) (i : Option (BitVec 3)) : (s.enterMode i).intLevel = s.intLevel := by simp [State.enterMode]
@[simp] theorem State.enterMode_prevLevel (s : State) (i : Option (BitVec 3)) : (s.enterMode i).prevLevel = s.prevLevel := by simp [State.enterMode]
@[simp] theorem State.enterMode_tracePending (s : State) (i : Option (BitVec 3)) : (s.enterMode i).tracePending = s.tracePending := by simp [State.enterMode]
@[simp] theorem State.enterMode_lastStores (s : State) (i : Option (BitVec 3)) : (s.enterMode i).lastStores = s.lastStores := by simp [State.enterMode]
@[simp] theorem State.enterMode_seqEnd (s : State) (i : Option (BitVec 3)) : (s.enterMode i).seqEnd = s.seqEnd := by simp [State.enterMode]
@[simp] theorem State.enterMode_faultMark (s : State) (i : Option (BitVec 3)) : (s.enterMode i).faultMark = s.faultMark := by simp [State.enterMode]
@[simp] theorem State.enterMode_refusedMark (s : State) (i : Option (BitVec 3)) : (s.enterMode i).refusedMark = s.refusedMark := by simp [State.enterMode]
@[simp] theorem State.enterMode_mem (s : State) (i : Option (BitVec 3)) : (s.enterMode i).mem = s.mem := by simp [State.enterMode]
@[simp] theorem State.enterMode_script (s : State) (i : Option (BitVec 3)) : (s.enterMode i).script = s.script := by simp [State.enterMode]
@[simp] theorem State.enterMode_agents (s : State) (i : Option (BitVec 3)) : (s.enterMode i).agents = s.agents := by simp [State.enterMode]
@[simp] theorem State.enterMode_draws (s : State) (i : Option (BitVec 3)) : (s.enterMode i).draws = s.draws := by simp [State.enterMode]
@[simp] theorem State.enterMode_calls (s : State) (i : Option (BitVec 3)) : (s.enterMode i).calls = s.calls := by simp [State.enterMode]
@[simp] theorem State.enterMode_ir (s : State) (i : Option (BitVec 3)) : (s.enterMode i).ir = s.ir := by simp [State.enterMode]
@[simp] theorem State.enterMode_entered (s : State) (i : Option (BitVec 3)) : (s.enterMode i).entered = s.entered := by simp [State.enterMode]
@[simp] theorem State.enterMode_resetFetch (s : State) (i : Option (BitVec 3)) : (s.enterMode i).resetFetch = s.resetFetch := by simp [State.enterMode]

/-! `State.setGenReg` -/

@[simp] theorem State.setGenReg_cfg (s : State) (r : GenReg) (v : Long) : (s.setGenReg r v).cfg = s.cfg := by cases r <;> rfl
@[simp] theorem State.setGenReg_spInactive (s : State) (r : GenReg) (v : Long) : (s.setGenReg r v).spInactive = s.spInactive := by cases r <;> rfl
@[simp] theorem State.setGenReg_pc (s : State) (r : GenReg) (v : Long) : (s.setGenReg r v).pc = s.pc := by cases r <;> rfl
@[simp] theorem State.setGenReg_tBit (s : State) (r : GenReg) (v : Long) : (s.setGenReg r v).tBit = s.tBit := by cases r <;> rfl
@[simp] theorem State.setGenReg_sBit (s : State) (r : GenReg) (v : Long) : (s.setGenReg r v).sBit = s.sBit := by cases r <;> rfl
@[simp] theorem State.setGenReg_iMask (s : State) (r : GenReg) (v : Long) : (s.setGenReg r v).iMask = s.iMask := by cases r <;> rfl
@[simp] theorem State.setGenReg_ccr (s : State) (r : GenReg) (v : Long) : (s.setGenReg r v).ccr = s.ccr := by cases r <;> rfl
@[simp] theorem State.setGenReg_vbr (s : State) (r : GenReg) (v : Long) : (s.setGenReg r v).vbr = s.vbr := by cases r <;> rfl
@[simp] theorem State.setGenReg_sfc (s : State) (r : GenReg) (v : Long) : (s.setGenReg r v).sfc = s.sfc := by cases r <;> rfl
@[simp] theorem State.setGenReg_dfc (s : State) (r : GenReg) (v : Long) : (s.setGenReg r v).dfc = s.dfc := by cases r <;> rfl
@[simp] theorem State.setGenReg_runState (s : State) (r : GenReg) (v : Long) : (s.setGenReg r v).runState = s.runState := by cases r <;> rfl
@[simp] theorem State.setGenReg_intLevel (s : State) (r : GenReg) (v : Long) : (s.setGenReg r v).intLevel = s.intLevel := by cases r <;> rfl
@[simp] theorem State.setGenReg_prevLevel (s : State) (r : GenReg) (v : Long) : (s.setGenReg r v).prevLevel = s.prevLevel := by cases r <;> rfl
@[simp] theorem State.setGenReg_tracePending (s : State) (r : GenReg) (v : Long) : (s.setGenReg r v).tracePending = s.tracePending := by cases r <;> rfl
@[simp] theorem State.setGenReg_lastStores (s : State) (r : GenReg) (v : Long) : (s.setGenReg r v).lastStores = s.lastStores := by cases r <;> rfl
@[simp] theorem State.setGenReg_seqEnd (s : State) (r : GenReg) (v : Long) : (s.setGenReg r v).seqEnd = s.seqEnd := by cases r <;> rfl
@[simp] theorem State.setGenReg_faultMark (s : State) (r : GenReg) (v : Long) : (s.setGenReg r v).faultMark = s.faultMark := by cases r <;> rfl
@[simp] theorem State.setGenReg_refusedMark (s : State) (r : GenReg) (v : Long) : (s.setGenReg r v).refusedMark = s.refusedMark := by cases r <;> rfl
@[simp] theorem State.setGenReg_mem (s : State) (r : GenReg) (v : Long) : (s.setGenReg r v).mem = s.mem := by cases r <;> rfl
@[simp] theorem State.setGenReg_script (s : State) (r : GenReg) (v : Long) : (s.setGenReg r v).script = s.script := by cases r <;> rfl
@[simp] theorem State.setGenReg_agents (s : State) (r : GenReg) (v : Long) : (s.setGenReg r v).agents = s.agents := by cases r <;> rfl
@[simp] theorem State.setGenReg_draws (s : State) (r : GenReg) (v : Long) : (s.setGenReg r v).draws = s.draws := by cases r <;> rfl
@[simp] theorem State.setGenReg_calls (s : State) (r : GenReg) (v : Long) : (s.setGenReg r v).calls = s.calls := by cases r <;> rfl
@[simp] theorem State.setGenReg_ir (s : State) (r : GenReg) (v : Long) : (s.setGenReg r v).ir = s.ir := by cases r <;> rfl
@[simp] theorem State.setGenReg_entered (s : State) (r : GenReg) (v : Long) : (s.setGenReg r v).entered = s.entered := by cases r <;> rfl
@[simp] theorem State.setGenReg_resetFetch (s : State) (r : GenReg) (v : Long) : (s.setGenReg r v).resetFetch = s.resetFetch := by cases r <;> rfl

/-! `State.setControl` -/

@[simp] theorem State.setControl_cfg (s : State) (r : ControlReg) (v : Long) : (s.setControl r v).cfg = s.cfg := by cases r <;> rfl
@[simp] theorem State.setControl_d (s : State) (r : ControlReg) (v : Long) : (s.setControl r v).d = s.d := by cases r <;> rfl
@[simp] theorem State.setControl_a (s : State) (r : ControlReg) (v : Long) : (s.setControl r v).a = s.a := by cases r <;> rfl
@[simp] theorem State.setControl_pc (s : State) (r : ControlReg) (v : Long) : (s.setControl r v).pc = s.pc := by cases r <;> rfl
@[simp] theorem State.setControl_tBit (s : State) (r : ControlReg) (v : Long) : (s.setControl r v).tBit = s.tBit := by cases r <;> rfl
@[simp] theorem State.setControl_sBit (s : State) (r : ControlReg) (v : Long) : (s.setControl r v).sBit = s.sBit := by cases r <;> rfl
@[simp] theorem State.setControl_iMask (s : State) (r : ControlReg) (v : Long) : (s.setControl r v).iMask = s.iMask := by cases r <;> rfl
@[simp] theorem State.setControl_ccr (s : State) (r : ControlReg) (v : Long) : (s.setControl r v).ccr = s.ccr := by cases r <;> rfl
@[simp] theorem State.setControl_runState (s : State) (r : ControlReg) (v : Long) : (s.setControl r v).runState = s.runState := by cases r <;> rfl
@[simp] theorem State.setControl_intLevel (s : State) (r : ControlReg) (v : Long) : (s.setControl r v).intLevel = s.intLevel := by cases r <;> rfl
@[simp] theorem State.setControl_prevLevel (s : State) (r : ControlReg) (v : Long) : (s.setControl r v).prevLevel = s.prevLevel := by cases r <;> rfl
@[simp] theorem State.setControl_tracePending (s : State) (r : ControlReg) (v : Long) : (s.setControl r v).tracePending = s.tracePending := by cases r <;> rfl
@[simp] theorem State.setControl_lastStores (s : State) (r : ControlReg) (v : Long) : (s.setControl r v).lastStores = s.lastStores := by cases r <;> rfl
@[simp] theorem State.setControl_seqEnd (s : State) (r : ControlReg) (v : Long) : (s.setControl r v).seqEnd = s.seqEnd := by cases r <;> rfl
@[simp] theorem State.setControl_faultMark (s : State) (r : ControlReg) (v : Long) : (s.setControl r v).faultMark = s.faultMark := by cases r <;> rfl
@[simp] theorem State.setControl_refusedMark (s : State) (r : ControlReg) (v : Long) : (s.setControl r v).refusedMark = s.refusedMark := by cases r <;> rfl
@[simp] theorem State.setControl_mem (s : State) (r : ControlReg) (v : Long) : (s.setControl r v).mem = s.mem := by cases r <;> rfl
@[simp] theorem State.setControl_script (s : State) (r : ControlReg) (v : Long) : (s.setControl r v).script = s.script := by cases r <;> rfl
@[simp] theorem State.setControl_agents (s : State) (r : ControlReg) (v : Long) : (s.setControl r v).agents = s.agents := by cases r <;> rfl
@[simp] theorem State.setControl_draws (s : State) (r : ControlReg) (v : Long) : (s.setControl r v).draws = s.draws := by cases r <;> rfl
@[simp] theorem State.setControl_calls (s : State) (r : ControlReg) (v : Long) : (s.setControl r v).calls = s.calls := by cases r <;> rfl
@[simp] theorem State.setControl_ir (s : State) (r : ControlReg) (v : Long) : (s.setControl r v).ir = s.ir := by cases r <;> rfl
@[simp] theorem State.setControl_entered (s : State) (r : ControlReg) (v : Long) : (s.setControl r v).entered = s.entered := by cases r <;> rfl
@[simp] theorem State.setControl_resetFetch (s : State) (r : ControlReg) (v : Long) : (s.setControl r v).resetFetch = s.resetFetch := by cases r <;> rfl

/-! `State.setMoves` -/

@[simp] theorem State.setMoves_cfg (s : State) (r : GenReg) (sz : Size) (v : Long) : (s.setMoves r sz v).cfg = s.cfg := by cases r <;> rfl
@[simp] theorem State.setMoves_spInactive (s : State) (r : GenReg) (sz : Size) (v : Long) : (s.setMoves r sz v).spInactive = s.spInactive := by cases r <;> rfl
@[simp] theorem State.setMoves_pc (s : State) (r : GenReg) (sz : Size) (v : Long) : (s.setMoves r sz v).pc = s.pc := by cases r <;> rfl
@[simp] theorem State.setMoves_tBit (s : State) (r : GenReg) (sz : Size) (v : Long) : (s.setMoves r sz v).tBit = s.tBit := by cases r <;> rfl
@[simp] theorem State.setMoves_sBit (s : State) (r : GenReg) (sz : Size) (v : Long) : (s.setMoves r sz v).sBit = s.sBit := by cases r <;> rfl
@[simp] theorem State.setMoves_iMask (s : State) (r : GenReg) (sz : Size) (v : Long) : (s.setMoves r sz v).iMask = s.iMask := by cases r <;> rfl
@[simp] theorem State.setMoves_ccr (s : State) (r : GenReg) (sz : Size) (v : Long) : (s.setMoves r sz v).ccr = s.ccr := by cases r <;> rfl
@[simp] theorem State.setMoves_vbr (s : State) (r : GenReg) (sz : Size) (v : Long) : (s.setMoves r sz v).vbr = s.vbr := by cases r <;> rfl
@[simp] theorem State.setMoves_sfc (s : State) (r : GenReg) (sz : Size) (v : Long) : (s.setMoves r sz v).sfc = s.sfc := by cases r <;> rfl
@[simp] theorem State.setMoves_dfc (s : State) (r : GenReg) (sz : Size) (v : Long) : (s.setMoves r sz v).dfc = s.dfc := by cases r <;> rfl
@[simp] theorem State.setMoves_runState (s : State) (r : GenReg) (sz : Size) (v : Long) : (s.setMoves r sz v).runState = s.runState := by cases r <;> rfl
@[simp] theorem State.setMoves_intLevel (s : State) (r : GenReg) (sz : Size) (v : Long) : (s.setMoves r sz v).intLevel = s.intLevel := by cases r <;> rfl
@[simp] theorem State.setMoves_prevLevel (s : State) (r : GenReg) (sz : Size) (v : Long) : (s.setMoves r sz v).prevLevel = s.prevLevel := by cases r <;> rfl
@[simp] theorem State.setMoves_tracePending (s : State) (r : GenReg) (sz : Size) (v : Long) : (s.setMoves r sz v).tracePending = s.tracePending := by cases r <;> rfl
@[simp] theorem State.setMoves_lastStores (s : State) (r : GenReg) (sz : Size) (v : Long) : (s.setMoves r sz v).lastStores = s.lastStores := by cases r <;> rfl
@[simp] theorem State.setMoves_seqEnd (s : State) (r : GenReg) (sz : Size) (v : Long) : (s.setMoves r sz v).seqEnd = s.seqEnd := by cases r <;> rfl
@[simp] theorem State.setMoves_faultMark (s : State) (r : GenReg) (sz : Size) (v : Long) : (s.setMoves r sz v).faultMark = s.faultMark := by cases r <;> rfl
@[simp] theorem State.setMoves_refusedMark (s : State) (r : GenReg) (sz : Size) (v : Long) : (s.setMoves r sz v).refusedMark = s.refusedMark := by cases r <;> rfl
@[simp] theorem State.setMoves_mem (s : State) (r : GenReg) (sz : Size) (v : Long) : (s.setMoves r sz v).mem = s.mem := by cases r <;> rfl
@[simp] theorem State.setMoves_script (s : State) (r : GenReg) (sz : Size) (v : Long) : (s.setMoves r sz v).script = s.script := by cases r <;> rfl
@[simp] theorem State.setMoves_agents (s : State) (r : GenReg) (sz : Size) (v : Long) : (s.setMoves r sz v).agents = s.agents := by cases r <;> rfl
@[simp] theorem State.setMoves_draws (s : State) (r : GenReg) (sz : Size) (v : Long) : (s.setMoves r sz v).draws = s.draws := by cases r <;> rfl
@[simp] theorem State.setMoves_calls (s : State) (r : GenReg) (sz : Size) (v : Long) : (s.setMoves r sz v).calls = s.calls := by cases r <;> rfl
@[simp] theorem State.setMoves_ir (s : State) (r : GenReg) (sz : Size) (v : Long) : (s.setMoves r sz v).ir = s.ir := by cases r <;> rfl
@[simp] theorem State.setMoves_entered (s : State) (r : GenReg) (sz : Size) (v : Long) : (s.setMoves r sz v).entered = s.entered := by cases r <;> rfl
@[simp] theorem State.setMoves_resetFetch (s : State) (r : GenReg) (sz : Size) (v : Long) : (s.setMoves r sz v).resetFetch = s.resetFetch := by cases r <;> rfl

/-! `State.beginStep` -/

@[simp] theorem State.beginStep_cfg (s : State) : (s.beginStep).cfg = s.cfg := rfl
@[simp] theorem State.beginStep_d (s : State) : (s.beginStep).d = s.d := rfl
@[simp] theorem State.beginStep_a (s : State) : (s.beginStep).a = s.a := rfl
@[simp] theorem State.beginStep_spInactive (s : State) : (s.beginStep).spInactive = s.spInactive := rfl
@[simp] theorem State.beginStep_pc (s : State) : (s.beginStep).pc = s.pc := rfl
@[simp] theorem State.beginStep_tBit (s : State) : (s.beginStep).tBit = s.tBit := rfl
@[simp] theorem State.beginStep_sBit (s : State) : (s.beginStep).sBit = s.sBit := rfl
@[simp] theorem State.beginStep_iMask (s : State) : (s.beginStep).iMask = s.iMask := rfl
@[simp] theorem State.beginStep_ccr (s : State) : (s.beginStep).ccr = s.ccr := rfl
@[simp] theorem State.beginStep_vbr (s : State) : (s.beginStep).vbr = s.vbr := rfl
@[simp] theorem State.beginStep_sfc (s : State) : (s.beginStep).sfc = s.sfc := rfl
@[simp] theorem State.beginStep_dfc (s : State) : (s.beginStep).dfc = s.dfc := rfl
@[simp] theorem State.beginStep_runState (s : State) : (s.beginStep).runState = s.runState := rfl
@[simp] theorem State.beginStep_intLevel (s : State) : (s.beginStep).intLevel = s.intLevel := rfl
@[simp] theorem State.beginStep_prevLevel (s : State) : (s.beginStep).prevLevel = s.prevLevel := rfl
@[simp] theorem State.beginStep_tracePending (s : State) : (s.beginStep).tracePending = s.tracePending := rfl
@[simp] theorem State.beginStep_lastStores (s : State) : (s.beginStep).lastStores = s.lastStores := rfl
@[simp] theorem State.beginStep_seqEnd (s : State) : (s.beginStep).seqEnd = s.seqEnd := rfl
@[simp] theorem State.beginStep_faultMark (s : State) : (s.beginStep).faultMark = s.faultMark := rfl
@[simp] theorem State.beginStep_refusedMark (s : State) : (s.beginStep).refusedMark = s.refusedMark := rfl
@[simp] theorem State.beginStep_mem (s : State) : (s.beginStep).mem = changeBytes s.cfg (nextChanges s.agents) s.mem := rfl
@[simp] theorem State.beginStep_script (s : State) : (s.beginStep).script = s.script := rfl
@[simp] theorem State.beginStep_agents (s : State) : (s.beginStep).agents = s.agents.tail := rfl
@[simp] theorem State.beginStep_draws (s : State) : (s.beginStep).draws = s.draws := rfl
@[simp] theorem State.beginStep_calls (s : State) : (s.beginStep).calls = [] := rfl
@[simp] theorem State.beginStep_ir (s : State) : (s.beginStep).ir = none := rfl
@[simp] theorem State.beginStep_entered (s : State) : (s.beginStep).entered = none := rfl
@[simp] theorem State.beginStep_resetFetch (s : State) : (s.beginStep).resetFetch = false := rfl

/-! `State.latchTrace` -/

@[simp] theorem State.latchTrace_cfg (s : State) : (s.latchTrace).cfg = s.cfg := rfl
@[simp] theorem State.latchTrace_d (s : State) : (s.latchTrace).d = s.d := rfl
@[simp] theorem State.latchTrace_a (s : State) : (s.latchTrace).a = s.a := rfl
@[simp] theorem State.latchTrace_spInactive (s : State) : (s.latchTrace).spInactive = s.spInactive := rfl
@[simp] theorem State.latchTrace_pc (s : State) : (s.latchTrace).pc = s.pc := rfl
@[simp] theorem State.latchTrace_tBit (s : State) : (s.latchTrace).tBit = s.tBit := rfl
@[simp] theorem State.latchTrace_sBit (s : State) : (s.latchTrace).sBit = s.sBit := rfl
@[simp] theorem State.latchTrace_iMask (s : State) : (s.latchTrace).iMask = s.iMask := rfl
@[simp] theorem State.latchTrace_ccr (s : State) : (s.latchTrace).ccr = s.ccr := rfl
@[simp] theorem State.latchTrace_vbr (s : State) : (s.latchTrace).vbr = s.vbr := rfl
@[simp] theorem State.latchTrace_sfc (s : State) : (s.latchTrace).sfc = s.sfc := rfl
@[simp] theorem State.latchTrace_dfc (s : State) : (s.latchTrace).dfc = s.dfc := rfl
@[simp] theorem State.latchTrace_runState (s : State) : (s.latchTrace).runState = s.runState := rfl
@[simp] theorem State.latchTrace_intLevel (s : State) : (s.latchTrace).intLevel = s.intLevel := rfl
@[simp] theorem State.latchTrace_prevLevel (s : State) : (s.latchTrace).prevLevel = s.prevLevel := rfl
@[simp] theorem State.latchTrace_tracePending (s : State) : (s.latchTrace).tracePending = (s.tBit && s.cfg.traceEnabled) := rfl
@[simp] theorem State.latchTrace_lastStores (s : State) : (s.latchTrace).lastStores = s.lastStores := rfl
@[simp] theorem State.latchTrace_seqEnd (s : State) : (s.latchTrace).seqEnd = s.seqEnd := rfl
@[simp] theorem State.latchTrace_faultMark (s : State) : (s.latchTrace).faultMark = s.faultMark := rfl
@[simp] theorem State.latchTrace_refusedMark (s : State) : (s.latchTrace).refusedMark = s.refusedMark := rfl
@[simp] theorem State.latchTrace_mem (s : State) : (s.latchTrace).mem = s.mem := rfl
@[simp] theorem State.latchTrace_script (s : State) : (s.latchTrace).script = s.script := rfl
@[simp] theorem State.latchTrace_agents (s : State) : (s.latchTrace).agents = s.agents := rfl
@[simp] theorem State.latchTrace_draws (s : State) : (s.latchTrace).draws = s.draws := rfl
@[simp] theorem State.latchTrace_calls (s : State) : (s.latchTrace).calls = s.calls := rfl
@[simp] theorem State.latchTrace_ir (s : State) : (s.latchTrace).ir = s.ir := rfl
@[simp] theorem State.latchTrace_entered (s : State) : (s.latchTrace).entered = s.entered := rfl
@[simp] theorem State.latchTrace_resetFetch (s : State) : (s.latchTrace).resetFetch = s.resetFetch := rfl

/-! `State.sampleLine` -/

@[simp] theorem State.sampleLine_cfg (s : State) : (s.sampleLine).cfg = s.cfg := by unfold State.sampleLine; split <;> rfl
@[simp] theorem State.sampleLine_d (s : State) : (s.sampleLine).d = s.d := by unfold State.sampleLine; split <;> rfl
@[simp] theorem State.sampleLine_a (s : State) : (s.sampleLine).a = s.a := by unfold State.sampleLine; split <;> rfl
@[simp] theorem State.sampleLine_spInactive (s : State) : (s.sampleLine).spInactive = s.spInactive := by unfold State.sampleLine; split <;> rfl
@[simp] theorem State.sampleLine_pc (s : State) : (s.sampleLine).pc = s.pc := by unfold State.sampleLine; split <;> rfl
@[simp] theorem State.sampleLine_tBit (s : State) : (s.sampleLine).tBit = s.tBit := by unfold State.sampleLine; split <;> rfl
@[simp] theorem State.sampleLine_sBit (s : State) : (s.sampleLine).sBit = s.sBit := by unfold State.sampleLine; split <;> rfl
@[simp] theorem State.sampleLine_iMask (s : State) : (s.sampleLine).iMask = s.iMask := by unfold State.sampleLine; split <;> rfl
@[simp] theorem State.sampleLine_ccr (s : State) : (s.sampleLine).ccr = s.ccr := by unfold State.sampleLine; split <;> rfl
@[simp] theorem State.sampleLine_vbr (s : State) : (s.sampleLine).vbr = s.vbr := by unfold State.sampleLine; split <;> rfl
@[simp] theorem State.sampleLine_sfc (s : State) : (s.sampleLine).sfc = s.sfc := by unfold State.sampleLine; split <;> rfl
@[simp] theorem State.sampleLine_dfc (s : State) : (s.sampleLine).dfc = s.dfc := by unfold State.sampleLine; split <;> rfl
@[simp] theorem State.sampleLine_runState (s : State) : (s.sampleLine).runState = s.runState := by unfold State.sampleLine; split <;> rfl
@[simp] theorem State.sampleLine_intLevel (s : State) : (s.sampleLine).intLevel = s.intLevel := by unfold State.sampleLine; split <;> rfl
@[simp] theorem State.sampleLine_tracePending (s : State) : (s.sampleLine).tracePending = s.tracePending := by unfold State.sampleLine; split <;> rfl
@[simp] theorem State.sampleLine_lastStores (s : State) : (s.sampleLine).lastStores = s.lastStores := by unfold State.sampleLine; split <;> rfl
@[simp] theorem State.sampleLine_seqEnd (s : State) : (s.sampleLine).seqEnd = s.seqEnd := by unfold State.sampleLine; split <;> rfl
@[simp] theorem State.sampleLine_faultMark (s : State) : (s.sampleLine).faultMark = s.faultMark := by unfold State.sampleLine; split <;> rfl
@[simp] theorem State.sampleLine_refusedMark (s : State) : (s.sampleLine).refusedMark = s.refusedMark := by unfold State.sampleLine; split <;> rfl
@[simp] theorem State.sampleLine_mem (s : State) : (s.sampleLine).mem = s.mem := by unfold State.sampleLine; split <;> rfl
@[simp] theorem State.sampleLine_script (s : State) : (s.sampleLine).script = s.script := by unfold State.sampleLine; split <;> rfl
@[simp] theorem State.sampleLine_agents (s : State) : (s.sampleLine).agents = s.agents := by unfold State.sampleLine; split <;> rfl
@[simp] theorem State.sampleLine_draws (s : State) : (s.sampleLine).draws = s.draws := by unfold State.sampleLine; split <;> rfl
@[simp] theorem State.sampleLine_calls (s : State) : (s.sampleLine).calls = s.calls := by unfold State.sampleLine; split <;> rfl
@[simp] theorem State.sampleLine_ir (s : State) : (s.sampleLine).ir = s.ir := by unfold State.sampleLine; split <;> rfl
@[simp] theorem State.sampleLine_entered (s : State) : (s.sampleLine).entered = s.entered := by unfold State.sampleLine; split <;> rfl
@[simp] theorem State.sampleLine_resetFetch (s : State) : (s.sampleLine).resetFetch = s.resetFetch := by unfold State.sampleLine; split <;> rfl

/-! `State.consumeRequest` -/

@[simp] theorem State.consumeRequest_cfg (s : State) : (s.consumeRequest).cfg = s.cfg := by unfold State.consumeRequest; split <;> rfl
@[simp] theorem State.consumeRequest_d (s : State) : (s.consumeRequest).d = s.d := by unfold State.consumeRequest; split <;> rfl
@[simp] theorem State.consumeRequest_a (s : State) : (s.consumeRequest).a = s.a := by unfold State.consumeRequest; split <;> rfl
@[simp] theorem State.consumeRequest_spInactive (s : State) : (s.consumeRequest).spInactive = s.spInactive := by unfold State.consumeRequest; split <;> rfl
@[simp] theorem State.consumeRequest_pc (s : State) : (s.consumeRequest).pc = s.pc := by unfold State.consumeRequest; split <;> rfl
@[simp] theorem State.consumeRequest_tBit (s : State) : (s.consumeRequest).tBit = s.tBit := by unfold State.consumeRequest; split <;> rfl
@[simp] theorem State.consumeRequest_sBit (s : State) : (s.consumeRequest).sBit = s.sBit := by unfold State.consumeRequest; split <;> rfl
@[simp] theorem State.consumeRequest_iMask (s : State) : (s.consumeRequest).iMask = s.iMask := by unfold State.consumeRequest; split <;> rfl
@[simp] theorem State.consumeRequest_ccr (s : State) : (s.consumeRequest).ccr = s.ccr := by unfold State.consumeRequest; split <;> rfl
@[simp] theorem State.consumeRequest_vbr (s : State) : (s.consumeRequest).vbr = s.vbr := by unfold State.consumeRequest; split <;> rfl
@[simp] theorem State.consumeRequest_sfc (s : State) : (s.consumeRequest).sfc = s.sfc := by unfold State.consumeRequest; split <;> rfl
@[simp] theorem State.consumeRequest_dfc (s : State) : (s.consumeRequest).dfc = s.dfc := by unfold State.consumeRequest; split <;> rfl
@[simp] theorem State.consumeRequest_runState (s : State) : (s.consumeRequest).runState = s.runState := by unfold State.consumeRequest; split <;> rfl
@[simp] theorem State.consumeRequest_prevLevel (s : State) : (s.consumeRequest).prevLevel = s.prevLevel := by unfold State.consumeRequest; split <;> rfl
@[simp] theorem State.consumeRequest_tracePending (s : State) : (s.consumeRequest).tracePending = s.tracePending := by unfold State.consumeRequest; split <;> rfl
@[simp] theorem State.consumeRequest_lastStores (s : State) : (s.consumeRequest).lastStores = s.lastStores := by unfold State.consumeRequest; split <;> rfl
@[simp] theorem State.consumeRequest_seqEnd (s : State) : (s.consumeRequest).seqEnd = s.seqEnd := by unfold State.consumeRequest; split <;> rfl
@[simp] theorem State.consumeRequest_faultMark (s : State) : (s.consumeRequest).faultMark = s.faultMark := by unfold State.consumeRequest; split <;> rfl
@[simp] theorem State.consumeRequest_refusedMark (s : State) : (s.consumeRequest).refusedMark = s.refusedMark := by unfold State.consumeRequest; split <;> rfl
@[simp] theorem State.consumeRequest_mem (s : State) : (s.consumeRequest).mem = s.mem := by unfold State.consumeRequest; split <;> rfl
@[simp] theorem State.consumeRequest_script (s : State) : (s.consumeRequest).script = s.script := by unfold State.consumeRequest; split <;> rfl
@[simp] theorem State.consumeRequest_agents (s : State) : (s.consumeRequest).agents = s.agents := by unfold State.consumeRequest; split <;> rfl
@[simp] theorem State.consumeRequest_draws (s : State) : (s.consumeRequest).draws = s.draws := by unfold State.consumeRequest; split <;> rfl
@[simp] theorem State.consumeRequest_calls (s : State) : (s.consumeRequest).calls = s.calls := by unfold State.consumeRequest; split <;> rfl
@[simp] theorem State.consumeRequest_ir (s : State) : (s.consumeRequest).ir = s.ir := by unfold State.consumeRequest; split <;> rfl
@[simp] theorem State.consumeRequest_entered (s : State) : (s.consumeRequest).entered = s.entered := by unfold State.consumeRequest; split <;> rfl
@[simp] theorem State.consumeRequest_resetFetch (s : State) : (s.consumeRequest).resetFetch = s.resetFetch := by unfold State.consumeRequest; split <;> rfl

/-! `State.withFormatWord` -/

@[simp] theorem State.withFormatWord_cfg (s : State) (v : Byte) : (s.withFormatWord v).cfg = s.cfg := by unfold State.withFormatWord; split <;> simp
@[simp] theorem State.withFormatWord_d (s : State) (v : Byte) : (s.withFormatWord v).d = s.d := by unfold State.withFormatWord; split <;> simp
@[simp] theorem State.withFormatWord_spInactive (s : State) (v : Byte) : (s.withFormatWord v).spInactive = s.spInactive := by unfold State.withFormatWord; split <;> simp
@[simp] theorem State.withFormatWord_pc (s : State) (v : Byte) : (s.withFormatWord v).pc = s.pc := by unfold State.withFormatWord; split <;> simp
@[simp] theorem State.withFormatWord_tBit (s : State) (v : Byte) : (s.withFormatWord v).tBit = s.tBit := by unfold State.withFormatWord; split <;> simp
@[simp] theorem State.withFormatWord_sBit (s : State) (v : Byte) : (s.withFormatWord v).sBit = s.sBit := by unfold State.withFormatWord; split <;> simp
@[simp] theorem State.withFormatWord_iMask (s : State) (v : Byte) : (s.withFormatWord v).iMask = s.iMask := by unfold State.withFormatWord; split <;> simp
@[simp] theorem State.withFormatWord_ccr (s : State) (v : Byte) : (s.withFormatWord v).ccr = s.ccr := by unfold State.withFormatWord; split <;> simp
@[simp] theorem State.withFormatWord_vbr (s : State) (v : Byte) : (s.withFormatWord v).vbr = s.vbr := by unfold State.withFormatWord; split <;> simp
@[simp] theorem State.withFormatWord_sfc (s : State) (v : Byte) : (s.withFormatWord v).sfc = s.sfc := by unfold State.withFormatWord; split <;> simp
@[simp] theorem State.withFormatWord_dfc (s : State) (v : Byte) : (s.withFormatWord v).dfc = s.dfc := by unfold State.withFormatWord; split <;> simp
@[simp] theorem State.withFormatWord_runState (s : State) (v : Byte) : (s.withFormatWord v).runState = s.runState := by unfold State.withFormatWord; split <;> simp
@[simp] theorem State.withFormatWord_prevLevel (s : State) (v : Byte) : (s.withFormatWord v).prevLevel = s.prevLevel := by unfold State.withFormatWord; split <;> simp
@[simp] theorem State.withFormatWord_tracePending (s : State) (v : Byte) : (s.withFormatWord v).tracePending = s.tracePending := by unfold State.withFormatWord; split <;> simp
@[simp] theorem State.withFormatWord_lastStores (s : State) (v : Byte) : (s.withFormatWord v).lastStores = s.lastStores := by unfold State.withFormatWord; split <;> simp
@[simp] theorem State.withFormatWord_seqEnd (s : State) (v : Byte) : (s.withFormatWord v).seqEnd = s.seqEnd := by unfold State.withFormatWord; split <;> simp
@[simp] theorem State.withFormatWord_faultMark (s : State) (v : Byte) : (s.withFormatWord v).faultMark = s.faultMark := by unfold State.withFormatWord; split <;> simp
@[simp] theorem State.withFormatWord_agents (s : State) (v : Byte) : (s.withFormatWord v).agents = s.agents := by unfold State.withFormatWord; split <;> simp
@[simp] theorem State.withFormatWord_draws (s : State) (v : Byte) : (s.withFormatWord v).draws = s.draws := by unfold State.withFormatWord; split <;> simp
@[simp] theorem State.withFormatWord_ir (s : State) (v : Byte) : (s.withFormatWord v).ir = s.ir := by unfold State.withFormatWord; split <;> simp
@[simp] theorem State.withFormatWord_entered (s : State) (v : Byte) : (s.withFormatWord v).entered = s.entered := by unfold State.withFormatWord; split <;> simp
@[simp] theorem State.withFormatWord_resetFetch (s : State) (v : Byte) : (s.withFormatWord v).resetFetch = s.resetFetch := by unfold State.withFormatWord; split <;> simp

/-! `State.vectored` -/

@[simp] theorem State.vectored_cfg (s : State) (v : Byte) (discard : Bool) : (s.vectored v discard).cfg = s.cfg := rfl
@[simp] theorem State.vectored_d (s : State) (v : Byte) (discard : Bool) : (s.vectored v discard).d = s.d := rfl
@[simp] theorem State.vectored_a (s : State) (v : Byte) (discard : Bool) : (s.vectored v discard).a = s.a := rfl
@[simp] theorem State.vectored_spInactive (s : State) (v : Byte) (discard : Bool) : (s.vectored v discard).spInactive = s.spInactive := rfl
@[simp] theorem State.vectored_pc (s : State) (v : Byte) (discard : Bool) : (s.vectored v discard).pc = s.loaded .l 5 (s.vectorAddr v) := rfl
@[simp] theorem State.vectored_tBit (s : State) (v : Byte) (discard : Bool) : (s.vectored v discard).tBit = s.tBit := rfl
@[simp] theorem State.vectored_sBit (s : State) (v : Byte) (discard : Bool) : (s.vectored v discard).sBit = s.sBit := rfl
@[simp] theorem State.vectored_iMask (s : State) (v : Byte) (discard : Bool) : (s.vectored v discard).iMask = s.iMask := rfl
@[simp] theorem State.vectored_ccr (s : State) (v : Byte) (discard : Bool) : (s.vectored v discard).ccr = s.ccr := rfl
@[simp] theorem State.vectored_vbr (s : State) (v : Byte) (discard : Bool) : (s.vectored v discard).vbr = s.vbr := rfl
@[simp] theorem State.vectored_sfc (s : State) (v : Byte) (discard : Bool) : (s.vectored v discard).sfc = s.sfc := rfl
@[simp] theorem State.vectored_dfc (s : State) (v : Byte) (discard : Bool) : (s.vectored v discard).dfc = s.dfc := rfl
@[simp] theorem State.vectored_runState (s : State) (v : Byte) (discard : Bool) : (s.vectored v discard).runState = .running := rfl
@[simp] theorem State.vectored_intLevel (s : State) (v : Byte) (discard : Bool) : (s.vectored v discard).intLevel = callbackLevel (nextReaction s.script).callbacks s.intLevel := rfl
@[simp] theorem State.vectored_prevLevel (s : State) (v : Byte) (discard : Bool) : (s.vectored v discard).prevLevel = s.prevLevel := rfl
@[simp] theorem State.vectored_tracePending (s : State) (v : Byte) (discard : Bool) : (s.vectored v discard).tracePending = (s.tracePending && !discard) := rfl
@[simp] theorem State.vectored_lastStores (s : State) (v : Byte) (discard : Bool) : (s.vectored v discard).lastStores = [] := rfl
@[simp] theorem State.vectored_seqEnd (s : State) (v : Byte) (discard : Bool) : (s.vectored v discard).seqEnd = s.seqEnd := rfl
@[simp] theorem State.vectored_faultMark (s : State) (v : Byte) (discard : Bool) : (s.vectored v discard).faultMark = s.faultMark := rfl
@[simp] theorem State.vectored_refusedMark (s : State) (v : Byte) (discard : Bool) : (s.vectored v discard).refusedMark = s.refusedMark.or (callbackRefusal (nextReaction s.script).callbacks) := rfl
@[simp] theorem State.vectored_mem (s : State) (v : Byte) (discard : Bool) : (s.vectored v discard).mem = s.mem := rfl
@[simp] theorem State.vectored_script (s : State) (v : Byte) (discard : Bool) : (s.vectored v discard).script = s.script.tail := rfl
@[simp] theorem State.vectored_agents (s : State) (v : Byte) (discard : Bool) : (s.vectored v discard).agents = s.agents := rfl
@[simp] theorem State.vectored_draws (s : State) (v : Byte) (discard : Bool) : (s.vectored v discard).draws = s.draws := rfl
@[simp] theorem State.vectored_calls (s : State) (v : Byte) (discard : Bool) : (s.vectored v discard).calls = .read .l (s.vectorAddr v) 5 :: s.calls := rfl
@[simp] theorem State.vectored_ir (s : State) (v : Byte) (discard : Bool) : (s.vectored v discard).ir = s.ir := rfl
@[simp] theorem State.vectored_entered (s : State) (v : Byte) (discard : Bool) : (s.vectored v discard).entered = some v := rfl
@[simp] theorem State.vectored_resetFetch (s : State) (v : Byte) (discard : Bool) : (s.vectored v discard).resetFetch = s.resetFetch := rfl

/-! `State.dummyRead` -/

@[simp] theorem State.dummyRead_cfg (s : State) (sp : Space) (x : Long) : (s.dummyRead sp x).cfg = s.cfg := by unfold State.dummyRead; split <;> rfl
@[simp] theorem State.dummyRead_d (s : State) (sp : Space) (x : Long) : (s.dummyRead sp x).d = s.d := by unfold State.dummyRead; split <;> rfl
@[simp] theorem State.dummyRead_a (s : State) (sp : Space) (x : Long) : (s.dummyRead sp x).a = s.a := by unfold State.dummyRead; split <;> rfl
@[simp] theorem State.dummyRead_spInactive (s : State) (sp : Space) (x : Long) : (s.dummyRead sp x).spInactive = s.spInactive := by unfold State.dummyRead; split <;> rfl
@[simp] theorem State.dummyRead_pc (s : State) (sp : Space) (x : Long) : (s.dummyRead sp x).pc = s.pc := by unfold State.dummyRead; split <;> rfl
@[simp] theorem State.dummyRead_tBit (s : State) (sp : Space) (x : Long) : (s.dummyRead sp x).tBit = s.tBit := by unfold State.dummyRead; split <;> rfl
@[simp] theorem State.dummyRead_sBit (s : State) (sp : Space) (x : Long) : (s.dummyRead sp x).sBit = s.sBit := by unfold State.dummyRead; split <;> rfl
@[simp] theorem State.dummyRead_iMask (s : State) (sp : Space) (x : Long) : (s.dummyRead sp x).iMask = s.iMask := by unfold State.dummyRead; split <;> rfl
@[simp] theorem State.dummyRead_ccr (s : State) (sp : Space) (x : Long) : (s.dummyRead sp x).ccr = s.ccr := by unfold State.dummyRead; split <;> rfl
@[simp] theorem State.dummyRead_vbr (s : State) (sp : Space) (x : Long) : (s.dummyRead sp x).vbr = s.vbr := by unfold State.dummyRead; split <;> rfl
@[simp] theorem State.dummyRead_sfc (s : State) (sp : Space) (x : Long) : (s.dummyRead sp x).sfc = s.sfc := by unfold State.dummyRead; split <;> rfl
@[simp] theorem State.dummyRead_dfc (s : State) (sp : Space) (x : Long) : (s.dummyRead sp x).dfc = s.dfc := by unfold State.dummyRead; split <;> rfl
@[simp] theorem State.dummyRead_runState (s : State) (sp : Space) (x : Long) : (s.dummyRead sp x).runState = s.runState := by unfold State.dummyRead; split <;> rfl
@[simp] theorem State.dummyRead_prevLevel (s : State) (sp : Space) (x : Long) : (s.dummyRead sp x).prevLevel = s.prevLevel := by unfold State.dummyRead; split <;> rfl
@[simp] theorem State.dummyRead_tracePending (s : State) (sp : Space) (x : Long) : (s.dummyRead sp x).tracePending = s.tracePending := by unfold State.dummyRead; split <;> rfl
@[simp] theorem State.dummyRead_lastStores (s : State) (sp : Space) (x : Long) : (s.dummyRead sp x).lastStores = s.lastStores := by unfold State.dummyRead; split <;> rfl
@[simp] theorem State.dummyRead_seqEnd (s : State) (sp : Space) (x : Long) : (s.dummyRead sp x).seqEnd = s.seqEnd := by unfold State.dummyRead; split <;> rfl
@[simp] theorem State.dummyRead_faultMark (s : State) (sp : Space) (x : Long) : (s.dummyRead sp x).faultMark = s.faultMark := by unfold State.dummyRead; split <;> rfl
@[simp] theorem State.dummyRead_mem (s : State) (sp : Space) (x : Long) : (s.dummyRead sp x).mem = s.mem := by unfold State.dummyRead; split <;> rfl
@[simp] theorem State.dummyRead_agents (s : State) (sp : Space) (x : Long) : (s.dummyRead sp x).agents = s.agents := by unfold State.dummyRead; split <;> rfl
@[simp] theorem State.dummyRead_draws (s : State) (sp : Space) (x : Long) : (s.dummyRead sp x).draws = s.draws := by unfold State.dummyRead; split <;> rfl
@[simp] theorem State.dummyRead_ir (s : State) (sp : Space) (x : Long) : (s.dummyRead sp x).ir = s.ir := by unfold State.dummyRead; split <;> rfl
@[simp] theorem State.dummyRead_entered (s : State) (sp : Space) (x : Long) : (s.dummyRead sp x).entered = s.entered := by unfold State.dummyRead; split <;> rfl
@[simp] theorem State.dummyRead_resetFetch (s : State) (sp : Space) (x : Long) : (s.dummyRead sp x).resetFetch = s.resetFetch := by unfold State.dummyRead; split <;> rfl

/-! `State.putD` -/

@[simp] theorem State.putD_cfg (s : State) (n : Fin 8) (sz : Size) (o : Alu) : (s.putD n sz o).cfg = s.cfg := rfl
@[simp] theorem State.putD_d (s : State) (n : Fin 8) (sz : Size) (o : Alu) : (s.putD n sz o).d = s.d.set n.val (mergeLow sz s.d[n] o.r) n.isLt := rfl
@[simp] theorem State.putD_a (s : State) (n : Fin 8) (sz : Size) (o : Alu) : (s.putD n sz o).a = s.a := rfl
@[simp] theorem State.putD_spInactive (s : State) (n : Fin 8) (sz : Size) (o : Alu) : (s.putD n sz o).spInactive = s.spInactive := rfl
@[simp] theorem State.putD_pc (s : State) (n : Fin 8) (sz : Size) (o : Alu) : (s.putD n sz o).pc = s.pc := rfl
@[simp] theorem State.putD_tBit (s : State) (n : Fin 8) (sz : Size) (o : Alu) : (s.putD n sz o).tBit = s.tBit := rfl
@[simp] theorem State.putD_sBit (s : State) (n : Fin 8) (sz : Size) (o : Alu) : (s.putD n sz o).sBit = s.sBit := rfl
@[simp] theorem State.putD_iMask (s : State) (n : Fin 8) (sz : Size) (o : Alu) : (s.putD n sz o).iMask = s.iMask := rfl
@[simp] theorem State.putD_ccr (s : State) (n : Fin 8) (sz : Size) (o : Alu) : (s.putD n sz o).ccr = o.ccr := rfl
@[simp] theorem State.putD_vbr (s : State) (n : Fin 8) (sz : Size) (o : Alu) : (s.putD n sz o).vbr = s.vbr := rfl
@[simp] theorem State.putD_sfc (s : State) (n : Fin 8) (sz : Size) (o : Alu) : (s.putD n sz o).sfc = s.sfc := rfl
@[simp] theorem State.putD_dfc (s : State) (n : Fin 8) (sz : Size) (o : Alu) : (s.putD n sz o).dfc = s.dfc := rfl
@[simp] theorem State.putD_runState (s : State) (n : Fin 8) (sz : Size) (o : Alu) : (s.putD n sz o).runState = s.runState := rfl
@[simp] theorem State.putD_intLevel (s : State) (n : Fin 8) (sz : Size) (o : Alu) : (s.putD n sz o).intLevel = s.intLevel := rfl
@[simp] theorem State.putD_prevLevel (s : State) (n : Fin 8) (sz : Size) (o : Alu) : (s.putD n sz o).prevLevel = s.prevLevel := rfl
@[simp] theorem State.putD_tracePending (s : State) (n : Fin 8) (sz : Size) (o : Alu) : (s.putD n sz o).tracePending = s.tracePending := rfl
@[simp] theorem State.putD_lastStores (s : State) (n : Fin 8) (sz : Size) (o : Alu) : (s.putD n sz o).lastStores = s.lastStores := rfl
@[simp] theorem State.putD_seqEnd (s : State) (n : Fin 8) (sz : Size) (o : Alu) : (s.putD n sz o).seqEnd = s.seqEnd := rfl
@[simp] theorem State.putD_faultMark (s : State) (n : Fin 8) (sz : Size) (o : Alu) : (s.putD n sz o).faultMark = s.faultMark := rfl
@[simp] theorem State.putD_refusedMark (s : State) (n : Fin 8) (sz : Size) (o : Alu) : (s.putD n sz o).refusedMark = s.refusedMark := rfl
@[simp] theorem State.putD_mem (s : State) (n : Fin 8) (sz : Size) (o : Alu) : (s.putD n sz o).mem = s.mem := rfl
@[simp] theorem State.putD_script (s : State) (n : Fin 8) (sz : Size) (o : Alu) : (s.putD n sz o).script = s.script := rfl
@[simp] theorem State.putD_agents (s : State) (n : Fin 8) (sz : Size) (o : Alu) : (s.putD n sz o).agents = s.agents := rfl
@[simp] theorem State.putD_draws (s : State) (n : Fin 8) (sz : Size) (o : Alu) : (s.putD n sz o).draws = s.draws := rfl
@[simp] theorem State.putD_calls (s : State) (n : Fin 8) (sz : Size) (o : Alu) : (s.putD n sz o).calls = s.calls := rfl
@[simp] theorem State.putD_ir (s : State) (n : Fin 8) (sz : Size) (o : Alu) : (s.putD n sz o).ir = s.ir := rfl
@[simp] theorem State.putD_entered (s : State) (n : Fin 8) (sz : Size) (o : Alu) : (s.putD n sz o).entered = s.entered := rfl
@[simp] theorem State.putD_resetFetch (s : State) (n : Fin 8) (sz : Size) (o : Alu) : (s.putD n sz o).resetFetch = s.resetFetch := rfl

/-! Sequences of fetches and operand accesses. -/

@[simp] theorem State.skip_cfg (s : State) (n : Nat) : (s.skip n).cfg = s.cfg := by
  induction n generalizing s with
  | zero => rfl
  | succ n ih => simp [State.skip, ih]
@[simp] theorem State.skip_d (s : State) (n : Nat) : (s.skip n).d = s.d := by
  induction n generalizing s with
  | zero => rfl
  | succ n ih => simp [State.skip, ih]
@[simp] theorem State.skip_a (s : State) (n : Nat) : (s.skip n).a = s.a := by
  induction n generalizing s with
  | zero => rfl
  | succ n ih => simp [State.skip, ih]
@[simp] theorem State.skip_spInactive (s : State) (n : Nat) : (s.skip n).spInactive = s.spInactive := by
  induction n generalizing s with
  | zero => rfl
  | succ n ih => simp [State.skip, ih]
@[simp] theorem State.skip_tBit (s : State) (n : Nat) : (s.skip n).tBit = s.tBit := by
  induction n generalizing s with
  | zero => rfl
  | succ n ih => simp [State.skip, ih]
@[simp] theorem State.skip_sBit (s : State) (n : Nat) : (s.skip n).sBit = s.sBit := by
  induction n generalizing s with
  | zero => rfl
  | succ n ih => simp [State.skip, ih]
@[simp] theorem State.skip_iMask (s : State) (n : Nat) : (s.skip n).iMask = s.iMask := by
  induction n generalizing s with
  | zero => rfl
  | succ n ih => simp [State.skip, ih]
@[simp] theorem State.skip_ccr (s : State) (n : Nat) : (s.skip n).ccr = s.ccr := by
  induction n generalizing s with
  | zero => rfl
  | succ n ih => simp [State.skip, ih]
@[simp] theorem State.skip_vbr (s : State) (n : Nat) : (s.skip n).vbr = s.vbr := by
  induction n generalizing s with
  | zero => rfl
  | succ n ih => simp [State.skip, ih]
@[simp] theorem State.skip_sfc (s : State) (n : Nat) : (s.skip n).sfc = s.sfc := by
  induction n generalizing s with
  | zero => rfl
  | succ n ih => simp [State.skip, ih]
@[simp] theorem State.skip_dfc (s : State) (n : Nat) : (s.skip n).dfc = s.dfc := by
  induction n generalizing s with
  | zero => rfl
  | succ n ih => simp [State.skip, ih]
@[simp] theorem State.skip_runState (s : State) (n : Nat) : (s.skip n).runState = s.runState := by
  induction n generalizing s with
  | zero => rfl
  | succ n ih => simp [State.skip, ih]
@[simp] theorem State.skip_prevLevel (s : State) (n : Nat) : (s.skip n).prevLevel = s.prevLevel := by
  induction n generalizing s with
  | zero => rfl
  | succ n ih => simp [State.skip, ih]
@[simp] theorem State.skip_tracePending (s : State) (n : Nat) : (s.skip n).tracePending = s.tracePending := by
  induction n generalizing s with
  | zero => rfl
  | succ n ih => simp [State.skip, ih]
@[simp] theorem State.skip_lastStores (s : State) (n : Nat) : (s.skip n).lastStores = s.lastStores := by
  induction n generalizing s with
  | zero => rfl
  | succ n ih => simp [State.skip, ih]
@[simp] theorem State.skip_seqEnd (s : State) (n : Nat) : (s.skip n).seqEnd = s.seqEnd := by
  induction n generalizing s with
  | zero => rfl
  | succ n ih => simp [State.skip, ih]
@[simp] theorem State.skip_faultMark (s : State) (n : Nat) : (s.skip n).faultMark = s.faultMark := by
  induction n generalizing s with
  | zero => rfl
  | succ n ih => simp [State.skip, ih]
@[simp] theorem State.skip_mem (s : State) (n : Nat) : (s.skip n).mem = s.mem := by
  induction n generalizing s with
  | zero => rfl
  | succ n ih => simp [State.skip, ih]
@[simp] theorem State.skip_agents (s : State) (n : Nat) : (s.skip n).agents = s.agents := by
  induction n generalizing s with
  | zero => rfl
  | succ n ih => simp [State.skip, ih]
@[simp] theorem State.skip_draws (s : State) (n : Nat) : (s.skip n).draws = s.draws := by
  induction n generalizing s with
  | zero => rfl
  | succ n ih => simp [State.skip, ih]
@[simp] theorem State.skip_ir (s : State) (n : Nat) : (s.skip n).ir = s.ir := by
  induction n generalizing s with
  | zero => rfl
  | succ n ih => simp [State.skip, ih]
@[simp] theorem State.skip_entered (s : State) (n : Nat) : (s.skip n).entered = s.entered := by
  induction n generalizing s with
  | zero => rfl
  | succ n ih => simp [State.skip, ih]
@[simp] theorem State.skip_resetFetch (s : State) (n : Nat) : (s.skip n).resetFetch = s.resetFetch := by
  induction n generalizing s with
  | zero => rfl
  | succ n ih => simp [State.skip, ih]

@[simp] theorem State.afterEa_cfg (s : State) (ea : Ea) (sz : Size) : (s.afterEa ea sz).cfg = s.cfg := by
  cases ea <;> simp [State.afterEa]
@[simp] theorem State.afterEa_d (s : State) (ea : Ea) (sz : Size) : (s.afterEa ea sz).d = s.d := by
  cases ea <;> simp [State.afterEa]
@[simp] theorem State.afterEa_spInactive (s : State) (ea : Ea) (sz : Size) : (s.afterEa ea sz).spInactive = s.spInactive := by
  cases ea <;> simp [State.afterEa]
@[simp] theorem State.afterEa_tBit (s : State) (ea : Ea) (sz : Size) : (s.afterEa ea sz).tBit = s.tBit := by
  cases ea <;> simp [State.afterEa]
@[simp] theorem State.afterEa_sBit (s : State) (ea : Ea) (sz : Size) : (s.afterEa ea sz).sBit = s.sBit := by
  cases ea <;> simp [State.afterEa]
@[simp] theorem State.afterEa_iMask (s : State) (ea : Ea) (sz : Size) : (s.afterEa ea sz).iMask = s.iMask := by
  cases ea <;> simp [State.afterEa]
@[simp] theorem State.afterEa_ccr (s : State) (ea : Ea) (sz : Size) : (s.afterEa ea sz).ccr = s.ccr := by
  cases ea <;> simp [State.afterEa]
@[simp] theorem State.afterEa_vbr (s : State) (ea : Ea) (sz : Size) : (s.afterEa ea sz).vbr = s.vbr := by
  cases ea <;> simp [State.afterEa]
@[simp] theorem State.afterEa_sfc (s : State) (ea : Ea) (sz : Size) : (s.afterEa ea sz).sfc = s.sfc := by
  cases ea <;> simp [State.afterEa]
@[simp] theorem State.afterEa_dfc (s : State) (ea : Ea) (sz : Size) : (s.afterEa ea sz).dfc = s.dfc := by
  cases ea <;> simp [State.afterEa]
@[simp] theorem State.afterEa_runState (s : State) (ea : Ea) (sz : Size) : (s.afterEa ea sz).runState = s.runState := by
  cases ea <;> simp [State.afterEa]
@[simp] theorem State.afterEa_prevLevel (s : State) (ea : Ea) (sz : Size) : (s.afterEa ea sz).prevLevel = s.prevLevel := by
  cases ea <;> simp [State.afterEa]
@[simp] theorem State.afterEa_tracePending (s : State) (ea : Ea) (sz : Size) : (s.afterEa ea sz).tracePending = s.tracePending := by
  cases ea <;> simp [State.afterEa]
@[simp] theorem State.afterEa_lastStores (s : State) (ea : Ea) (sz : Size) : (s.afterEa ea sz).lastStores = s.lastStores := by
  cases ea <;> simp [State.afterEa]
@[simp] theorem State.afterEa_seqEnd (s : State) (ea : Ea) (sz : Size) : (s.afterEa ea sz).seqEnd = s.seqEnd := by
  cases ea <;> simp [State.afterEa]
@[simp] theorem State.afterEa_faultMark (s : State) (ea : Ea) (sz : Size) : (s.afterEa ea sz).faultMark = s.faultMark := by
  cases ea <;> simp [State.afterEa]
@[simp] theorem State.afterEa_mem (s : State) (ea : Ea) (sz : Size) : (s.afterEa ea sz).mem = s.mem := by
  cases ea <;> simp [State.afterEa]
@[simp] theorem State.afterEa_agents (s : State) (ea : Ea) (sz : Size) : (s.afterEa ea sz).agents = s.agents := by
  cases ea <;> simp [State.afterEa]
@[simp] theorem State.afterEa_draws (s : State) (ea : Ea) (sz : Size) : (s.afterEa ea sz).draws = s.draws := by
  cases ea <;> simp [State.afterEa]
@[simp] theorem State.afterEa_ir (s : State) (ea : Ea) (sz : Size) : (s.afterEa ea sz).ir = s.ir := by
  cases ea <;> simp [State.afterEa]
@[simp] theorem State.afterEa_entered (s : State) (ea : Ea) (sz : Size) : (s.afterEa ea sz).entered = s.entered := by
  cases ea <;> simp [State.afterEa]
@[simp] theorem State.afterEa_resetFetch (s : State) (ea : Ea) (sz : Size) : (s.afterEa ea sz).resetFetch = s.resetFetch := by
  cases ea <;> simp [State.afterEa]

@[simp] theorem State.afterRead_cfg (s : State) (d : Desc) (sz : Size) : (s.afterRead d sz).cfg = s.cfg := by
  cases d <;> rfl
@[simp] theorem State.afterRead_d (s : State) (d : Desc) (sz : Size) : (s.afterRead d sz).d = s.d := by
  cases d <;> rfl
@[simp] theorem State.afterRead_a (s : State) (d : Desc) (sz : Size) : (s.afterRead d sz).a = s.a := by
  cases d <;> rfl
@[simp] theorem State.afterRead_spInactive (s : State) (d : Desc) (sz : Size) : (s.afterRead d sz).spInactive = s.spInactive := by
  cases d <;> rfl
@[simp] theorem State.afterRead_pc (s : State) (d : Desc) (sz : Size) : (s.afterRead d sz).pc = s.pc := by
  cases d <;> rfl
@[simp] theorem State.afterRead_tBit (s : State) (d : Desc) (sz : Size) : (s.afterRead d sz).tBit = s.tBit := by
  cases d <;> rfl
@[simp] theorem State.afterRead_sBit (s : State) (d : Desc) (sz : Size) : (s.afterRead d sz).sBit = s.sBit := by
  cases d <;> rfl
@[simp] theorem State.afterRead_iMask (s : State) (d : Desc) (sz : Size) : (s.afterRead d sz).iMask = s.iMask := by
  cases d <;> rfl
@[simp] theorem State.afterRead_ccr (s : State) (d : Desc) (sz : Size) : (s.afterRead d sz).ccr = s.ccr := by
  cases d <;> rfl
@[simp] theorem State.afterRead_vbr (s : State) (d : Desc) (sz : Size) : (s.afterRead d sz).vbr = s.vbr := by
  cases d <;> rfl
@[simp] theorem State.afterRead_sfc (s : State) (d : Desc) (sz : Size) : (s.afterRead d sz).sfc = s.sfc := by
  cases d <;> rfl
@[simp] theorem State.afterRead_dfc (s : State) (d : Desc) (sz : Size) : (s.afterRead d sz).dfc = s.dfc := by
  cases d <;> rfl
@[simp] theorem State.afterRead_runState (s : State) (d : Desc) (sz : Size) : (s.afterRead d sz).runState = s.runState := by
  cases d <;> rfl
@[simp] theorem State.afterRead_prevLevel (s : State) (d : Desc) (sz : Size) : (s.afterRead d sz).prevLevel = s.prevLevel := by
  cases d <;> rfl
@[simp] theorem State.afterRead_tracePending (s : State) (d : Desc) (sz : Size) : (s.afterRead d sz).tracePending = s.tracePending := by
  cases d <;> rfl
@[simp] theorem State.afterRead_lastStores (s : State) (d : Desc) (sz : Size) : (s.afterRead d sz).lastStores = s.lastStores := by
  cases d <;> rfl
@[simp] theorem State.afterRead_seqEnd (s : State) (d : Desc) (sz : Size) : (s.afterRead d sz).seqEnd = s.seqEnd := by
  cases d <;> rfl
@[simp] theorem State.afterRead_faultMark (s : State) (d : Desc) (sz : Size) : (s.afterRead d sz).faultMark = s.faultMark := by
  cases d <;> rfl
@[simp] theorem State.afterRead_mem (s : State) (d : Desc) (sz : Size) : (s.afterRead d sz).mem = s.mem := by
  cases d <;> rfl
@[simp] theorem State.afterRead_agents (s : State) (d : Desc) (sz : Size) : (s.afterRead d sz).agents = s.agents := by
  cases d <;> rfl
@[simp] theorem State.afterRead_draws (s : State) (d : Desc) (sz : Size) : (s.afterRead d sz).draws = s.draws := by
  cases d <;> rfl
@[simp] theorem State.afterRead_ir (s : State) (d : Desc) (sz : Size) : (s.afterRead d sz).ir = s.ir := by
  cases d <;> rfl
@[simp] theorem State.afterRead_entered (s : State) (d : Desc) (sz : Size) : (s.afterRead d sz).entered = s.entered := by
  cases d <;> rfl
@[simp] theorem State.afterRead_resetFetch (s : State) (d : Desc) (sz : Size) : (s.afterRead d sz).resetFetch = s.resetFetch := by
  cases d <;> rfl

@[simp] theorem State.afterWrite_cfg (s : State) (d : Desc) (sz : Size) (v : Long) : (s.afterWrite d sz v).cfg = s.cfg := by
  cases d <;> simp [State.afterWrite]
@[simp] theorem State.afterWrite_spInactive (s : State) (d : Desc) (sz : Size) (v : Long) : (s.afterWrite d sz v).spInactive = s.spInactive := by
  cases d <;> simp [State.afterWrite]
@[simp] theorem State.afterWrite_pc (s : State) (d : Desc) (sz : Size) (v : Long) : (s.afterWrite d sz v).pc = s.pc := by
  cases d <;> simp [State.afterWrite]
@[simp] theorem State.afterWrite_tBit (s : State) (d : Desc) (sz : Size) (v : Long) : (s.afterWrite d sz v).tBit = s.tBit := by
  cases d <;> simp [State.afterWrite]
@[simp] theorem State.afterWrite_sBit (s : State) (d : Desc) (sz : Size) (v : Long) : (s.afterWrite d sz v).sBit = s.sBit := by
  cases d <;> simp [State.afterWrite]
@[simp] theorem State.afterWrite_iMask (s : State) (d : Desc) (sz : Size) (v : Long) : (s.afterWrite d sz v).iMask = s.iMask := by
  cases d <;> simp [State.afterWrite]
@[simp] theorem State.afterWrite_ccr (s : State) (d : Desc) (sz : Size) (v : Long) : (s.afterWrite d sz v).ccr = s.ccr := by
  cases d <;> simp [State.afterWrite]
@[simp] theorem State.afterWrite_vbr (s : State) (d : Desc) (sz : Size) (v : Long) : (s.afterWrite d sz v).vbr = s.vbr := by
  cases d <;> simp [State.afterWrite]
@[simp] theorem State.afterWrite_sfc (s : State) (d : Desc) (sz : Size) (v : Long) : (s.afterWrite d sz v).sfc = s.sfc := by
  cases d <;> simp [State.afterWrite]
@[simp] theorem State.afterWrite_dfc (s : State) (d : Desc) (sz : Size) (v : Long) : (s.afterWrite d sz v).dfc = s.dfc := by
  cases d <;> simp [State.afterWrite]
@[simp] theorem State.afterWrite_runState (s : State) (d : Desc) (sz : Size) (v : Long) : (s.afterWrite d sz v).runState = s.runState := by
  cases d <;> simp [State.afterWrite]
@[simp] theorem State.afterWrite_prevLevel (s : State) (d : Desc) (sz : Size) (v : Long) : (s.afterWrite d sz v).prevLevel = s.prevLevel := by
  cases d <;> simp [State.afterWrite]
@[simp] theorem State.afterWrite_tracePending (s : State) (d : Desc) (sz : Size) (v : Long) : (s.afterWrite d sz v).tracePending = s.tracePending := by
  cases d <;> simp [State.afterWrite]
@[simp] theorem State.afterWrite_lastStores (s : State) (d : Desc) (sz : Size) (v : Long) : (s.afterWrite d sz v).lastStores = s.lastStores := by
  cases d <;> simp [State.afterWrite]
@[simp] theorem State.afterWrite_seqEnd (s : State) (d : Desc) (sz : Size) (v : Long) : (s.afterWrite d sz v).seqEnd = s.seqEnd := by
  cases d <;> simp [State.afterWrite]
@[simp] theorem State.afterWrite_faultMark (s : State) (d : Desc) (sz : Size) (v : Long) : (s.afterWrite d sz v).faultMark = s.faultMark := by
  cases d <;> simp [State.afterWrite]
@[simp] theorem State.afterWrite_agents (s : State) (d : Desc) (sz : Size) (v : Long) : (s.afterWrite d sz v).agents = s.agents := by
  cases d <;> simp [State.afterWrite]
@[simp] theorem State.afterWrite_draws (s : State) (d : Desc) (sz : Size) (v : Long) : (s.afterWrite d sz v).draws = s.draws := by
  cases d <;> simp [State.afterWrite]
@[simp] theorem State.afterWrite_ir (s : State) (d : Desc) (sz : Size) (v : Long) : (s.afterWrite d sz v).ir = s.ir := by
  cases d <;> simp [State.afterWrite]
@[simp] theorem State.afterWrite_entered (s : State) (d : Desc) (sz : Size) (v : Long) : (s.afterWrite d sz v).entered = s.entered := by
  cases d <;> simp [State.afterWrite]
@[simp] theorem State.afterWrite_resetFetch (s : State) (d : Desc) (sz : Size) (v : Long) : (s.afterWrite d sz v).resetFetch = s.resetFetch := by
  cases d <;> simp [State.afterWrite]

end Sys2Proof.Machine
end

