-- ==== Sys2Proof/Laws/Memory.lean ====
section
/-! SUPPORT. The byte store: reading after writing, and the canonical form kept by every memory operation. -/

namespace Sys2Proof.Machine

set_option Elab.async false

theorem Memory.read_erase (m : List Host.Cell) (a b : Nat) :
    Memory.read (Memory.erase a m) b = if b = a then unlistedByte else Memory.read m b := by
  induction m with
  | nil => simp [Memory.erase, Memory.read]
  | cons c m ih =>
    obtain ⟨k, w⟩ := c
    by_cases hk : k = a
    · subst hk
      by_cases hb : b = k
      · subst hb
        simpa [Memory.erase] using ih
      · simp [Memory.erase, ih, hb, Memory.read, Ne.symm hb]
    · by_cases hb : b = a
      · subst hb
        simp [Memory.erase, hk, Memory.read, ih]
      · simp [Memory.erase, hk, Memory.read, ih, hb]

theorem Memory.read_insert (m : List Host.Cell) (a b : Nat) (v : Byte)
    (h : ∀ c ∈ m, c.1 ≠ a) :
    Memory.read (Memory.insert a v m) b = if b = a then v else Memory.read m b := by
  induction m with
  | nil =>
    by_cases hb : b = a
    · simp [Memory.insert, Memory.read, hb]
    · simp [Memory.insert, Memory.read, hb, Ne.symm hb]
  | cons c m ih =>
    obtain ⟨k, w⟩ := c
    have hk : k ≠ a := h (k, w) List.mem_cons_self
    have ih := ih fun c hc => h c (List.mem_cons_of_mem _ hc)
    by_cases hlt : a < k
    · by_cases hb : b = a
      · simp [Memory.insert, hlt, Memory.read, hb]
      · simp [Memory.insert, hlt, Memory.read, hb, Ne.symm hb]
    · by_cases hb : b = a
      · subst hb
        simp [Memory.insert, hlt, Memory.read, hk, ih]
      · simp [Memory.insert, hlt, Memory.read, ih, hb]

theorem Memory.mem_erase {m : List Host.Cell} {a : Nat} {c : Host.Cell} :
    c ∈ Memory.erase a m ↔ c ∈ m ∧ c.1 ≠ a := by
  induction m with
  | nil => simp [Memory.erase]
  | cons d m ih =>
    obtain ⟨k, w⟩ := d
    by_cases hk : k = a
    · subst hk
      simp only [Memory.erase, if_true, ih, List.mem_cons]
      constructor
      · rintro ⟨h, hn⟩; exact ⟨Or.inr h, hn⟩
      · rintro ⟨rfl | h, hn⟩
        · exact absurd rfl hn
        · exact ⟨h, hn⟩
    · simp only [Memory.erase, hk, if_false, List.mem_cons, ih]
      constructor
      · rintro (rfl | ⟨h, hn⟩)
        · exact ⟨Or.inl rfl, hk⟩
        · exact ⟨Or.inr h, hn⟩
      · rintro ⟨rfl | h, hn⟩
        · exact Or.inl rfl
        · exact Or.inr ⟨h, hn⟩

theorem Memory.mem_insert {m : List Host.Cell} {a : Nat} {v : Byte} {c : Host.Cell} :
    c ∈ Memory.insert a v m ↔ c = (a, v) ∨ c ∈ m := by
  induction m with
  | nil => simp [Memory.insert]
  | cons d m ih =>
    obtain ⟨k, w⟩ := d
    by_cases hlt : a < k
    · simp [Memory.insert, hlt]
    · simp only [Memory.insert, hlt, if_false, List.mem_cons, ih]
      tauto

/-- A byte read after a byte written: the byte where it was written, anything else as before. -/
theorem Memory.read_write (m : List Host.Cell) (a b : Nat) (v : Byte) :
    Memory.read (Memory.write m a v) b = if b = a then v else Memory.read m b := by
  unfold Memory.write
  split
  · rename_i h
    rw [Memory.read_erase, h]
  · rw [Memory.read_insert _ _ _ _ fun c hc => (Memory.mem_erase.mp hc).2, Memory.read_erase]
    by_cases hb : b = a <;> simp [hb]

/-- A write lists at most the key it writes. -/
theorem Memory.mem_write {m : List Host.Cell} {a : Nat} {v : Byte} {c : Host.Cell}
    (h : c ∈ Memory.write m a v) : c.1 = a ∨ c ∈ m := by
  unfold Memory.write at h
  split at h
  · exact Or.inr (Memory.mem_erase.mp h).1
  · rcases Memory.mem_insert.mp h with rfl | h
    · exact Or.inl rfl
    · exact Or.inr (Memory.mem_erase.mp h).1

theorem Memory.wf_cons (k : Nat) (v : Byte) (m : List Host.Cell) :
    Memory.wf ((k, v) :: m) = true ↔ v ≠ unlistedByte ∧ (∀ c ∈ m, k < c.1) ∧ Memory.wf m = true := by
  simp [Memory.wf, and_assoc]

theorem Memory.wf_erase {m : List Host.Cell} (a : Nat) (h : Memory.wf m = true) :
    Memory.wf (Memory.erase a m) = true := by
  induction m with
  | nil => rfl
  | cons c m ih =>
    obtain ⟨k, w⟩ := c
    obtain ⟨hv, hk, hm⟩ := (Memory.wf_cons k w m).mp h
    by_cases hka : k = a
    · simpa [Memory.erase, hka] using ih hm
    · simp only [Memory.erase, hka, if_false]
      exact (Memory.wf_cons _ _ _).mpr ⟨hv, fun c hc => hk c (Memory.mem_erase.mp hc).1, ih hm⟩

theorem Memory.wf_insert {m : List Host.Cell} {a : Nat} {v : Byte} (hv : v ≠ unlistedByte)
    (hn : ∀ c ∈ m, c.1 ≠ a) (h : Memory.wf m = true) : Memory.wf (Memory.insert a v m) = true := by
  induction m with
  | nil => exact (Memory.wf_cons _ _ _).mpr ⟨hv, by simp, rfl⟩
  | cons c m ih =>
    obtain ⟨k, w⟩ := c
    obtain ⟨hw, hk, hm⟩ := (Memory.wf_cons k w m).mp h
    have hka : k ≠ a := hn (k, w) List.mem_cons_self
    by_cases hlt : a < k
    · simp only [Memory.insert, hlt, if_true]
      refine (Memory.wf_cons _ _ _).mpr ⟨hv, fun c hc => ?_, h⟩
      rcases List.mem_cons.mp hc with rfl | hc
      · exact hlt
      · exact lt_trans hlt (hk c hc)
    · simp only [Memory.insert, hlt, if_false]
      refine (Memory.wf_cons _ _ _).mpr ⟨hw, fun c hc => ?_, ih (fun c hc => hn c (List.mem_cons_of_mem _ hc)) hm⟩
      rcases Memory.mem_insert.mp hc with rfl | hc
      · exact lt_of_le_of_ne (Nat.le_of_not_lt hlt) hka
      · exact hk c hc

/-- A write keeps the canonical form. -/
theorem Memory.wf_write {m : List Host.Cell} (a : Nat) (v : Byte) (h : Memory.wf m = true) :
    Memory.wf (Memory.write m a v) = true := by
  unfold Memory.write
  split
  · exact Memory.wf_erase a h
  · rename_i hv
    exact Memory.wf_insert hv (fun c hc => (Memory.mem_erase.mp hc).2) (Memory.wf_erase a h)

/-- The memory of the reset state is in its canonical form. -/
theorem reset_mem_wf : Memory.wf State.reset.mem = true := rfl

/-! The byte store seen through the state. -/

/-- A property of the store that byte writes keep is kept by a store of any size. -/
theorem State.poke_mem_induction {P : List Host.Cell → Prop}
    (hp : ∀ m k v, P m → P (Memory.write m k v)) (s : State) (sz : Size) (fc : BitVec 3) (a v : Long)
    (h : P s.mem) : P (s.poke sz fc a v).mem := by
  cases sz <;> simp only [State.poke, State.pokeLong, State.pokeWord, State.pokeByte_mem, State.pokeByte_cfg]
  · exact hp _ _ _ h
  · exact hp _ _ _ (hp _ _ _ h)
  · exact hp _ _ _ (hp _ _ _ (hp _ _ _ (hp _ _ _ h)))

/-- A store of any size keeps the canonical form. -/
theorem State.poke_wf (s : State) (sz : Size) (fc : BitVec 3) (a v : Long) (h : Memory.wf s.mem = true) :
    Memory.wf (s.poke sz fc a v).mem = true :=
  State.poke_mem_induction (P := fun m => Memory.wf m = true) (fun _ k v h => Memory.wf_write k v h) s sz fc a v h

/-! What happens outside the core. -/

/-- A property of the store that byte writes keep is kept by changes from outside. -/
theorem changeBytes_induction {P : List Host.Cell → Prop} (cfg : Config)
    (hp : ∀ m k v, P m → P (Memory.write m k v)) (cs : List Change) (m : List Host.Cell) (h : P m) :
    P (changeBytes cfg cs m) := by
  induction cs generalizing m with
  | nil => exact h
  | cons c cs ih => exact ih _ (hp _ _ _ h)

/-- Changes from outside keep the canonical form. -/
theorem changeBytes_wf (cfg : Config) (cs : List Change) {m : List Host.Cell} (h : Memory.wf m = true) :
    Memory.wf (changeBytes cfg cs m) = true :=
  changeBytes_induction (P := fun m => Memory.wf m = true) cfg (fun _ k v h => Memory.wf_write k v h) cs m h

/-- Changes from outside leave every byte that none of them names. -/
theorem read_changeBytes (cfg : Config) (cs : List Change) (m : List Host.Cell) (k : Nat)
    (h : ∀ c ∈ cs, memKey cfg c.fc c.addr ≠ k) : Memory.read (changeBytes cfg cs m) k = Memory.read m k := by
  induction cs generalizing m with
  | nil => rfl
  | cons c cs ih =>
    rw [changeBytes, ih _ fun d hd => h d (List.mem_cons_of_mem _ hd), Memory.read_write,
      if_neg (Ne.symm (h c List.mem_cons_self))]

/-- The start of a step leaves a byte that nothing outside the core changes. -/
theorem State.read_beginStep {s : State} {k : Nat} (h : s.undisturbed k = true) :
    Memory.read s.beginStep.mem k = Memory.read s.mem k := by
  unfold State.undisturbed at h
  rw [List.all_eq_true] at h
  rw [State.beginStep_mem]
  exact read_changeBytes _ _ _ _ fun c hc => by simpa using h c hc

/-- With no changes to come, the start of a step leaves the memory. -/
theorem State.beginStep_mem_of_quiet {s : State} (h : s.agents = []) : s.beginStep.mem = s.mem := by
  rw [State.beginStep_mem, h]
  rfl

/-- With no calls back to come, a call leaves the interrupt request and the marks. -/
theorem State.addCall_of_noCallbacks {s : State} (c : BusCall) (h : s.noCallbacks = true) :
    (s.addCall c).intLevel = s.intLevel ∧ (s.addCall c).refusedMark = s.refusedMark := by
  unfold State.noCallbacks at h
  rw [State.addCall_intLevel, State.addCall_refusedMark]
  cases hs : s.script with
  | nil => simp [nextReaction, callbackLevel, callbackRefusal]
  | cons r rest =>
    rw [hs, List.all_cons, Bool.and_eq_true, List.isEmpty_iff] at h
    simp [nextReaction, h.1, callbackLevel, callbackRefusal]

/-- Fetches take one reaction each. -/
@[simp] theorem State.skip_script (s : State) (n : Nat) : (s.skip n).script = s.script.drop n := by
  induction n generalizing s with
  | zero => rfl
  | succ n ih => simp [State.skip, ih]

/-- Two states with one configuration and one memory read alike. -/
theorem State.peek_congr {s t : State} (hc : s.cfg = t.cfg) (hm : s.mem = t.mem) (sz : Size) (fc : BitVec 3) (a : Long) :
    s.peek sz fc a = t.peek sz fc a := by
  cases sz <;> simp [State.peek, State.peekLong, State.peekWord, State.peekByte, hc, hm]

/-- Two states with one configuration, one memory and one script answer a read alike. -/
theorem State.loaded_congr {s t : State} (hc : s.cfg = t.cfg) (hm : s.mem = t.mem) (hs : s.script = t.script) (sz : Size)
    (fc : BitVec 3) (a : Long) : s.loaded sz fc a = t.loaded sz fc a := by
  unfold State.loaded
  rw [hs, State.peek_congr hc hm]

theorem State.peekWord_congr {s t : State} (hc : s.cfg = t.cfg) (hm : s.mem = t.mem) (fc : BitVec 3) (a : Long) :
    s.peekWord fc a = t.peekWord fc a := by
  simp [State.peekWord, State.peekByte, hc, hm]

theorem State.peekLong_congr {s t : State} (hc : s.cfg = t.cfg) (hm : s.mem = t.mem) (fc : BitVec 3) (a : Long) :
    s.peekLong fc a = t.peekLong fc a := by
  simp [State.peekLong, State.peekWord, State.peekByte, hc, hm]

/-- A store changes only its own bytes. -/
theorem State.read_poke_other (s : State) (sz : Size) (fc : BitVec 3) (a v : Long) (k : Nat)
    (h : k ∉ accessKeys s.cfg sz fc a) : Memory.read (s.poke sz fc a v).mem k = Memory.read s.mem k := by
  cases sz <;> simp [accessKeys, List.range_succ, Size.bytes] at h <;>
    simp [State.poke, State.pokeLong, State.pokeWord, Memory.read_write, h, BitVec.add_assoc]

/-- A byte written and read back. -/
theorem State.peekByte_pokeByte (s : State) (fc fc' : BitVec 3) (a b : Long) (v : Byte) :
    (s.pokeByte fc a v).peekByte fc' b = if memKey s.cfg fc' b = memKey s.cfg fc a then v else s.peekByte fc' b := by
  simp [State.peekByte, Memory.read_write]

end Sys2Proof.Machine
end

