-- ==== Sys2Proof/Laws/Run.lean ====
section
/-! SUPPORT. What each shared operation of a meaning answers: the monad, the instruction stream, operands, the stack,
exception entry. For each: when it answers normally and with what, and that it answers normally only then. -/

namespace Sys2Proof.Machine

set_option Elab.async false

/-! The monad. -/

theorem M.bind_apply {α β : Type} (m : M α) (f : α → M β) (s : State) :
    (m >>= f) s = match m s with
      | .ok a t => f a t
      | .error e t => .error e t := by
  show EStateM.bind m f s = _
  unfold EStateM.bind
  cases m s <;> rfl

/-- A computation that answers normally, continued. -/
theorem M.bind_ok {α β : Type} {m : M α} {f : α → M β} {s t : State} {a : α} (h : m s = .ok a t) :
    (m >>= f) s = f a t := by rw [M.bind_apply, h]

/-- A computation that exits, continued. -/
theorem M.bind_error {α β : Type} {m : M α} {f : α → M β} {s t : State} {e : Exit} (h : m s = .error e t) :
    (m >>= f) s = .error e t := by rw [M.bind_apply, h]

/-- A continued computation answers normally only through both parts. -/
theorem M.of_bind_ok {α β : Type} {m : M α} {f : α → M β} {s u : State} {b : β} (h : (m >>= f) s = .ok b u) :
    ∃ a t, m s = .ok a t ∧ f a t = .ok b u := by
  rw [M.bind_apply] at h
  split at h
  · exact ⟨_, _, by assumption, h⟩
  · cases h

@[simp] theorem M.pure_apply {α : Type} (a : α) (s : State) : (pure a : M α) s = .ok a s := rfl
@[simp] theorem M.look_apply {α : Type} (f : State → α) (s : State) : look f s = .ok (f s) s := rfl
@[simp] theorem M.upd_apply (f : State → State) (s : State) : upd f s = .ok () (f s) := rfl
@[simp] theorem M.stop_apply {α : Type} (e : Exit) (s : State) : (stop e : M α) s = .error e s := rfl
@[simp] theorem M.require_apply (p : State → Bool) (e : State → Exit) (s : State) :
    require p e s = if p s then .ok () s else .error (e s) s := rfl
@[simp] theorem M.drawBit_apply (s : State) : drawBit s = .ok (Config.freeBit s.draws) (s.drawn 1) := rfl
@[simp] theorem M.drawByte_apply (s : State) : drawByte s = .ok (Config.freeByte s.draws) (s.drawn 1) := rfl
@[simp] theorem M.drawWord_apply (s : State) : drawWord s = .ok (Config.freeWord s.draws) (s.drawn 1) := rfl
@[simp] theorem M.drawLong_apply (s : State) : drawLong s = .ok (Config.freeLong s.draws) (s.drawn 1) := rfl

@[simp] theorem M.look_bind {α β : Type} (g : State → α) (f : α → M β) (s : State) :
    (look g >>= f) s = f (g s) s := rfl
@[simp] theorem M.upd_bind {β : Type} (g : State → State) (f : Unit → M β) (s : State) :
    (upd g >>= f) s = f () (g s) := rfl
@[simp] theorem M.pure_bind {α β : Type} (a : α) (f : α → M β) (s : State) : ((pure a : M α) >>= f) s = f a s := rfl
@[simp] theorem M.drawBit_bind {β : Type} (f : Bool → M β) (s : State) :
    (drawBit >>= f) s = f (Config.freeBit s.draws) (s.drawn 1) := rfl
@[simp] theorem M.drawByte_bind {β : Type} (f : Byte → M β) (s : State) :
    (drawByte >>= f) s = f (Config.freeByte s.draws) (s.drawn 1) := rfl
@[simp] theorem M.drawWord_bind {β : Type} (f : Word → M β) (s : State) :
    (drawWord >>= f) s = f (Config.freeWord s.draws) (s.drawn 1) := rfl
@[simp] theorem M.drawLong_bind {β : Type} (f : Long → M β) (s : State) :
    (drawLong >>= f) s = f (Config.freeLong s.draws) (s.drawn 1) := rfl
@[simp] theorem M.require_bind {β : Type} (p : State → Bool) (e : State → Exit) (f : Unit → M β) (s : State) :
    (require p e >>= f) s = if p s then f () s else .error (e s) s := by
  by_cases h : p s <;> simp [M.bind_apply, h]
@[simp] theorem M.stop_bind {α β : Type} (e : Exit) (f : α → M β) (s : State) :
    ((stop e : M α) >>= f) s = .error e s := rfl
@[simp] theorem M.bind_bind {α β γ : Type} (m : M α) (f : α → M β) (g : β → M γ) (s : State) :
    ((m >>= f) >>= g) s = (m >>= fun a => f a >>= g) s := by
  simp only [M.bind_apply]
  cases m s <;> rfl

/-! Outcomes. -/

@[simp] theorem finish_ok (s : State) : finish (.ok () s) = .next s := rfl

/-- A meaning that answers normally. -/
theorem run_ok {m : M Unit} {s t : State} (h : m s = .ok () t) : run m s = .next t := by rw [run, h]; rfl

/-- A meaning that raises an exception. -/
theorem run_exception {m : M Unit} {s t : State} {v : Byte} {p : Long} (h : m s = .error (.exception v p) t) :
    run m s = takeException v p none t := by rw [run, h]; rfl

/-! The instruction stream. -/

@[simp] theorem State.streamReady_zero (s : State) : s.streamReady 0 = true := rfl

theorem State.streamReady_one (s : State) : s.streamReady 1 = s.wordReady s.pc := by
  simp [State.streamReady, List.range_succ]

@[simp] theorem State.wordReady_skipWord (s : State) (a : Long) : s.skipWord.wordReady a = s.wordReady a := by
  simp [State.wordReady, State.staleWord, State.staleByte, State.inWindow]

theorem State.streamReady_succ (s : State) (n : Nat) :
    s.streamReady (n + 1) = (s.wordReady s.pc && s.skipWord.streamReady n) := by
  simp only [State.streamReady, List.range_succ_eq_map, List.all_cons, List.all_map, State.wordReady_skipWord,
    State.skipWord_pc]
  congr 1
  · simp
  · congr 1
    funext k
    simp only [Function.comp]
    congr 1
    rw [BitVec.add_assoc]
    congr 1
    apply BitVec.eq_of_toNat_eq
    simp
    omega

theorem State.streamWord_skipWord (s : State) (k : Nat) : s.skipWord.streamWord k = s.streamWord (k + 1) := by
  have hf : s.skipWord.progFc = s.progFc := rfl
  simp only [State.streamWord, State.skip, hf]
  congr 1
  simp only [State.skipWord_pc]
  rw [BitVec.add_assoc]
  congr 1
  apply BitVec.eq_of_toNat_eq
  simp
  omega

/-- A fetch answers normally exactly when the word can be fetched. -/
theorem fetch16_ok {s : State} (h : s.wordReady s.pc = true) : fetch16 s = .ok (s.streamWord 0) s.skipWord := by
  simp only [State.wordReady, Bool.and_eq_true, Bool.not_eq_true'] at h
  simp only [fetch16, M.look_bind, checkAligned, M.require_bind, h.1, h.2, M.upd_bind]
  simp only [State.streamWord, State.skip, Nat.mul_zero, BitVec.add_zero]
  rfl

theorem fetch16_of_ok {s t : State} {w : Word} (h : fetch16 s = .ok w t) :
    s.wordReady s.pc = true ∧ w = s.streamWord 0 ∧ t = s.skipWord := by
  by_cases hr : s.wordReady s.pc = true
  · rw [fetch16_ok hr] at h
    cases h
    exact ⟨hr, rfl, rfl⟩
  · exfalso
    simp only [State.wordReady, Bool.and_eq_true, Bool.not_eq_true', not_and_or, Bool.not_eq_false] at hr
    simp only [fetch16, M.look_bind, checkAligned, M.require_bind] at h
    rcases hr with hr | hr <;> simp [hr] at h
    split at h <;> cases h

/-- Two words fetched. -/
theorem fetch32_ok {s : State} (h : s.streamReady 2 = true) : fetch32 s = .ok (s.streamLong 0) (s.skip 2) := by
  rw [State.streamReady_succ, State.streamReady_one, Bool.and_eq_true] at h
  simp only [fetch32]
  rw [M.bind_ok (fetch16_ok h.1), M.bind_ok (fetch16_ok h.2)]
  simp [State.streamLong, State.streamWord_skipWord, State.skip]

theorem fetch32_of_ok {s t : State} {v : Long} (h : fetch32 s = .ok v t) :
    s.streamReady 2 = true ∧ v = s.streamLong 0 ∧ t = s.skip 2 := by
  obtain ⟨hi, u, h1, h2⟩ := M.of_bind_ok h
  obtain ⟨lo, u', h3, -⟩ := M.of_bind_ok h2
  obtain ⟨r1, rfl, rfl⟩ := fetch16_of_ok h1
  obtain ⟨r2, rfl, rfl⟩ := fetch16_of_ok h3
  have hr : s.streamReady 2 = true := by
    rw [State.streamReady_succ, State.streamReady_one, Bool.and_eq_true]
    exact ⟨r1, r2⟩
  rw [fetch32_ok hr] at h
  cases h
  exact ⟨hr, rfl, rfl⟩

theorem immediate_ok {s : State} {sz : Size} (h : s.streamReady (immWords sz) = true) :
    immediate sz s = .ok (s.immValue sz) (s.skip (immWords sz)) := by
  cases sz
  · rw [immWords, State.streamReady_one] at h
    simp only [immediate]
    rw [M.bind_ok (fetch16_ok h)]
    rfl
  · rw [immWords, State.streamReady_one] at h
    simp only [immediate]
    rw [M.bind_ok (fetch16_ok h)]
    rfl
  · exact fetch32_ok h

theorem immediate_of_ok {s t : State} {sz : Size} {v : Long} (h : immediate sz s = .ok v t) :
    s.streamReady (immWords sz) = true ∧ v = s.immValue sz ∧ t = s.skip (immWords sz) := by
  have hr : s.streamReady (immWords sz) = true := by
    cases sz
    · obtain ⟨e, u, h1, -⟩ := M.of_bind_ok h
      rw [immWords, State.streamReady_one]
      exact (fetch16_of_ok h1).1
    · obtain ⟨e, u, h1, -⟩ := M.of_bind_ok h
      rw [immWords, State.streamReady_one]
      exact (fetch16_of_ok h1).1
    · exact (fetch32_of_ok h).1
  rw [immediate_ok hr] at h
  cases h
  exact ⟨hr, rfl, rfl⟩

/-! Operands. -/

@[simp] theorem State.indexValue_skipWord (s : State) (e : Word) : s.skipWord.indexValue e = s.indexValue e := rfl

/-- An operand is resolved exactly when its words can be fetched. -/
theorem resolve_ok {s : State} {ea : Ea} {sz : Size} (h : s.streamReady (ea.extWords sz) = true) :
    resolve ea sz s = .ok (s.eaDesc ea sz) (s.afterEa ea sz) := by
  cases ea <;> simp only [Ea.extWords] at h
  case imm =>
    have h : s.streamReady (immWords sz) = true := by cases sz <;> exact h
    simp only [resolve]
    rw [M.bind_ok (immediate_ok h)]
    rfl
  case absL =>
    simp only [resolve]
    rw [M.bind_ok (fetch32_ok h)]
    rfl
  case pd n =>
    simp only [resolve, M.upd_bind, M.look_bind, M.pure_apply, State.eaDesc, State.afterEa, State.setA]
    simp
  all_goals first
    | rfl
    | (rw [State.streamReady_one] at h
       simp only [resolve, M.look_bind]
       rw [M.bind_ok (fetch16_ok h)]
       rfl)

theorem resolve_of_ok {s t : State} {ea : Ea} {sz : Size} {d : Desc} (h : resolve ea sz s = .ok d t) :
    s.streamReady (ea.extWords sz) = true ∧ d = s.eaDesc ea sz ∧ t = s.afterEa ea sz := by
  have hr : s.streamReady (ea.extWords sz) = true := by
    cases ea <;> simp only [resolve, M.look_bind] at h <;> simp only [Ea.extWords]
    case imm =>
      obtain ⟨v, u, h1, -⟩ := M.of_bind_ok h
      have := (immediate_of_ok h1).1
      cases sz <;> exact this
    case absL =>
      obtain ⟨v, u, h1, -⟩ := M.of_bind_ok h
      exact (fetch32_of_ok h1).1
    all_goals first
      | rfl
      | (obtain ⟨v, u, h1, -⟩ := M.of_bind_ok h
         rw [State.streamReady_one]
         exact (fetch16_of_ok h1).1)
  rw [resolve_ok hr] at h
  cases h
  exact ⟨hr, rfl, rfl⟩

/-- A read answers normally exactly at an aligned address. -/
theorem memRead_ok {s : State} {sz : Size} {fc : BitVec 3} {a : Long} (h : alignedAt sz a = true) :
    memRead sz fc a s = .ok (s.loaded sz fc a) (s.load sz fc a) := by
  simp only [memRead, checkAligned, M.require_bind]
  simp only [alignedAt] at h
  simp only [h, if_true]
  rfl

theorem memRead_of_ok {s t : State} {sz : Size} {fc : BitVec 3} {a v : Long} (h : memRead sz fc a s = .ok v t) :
    alignedAt sz a = true ∧ v = s.loaded sz fc a ∧ t = s.load sz fc a := by
  by_cases hr : alignedAt sz a = true
  · rw [memRead_ok hr] at h
    cases h
    exact ⟨hr, rfl, rfl⟩
  · exfalso
    simp only [memRead, checkAligned, M.require_bind] at h
    simp only [alignedAt] at hr
    simp [hr] at h

/-- A write answers normally exactly at an aligned address. -/
theorem memWrite_ok {s : State} {sz : Size} {fc : BitVec 3} {a v : Long} (h : alignedAt sz a = true) :
    memWrite sz fc a v s = .ok () (s.store sz fc a v) := by
  simp only [memWrite, checkAligned, M.require_bind, M.upd_apply]
  simp only [alignedAt] at h
  simp only [h, if_true]
  rfl

theorem memWrite_of_ok {s t : State} {sz : Size} {fc : BitVec 3} {a v : Long} {u : Unit}
    (h : memWrite sz fc a v s = .ok u t) : alignedAt sz a = true ∧ t = s.store sz fc a v := by
  by_cases hr : alignedAt sz a = true
  · rw [memWrite_ok hr] at h
    cases h
    exact ⟨hr, rfl⟩
  · exfalso
    simp only [memWrite, checkAligned, M.require_bind] at h
    simp only [alignedAt] at hr
    simp [hr] at h

theorem readData_ok {s : State} {sz : Size} {a : Long} (h : alignedAt sz a = true) :
    readData sz a s = .ok (s.loaded sz s.dataFc a) (s.load sz s.dataFc a) := memRead_ok h

theorem readData_of_ok {s t : State} {sz : Size} {a v : Long} (h : readData sz a s = .ok v t) :
    alignedAt sz a = true ∧ v = s.loaded sz s.dataFc a ∧ t = s.load sz s.dataFc a := memRead_of_ok h

theorem writeData_ok {s : State} {sz : Size} {a v : Long} (h : alignedAt sz a = true) :
    writeData sz a v s = .ok () (s.store sz s.dataFc a v) := memWrite_ok h

theorem writeData_of_ok {s t : State} {sz : Size} {a v : Long} {u : Unit} (h : writeData sz a v s = .ok u t) :
    alignedAt sz a = true ∧ t = s.store sz s.dataFc a v := memWrite_of_ok h

/-- A descriptor is read exactly when its address is aligned. -/
theorem eaRead_ok {s : State} {d : Desc} {sz : Size} (h : d.aligned sz = true) :
    eaRead d sz s = .ok (s.descValue d sz) (s.afterRead d sz) := by
  cases d
  case mem a sp => exact memRead_ok h
  all_goals rfl

theorem eaRead_of_ok {s t : State} {d : Desc} {sz : Size} {v : Long} (h : eaRead d sz s = .ok v t) :
    d.aligned sz = true ∧ v = s.descValue d sz ∧ t = s.afterRead d sz := by
  have hr : d.aligned sz = true := by
    cases d
    case mem a sp => exact (memRead_of_ok h).1
    all_goals rfl
  rw [eaRead_ok hr] at h
  cases h
  exact ⟨hr, rfl, rfl⟩

/-- A descriptor that can be written (R155). -/
def Desc.writable : Desc → Bool
  | .regD _ => true
  | .regA _ => true
  | .mem _ .data => true
  | .mem _ .program => false
  | .imm _ => false

/-- A descriptor is written exactly when it can be written and its address is aligned. -/
theorem eaWrite_ok {s : State} {d : Desc} {sz : Size} {v : Long} (hw : d.writable = true) (h : d.aligned sz = true) :
    eaWrite d sz v s = .ok () (s.afterWrite d sz v) := by
  cases d
  case mem a sp =>
    cases sp
    · exact memWrite_ok h
    · cases hw
  case imm => cases hw
  all_goals rfl

theorem eaWrite_of_ok {s t : State} {d : Desc} {sz : Size} {v : Long} {u : Unit} (h : eaWrite d sz v s = .ok u t) :
    d.writable = true ∧ d.aligned sz = true ∧ t = s.afterWrite d sz v := by
  cases d
  case mem a sp =>
    cases sp
    · obtain ⟨h1, h2⟩ := writeData_of_ok h
      exact ⟨rfl, h1, h2⟩
    · cases h
  case imm => cases h
  all_goals
    cases h
    exact ⟨rfl, rfl, rfl⟩

theorem readEa_ok {s : State} {ea : Ea} {sz : Size} (h : s.eaReady ea sz = true) :
    readEa ea sz s = .ok (s.eaValue ea sz) (s.afterReadEa ea sz) := by
  rw [State.eaReady, Bool.and_eq_true] at h
  rw [readEa, M.bind_ok (resolve_ok h.1), eaRead_ok h.2]
  rfl

theorem readEa_of_ok {s t : State} {ea : Ea} {sz : Size} {v : Long} (h : readEa ea sz s = .ok v t) :
    s.eaReady ea sz = true ∧ v = s.eaValue ea sz ∧ t = s.afterReadEa ea sz := by
  obtain ⟨d, u, h1, h2⟩ := M.of_bind_ok h
  obtain ⟨r1, rfl, rfl⟩ := resolve_of_ok h1
  obtain ⟨r2, rfl, rfl⟩ := eaRead_of_ok h2
  refine ⟨?_, rfl, rfl⟩
  rw [State.eaReady, r1, r2]
  rfl

/-- An operand in memory has an address. -/
theorem addressEa_ok {s : State} {ea : Ea} {sz : Size} (hc : EaClass.control.admits sz ea = true)
    (h : s.streamReady (ea.extWords sz) = true) :
    addressEa ea sz s = .ok (s.eaAddress ea sz) (s.afterEa ea sz) := by
  simp only [addressEa]
  rw [M.bind_ok (resolve_ok h)]
  cases ea <;> first | (simp [EaClass.admits, EaClass.modes, Ea.mode] at hc; done) | rfl

/-! The stack. -/

theorem push_ok {s : State} {sz : Size} {v : Long}
    (h : alignedAt sz (s.a[7] - BitVec.ofNat 32 sz.bytes) = true) : push sz v s = .ok () (s.pushed sz v) := by
  simp only [push, M.upd_bind, M.look_bind]
  have e : (s.setA 7 (s.a[7] - BitVec.ofNat 32 sz.bytes)).a[7] = s.a[7] - BitVec.ofNat 32 sz.bytes := by
    simp
  rw [e, writeData_ok h]
  rfl

theorem push_of_ok {s t : State} {sz : Size} {v : Long} {u : Unit} (h : push sz v s = .ok u t) :
    alignedAt sz (s.a[7] - BitVec.ofNat 32 sz.bytes) = true ∧ t = s.pushed sz v := by
  simp only [push, M.upd_bind, M.look_bind] at h
  have e : (s.setA 7 (s.a[7] - BitVec.ofNat 32 sz.bytes)).a[7] = s.a[7] - BitVec.ofNat 32 sz.bytes := by
    simp
  rw [e] at h
  exact writeData_of_ok h

theorem pop_ok {s : State} {sz : Size} (h : alignedAt sz s.a[7] = true) :
    pop sz s = .ok (s.stackTop sz) (s.popped sz) := by
  simp only [pop, M.look_bind]
  rw [M.bind_ok (readData_ok h)]
  rfl

theorem pop_of_ok {s t : State} {sz : Size} {v : Long} (h : pop sz s = .ok v t) :
    alignedAt sz s.a[7] = true ∧ v = s.stackTop sz ∧ t = s.popped sz := by
  simp only [pop, M.look_bind] at h
  obtain ⟨w, u, h1, h2⟩ := M.of_bind_ok h
  obtain ⟨hr, rfl, rfl⟩ := readData_of_ok h1
  cases h2
  exact ⟨hr, rfl, rfl⟩

/-- Moving an address by an even number does not change its parity. -/
theorem isOdd_sub (a b : Long) (h : isOdd b = false) : isOdd (a - b) = isOdd a := by
  simp only [isOdd, BitVec.getLsbD, BitVec.toNat_sub, Nat.testBit_zero] at *
  have hb : b.toNat % 2 = 0 := by simpa using h
  have : (2 ^ 32 - b.toNat + a.toNat) % 2 ^ 32 % 2 = a.toNat % 2 := by
    have := b.isLt
    omega
  rw [this]

theorem isOdd_add (a b : Long) (h : isOdd b = false) : isOdd (a + b) = isOdd a := by
  simp only [isOdd, BitVec.getLsbD, BitVec.toNat_add, Nat.testBit_zero] at *
  have hb : b.toNat % 2 = 0 := by simpa using h
  have : (a.toNat + b.toNat) % 2 ^ 32 % 2 = a.toNat % 2 := by omega
  rw [this]

end Sys2Proof.Machine
end

