-- ==== Sys2Proof/Laws/Exceptions.lean ====
section
/-! SUPPORT. Taking an exception: when it answers and with what, and that its next state says which vector was entered. -/

namespace Sys2Proof.Machine

set_option Elab.async false

@[simp] theorem State.setS_a7 (s : State) : (s.setS true).a[7] = s.ssp := by
  unfold State.setS State.ssp
  by_cases h : s.sBit = true
  · simp [h]
  · simp [h]

@[simp] theorem State.pushed_a7 (s : State) (sz : Size) (v : Long) :
    (s.pushed sz v).a[7] = s.a[7] - BitVec.ofNat 32 sz.bytes := by
  simp

@[simp] theorem State.vectorAddr_pushed (s : State) (sz : Size) (x : Long) (v : Byte) :
    (s.pushed sz x).vectorAddr v = s.vectorAddr v := by
  simp [State.vectorAddr, State.vbase]

@[simp] theorem State.vectorAddr_enterMode (s : State) (i : Option (BitVec 3)) (v : Byte) :
    (s.enterMode i).vectorAddr v = s.vectorAddr v := by
  simp [State.vectorAddr, State.vbase]

/-- A word or long pushed on an even stack pointer is aligned. -/
theorem alignedAt_push {a : Long} (sz : Size) (hsz : sz ≠ .b) (h : isOdd a = false) :
    alignedAt sz (a - BitVec.ofNat 32 sz.bytes) = true ∧ isOdd (a - BitVec.ofNat 32 sz.bytes) = false := by
  have e : isOdd (a - BitVec.ofNat 32 sz.bytes) = false := by
    rw [isOdd_sub _ _ (by cases sz <;> first | exact absurd rfl hsz | decide), h]
  exact ⟨by simp [alignedAt, e], e⟩

theorem pushFormatWord_ok {s : State} {v : Byte} (h : isOdd s.a[7] = false) :
    pushFormatWord v s = .ok () (s.withFormatWord v) ∧ isOdd (s.withFormatWord v).a[7] = false := by
  unfold State.withFormatWord
  cases hv : s.cfg.variant <;> simp only [pushFormatWord, M.look_bind, hv]
  case m68010 =>
    obtain ⟨h1, h2⟩ := alignedAt_push .w (by decide) h
    exact ⟨push_ok h1, by rw [State.pushed_a7]; exact h2⟩
  all_goals exact ⟨rfl, h⟩

theorem loadVector_ok {s : State} {v : Byte} {d : Bool} (h : isOdd (s.vectorAddr v) = false) (hs : s.sBit = true) :
    loadVector v d s = .ok () (s.vectored v d) := by
  have av : alignedAt .l (s.vectorAddr v) = true := by simp [alignedAt, h]
  have ef : s.dataFc = 5 := by simp [State.dataFc, hs]
  simp only [loadVector, M.look_bind]
  rw [M.bind_ok (readData_ok av)]
  simp only [M.upd_apply, State.vectored, ef]
  rfl

theorem loadVector_entered {s t : State} {v : Byte} {d : Bool} {u : Unit} (h : loadVector v d s = .ok u t) :
    t.entered = some v := by
  simp only [loadVector, M.look_bind] at h
  obtain ⟨_, _, -, h⟩ := M.of_bind_ok h
  cases h
  rfl

/-- `Enter` completes when the supervisor stack pointer and the vector's address are even (R410). -/
theorem enter_ok {s : State} {v : Byte} {p : Long} {i : Option (BitVec 3)} (h : s.entryReady v = true) :
    enter v p i s = .ok () (s.entry v p i) := by
  simp only [State.entryReady, Bool.and_eq_true, Bool.not_eq_true'] at h
  obtain ⟨hs, hv⟩ := h
  have e0 : (s.enterMode i).a[7] = s.ssp := by
    simp only [State.enterMode_a]
    exact State.setS_a7 s
  have e1 : { s.setS true with tBit := false, iMask := i.getD (s.setS true).iMask } = s.enterMode i := by
    simp [State.enterMode]
  simp only [enter, M.look_bind, M.upd_bind, e1]
  unfold State.entry State.withFrame
  have o0 : isOdd (s.enterMode i).a[7] = false := by rw [e0, hs]
  obtain ⟨f1, f2⟩ := pushFormatWord_ok (v := v) o0
  rw [M.bind_ok f1]
  obtain ⟨a2, o2⟩ := alignedAt_push .l (by decide) f2
  rw [M.bind_ok (push_ok a2)]
  rw [← State.pushed_a7 _ _ p] at o2
  obtain ⟨a3, o3⟩ := alignedAt_push .w (by decide) o2
  rw [M.bind_ok (push_ok a3)]
  refine loadVector_ok ?_ (by simp)
  simpa [State.vectorAddr, State.vbase] using hv

/-- An exception taken (R410). -/
theorem takeException_ok {s : State} {v : Byte} {p : Long} {i : Option (BitVec 3)} (h : s.entryReady v = true) :
    takeException v p i s = .next (s.entry v p i) := by
  rw [takeException, enter_ok h]

/-- Entry that completes says which vector was entered. -/
theorem enter_entered {s t : State} {v : Byte} {p : Long} {i : Option (BitVec 3)} {u : Unit}
    (h : enter v p i s = .ok u t) : t.entered = some v := by
  simp only [enter, M.look_bind, M.upd_bind] at h
  obtain ⟨_, _, -, h⟩ := M.of_bind_ok h
  obtain ⟨_, _, -, h⟩ := M.of_bind_ok h
  obtain ⟨_, _, -, h⟩ := M.of_bind_ok h
  exact loadVector_entered h

/-- The group-0 sequence that completes has entered vector 3. -/
theorem enterGroupZero_entered {s t : State} {e : AddressError} {u : Unit}
    (h : enterGroupZero e s = .ok u t) : t.entered = some 3 := by
  simp only [enterGroupZero, M.look_bind, M.upd_bind, M.drawLong_bind] at h
  obtain ⟨_, _, -, h⟩ := M.of_bind_ok h
  obtain ⟨_, _, -, h⟩ := M.of_bind_ok h
  obtain ⟨_, _, -, h⟩ := M.of_bind_ok h
  obtain ⟨_, _, -, h⟩ := M.of_bind_ok h
  simp only [M.look_bind, M.drawLong_bind] at h
  obtain ⟨_, _, -, h⟩ := M.of_bind_ok h
  simp only [M.drawWord_bind] at h
  obtain ⟨_, _, -, h⟩ := M.of_bind_ok h
  exact loadVector_entered h

theorem takeAddressError_entered {s t : State} {e : AddressError} (h : takeAddressError e s = .next t) :
    t.entered = some 3 := by
  unfold takeAddressError at h
  split at h
  · cases h
  · split at h
    · cases h
    · split at h
      · rename_i h'
        cases h
        exact enterGroupZero_entered h'
      · cases h

theorem takeException_entered {s t : State} {v : Byte} {p : Long} {i : Option (BitVec 3)}
    (h : takeException v p i s = .next t) : t.entered = some v ∨ t.entered = some 3 := by
  unfold takeException at h
  split at h
  · rename_i h'
    cases h
    exact Or.inl (enter_entered h')
  · exact Or.inr (takeAddressError_entered h)
  all_goals cases h

/-- A meaning that answers a next state without entering an exception has answered normally. -/
theorem ok_of_run {m : M Unit} {s t : State} (h : run m s = .next t) (he : t.entered = none) : m s = .ok () t := by
  unfold run at h
  cases hm : m s with
  | ok a u =>
    rw [hm] at h
    cases h
    rfl
  | error e u =>
    exfalso
    rw [hm] at h
    cases e with
    | exception v p =>
      rcases takeException_entered h with h' | h' <;> rw [he] at h' <;> cases h'
    | addressError e =>
      have h' := takeAddressError_entered h
      rw [he] at h'
      cases h'
    | fault r => cases h
    | refused r => cases h

end Sys2Proof.Machine
end

