-- ==== Sys2Proof/Laws/Bodies.lean ====
section
/-! SUPPORT. What each shared body of a meaning answers normally, and exactly when. -/

namespace Sys2Proof.Machine

set_option Elab.async false

/-- A continued computation answers normally exactly through both parts. -/
theorem M.bind_ok_iff {α β : Type} {m : M α} {f : α → M β} {s u : State} {b : β} :
    (m >>= f) s = .ok b u ↔ ∃ a t, m s = .ok a t ∧ f a t = .ok b u :=
  ⟨M.of_bind_ok, fun ⟨_, _, h1, h2⟩ => by rw [M.bind_ok h1, h2]⟩

theorem fetch16_iff {s t : State} {w : Word} :
    fetch16 s = .ok w t ↔ s.wordReady s.pc = true ∧ w = s.streamWord 0 ∧ t = s.skipWord :=
  ⟨fetch16_of_ok, fun ⟨h, hw, ht⟩ => by rw [fetch16_ok h, hw, ht]⟩

theorem fetch16_bind_iff {α : Type} {f : Word → M α} {s t : State} {a : α} :
    (fetch16 >>= f) s = .ok a t ↔ s.streamReady 1 = true ∧ f (s.streamWord 0) (s.skip 1) = .ok a t := by
  rw [State.streamReady_one, M.bind_ok_iff]
  constructor
  · rintro ⟨w, u, h, h'⟩
    obtain ⟨hr, rfl, rfl⟩ := fetch16_of_ok h
    exact ⟨hr, h'⟩
  · rintro ⟨hr, h'⟩
    exact ⟨_, _, fetch16_ok hr, h'⟩

theorem immediate_bind_iff {α : Type} {sz : Size} {f : Long → M α} {s t : State} {a : α} :
    (immediate sz >>= f) s = .ok a t ↔
      s.streamReady (immWords sz) = true ∧ f (s.immValue sz) (s.skip (immWords sz)) = .ok a t := by
  rw [M.bind_ok_iff]
  constructor
  · rintro ⟨w, u, h, h'⟩
    obtain ⟨hr, rfl, rfl⟩ := immediate_of_ok h
    exact ⟨hr, h'⟩
  · rintro ⟨hr, h'⟩
    exact ⟨_, _, immediate_ok hr, h'⟩

theorem resolve_bind_iff {α : Type} {ea : Ea} {sz : Size} {f : Desc → M α} {s t : State} {a : α} :
    (resolve ea sz >>= f) s = .ok a t ↔
      s.streamReady (ea.extWords sz) = true ∧ f (s.eaDesc ea sz) (s.afterEa ea sz) = .ok a t := by
  rw [M.bind_ok_iff]
  constructor
  · rintro ⟨w, u, h, h'⟩
    obtain ⟨hr, rfl, rfl⟩ := resolve_of_ok h
    exact ⟨hr, h'⟩
  · rintro ⟨hr, h'⟩
    exact ⟨_, _, resolve_ok hr, h'⟩

theorem readEa_bind_iff {α : Type} {ea : Ea} {sz : Size} {f : Long → M α} {s t : State} {a : α} :
    (readEa ea sz >>= f) s = .ok a t ↔
      s.eaReady ea sz = true ∧ f (s.eaValue ea sz) (s.afterReadEa ea sz) = .ok a t := by
  rw [M.bind_ok_iff]
  constructor
  · rintro ⟨w, u, h, h'⟩
    obtain ⟨hr, rfl, rfl⟩ := readEa_of_ok h
    exact ⟨hr, h'⟩
  · rintro ⟨hr, h'⟩
    exact ⟨_, _, readEa_ok hr, h'⟩

theorem eaRead_bind_iff {α : Type} {d : Desc} {sz : Size} {f : Long → M α} {s t : State} {a : α} :
    (eaRead d sz >>= f) s = .ok a t ↔ d.aligned sz = true ∧ f (s.descValue d sz) (s.afterRead d sz) = .ok a t := by
  rw [M.bind_ok_iff]
  constructor
  · rintro ⟨w, u, h, h'⟩
    obtain ⟨hr, rfl, rfl⟩ := eaRead_of_ok h
    exact ⟨hr, h'⟩
  · rintro ⟨hr, h'⟩
    exact ⟨_, _, eaRead_ok hr, h'⟩

theorem eaWrite_iff {d : Desc} {sz : Size} {v : Long} {s t : State} {u : Unit} :
    eaWrite d sz v s = .ok u t ↔ d.writable = true ∧ d.aligned sz = true ∧ t = s.afterWrite d sz v :=
  ⟨eaWrite_of_ok, fun ⟨h1, h2, h3⟩ => by rw [eaWrite_ok h1 h2, h3]⟩

theorem eaWrite_bind_iff {α : Type} {d : Desc} {sz : Size} {v : Long} {f : Unit → M α} {s t : State} {a : α} :
    (eaWrite d sz v >>= f) s = .ok a t ↔
      d.writable = true ∧ d.aligned sz = true ∧ f () (s.afterWrite d sz v) = .ok a t := by
  rw [M.bind_ok_iff]
  constructor
  · rintro ⟨w, u, h, h'⟩
    obtain ⟨h1, h2, rfl⟩ := eaWrite_of_ok h
    exact ⟨h1, h2, h'⟩
  · rintro ⟨h1, h2, h'⟩
    exact ⟨_, _, eaWrite_ok h1 h2, h'⟩

theorem memRead_bind_iff {α : Type} {sz : Size} {fc : BitVec 3} {x : Long} {f : Long → M α} {s t : State} {a : α} :
    (memRead sz fc x >>= f) s = .ok a t ↔ alignedAt sz x = true ∧ f (s.loaded sz fc x) (s.load sz fc x) = .ok a t := by
  rw [M.bind_ok_iff]
  constructor
  · rintro ⟨w, u, h, h'⟩
    obtain ⟨hr, rfl, rfl⟩ := memRead_of_ok h
    exact ⟨hr, h'⟩
  · rintro ⟨hr, h'⟩
    exact ⟨_, _, memRead_ok hr, h'⟩

theorem readData_bind_iff {α : Type} {sz : Size} {x : Long} {f : Long → M α} {s t : State} {a : α} :
    (readData sz x >>= f) s = .ok a t ↔
      alignedAt sz x = true ∧ f (s.loaded sz s.dataFc x) (s.load sz s.dataFc x) = .ok a t := by
  rw [M.bind_ok_iff]
  constructor
  · rintro ⟨w, u, h, h'⟩
    obtain ⟨hr, rfl, rfl⟩ := readData_of_ok h
    exact ⟨hr, h'⟩
  · rintro ⟨hr, h'⟩
    exact ⟨_, _, readData_ok hr, h'⟩

theorem memWrite_iff {sz : Size} {fc : BitVec 3} {x v : Long} {s t : State} {u : Unit} :
    memWrite sz fc x v s = .ok u t ↔ alignedAt sz x = true ∧ t = s.store sz fc x v :=
  ⟨memWrite_of_ok, fun ⟨h, ht⟩ => by rw [memWrite_ok h, ht]⟩

theorem writeData_iff {sz : Size} {x v : Long} {s t : State} {u : Unit} :
    writeData sz x v s = .ok u t ↔ alignedAt sz x = true ∧ t = s.store sz s.dataFc x v := memWrite_iff

theorem writeData_bind_iff {α : Type} {sz : Size} {x v : Long} {f : Unit → M α} {s t : State} {a : α} :
    (writeData sz x v >>= f) s = .ok a t ↔
      alignedAt sz x = true ∧ f () (s.store sz s.dataFc x v) = .ok a t := by
  rw [M.bind_ok_iff]
  constructor
  · rintro ⟨w, u, h, h'⟩
    obtain ⟨hr, rfl⟩ := writeData_of_ok h
    exact ⟨hr, h'⟩
  · rintro ⟨hr, h'⟩
    exact ⟨_, _, writeData_ok hr, h'⟩

theorem push_iff {sz : Size} {v : Long} {s t : State} {u : Unit} :
    push sz v s = .ok u t ↔ alignedAt sz (s.a[7] - BitVec.ofNat 32 sz.bytes) = true ∧ t = s.pushed sz v :=
  ⟨push_of_ok, fun ⟨h, ht⟩ => by rw [push_ok h, ht]⟩

theorem push_bind_iff {α : Type} {sz : Size} {v : Long} {f : Unit → M α} {s t : State} {a : α} :
    (push sz v >>= f) s = .ok a t ↔
      alignedAt sz (s.a[7] - BitVec.ofNat 32 sz.bytes) = true ∧ f () (s.pushed sz v) = .ok a t := by
  rw [M.bind_ok_iff]
  constructor
  · rintro ⟨w, u, h, h'⟩
    obtain ⟨hr, rfl⟩ := push_of_ok h
    exact ⟨hr, h'⟩
  · rintro ⟨hr, h'⟩
    exact ⟨_, _, push_ok hr, h'⟩

theorem pop_bind_iff {α : Type} {sz : Size} {f : Long → M α} {s t : State} {a : α} :
    (pop sz >>= f) s = .ok a t ↔ alignedAt sz s.a[7] = true ∧ f (s.stackTop sz) (s.popped sz) = .ok a t := by
  rw [M.bind_ok_iff]
  constructor
  · rintro ⟨w, u, h, h'⟩
    obtain ⟨hr, rfl, rfl⟩ := pop_of_ok h
    exact ⟨hr, h'⟩
  · rintro ⟨hr, h'⟩
    exact ⟨_, _, pop_ok hr, h'⟩

theorem require_bind_iff {α : Type} {p : State → Bool} {e : State → Exit} {f : Unit → M α} {s t : State} {a : α} :
    (require p e >>= f) s = .ok a t ↔ p s = true ∧ f () s = .ok a t := by
  rw [M.require_bind]
  by_cases h : p s = true <;> simp [h]

/-- A descriptor that has an address, with its space. -/
theorem eaAddr_bind_iff {α : Type} {d : Desc} {f : Long × Space → M α} {s t : State} {a : α} :
    (eaAddr d >>= f) s = .ok a t ↔ ∃ x sp, d = .mem x sp ∧ f (x, sp) s = .ok a t := by
  rw [M.bind_ok_iff]
  constructor
  · rintro ⟨⟨x, sp⟩, u, h, h'⟩
    cases d <;> cases h
    exact ⟨_, _, rfl, h'⟩
  · rintro ⟨x, sp, rfl, h'⟩
    exact ⟨_, _, rfl, h'⟩

theorem addressEa_bind_iff {α : Type} {ea : Ea} {sz : Size} {f : Long → M α} {s t : State} {a : α} :
    (addressEa ea sz >>= f) s = .ok a t ↔
      s.streamReady (ea.extWords sz) = true ∧ (∃ x sp, s.eaDesc ea sz = .mem x sp) ∧
        f (s.eaAddress ea sz) (s.afterEa ea sz) = .ok a t := by
  simp only [addressEa, M.bind_bind, resolve_bind_iff, eaAddr_bind_iff, M.pure_bind]
  constructor
  · rintro ⟨hr, x, sp, hd, h⟩
    refine ⟨hr, ⟨x, sp, hd⟩, ?_⟩
    simpa [State.eaAddress, hd] using h
  · rintro ⟨hr, ⟨x, sp, hd⟩, h⟩
    refine ⟨hr, x, sp, hd, ?_⟩
    simpa [State.eaAddress, hd] using h

/-! The bodies of the arithmetic and logical families. -/

@[simp] theorem State.afterReadEa_d (s : State) (ea : Ea) (sz : Size) : (s.afterReadEa ea sz).d = s.d := by
  simp [State.afterReadEa]

@[simp] theorem State.afterReadEa_ccr (s : State) (ea : Ea) (sz : Size) : (s.afterReadEa ea sz).ccr = s.ccr := by
  simp [State.afterReadEa]

theorem eaDnBody_iff {f : AluOp} {dn : Fin 8} {sz : Size} {ea : Ea} {s t : State} {u : Unit} :
    eaDnBody f dn sz ea s = .ok u t ↔
      s.eaReady ea sz = true ∧
        t = (s.afterReadEa ea sz).putD dn sz (f sz (s.eaValue ea sz) (low sz s.d[dn]) s.ccr) := by
  simp only [eaDnBody, readEa_bind_iff, M.upd_apply, State.afterReadEa_d, State.afterReadEa_ccr]
  refine and_congr_right fun _ => ?_
  constructor
  · intro h
    cases h
    rfl
  · rintro rfl
    rfl

theorem modifyEa_iff {f : Long → Ccr → Alu} {sz : Size} {ea : Ea} {s t : State} {u : Unit} :
    modifyEa f sz ea s = .ok u t ↔
      s.eaReady ea sz = true ∧ (s.eaDesc ea sz).writable = true ∧ t = s.modified f sz ea := by
  simp only [modifyEa, modifyDesc, resolve_bind_iff, eaRead_bind_iff, M.look_bind, eaWrite_bind_iff, M.upd_apply,
    State.eaReady, Bool.and_eq_true]
  constructor
  · rintro ⟨h1, h2, h3, -, h⟩
    cases h
    refine ⟨⟨h1, h2⟩, h3, ?_⟩
    simp [State.modified, State.afterReadEa, State.eaValue]
  · rintro ⟨⟨h1, h2⟩, h3, rfl⟩
    refine ⟨h1, h2, h3, h2, ?_⟩
    simp [State.modified, State.afterReadEa, State.eaValue]

theorem dnEaBody_iff {f : AluOp} {dn : Fin 8} {sz : Size} {ea : Ea} {s t : State} {u : Unit} :
    dnEaBody f dn sz ea s = .ok u t ↔
      s.eaReady ea sz = true ∧ (s.eaDesc ea sz).writable = true ∧ t = s.modified (f sz (low sz s.d[dn])) sz ea :=
  modifyEa_iff

theorem immEaBody_iff {f : AluOp} {sz : Size} {ea : Ea} {s t : State} {u : Unit} :
    immEaBody f sz ea s = .ok u t ↔
      s.streamReady (immWords sz) = true ∧ (s.skip (immWords sz)).eaReady ea sz = true ∧
        ((s.skip (immWords sz)).eaDesc ea sz).writable = true ∧
          t = (s.skip (immWords sz)).modified (f sz (s.immValue sz)) sz ea := by
  simp only [immEaBody, immediate_bind_iff, modifyEa_iff]

/-- An operand of a class that can be written is a descriptor that can be written. -/
theorem State.writable_eaDesc (s : State) (ea : Ea) (sz sz' : Size)
    (h : EaClass.dataAlterable.admits sz' ea = true) : (s.eaDesc ea sz).writable = true := by
  cases ea <;> simp [EaClass.admits, EaClass.modes, Ea.mode] at h <;> rfl

/-- Memory alterable operands are data alterable ones (30_encoding.md R104). -/
theorem dataAlterable_of_memoryAlterable {ea : Ea} {sz sz' : Size} (h : EaClass.memoryAlterable.admits sz ea = true) :
    EaClass.dataAlterable.admits sz' ea = true := by
  cases ea <;> simp [EaClass.admits, EaClass.modes, Ea.mode] at h ⊢

/-- A control operand is in memory. -/
theorem State.control_eaDesc (s : State) (ea : Ea) (sz sz' : Size) (h : EaClass.control.admits sz' ea = true) :
    ∃ x sp, s.eaDesc ea sz = .mem x sp := by
  cases ea <;> simp [EaClass.admits, EaClass.modes, Ea.mode] at h <;> exact ⟨_, _, rfl⟩

/-! Predecremented and postincremented operands. -/

@[simp] theorem State.setA_get (s : State) (n : Fin 8) (v : Long) : (s.setA n v).a[n] = v := by simp

theorem predecrement_bind {α : Type} {n : Fin 8} {sz : Size} {f : Long → M α} {s : State} :
    (predecrement n sz >>= f) s = f (s.predAddress n sz) (s.setA n (s.predAddress n sz)) := by
  simp only [predecrement, M.bind_bind, M.upd_bind, M.look_bind, State.setA_get]
  rfl

/-- A predecremented operand read (R235). -/
theorem readPred_bind_iff {α : Type} {n : Fin 8} {sz : Size} {f : Long → Long → M α} {s t : State} {a : α} :
    (predecrement n sz >>= fun x => readData sz x >>= f x) s = .ok a t ↔
      alignedAt sz (s.predAddress n sz) = true ∧
        f (s.predAddress n sz) (s.predValue n sz) (s.afterPred n sz) = .ok a t := by
  rw [predecrement_bind, readData_bind_iff]
  exact Iff.rfl

/-- A postincremented operand read (R244). -/
theorem readPost_bind_iff {α : Type} {n : Fin 8} {sz : Size} {f : Long → M α} {s t : State} {a : α} :
    (readPostincrement n sz >>= f) s = .ok a t ↔
      alignedAt sz s.a[n] = true ∧ f (s.postValue n sz) (s.afterPost n sz) = .ok a t := by
  simp only [readPostincrement, M.bind_bind, M.look_bind, M.upd_bind, readData_bind_iff]
  rfl

@[simp] theorem State.afterPred_ccr (s : State) (n : Fin 8) (sz : Size) : (s.afterPred n sz).ccr = s.ccr := rfl
@[simp] theorem State.afterPred_d (s : State) (n : Fin 8) (sz : Size) : (s.afterPred n sz).d = s.d := rfl
@[simp] theorem State.afterPred_draws (s : State) (n : Fin 8) (sz : Size) : (s.afterPred n sz).draws = s.draws := rfl
@[simp] theorem State.afterPost_ccr (s : State) (n : Fin 8) (sz : Size) : (s.afterPost n sz).ccr = s.ccr := rfl

theorem State.afterPred_get (s : State) (n : Fin 8) (sz : Size) :
    (s.afterPred n sz).a[n] = s.predAddress n sz := by
  simp [State.afterPred]

/-- A register form of ADDX or SUBX (R235, R240). -/
theorem extendBody_reg {f : AluOp} {x y : Fin 8} {sz : Size} {s : State} :
    extendBody f x sz .reg y s = .ok () (s.putD x sz (f sz (low sz s.d[y]) (low sz s.d[x]) s.ccr)) := rfl

/-- A memory form of ADDX or SUBX. -/
theorem extendBody_mem_iff {f : AluOp} {x y : Fin 8} {sz : Size} {s t : State} {u : Unit} :
    extendBody f x sz .mem y s = .ok u t ↔
      s.predPairReady x y sz = true ∧
        t = ((((s.afterPred y sz).afterPred x sz).store sz s.dataFc ((s.afterPred y sz).predAddress x sz)
          (f sz (s.predValue y sz) ((s.afterPred y sz).predValue x sz) s.ccr).r).setCcr
            (f sz (s.predValue y sz) ((s.afterPred y sz).predValue x sz) s.ccr).ccr) := by
  simp only [extendBody, readPred_bind_iff, M.look_bind, writeData_bind_iff, M.upd_apply, State.predPairReady,
    Bool.and_eq_true, State.afterPred_ccr]
  constructor
  · rintro ⟨h1, h2, -, h⟩
    cases h
    exact ⟨⟨h1, h2⟩, rfl⟩
  · rintro ⟨⟨h1, h2⟩, rfl⟩
    exact ⟨h1, h2, h2, rfl⟩

/-- The decimal result (47_bcd.md R310). -/
theorem bcdResult_bind {α : Type} {valid : Bool} {exact : Long × Bool} {f : Long × Bool → M α} {s : State} :
    (bcdResult valid exact >>= f) s = f (s.bcdOutcome valid exact) (s.drawn (bcdDraws valid)) := by
  cases valid <;> rfl

/-- The decimal flags (R310). -/
theorem bcdFlags_bind {α : Type} {valid : Bool} {o : Long × Bool} {f : Unit → M α} {s : State} :
    (bcdFlags o >>= f) (s.drawn (bcdDraws valid)) = f () (s.afterBcd valid o) := by
  simp only [bcdFlags, M.bind_bind, M.drawBit_bind, M.upd_bind]
  rfl

theorem bcdBody_reg {g : Long → Long → Bool → Long × Bool} {x y : Fin 8} {s : State} :
    bcdBody g x .reg y s =
      .ok () ((s.afterBcd (validBcd (low .b s.d[y]) && validBcd (low .b s.d[x]))
        (s.bcdOutcome (validBcd (low .b s.d[y]) && validBcd (low .b s.d[x])) (g (low .b s.d[y]) (low .b s.d[x]) s.ccr.x))).setDw
          x .b (s.bcdOutcome (validBcd (low .b s.d[y]) && validBcd (low .b s.d[x]))
            (g (low .b s.d[y]) (low .b s.d[x]) s.ccr.x)).1) := by
  simp only [bcdBody, M.look_bind, bcdResult_bind, bcdFlags_bind, M.upd_apply]

theorem bcdBody_mem {g : Long → Long → Bool → Long × Bool} {x y : Fin 8} {s : State} :
    bcdBody g x .mem y s =
      .ok () ((((s.afterPred y .b).afterPred x .b).afterBcd
        (validBcd (s.predValue y .b) && validBcd ((s.afterPred y .b).predValue x .b))
        (s.bcdOutcome (validBcd (s.predValue y .b) && validBcd ((s.afterPred y .b).predValue x .b))
          (g (s.predValue y .b) ((s.afterPred y .b).predValue x .b) s.ccr.x))).store .b s.dataFc
            ((s.afterPred y .b).predAddress x .b)
            (s.bcdOutcome (validBcd (s.predValue y .b) && validBcd ((s.afterPred y .b).predValue x .b))
              (g (s.predValue y .b) ((s.afterPred y .b).predValue x .b) s.ccr.x)).1) := by
  simp only [bcdBody]
  rw [readPred_bind_iff]
  refine ⟨rfl, ?_⟩
  rw [readPred_bind_iff]
  refine ⟨rfl, ?_⟩
  simp only [M.look_bind, bcdResult_bind, bcdFlags_bind]
  rw [writeData_iff]
  exact ⟨rfl, rfl⟩

end Sys2Proof.Machine
end

