-- ==== Sys2Proof/Laws/PerInstr.lean ====
section
/-! SUPPORT. Per instruction: its length is two to ten bytes, an even number (30_encoding.md R100, R115). -/

namespace Sys2Proof.Laws.Length

set_option Elab.async false

/-- One to five words (R100). -/
def Statement (i : Instr) : Prop := 2 ≤ i.lengthBytes ∧ i.lengthBytes ≤ 10 ∧ i.lengthBytes % 2 = 0

/-- An EA has at most two extension words (R103). -/
theorem extWords_le (sz : Size) (ea : Ea) : ea.extWords sz ≤ 2 := by cases ea <;> cases sz <;> simp [Ea.extWords]

/-- An immediate has at most two words (R107). -/
theorem immWords_le (sz : Size) : immWords sz ≤ 2 := by cases sz <;> decide

/-- A branch has at most one displacement word (R115). -/
theorem dispWords_le (d8 : Byte) : dispWords d8 ≤ 1 := by unfold dispWords; split <;> decide

/-- A bound on the number of extension words bounds the length. -/
theorem of_words (i : Instr) (h : i.extWords ≤ 4) : Statement i := by
  refine ⟨?_, ?_, ?_⟩ <;> (unfold Instr.lengthBytes; omega)

theorem oriToCcr : Statement (.oriToCcr) :=
  of_words _ (by simp only [Instr.extWords]; omega)

theorem oriToSr : Statement (.oriToSr) :=
  of_words _ (by simp only [Instr.extWords]; omega)

theorem ori (sz : Size) (ea : Ea) : Statement (.ori sz ea) :=
  of_words _ (by have h0 := extWords_le sz ea; have h1 := immWords_le sz; simp only [Instr.extWords]; omega)

theorem andiToCcr : Statement (.andiToCcr) :=
  of_words _ (by simp only [Instr.extWords]; omega)

theorem andiToSr : Statement (.andiToSr) :=
  of_words _ (by simp only [Instr.extWords]; omega)

theorem andi (sz : Size) (ea : Ea) : Statement (.andi sz ea) :=
  of_words _ (by have h0 := extWords_le sz ea; have h1 := immWords_le sz; simp only [Instr.extWords]; omega)

theorem subi (sz : Size) (ea : Ea) : Statement (.subi sz ea) :=
  of_words _ (by have h0 := extWords_le sz ea; have h1 := immWords_le sz; simp only [Instr.extWords]; omega)

theorem addi (sz : Size) (ea : Ea) : Statement (.addi sz ea) :=
  of_words _ (by have h0 := extWords_le sz ea; have h1 := immWords_le sz; simp only [Instr.extWords]; omega)

theorem btstImm (ea : Ea) : Statement (.btstImm ea) :=
  of_words _ (by have h0 := extWords_le .b ea; simp only [Instr.extWords]; omega)

theorem bchgImm (ea : Ea) : Statement (.bchgImm ea) :=
  of_words _ (by have h0 := extWords_le .b ea; simp only [Instr.extWords]; omega)

theorem bclrImm (ea : Ea) : Statement (.bclrImm ea) :=
  of_words _ (by have h0 := extWords_le .b ea; simp only [Instr.extWords]; omega)

theorem bsetImm (ea : Ea) : Statement (.bsetImm ea) :=
  of_words _ (by have h0 := extWords_le .b ea; simp only [Instr.extWords]; omega)

theorem eoriToCcr : Statement (.eoriToCcr) :=
  of_words _ (by simp only [Instr.extWords]; omega)

theorem eoriToSr : Statement (.eoriToSr) :=
  of_words _ (by simp only [Instr.extWords]; omega)

theorem eori (sz : Size) (ea : Ea) : Statement (.eori sz ea) :=
  of_words _ (by have h0 := extWords_le sz ea; have h1 := immWords_le sz; simp only [Instr.extWords]; omega)

theorem cmpi (sz : Size) (ea : Ea) : Statement (.cmpi sz ea) :=
  of_words _ (by have h0 := extWords_le sz ea; have h1 := immWords_le sz; simp only [Instr.extWords]; omega)

theorem moves (sz : Size) (ea : Ea) : Statement (.moves sz ea) :=
  of_words _ (by have h0 := extWords_le sz ea; simp only [Instr.extWords]; omega)

theorem btstReg (dn : Fin 8) (ea : Ea) : Statement (.btstReg dn ea) :=
  of_words _ (by have h0 := extWords_le .b ea; simp only [Instr.extWords]; omega)

theorem bchgReg (dn : Fin 8) (ea : Ea) : Statement (.bchgReg dn ea) :=
  of_words _ (by have h0 := extWords_le .b ea; simp only [Instr.extWords]; omega)

theorem bclrReg (dn : Fin 8) (ea : Ea) : Statement (.bclrReg dn ea) :=
  of_words _ (by have h0 := extWords_le .b ea; simp only [Instr.extWords]; omega)

theorem bsetReg (dn : Fin 8) (ea : Ea) : Statement (.bsetReg dn ea) :=
  of_words _ (by have h0 := extWords_le .b ea; simp only [Instr.extWords]; omega)

theorem movep (dn : Fin 8) (dir : MoveDir) (sz : Size) (an : Fin 8) : Statement (.movep dn dir sz an) :=
  of_words _ (by simp only [Instr.extWords]; omega)

theorem moveB (src : Ea) (dst : Ea) : Statement (.moveB src dst) :=
  of_words _ (by have h0 := extWords_le .b src; have h1 := extWords_le .b dst; simp only [Instr.extWords]; omega)

theorem moveW (src : Ea) (dst : Ea) : Statement (.moveW src dst) :=
  of_words _ (by have h0 := extWords_le .w src; have h1 := extWords_le .w dst; simp only [Instr.extWords]; omega)

theorem moveL (src : Ea) (dst : Ea) : Statement (.moveL src dst) :=
  of_words _ (by have h0 := extWords_le .l src; have h1 := extWords_le .l dst; simp only [Instr.extWords]; omega)

theorem moveaW (an : Fin 8) (src : Ea) : Statement (.moveaW an src) :=
  of_words _ (by have h0 := extWords_le .w src; simp only [Instr.extWords]; omega)

theorem moveaL (an : Fin 8) (src : Ea) : Statement (.moveaL an src) :=
  of_words _ (by have h0 := extWords_le .l src; simp only [Instr.extWords]; omega)

theorem negx (sz : Size) (ea : Ea) : Statement (.negx sz ea) :=
  of_words _ (by have h0 := extWords_le sz ea; simp only [Instr.extWords]; omega)

theorem moveFromSr (ea : Ea) : Statement (.moveFromSr ea) :=
  of_words _ (by have h0 := extWords_le .w ea; simp only [Instr.extWords]; omega)

theorem chk (dn : Fin 8) (ea : Ea) : Statement (.chk dn ea) :=
  of_words _ (by have h0 := extWords_le .w ea; simp only [Instr.extWords]; omega)

theorem lea (an : Fin 8) (ea : Ea) : Statement (.lea an ea) :=
  of_words _ (by have h0 := extWords_le .l ea; simp only [Instr.extWords]; omega)

theorem clr (sz : Size) (ea : Ea) : Statement (.clr sz ea) :=
  of_words _ (by have h0 := extWords_le sz ea; simp only [Instr.extWords]; omega)

theorem moveFromCcr (ea : Ea) : Statement (.moveFromCcr ea) :=
  of_words _ (by have h0 := extWords_le .w ea; simp only [Instr.extWords]; omega)

theorem neg (sz : Size) (ea : Ea) : Statement (.neg sz ea) :=
  of_words _ (by have h0 := extWords_le sz ea; simp only [Instr.extWords]; omega)

theorem moveToCcr (ea : Ea) : Statement (.moveToCcr ea) :=
  of_words _ (by have h0 := extWords_le .w ea; simp only [Instr.extWords]; omega)

theorem notOp (sz : Size) (ea : Ea) : Statement (.notOp sz ea) :=
  of_words _ (by have h0 := extWords_le sz ea; simp only [Instr.extWords]; omega)

theorem moveToSr (ea : Ea) : Statement (.moveToSr ea) :=
  of_words _ (by have h0 := extWords_le .w ea; simp only [Instr.extWords]; omega)

theorem nbcd (ea : Ea) : Statement (.nbcd ea) :=
  of_words _ (by have h0 := extWords_le .b ea; simp only [Instr.extWords]; omega)

theorem swap (dn : Fin 8) : Statement (.swap dn) :=
  of_words _ (by simp only [Instr.extWords]; omega)

theorem bkpt (v : BitVec 3) : Statement (.bkpt v) :=
  of_words _ (by simp only [Instr.extWords]; omega)

theorem pea (ea : Ea) : Statement (.pea ea) :=
  of_words _ (by have h0 := extWords_le .l ea; simp only [Instr.extWords]; omega)

theorem extW (dn : Fin 8) : Statement (.extW dn) :=
  of_words _ (by simp only [Instr.extWords]; omega)

theorem extL (dn : Fin 8) : Statement (.extL dn) :=
  of_words _ (by simp only [Instr.extWords]; omega)

theorem movemToMem (sz : Size) (ea : Ea) : Statement (.movemToMem sz ea) :=
  of_words _ (by have h0 := extWords_le sz ea; simp only [Instr.extWords]; omega)

theorem tst (sz : Size) (ea : Ea) : Statement (.tst sz ea) :=
  of_words _ (by have h0 := extWords_le sz ea; simp only [Instr.extWords]; omega)

theorem tas (ea : Ea) : Statement (.tas ea) :=
  of_words _ (by have h0 := extWords_le .b ea; simp only [Instr.extWords]; omega)

theorem illegal : Statement (.illegal) :=
  of_words _ (by simp only [Instr.extWords]; omega)

theorem movemToRegs (sz : Size) (ea : Ea) : Statement (.movemToRegs sz ea) :=
  of_words _ (by have h0 := extWords_le sz ea; simp only [Instr.extWords]; omega)

theorem trap (v : BitVec 4) : Statement (.trap v) :=
  of_words _ (by simp only [Instr.extWords]; omega)

theorem link (an : Fin 8) : Statement (.link an) :=
  of_words _ (by simp only [Instr.extWords]; omega)

theorem unlk (an : Fin 8) : Statement (.unlk an) :=
  of_words _ (by simp only [Instr.extWords]; omega)

theorem moveAnUsp (an : Fin 8) : Statement (.moveAnUsp an) :=
  of_words _ (by simp only [Instr.extWords]; omega)

theorem moveUspAn (an : Fin 8) : Statement (.moveUspAn an) :=
  of_words _ (by simp only [Instr.extWords]; omega)

theorem reset : Statement (.reset) :=
  of_words _ (by simp only [Instr.extWords]; omega)

theorem nop : Statement (.nop) :=
  of_words _ (by simp only [Instr.extWords]; omega)

theorem stop : Statement (.stop) :=
  of_words _ (by simp only [Instr.extWords]; omega)

theorem rte : Statement (.rte) :=
  of_words _ (by simp only [Instr.extWords]; omega)

theorem rtd : Statement (.rtd) :=
  of_words _ (by simp only [Instr.extWords]; omega)

theorem rts : Statement (.rts) :=
  of_words _ (by simp only [Instr.extWords]; omega)

theorem trapv : Statement (.trapv) :=
  of_words _ (by simp only [Instr.extWords]; omega)

theorem rtr : Statement (.rtr) :=
  of_words _ (by simp only [Instr.extWords]; omega)

theorem movecRcRn : Statement (.movecRcRn) :=
  of_words _ (by simp only [Instr.extWords]; omega)

theorem movecRnRc : Statement (.movecRnRc) :=
  of_words _ (by simp only [Instr.extWords]; omega)

theorem jsr (ea : Ea) : Statement (.jsr ea) :=
  of_words _ (by have h0 := extWords_le .l ea; simp only [Instr.extWords]; omega)

theorem jmp (ea : Ea) : Statement (.jmp ea) :=
  of_words _ (by have h0 := extWords_le .l ea; simp only [Instr.extWords]; omega)

theorem addq (q : BitVec 3) (sz : Size) (ea : Ea) : Statement (.addq q sz ea) :=
  of_words _ (by have h0 := extWords_le sz ea; simp only [Instr.extWords]; omega)

theorem subq (q : BitVec 3) (sz : Size) (ea : Ea) : Statement (.subq q sz ea) :=
  of_words _ (by have h0 := extWords_le sz ea; simp only [Instr.extWords]; omega)

theorem dbcc (c : Cond) (dn : Fin 8) : Statement (.dbcc c dn) :=
  of_words _ (by simp only [Instr.extWords]; omega)

theorem scc (c : Cond) (ea : Ea) : Statement (.scc c ea) :=
  of_words _ (by have h0 := extWords_le .b ea; simp only [Instr.extWords]; omega)

theorem bra (d8 : Byte) : Statement (.bra d8) :=
  of_words _ (by have h0 := dispWords_le d8; simp only [Instr.extWords]; omega)

theorem bsr (d8 : Byte) : Statement (.bsr d8) :=
  of_words _ (by have h0 := dispWords_le d8; simp only [Instr.extWords]; omega)

theorem bcc (c : Cond) (d8 : Byte) : Statement (.bcc c d8) :=
  of_words _ (by have h0 := dispWords_le d8; simp only [Instr.extWords]; omega)

theorem moveq (dn : Fin 8) (d8 : Byte) : Statement (.moveq dn d8) :=
  of_words _ (by simp only [Instr.extWords]; omega)

theorem orEaDn (dn : Fin 8) (sz : Size) (ea : Ea) : Statement (.orEaDn dn sz ea) :=
  of_words _ (by have h0 := extWords_le sz ea; simp only [Instr.extWords]; omega)

theorem orDnEa (dn : Fin 8) (sz : Size) (ea : Ea) : Statement (.orDnEa dn sz ea) :=
  of_words _ (by have h0 := extWords_le sz ea; simp only [Instr.extWords]; omega)

theorem divu (dn : Fin 8) (ea : Ea) : Statement (.divu dn ea) :=
  of_words _ (by have h0 := extWords_le .w ea; simp only [Instr.extWords]; omega)

theorem divs (dn : Fin 8) (ea : Ea) : Statement (.divs dn ea) :=
  of_words _ (by have h0 := extWords_le .w ea; simp only [Instr.extWords]; omega)

theorem sbcd (x : Fin 8) (form : RegMem) (y : Fin 8) : Statement (.sbcd x form y) :=
  of_words _ (by simp only [Instr.extWords]; omega)

theorem subEaDn (dn : Fin 8) (sz : Size) (ea : Ea) : Statement (.subEaDn dn sz ea) :=
  of_words _ (by have h0 := extWords_le sz ea; simp only [Instr.extWords]; omega)

theorem subDnEa (dn : Fin 8) (sz : Size) (ea : Ea) : Statement (.subDnEa dn sz ea) :=
  of_words _ (by have h0 := extWords_le sz ea; simp only [Instr.extWords]; omega)

theorem suba (an : Fin 8) (sz : Size) (ea : Ea) : Statement (.suba an sz ea) :=
  of_words _ (by have h0 := extWords_le sz ea; simp only [Instr.extWords]; omega)

theorem subx (x : Fin 8) (sz : Size) (form : RegMem) (y : Fin 8) : Statement (.subx x sz form y) :=
  of_words _ (by simp only [Instr.extWords]; omega)

theorem lineA (low : BitVec 12) : Statement (.lineA low) :=
  of_words _ (by simp only [Instr.extWords]; omega)

theorem cmp (dn : Fin 8) (sz : Size) (ea : Ea) : Statement (.cmp dn sz ea) :=
  of_words _ (by have h0 := extWords_le sz ea; simp only [Instr.extWords]; omega)

theorem cmpa (an : Fin 8) (sz : Size) (ea : Ea) : Statement (.cmpa an sz ea) :=
  of_words _ (by have h0 := extWords_le sz ea; simp only [Instr.extWords]; omega)

theorem eor (dn : Fin 8) (sz : Size) (ea : Ea) : Statement (.eor dn sz ea) :=
  of_words _ (by have h0 := extWords_le sz ea; simp only [Instr.extWords]; omega)

theorem cmpm (x : Fin 8) (sz : Size) (y : Fin 8) : Statement (.cmpm x sz y) :=
  of_words _ (by simp only [Instr.extWords]; omega)

theorem andEaDn (dn : Fin 8) (sz : Size) (ea : Ea) : Statement (.andEaDn dn sz ea) :=
  of_words _ (by have h0 := extWords_le sz ea; simp only [Instr.extWords]; omega)

theorem andDnEa (dn : Fin 8) (sz : Size) (ea : Ea) : Statement (.andDnEa dn sz ea) :=
  of_words _ (by have h0 := extWords_le sz ea; simp only [Instr.extWords]; omega)

theorem mulu (dn : Fin 8) (ea : Ea) : Statement (.mulu dn ea) :=
  of_words _ (by have h0 := extWords_le .w ea; simp only [Instr.extWords]; omega)

theorem muls (dn : Fin 8) (ea : Ea) : Statement (.muls dn ea) :=
  of_words _ (by have h0 := extWords_le .w ea; simp only [Instr.extWords]; omega)

theorem abcd (x : Fin 8) (form : RegMem) (y : Fin 8) : Statement (.abcd x form y) :=
  of_words _ (by simp only [Instr.extWords]; omega)

theorem exgDxDy (x : Fin 8) (y : Fin 8) : Statement (.exgDxDy x y) :=
  of_words _ (by simp only [Instr.extWords]; omega)

theorem exgAxAy (x : Fin 8) (y : Fin 8) : Statement (.exgAxAy x y) :=
  of_words _ (by simp only [Instr.extWords]; omega)

theorem exgDxAy (x : Fin 8) (y : Fin 8) : Statement (.exgDxAy x y) :=
  of_words _ (by simp only [Instr.extWords]; omega)

theorem addEaDn (dn : Fin 8) (sz : Size) (ea : Ea) : Statement (.addEaDn dn sz ea) :=
  of_words _ (by have h0 := extWords_le sz ea; simp only [Instr.extWords]; omega)

theorem addDnEa (dn : Fin 8) (sz : Size) (ea : Ea) : Statement (.addDnEa dn sz ea) :=
  of_words _ (by have h0 := extWords_le sz ea; simp only [Instr.extWords]; omega)

theorem adda (an : Fin 8) (sz : Size) (ea : Ea) : Statement (.adda an sz ea) :=
  of_words _ (by have h0 := extWords_le sz ea; simp only [Instr.extWords]; omega)

theorem addx (x : Fin 8) (sz : Size) (form : RegMem) (y : Fin 8) : Statement (.addx x sz form y) :=
  of_words _ (by simp only [Instr.extWords]; omega)

theorem asrReg (k : Fin 8) (sz : Size) (g : CountKind) (y : Fin 8) : Statement (.asrReg k sz g y) :=
  of_words _ (by simp only [Instr.extWords]; omega)

theorem aslReg (k : Fin 8) (sz : Size) (g : CountKind) (y : Fin 8) : Statement (.aslReg k sz g y) :=
  of_words _ (by simp only [Instr.extWords]; omega)

theorem lsrReg (k : Fin 8) (sz : Size) (g : CountKind) (y : Fin 8) : Statement (.lsrReg k sz g y) :=
  of_words _ (by simp only [Instr.extWords]; omega)

theorem lslReg (k : Fin 8) (sz : Size) (g : CountKind) (y : Fin 8) : Statement (.lslReg k sz g y) :=
  of_words _ (by simp only [Instr.extWords]; omega)

theorem roxrReg (k : Fin 8) (sz : Size) (g : CountKind) (y : Fin 8) : Statement (.roxrReg k sz g y) :=
  of_words _ (by simp only [Instr.extWords]; omega)

theorem roxlReg (k : Fin 8) (sz : Size) (g : CountKind) (y : Fin 8) : Statement (.roxlReg k sz g y) :=
  of_words _ (by simp only [Instr.extWords]; omega)

theorem rorReg (k : Fin 8) (sz : Size) (g : CountKind) (y : Fin 8) : Statement (.rorReg k sz g y) :=
  of_words _ (by simp only [Instr.extWords]; omega)

theorem rolReg (k : Fin 8) (sz : Size) (g : CountKind) (y : Fin 8) : Statement (.rolReg k sz g y) :=
  of_words _ (by simp only [Instr.extWords]; omega)

theorem asrEa (ea : Ea) : Statement (.asrEa ea) :=
  of_words _ (by have h0 := extWords_le .w ea; simp only [Instr.extWords]; omega)

theorem aslEa (ea : Ea) : Statement (.aslEa ea) :=
  of_words _ (by have h0 := extWords_le .w ea; simp only [Instr.extWords]; omega)

theorem lsrEa (ea : Ea) : Statement (.lsrEa ea) :=
  of_words _ (by have h0 := extWords_le .w ea; simp only [Instr.extWords]; omega)

theorem lslEa (ea : Ea) : Statement (.lslEa ea) :=
  of_words _ (by have h0 := extWords_le .w ea; simp only [Instr.extWords]; omega)

theorem roxrEa (ea : Ea) : Statement (.roxrEa ea) :=
  of_words _ (by have h0 := extWords_le .w ea; simp only [Instr.extWords]; omega)

theorem roxlEa (ea : Ea) : Statement (.roxlEa ea) :=
  of_words _ (by have h0 := extWords_le .w ea; simp only [Instr.extWords]; omega)

theorem rorEa (ea : Ea) : Statement (.rorEa ea) :=
  of_words _ (by have h0 := extWords_le .w ea; simp only [Instr.extWords]; omega)

theorem rolEa (ea : Ea) : Statement (.rolEa ea) :=
  of_words _ (by have h0 := extWords_le .w ea; simp only [Instr.extWords]; omega)

theorem lineF (low : BitVec 12) : Statement (.lineF low) :=
  of_words _ (by simp only [Instr.extWords]; omega)

end Sys2Proof.Laws.Length
end

