-- ==== Sys2Proof/Tests/Slice0.lean ====
section
/-! SUPPORT. The model's own tests: ill-formed terms refused, words written out from the encodings, one step per worked
example of the spec, and a witness of the hypotheses of each statement. Examples are those of each rule's Example line
and of 95_test_vectors.md, which names them E, EA, DM, AR, BT, PC, SC, EX and HZ. -/

namespace Sys2Proof.Tests

set_option Elab.async false

open Machine

/-! Ill-formed terms, one for each class and check of 30_encoding.md R104, R105 and R109. -/

/-- R104: a class does not admit the modes it leaves out. -/
theorem test_ill_formed_operands :
    [Instr.ori .w (.an 0), .btstImm .imm, .moves .b (.dn 0), .btstReg 0 (.an 1), .moveW (.dn 0) .pc16, .lea 0 (.pi 1),
      .movemToMem .w (.pi 0), .movemToRegs .l (.pd 0), .addq 1 .b (.an 2), .addEaDn 0 .b (.an 3), .addDnEa 0 .w (.dn 1),
      .moveB (.an 0) (.dn 0), .aslEa (.dn 0), .divu 0 (.an 0), .jmp .imm].all (fun i => !i.wellFormed) = true := by
  decide +kernel

/-- R105, R109: sizes and conditions that a row leaves out. -/
theorem test_ill_formed_fields :
    [Instr.movep 0 .memToReg .b 0, .movemToMem .b (.ind 0), .adda 0 .b (.dn 0), .cmpa 0 .b .imm, .bcc .t 2,
      .bcc .f 2].all (fun i => !i.wellFormed) = true := by decide +kernel

/-- R112: words that no row takes. -/
theorem test_undecoded_words :
    [0x7100, 0x4C00, 0x00C0, 0x41C8, 0x49C0, 0x4808, 0x4E78, 0x1008, 0xD008, 0x5008, 0xE3C0, 0x023D].all
      (fun w => decodeWord w == none) = true := by decide +kernel

/-! Decoding. -/

/-- Line 0: words written out from the encodings of 30_encoding.md R110. -/
theorem test_decode_line_0 :
    decodeWord 0b0000000000111100 = some (.oriToCcr) ∧
    decodeWord 0b0000000001111100 = some (.oriToSr) ∧
    decodeWord 0b0000000001000101 = some (.ori .w (.dn 5)) ∧
    decodeWord 0b0000001000111100 = some (.andiToCcr) ∧
    decodeWord 0b0000001001111100 = some (.andiToSr) ∧
    decodeWord 0b0000001000011011 = some (.andi .b (.pi 3)) ∧
    decodeWord 0b0000010010100010 = some (.subi .l (.pd 2)) ∧
    decodeWord 0b0000011001111001 = some (.addi .w .absL) ∧
    decodeWord 0b0000100000111010 = some (.btstImm .pc16) ∧
    decodeWord 0b0000100001101100 = some (.bchgImm (.d16 4)) ∧
    decodeWord 0b0000100010010000 = some (.bclrImm (.ind 0)) ∧
    decodeWord 0b0000100011110110 = some (.bsetImm (.d8x 6)) ∧
    decodeWord 0b0000101000111100 = some (.eoriToCcr) ∧
    decodeWord 0b0000101001111100 = some (.eoriToSr) ∧
    decodeWord 0b0000101010000001 = some (.eori .l (.dn 1)) ∧
    decodeWord 0b0000110000111000 = some (.cmpi .b .absW) ∧
    decodeWord 0b0000111001011111 = some (.moves .w (.pi 7)) ∧
    decodeWord 0b0000011100111100 = some (.btstReg 3 .imm) ∧
    decodeWord 0b0000001101000000 = some (.bchgReg 1 (.dn 0)) ∧
    decodeWord 0b0000111110100111 = some (.bclrReg 7 (.pd 7)) ∧
    decodeWord 0b0000010111010101 = some (.bsetReg 2 (.ind 5)) ∧
    decodeWord 0b0000110100001001 = some (.movep 6 .memToReg .w 1) ∧
    decodeWord 0b0000110101001001 = some (.movep 6 .memToReg .l 1) ∧
    decodeWord 0b0000110110001001 = some (.movep 6 .regToMem .w 1) ∧
    decodeWord 0b0000000111001000 = some (.movep 0 .regToMem .l 0) := by decide +kernel

/-- Lines 1, 2 and 3: words written out from the encodings of 30_encoding.md R110. -/
theorem test_decode_lines_1_2_3 :
    decodeWord 0b0001000000011111 = some (.moveB (.pi 7) (.dn 0)) ∧
    decodeWord 0b0011001000111100 = some (.moveW .imm (.dn 1)) ∧
    decodeWord 0b0011011100001010 = some (.moveW (.an 2) (.pd 3)) ∧
    decodeWord 0b0010001111000000 = some (.moveL (.dn 0) .absL) ∧
    decodeWord 0b0011000001111100 = some (.moveaW 0 .imm) ∧
    decodeWord 0b0010110001001111 = some (.moveaL 6 (.an 7)) := by decide +kernel

/-- Line 4: words written out from the encodings of 30_encoding.md R110. -/
theorem test_decode_line_4 :
    decodeWord 0b0100000010000000 = some (.negx .l (.dn 0)) ∧
    decodeWord 0b0100000011000000 = some (.moveFromSr (.dn 0)) ∧
    decodeWord 0b0100000110111100 = some (.chk 0 .imm) ∧
    decodeWord 0b0100001111101000 = some (.lea 1 (.d16 0)) ∧
    decodeWord 0b0100001001000000 = some (.clr .w (.dn 0)) ∧
    decodeWord 0b0100001011000000 = some (.moveFromCcr (.dn 0)) ∧
    decodeWord 0b0100010000010100 = some (.neg .b (.ind 4)) ∧
    decodeWord 0b0100010011111100 = some (.moveToCcr .imm) ∧
    decodeWord 0b0100011010100110 = some (.notOp .l (.pd 6)) ∧
    decodeWord 0b0100011011000000 = some (.moveToSr (.dn 0)) ∧
    decodeWord 0b0100100000000011 = some (.nbcd (.dn 3)) ∧
    decodeWord 0b0100100001000010 = some (.swap 2) ∧
    decodeWord 0b0100100001001101 = some (.bkpt 5) ∧
    decodeWord 0b0100100001010000 = some (.pea (.ind 0)) ∧
    decodeWord 0b0100100010000001 = some (.extW 1) ∧
    decodeWord 0b0100100011000111 = some (.extL 7) ∧
    decodeWord 0b0100100011100111 = some (.movemToMem .l (.pd 7)) ∧
    decodeWord 0b0100100010010011 = some (.movemToMem .w (.ind 3)) ∧
    decodeWord 0b0100101010000000 = some (.tst .l (.dn 0)) ∧
    decodeWord 0b0100101011010000 = some (.tas (.ind 0)) ∧
    decodeWord 0b0100101011111100 = some (.illegal) ∧
    decodeWord 0b0100110010011000 = some (.movemToRegs .w (.pi 0)) ∧
    decodeWord 0b0100110011111011 = some (.movemToRegs .l .pc8x) ∧
    decodeWord 0b0100111001001111 = some (.trap 15) ∧
    decodeWord 0b0100111001010110 = some (.link 6) ∧
    decodeWord 0b0100111001011110 = some (.unlk 6) ∧
    decodeWord 0b0100111001100000 = some (.moveAnUsp 0) ∧
    decodeWord 0b0100111001101101 = some (.moveUspAn 5) ∧
    decodeWord 0b0100111001110000 = some (.reset) ∧
    decodeWord 0b0100111001110001 = some (.nop) ∧
    decodeWord 0b0100111001110010 = some (.stop) ∧
    decodeWord 0b0100111001110011 = some (.rte) ∧
    decodeWord 0b0100111001110100 = some (.rtd) ∧
    decodeWord 0b0100111001110101 = some (.rts) ∧
    decodeWord 0b0100111001110110 = some (.trapv) ∧
    decodeWord 0b0100111001110111 = some (.rtr) ∧
    decodeWord 0b0100111001111010 = some (.movecRcRn) ∧
    decodeWord 0b0100111001111011 = some (.movecRnRc) ∧
    decodeWord 0b0100111010111010 = some (.jsr .pc16) ∧
    decodeWord 0b0100111011010000 = some (.jmp (.ind 0)) := by decide +kernel

/-- Lines 5 to 8: words written out from the encodings of 30_encoding.md R110. -/
theorem test_decode_lines_5_to_8 :
    decodeWord 0b0101000010000000 = some (.addq 0 .l (.dn 0)) ∧
    decodeWord 0b0101001101001011 = some (.subq 1 .w (.an 3)) ∧
    decodeWord 0b0101000111001010 = some (.dbcc .f 2) ∧
    decodeWord 0b0101011111000000 = some (.scc .eq (.dn 0)) ∧
    decodeWord 0b0110000000000100 = some (.bra 4) ∧
    decodeWord 0b0110000100010000 = some (.bsr 16) ∧
    decodeWord 0b0110011000000010 = some (.bcc .ne 2) ∧
    decodeWord 0b0111011011111111 = some (.moveq 3 0xFF) ∧
    decodeWord 0b1000000000000001 = some (.orEaDn 0 .b (.dn 1)) ∧
    decodeWord 0b1000100101010001 = some (.orDnEa 4 .w (.ind 1)) ∧
    decodeWord 0b1000000011111100 = some (.divu 0 .imm) ∧
    decodeWord 0b1000000111000001 = some (.divs 0 (.dn 1)) ∧
    decodeWord 0b1000000100001001 = some (.sbcd 0 .mem 1) := by decide +kernel

/-- Lines 9 to B: words written out from the encodings of 30_encoding.md R110. -/
theorem test_decode_lines_9_to_B :
    decodeWord 0b1001000001000001 = some (.subEaDn 0 .w (.dn 1)) ∧
    decodeWord 0b1001010100111000 = some (.subDnEa 2 .b .absW) ∧
    decodeWord 0b1001000111001001 = some (.suba 0 .l (.an 1)) ∧
    decodeWord 0b1001101011000000 = some (.suba 5 .w (.dn 0)) ∧
    decodeWord 0b1001000100001001 = some (.subx 0 .b .mem 1) ∧
    decodeWord 0b1010000100100011 = some (.lineA 0x123) ∧
    decodeWord 0b1011000001001001 = some (.cmp 0 .w (.an 1)) ∧
    decodeWord 0b1011000111001001 = some (.cmpa 0 .l (.an 1)) ∧
    decodeWord 0b1011001110000000 = some (.eor 1 .l (.dn 0)) ∧
    decodeWord 0b1011001100001000 = some (.cmpm 1 .b 0) := by decide +kernel

/-- Lines C and D: words written out from the encodings of 30_encoding.md R110. -/
theorem test_decode_lines_C_and_D :
    decodeWord 0b1100000001000001 = some (.andEaDn 0 .w (.dn 1)) ∧
    decodeWord 0b1100111110011010 = some (.andDnEa 7 .l (.pi 2)) ∧
    decodeWord 0b1100000011111100 = some (.mulu 0 .imm) ∧
    decodeWord 0b1100000111000001 = some (.muls 0 (.dn 1)) ∧
    decodeWord 0b1100000100000001 = some (.abcd 0 .reg 1) ∧
    decodeWord 0b1100000101000001 = some (.exgDxDy 0 1) ∧
    decodeWord 0b1100010101001011 = some (.exgAxAy 2 3) ∧
    decodeWord 0b1100000110001000 = some (.exgDxAy 0 0) ∧
    decodeWord 0b1101000000000001 = some (.addEaDn 0 .b (.dn 1)) ∧
    decodeWord 0b1101110101101101 = some (.addDnEa 6 .w (.d16 5)) ∧
    decodeWord 0b1101000011000001 = some (.adda 0 .w (.dn 1)) ∧
    decodeWord 0b1101000110000001 = some (.addx 0 .l .reg 1) := by decide +kernel

/-- Lines E and F: words written out from the encodings of 30_encoding.md R110. -/
theorem test_decode_lines_E_and_F :
    decodeWord 0b1110010001000000 = some (.asrReg 2 .w .immediate 0) ∧
    decodeWord 0b1110001100000000 = some (.aslReg 1 .b .immediate 0) ∧
    decodeWord 0b1110001000101000 = some (.lsrReg 1 .b .register 0) ∧
    decodeWord 0b1110001110101000 = some (.lslReg 1 .l .register 0) ∧
    decodeWord 0b1110001001110000 = some (.roxrReg 1 .w .register 0) ∧
    decodeWord 0b1110001100010000 = some (.roxlReg 1 .b .immediate 0) ∧
    decodeWord 0b1110001000011000 = some (.rorReg 1 .b .immediate 0) ∧
    decodeWord 0b1110000101011000 = some (.rolReg 0 .w .immediate 0) ∧
    decodeWord 0b1110000011010001 = some (.asrEa (.ind 1)) ∧
    decodeWord 0b1110000111010000 = some (.aslEa (.ind 0)) ∧
    decodeWord 0b1110001011011010 = some (.lsrEa (.pi 2)) ∧
    decodeWord 0b1110001111100011 = some (.lslEa (.pd 3)) ∧
    decodeWord 0b1110010011101100 = some (.roxrEa (.d16 4)) ∧
    decodeWord 0b1110010111110101 = some (.roxlEa (.d8x 5)) ∧
    decodeWord 0b1110011011111000 = some (.rorEa .absW) ∧
    decodeWord 0b1110011111111001 = some (.rolEa .absL) ∧
    decodeWord 0b1111001000000000 = some (.lineF 0x200) := by decide +kernel

/-! One step. -/

/-- Words at an address, most significant byte first. -/
def put (s : State) (a : Long) : List Word → State
  | [] => s
  | w :: rest => put (s.pokeWord 5 a w) (a + 2) rest

/-- Supervisor mode, the PC and an empty stack below 0x8000. -/
def at_ (pc : Long) : State := (State.reset.setPc pc).setA 7 0x8000

/-- The machine most examples start from. -/
def base : State := at_ 0x1000

/-- The same on M68010. -/
def m68010 : State := { base with cfg := { variant := .m68010 } }

/-- User mode with the USP 0x8000 and the SSP 0x9000. -/
def user : State := { base with sBit := false, iMask := 0, spInactive := 0x9000 }

/-- Flags given as XNZVC. -/
def cc (v : Byte) : Ccr := Ccr.ofByte v

/-- An outcome is a next state of which `p` holds. -/
def answers (o : StepOutcome) (p : State → Bool) : Bool :=
  match o with
  | .next t => p t
  | .fault _ => false
  | .refused _ => false

/-- The step of the words placed at the PC answers a next state of which `p` holds. -/
def stepped (ws : List Word) (s : State) (p : State → Bool) : Bool := answers (step (put s s.pc ws)) p

/-- The step of the words placed at the PC faults. -/
def faulted (ws : List Word) (s : State) (r : Fault) : Bool :=
  match step (put s s.pc ws) with
  | .fault q => q == r
  | _ => false

/-- R201. -/
theorem test_move_word : stepped [0x323C, 0x8000] (base.setD 1 0x12345678)
    (fun t => t.d[1] == 0x12348000 && t.ccr == cc 0b01000) = true := by decide +kernel

/-- E3, R143. -/
theorem test_move_byte_stack : stepped [0x101F] (put ((at_ 0x2000).setA 7 0x1000) 0x1000 [0x8000])
    (fun t => t.a[7] == 0x1002 && t.d[0] == 0x80 && t.ccr == cc 0b01000) = true := by decide +kernel

/-- DM1. -/
theorem test_move_long_memory : stepped [0x2080] ((base.setD 0 0x11223344).setA 0 0x3000)
    (fun t => t.peekLong 5 0x3000 == 0x11223344 && t.ccr == cc 0b00000) = true := by decide +kernel

/-- R202. -/
theorem test_movea_word : stepped [0x307C, 0xFFFE] (base.setCcr (cc 0b11111))
    (fun t => t.a[0] == 0xFFFFFFFE && t.ccr == cc 0b11111) = true := by decide +kernel

/-- R202. -/
theorem test_movea_long : stepped [0x2240] (base.setD 0 0x80001234)
    (fun t => t.a[1] == 0x80001234) = true := by decide +kernel

/-- R203. -/
theorem test_moveq_negative : stepped [0x76FF] base
    (fun t => t.d[3] == 0xFFFFFFFF && t.ccr == cc 0b01000) = true := by decide +kernel

/-- DM3. -/
theorem test_moveq_zero : stepped [0x7000] (base.setD 0 0xFFFFFFFF)
    (fun t => t.d[0] == 0 && t.ccr == cc 0b00100) = true := by decide +kernel

/-- R204, DM4. -/
theorem test_movem_push : stepped [0x48E7, 0x8040] ((((at_ 0x2000).setA 7 0x1000).setD 0 0x11112222).setA 1 0x33334444)
    (fun t => t.peekLong 5 0xFFC == 0x33334444 && t.peekLong 5 0xFF8 == 0x11112222 && t.a[7] == 0xFF8) = true := by decide +kernel

/-- DM5. -/
theorem test_movem_load_words : stepped [0x4C98, 0x0003] (put (base.setA 0 0x2000) 0x2000 [0x8000, 0x0001])
    (fun t => t.d[0] == 0xFFFF8000 && t.d[1] == 1 && t.a[0] == 0x2004) = true := by decide +kernel

/-- R205. -/
theorem test_movep_store : stepped [0x01C8, 0x0000] ((base.setD 0 0x11223344).setA 0 0x3000)
    (fun t => t.peekLong 5 0x3000 == 0x11002200 && t.peekLong 5 0x3004 == 0x33004400) = true := by decide +kernel

/-- R206. -/
theorem test_lea_displacement : stepped [0x43E8, 0x0008] (base.setA 0 0x1000)
    (fun t => t.a[1] == 0x1008) = true := by decide +kernel

/-- EA5. -/
theorem test_lea_index : stepped [0x43F0, 0x9802] ((base.setA 0 0x2000).setA 1 0xFFFFFFF0)
    (fun t => t.a[1] == 0x1FF2) = true := by decide +kernel

/-- R207. -/
theorem test_pea : stepped [0x4850] (((at_ 0x2000).setA 0 0x5000).setA 7 0x1000)
    (fun t => t.a[7] == 0xFFC && t.peekLong 5 0xFFC == 0x5000) = true := by decide +kernel

/-- R208. -/
theorem test_exg_data : stepped [0xC141] ((base.setD 0 1).setD 1 2)
    (fun t => t.d[0] == 2 && t.d[1] == 1) = true := by decide +kernel

/-- R208. -/
theorem test_exg_address : stepped [0xC54B] ((base.setA 2 1).setA 3 2)
    (fun t => t.a[2] == 2 && t.a[3] == 1) = true := by decide +kernel

/-- DM6. -/
theorem test_exg_mixed : stepped [0xC188] ((base.setD 0 1).setA 0 2)
    (fun t => t.d[0] == 2 && t.a[0] == 1) = true := by decide +kernel

/-- R209. -/
theorem test_swap : stepped [0x4840] (base.setD 0 0x1234ABCD)
    (fun t => t.d[0] == 0xABCD1234 && t.ccr == cc 0b01000) = true := by decide +kernel

/-- R210. -/
theorem test_link : stepped [0x4E56, 0xFFF8] ((base.setA 7 0x2000).setA 6 0x1234)
    (fun t => t.peekLong 5 0x1FFC == 0x1234 && t.a[6] == 0x1FFC && t.a[7] == 0x1FF4) = true := by decide +kernel

/-- R211. -/
theorem test_unlk : stepped [0x4E5E] (put (base.setA 6 0x1FFC) 0x1FFC [0x0000, 0x1234])
    (fun t => t.a[6] == 0x1234 && t.a[7] == 0x2000) = true := by decide +kernel

/-- R231. -/
theorem test_add_byte_overflow : stepped [0xD001] ((base.setD 0 0x7F).setD 1 1)
    (fun t => t.d[0] == 0x80 && t.ccr == cc 0b01010) = true := by decide +kernel

/-- the word row of the addition table. -/
theorem test_add_to_memory : stepped [0xD350] (put ((base.setD 1 1).setA 0 0x3000) 0x3000 [0x7FFF])
    (fun t => t.peekWord 5 0x3000 == 0x8000 && t.ccr == cc 0b01010) = true := by decide +kernel

/-- R232. -/
theorem test_adda_word : stepped [0xD0C1] ((base.setD 1 0xFFFF).setA 0 0x1000)
    (fun t => t.a[0] == 0xFFF) = true := by decide +kernel

/-- R233. -/
theorem test_addi_carry : stepped [0x0640, 0x0001] (base.setD 0 0xFFFF)
    (fun t => t.d[0] == 0 && t.ccr == cc 0b10101) = true := by decide +kernel

/-- R234. -/
theorem test_addq_long : stepped [0x5080] (base.setD 0 0xFFFFFFF8)
    (fun t => t.d[0] == 0 && t.ccr == cc 0b10101) = true := by decide +kernel

/-- R234. -/
theorem test_addq_address : stepped [0x5248] ((base.setA 0 0xFFFF).setCcr (cc 0b00010))
    (fun t => t.a[0] == 0x10000 && t.ccr == cc 0b00010) = true := by decide +kernel

/-- R235. -/
theorem test_addx_keeps_zero : stepped [0xD181] (((base.setD 0 0xFFFFFFFF).setD 1 0).setCcr (cc 0b10100))
    (fun t => t.d[0] == 0 && t.ccr == cc 0b10101) = true := by decide +kernel

/-- R236. -/
theorem test_sub_borrow : stepped [0x9041] ((base.setD 0 0).setD 1 1)
    (fun t => t.d[0] == 0xFFFF && t.ccr == cc 0b11001) = true := by decide +kernel

/-- the byte row of the subtraction table. -/
theorem test_sub_from_memory : stepped [0x9310] (put ((base.setD 1 1).setA 0 0x3000) 0x3000 [0x8000])
    (fun t => t.peekByte 5 0x3000 == 0x7F && t.ccr == cc 0b00010) = true := by decide +kernel

/-- R237. -/
theorem test_suba_long : stepped [0x91C9] ((base.setA 0 0x2000).setA 1 0x10)
    (fun t => t.a[0] == 0x1FF0) = true := by decide +kernel

/-- R238. -/
theorem test_subi_overflow : stepped [0x0440, 0x0001] (base.setD 0 0x8000)
    (fun t => t.d[0] == 0x7FFF && t.ccr == cc 0b00010) = true := by decide +kernel

/-- R239. -/
theorem test_subq_long : stepped [0x5380] (base.setD 0 0)
    (fun t => t.d[0] == 0xFFFFFFFF && t.ccr == cc 0b11001) = true := by decide +kernel

/-- R240. -/
theorem test_subx_memory : stepped [0x9109] (put (put (((base.setA 0 0x2001).setA 1 0x3001).setCcr (cc 0b10100)) 0x2000 [0x0100]) 0x3000 [0x0100])
    (fun t => t.peekByte 5 0x2000 == 0xFF && t.a[0] == 0x2000 && t.a[1] == 0x3000 && t.ccr == cc 0b11001) = true := by decide +kernel

/-- R241. -/
theorem test_cmp_word : stepped [0xB041] (((base.setD 0 5).setD 1 7).setCcr (cc 0b10000))
    (fun t => t.d[0] == 5 && t.ccr == cc 0b11001) = true := by decide +kernel

/-- R242. -/
theorem test_cmpa_equal : stepped [0xB1C9] ((base.setA 0 0x1000).setA 1 0x1000)
    (fun t => t.ccr == cc 0b00100) = true := by decide +kernel

/-- R243. -/
theorem test_cmpi_equal : stepped [0x0C00, 0x0010] (base.setD 0 0x10)
    (fun t => t.ccr == cc 0b00100) = true := by decide +kernel

/-- R244. -/
theorem test_cmpm : stepped [0xB308] (put (put ((base.setA 0 0x100).setA 1 0x200) 0x100 [0x0300]) 0x200 [0x0300])
    (fun t => t.a[0] == 0x101 && t.a[1] == 0x201 && t.ccr == cc 0b00100) = true := by decide +kernel

/-- R245. -/
theorem test_neg_word : stepped [0x4440] (base.setD 0 1)
    (fun t => t.d[0] == 0xFFFF && t.ccr == cc 0b11001) = true := by decide +kernel

/-- AR9. -/
theorem test_neg_most_negative : stepped [0x4400] (base.setD 0 0x80)
    (fun t => t.d[0] == 0x80 && t.ccr == cc 0b11011) = true := by decide +kernel

/-- R246. -/
theorem test_negx_long : stepped [0x4080] (base.setCcr (cc 0b10100))
    (fun t => t.d[0] == 0xFFFFFFFF && t.ccr == cc 0b11001) = true := by decide +kernel

/-- R247. -/
theorem test_clr_word : stepped [0x4240] (base.setD 0 0xFFFFFFFF)
    (fun t => t.d[0] == 0xFFFF0000 && t.ccr == cc 0b00100) = true := by decide +kernel

/-- AR12. -/
theorem test_clr_reads_first : stepped [0x4290] (put (base.setA 0 0x3000) 0x3000 [0x1111, 0x1111])
    (fun t => t.peekLong 5 0x3000 == 0 && t.calls.take 2 == [.write .l 0x3000 5 0, .read .l 0x3000 5]) = true := by decide +kernel

/-- R248. -/
theorem test_ext_word : stepped [0x4880] (base.setD 0 0x12340080)
    (fun t => t.d[0] == 0x1234FF80 && t.ccr == cc 0b01000) = true := by decide +kernel

/-- AR11. -/
theorem test_ext_long : stepped [0x48C0] (base.setD 0 0x8000)
    (fun t => t.d[0] == 0xFFFF8000 && t.ccr == cc 0b01000) = true := by decide +kernel

/-- R249. -/
theorem test_tst_long : stepped [0x4A80] base
    (fun t => t.ccr == cc 0b00100) = true := by decide +kernel

/-- R250. -/
theorem test_mulu_immediate : stepped [0xC0FC, 0x0003] (base.setD 0 0xFFFF0002)
    (fun t => t.d[0] == 6) = true := by decide +kernel

/-- AR1. -/
theorem test_mulu_large : stepped [0xC0C1] ((base.setD 0 0xFFFF).setD 1 0xFFFF)
    (fun t => t.d[0] == 0xFFFE0001 && t.ccr == cc 0b01000) = true := by decide +kernel

/-- R251. -/
theorem test_muls_negative : stepped [0xC1C1] ((base.setD 0 0xFFFF).setD 1 2)
    (fun t => t.d[0] == 0xFFFFFFFE && t.ccr == cc 0b01000) = true := by decide +kernel

/-- R252. -/
theorem test_divu_immediate : stepped [0x80FC, 0x0002] (base.setD 0 7)
    (fun t => t.d[0] == 0x00010003 && t.ccr == cc 0b00000) = true := by decide +kernel

/-- E4. -/
theorem test_divu_by_zero : stepped [0x80C1] (put (base.setD 0 0x12345678) 0x14 [0x0000, 0x6000])
    (fun t => t.d[0] == 0x12345678 && t.a[7] == 0x7FFA && t.entered == some 5 && !t.ccr.c) = true := by decide +kernel

/-- R253. -/
theorem test_divs_immediate : stepped [0x81FC, 0xFFFE] (base.setD 0 0xFFFFFFF9)
    (fun t => t.d[0] == 0xFFFF0003) = true := by decide +kernel

/-- AR6. -/
theorem test_divs_overflow : stepped [0x81C1] ((base.setD 0 0x80000000).setD 1 0xFFFF)
    (fun t => t.d[0] == 0x80000000 && t.ccr.v && !t.ccr.c) = true := by decide +kernel

/-- R254. -/
theorem test_chk_above : stepped [0x41BC, 0x000A] (base.setD 0 0xB)
    (fun t => t.entered == some 6 && !t.ccr.n && t.a[7] == 0x7FFA) = true := by decide +kernel

/-- AR8. -/
theorem test_chk_in_bounds : stepped [0x4181] (((base.setD 0 5).setD 1 10).setCcr (cc 0b10000))
    (fun t => t.entered == none && t.ccr.x && t.pc == 0x1002) = true := by decide +kernel

/-- R271. -/
theorem test_and_word : stepped [0xC041] ((base.setD 0 0x1234FF0F).setD 1 0xF0)
    (fun t => t.d[0] == 0x12340000 && t.ccr == cc 0b00100) = true := by decide +kernel

/-- R271. -/
theorem test_and_to_memory : stepped [0xC350] (put ((base.setD 1 0xF0).setA 0 0x3000) 0x3000 [0xFF0F])
    (fun t => t.peekWord 5 0x3000 == 0 && t.ccr == cc 0b00100) = true := by decide +kernel

/-- R272. -/
theorem test_andi_byte : stepped [0x0200, 0x000F] (base.setD 0 0xF5)
    (fun t => t.d[0] == 5) = true := by decide +kernel

/-- R273. -/
theorem test_or_byte : stepped [0x8001] ((base.setD 0 1).setD 1 0x80)
    (fun t => t.d[0] == 0x81 && t.ccr == cc 0b01000) = true := by decide +kernel

/-- R273. -/
theorem test_or_to_memory : stepped [0x8310] (put ((base.setD 1 0x80).setA 0 0x3000) 0x3000 [0x0100])
    (fun t => t.peekByte 5 0x3000 == 0x81 && t.ccr == cc 0b01000) = true := by decide +kernel

/-- R274. -/
theorem test_ori_word : stepped [0x0040, 0x8000] base
    (fun t => t.d[0] == 0x8000 && t.ccr == cc 0b01000) = true := by decide +kernel

/-- R275. -/
theorem test_eor_long : stepped [0xB380] ((base.setD 0 0xFFFF0000).setD 1 0xFFFFFFFF)
    (fun t => t.d[0] == 0xFFFF && t.ccr == cc 0b00000) = true := by decide +kernel

/-- R276. -/
theorem test_eori_byte : stepped [0x0A00, 0x00FF] (base.setD 0 0x0F)
    (fun t => t.d[0] == 0xF0 && t.ccr == cc 0b01000) = true := by decide +kernel

/-- R277. -/
theorem test_not_byte : stepped [0x4600] (base.setD 0 0xFF)
    (fun t => t.d[0] == 0 && t.ccr == cc 0b00100) = true := by decide +kernel

/-- R278. -/
theorem test_tas_clear : stepped [0x4AD0] (base.setA 0 0x3000)
    (fun t => t.peekByte 5 0x3000 == 0x80 && t.ccr == cc 0b00100) = true := by decide +kernel

/-- R286. -/
theorem test_asl_overflow : stepped [0xE300] (base.setD 0 0x40)
    (fun t => t.d[0] == 0x80 && t.ccr == cc 0b01010) = true := by decide +kernel

/-- R287. -/
theorem test_asr_word : stepped [0xE440] (base.setD 0 0x8001)
    (fun t => t.d[0] == 0xE000 && t.ccr == cc 0b01000) = true := by decide +kernel

/-- R288. -/
theorem test_lsl_by_32 : stepped [0xE3A8] ((base.setD 0 1).setD 1 32)
    (fun t => t.d[0] == 0 && t.ccr == cc 0b10101) = true := by decide +kernel

/-- R289. -/
theorem test_lsr_by_0 : stepped [0xE228] (((base.setD 0 0x80).setD 1 0).setCcr (cc 0b10001))
    (fun t => t.d[0] == 0x80 && t.ccr == cc 0b11000) = true := by decide +kernel

/-- R290. -/
theorem test_rol_by_8 : stepped [0xE158] (base.setD 0 0x1234)
    (fun t => t.d[0] == 0x3412 && t.ccr == cc 0b00000) = true := by decide +kernel

/-- R291. -/
theorem test_ror_byte : stepped [0xE218] (base.setD 0 1)
    (fun t => t.d[0] == 0x80 && t.ccr == cc 0b01001) = true := by decide +kernel

/-- R292. -/
theorem test_roxl_byte : stepped [0xE310] ((base.setD 0 0x80).setCcr (cc 0b10000))
    (fun t => t.d[0] == 1 && t.ccr == cc 0b10001) = true := by decide +kernel

/-- R293. -/
theorem test_roxr_by_0 : stepped [0xE270] (base.setCcr (cc 0b10000))
    (fun t => t.d[0] == 0 && t.ccr == cc 0b10101) = true := by decide +kernel

/-- the memory form given with the shift table. -/
theorem test_asl_memory : stepped [0xE1D0] (put ((base.setA 0 0x3000).setCcr (cc 0b00000)) 0x3000 [0x4000])
    (fun t => t.peekWord 5 0x3000 == 0x8000 && t.ccr == cc 0b01010) = true := by decide +kernel

/-- R287, by hand. -/
theorem test_asr_memory : stepped [0xE0D0] (put ((base.setA 0 0x3000).setCcr (cc 0b00000)) 0x3000 [0x8001])
    (fun t => t.peekWord 5 0x3000 == 0xC000 && t.ccr == cc 0b11001) = true := by decide +kernel

/-- R289, by hand. -/
theorem test_lsr_memory : stepped [0xE2D0] (put ((base.setA 0 0x3000).setCcr (cc 0b00000)) 0x3000 [0x8001])
    (fun t => t.peekWord 5 0x3000 == 0x4000 && t.ccr == cc 0b10001) = true := by decide +kernel

/-- R288, by hand. -/
theorem test_lsl_memory : stepped [0xE3D0] (put ((base.setA 0 0x3000).setCcr (cc 0b00000)) 0x3000 [0x8001])
    (fun t => t.peekWord 5 0x3000 == 0x0002 && t.ccr == cc 0b10001) = true := by decide +kernel

/-- R293, by hand. -/
theorem test_roxr_memory : stepped [0xE4D0] (put ((base.setA 0 0x3000).setCcr (cc 0b10000)) 0x3000 [0x0000])
    (fun t => t.peekWord 5 0x3000 == 0x8000 && t.ccr == cc 0b01000) = true := by decide +kernel

/-- R292, by hand. -/
theorem test_roxl_memory : stepped [0xE5D0] (put ((base.setA 0 0x3000).setCcr (cc 0b10000)) 0x3000 [0x4000])
    (fun t => t.peekWord 5 0x3000 == 0x8001 && t.ccr == cc 0b01000) = true := by decide +kernel

/-- R291, by hand. -/
theorem test_ror_memory : stepped [0xE6D0] (put ((base.setA 0 0x3000).setCcr (cc 0b10000)) 0x3000 [0x0001])
    (fun t => t.peekWord 5 0x3000 == 0x8000 && t.ccr == cc 0b11001) = true := by decide +kernel

/-- R290, by hand. -/
theorem test_rol_memory : stepped [0xE7D0] (put ((base.setA 0 0x3000).setCcr (cc 0b00000)) 0x3000 [0x8000])
    (fun t => t.peekWord 5 0x3000 == 0x0001 && t.ccr == cc 0b00001) = true := by decide +kernel

/-- R301. -/
theorem test_btst_static : stepped [0x0800, 0x0003] (base.setD 0 8)
    (fun t => t.ccr == cc 0b00000) = true := by decide +kernel

/-- BT2. -/
theorem test_btst_modulo : stepped [0x0300] ((base.setD 0 1).setD 1 32)
    (fun t => t.ccr == cc 0b00000) = true := by decide +kernel

/-- R302. -/
theorem test_bchg_dynamic : stepped [0x0340] ((base.setD 0 0).setD 1 33)
    (fun t => t.d[0] == 2 && t.ccr == cc 0b00100) = true := by decide +kernel

/-- BT4. -/
theorem test_bchg_static : stepped [0x0850, 0x0009] (put (base.setA 0 0x3000) 0x3000 [0x0200])
    (fun t => t.peekByte 5 0x3000 == 0 && t.ccr == cc 0b00000) = true := by decide +kernel

/-- R303. -/
theorem test_bclr_static : stepped [0x0890, 0x0007] (put (base.setA 0 0x3000) 0x3000 [0x8100])
    (fun t => t.peekByte 5 0x3000 == 1 && t.ccr == cc 0b00000) = true := by decide +kernel

/-- BT5. -/
theorem test_bclr_dynamic : stepped [0x0380] ((base.setD 0 0x20).setD 1 5)
    (fun t => t.d[0] == 0 && t.ccr == cc 0b00000) = true := by decide +kernel

/-- R304. -/
theorem test_bset_dynamic : stepped [0x03D0] ((base.setA 0 0x3000).setD 1 10)
    (fun t => t.peekByte 5 0x3000 == 4 && t.ccr == cc 0b00100) = true := by decide +kernel

/-- BT3. -/
theorem test_bset_static : stepped [0x08C0, 0x0000] (base.setD 0 0)
    (fun t => t.d[0] == 1 && t.ccr == cc 0b00100) = true := by decide +kernel

/-- R311. -/
theorem test_abcd : stepped [0xC101] (((base.setD 0 0x45).setD 1 0x38).setCcr (cc 0b10000))
    (fun t => t.d[0] == 0x84 && !t.ccr.x && !t.ccr.z && !t.ccr.c) = true := by decide +kernel

/-- the decimal table, 99 + 01. -/
theorem test_abcd_keeps_zero : stepped [0xC101] (((base.setD 0 0x99).setD 1 1).setCcr (cc 0b00100))
    (fun t => t.d[0] == 0 && t.ccr.x && t.ccr.z && t.ccr.c) = true := by decide +kernel

/-- R312. -/
theorem test_sbcd_memory : stepped [0x8109] (put (put ((base.setA 0 0x2001).setA 1 0x3001) 0x2000 [0x1000]) 0x3000 [0x0100])
    (fun t => t.peekByte 5 0x2000 == 9 && t.a[0] == 0x2000 && t.a[1] == 0x3000 && !t.ccr.c) = true := by decide +kernel

/-- R313. -/
theorem test_nbcd : stepped [0x4800] (base.setD 0 1)
    (fun t => t.d[0] == 0x99 && t.ccr.x && !t.ccr.z && t.ccr.c) = true := by decide +kernel

/-- R321. -/
theorem test_bra_short : stepped [0x6004] base
    (fun t => t.pc == 0x1006) = true := by decide +kernel

/-- PC1. -/
theorem test_bra_word : stepped [0x6000, 0xFFFE] base
    (fun t => t.pc == 0x1000) = true := by decide +kernel

/-- R322. -/
theorem test_bsr : stepped [0x6110] base
    (fun t => t.pc == 0x1012 && t.a[7] == 0x7FFC && t.peekLong 5 0x7FFC == 0x1002) = true := by decide +kernel

/-- R323. -/
theorem test_bcc_taken : stepped [0x6702] (base.setCcr (cc 0b00100))
    (fun t => t.pc == 0x1004) = true := by decide +kernel

/-- R323. -/
theorem test_bcc_not_taken : stepped [0x6702] base
    (fun t => t.pc == 0x1002) = true := by decide +kernel

/-- PC6. -/
theorem test_dbcc_falls_through : stepped [0x51CA, 0xFFFE] (base.setD 2 0xABCD0000)
    (fun t => t.d[2] == 0xABCDFFFF && t.pc == 0x1004) = true := by decide +kernel

/-- PC5. -/
theorem test_dbcc_condition : stepped [0x57C8, 0xFFFE] ((base.setD 0 5).setCcr (cc 0b00100))
    (fun t => t.d[0] == 5 && t.pc == 0x1004) = true := by decide +kernel

/-- R325. -/
theorem test_scc_true : stepped [0x57C0] ((base.setD 0 0x12345600).setCcr (cc 0b00100))
    (fun t => t.d[0] == 0x123456FF) = true := by decide +kernel

/-- R326. -/
theorem test_jmp : stepped [0x4ED0] (base.setA 0 0x4000)
    (fun t => t.pc == 0x4000) = true := by decide +kernel

/-- R327. -/
theorem test_jsr : stepped [0x4E90] (base.setA 0 0x4000)
    (fun t => t.pc == 0x4000 && t.a[7] == 0x7FFC && t.peekLong 5 0x7FFC == 0x1002) = true := by decide +kernel

/-- PC8. -/
theorem test_jsr_relative : stepped [0x4EBA, 0x0020] base
    (fun t => t.pc == 0x1022 && t.peekLong 5 0x7FFC == 0x1004) = true := by decide +kernel

/-- R328. -/
theorem test_rts : stepped [0x4E75] (put (base.setA 7 0x7FFC) 0x7FFC [0x0000, 0x1002])
    (fun t => t.pc == 0x1002 && t.a[7] == 0x8000) = true := by decide +kernel

/-- R329. -/
theorem test_rtr : stepped [0x4E77] (put (base.setA 7 0x7FFA) 0x7FFA [0xFF15, 0x0000, 0x2000])
    (fun t => t.sr == 0x2715 && t.pc == 0x2000 && t.a[7] == 0x8000) = true := by decide +kernel

/-- R330. -/
theorem test_nop : stepped [0x4E71] base
    (fun t => t.pc == 0x1002 && t.sr == 0x2700 && t.calls == [.fetch16 0x1000 6]) = true := by decide +kernel

/-- R341. -/
theorem test_andi_to_ccr : stepped [0x023C, 0x00FE] (base.setCcr (cc 0b11111))
    (fun t => t.ccr == cc 0b11110) = true := by decide +kernel

/-- R342. -/
theorem test_ori_to_ccr : stepped [0x003C, 0x0010] base
    (fun t => t.ccr == cc 0b10000) = true := by decide +kernel

/-- R343. -/
theorem test_eori_to_ccr : stepped [0x0A3C, 0x0004] (base.setCcr (cc 0b00100))
    (fun t => t.ccr == cc 0b00000) = true := by decide +kernel

/-- SC5. -/
theorem test_andi_to_sr : stepped [0x027C, 0xDFFF] ((base.setA 7 0x9000).setSpInactive 0x8000)
    (fun t => t.sr == 0x0700 && t.a[7] == 0x8000 && t.spInactive == 0x9000) = true := by decide +kernel

/-- R345. -/
theorem test_ori_to_sr : stepped [0x007C, 0x0700] (base.writeSr 0x2000)
    (fun t => t.sr == 0x2700) = true := by decide +kernel

/-- E6. -/
theorem test_ori_to_sr_in_user_mode : stepped [0x007C, 0x8000] (put (user.setCcr (cc 0b00100)) 0x20 [0x0000, 0x6000])
    (fun t => t.sr == 0x2004 && t.a[7] == 0x8FFA && t.spInactive == 0x8000 && t.peekWord 5 0x8FFA == 4 && t.peekLong 5 0x8FFC == 0x1000 && t.pc == 0x6000) = true := by decide +kernel

/-- R346. -/
theorem test_eori_to_sr : stepped [0x0A7C, 0x2000] (base.writeSr 0x2000)
    (fun t => t.sr == 0) = true := by decide +kernel

/-- R347. -/
theorem test_move_to_ccr : stepped [0x44FC, 0x001F] base
    (fun t => t.ccr == cc 0b11111) = true := by decide +kernel

/-- R348. -/
theorem test_move_from_ccr : stepped [0x42C0] (m68010.setCcr (cc 0b10101))
    (fun t => t.d[0] == 0x15) = true := by decide +kernel

/-- R349. -/
theorem test_move_to_sr : stepped [0x46C0] (base.setD 0 0xFFFF)
    (fun t => t.sr == 0xA71F) = true := by decide +kernel

/-- R351. -/
theorem test_move_from_sr : stepped [0x40C0] (base.setCcr (cc 0b00100))
    (fun t => t.d[0] == 0x2704) = true := by decide +kernel

/-- SC7. -/
theorem test_move_from_sr_in_user_mode : stepped [0x40C0] { user with cfg := { variant := .m68010 } }
    (fun t => t.entered == some 8) = true := by decide +kernel

/-- R350. -/
theorem test_stop : stepped [0x4E72, 0x2000] base
    (fun t => t.sr == 0x2000 && t.runState == .stopped && t.pc == 0x1004) = true := by decide +kernel

/-- R352. -/
theorem test_move_to_usp : stepped [0x4E60] (base.setA 0 0xF000)
    (fun t => t.usp == 0xF000) = true := by decide +kernel

/-- R352. -/
theorem test_move_from_usp : stepped [0x4E68] (base.setSpInactive 0xF000)
    (fun t => t.a[0] == 0xF000) = true := by decide +kernel

/-- R353. -/
theorem test_reset : stepped [0x4E70] base
    (fun t => t.calls == [.resetOut, .fetch16 0x1000 6] && t.pc == 0x1002 && t.sr == 0x2700) = true := by decide +kernel

/-- P3. -/
theorem test_rte : stepped [0x4E73] (put ((base.setA 7 0x8FFA).setSpInactive 0x8000) 0x8FFA [0x0000, 0x0000, 0x1002])
    (fun t => t.sr == 0 && t.pc == 0x1002 && t.a[7] == 0x8000 && t.spInactive == 0x9000) = true := by decide +kernel

/-- SC10. -/
theorem test_rte_format_error : stepped [0x4E73] (put (m68010.setA 7 0x7FF8) 0x7FF8 [0x2000, 0x0000, 0x1234, 0x2080])
    (fun t => t.entered == some 14 && t.a[7] == 0x7FF0 && t.peekLong 5 0x7FF2 == 0x1000) = true := by decide +kernel

/-- R355. -/
theorem test_rtd : stepped [0x4E74, 0x0008] (put (m68010.setA 7 0x7FFC) 0x7FFC [0x0000, 0x1000])
    (fun t => t.pc == 0x1000 && t.a[7] == 0x8008) = true := by decide +kernel

/-- E7. -/
theorem test_trap : stepped [0x4E40] (put base 0x80 [0x0000, 0x4000])
    (fun t => t.a[7] == 0x7FFA && t.peekWord 5 0x7FFA == 0x2700 && t.peekLong 5 0x7FFC == 0x1002 && t.pc == 0x4000) = true := by decide +kernel

/-- E7. -/
theorem test_trap_m68010 : stepped [0x4E40] (put { m68010 with vbr := 0x10000 } 0x10080 [0x0000, 0x4000])
    (fun t => t.a[7] == 0x7FF8 && t.peekWord 5 0x7FF8 == 0x2700 && t.peekLong 5 0x7FFA == 0x1002 && t.peekWord 5 0x7FFE == 0x0080 && t.pc == 0x4000) = true := by decide +kernel

/-- R357. -/
theorem test_trapv : stepped [0x4E76] (base.setCcr (cc 0b00010))
    (fun t => t.entered == some 7 && t.peekLong 5 0x7FFC == 0x1002) = true := by decide +kernel

/-- R358. -/
theorem test_illegal : stepped [0x4AFC] (at_ 0x2000)
    (fun t => t.entered == some 4 && t.peekLong 5 0x7FFC == 0x2000) = true := by decide +kernel

/-- R359. -/
theorem test_bkpt : stepped [0x4848] m68010
    (fun t => t.entered == some 4) = true := by decide +kernel

/-- R360. -/
theorem test_movec_write : stepped [0x4E7B, 0x8801] (m68010.setA 0 0x10000)
    (fun t => t.vbr == 0x10000) = true := by decide +kernel

/-- R360. -/
theorem test_movec_read : stepped [0x4E7A, 0x0801] { m68010 with vbr := 0x20000 }
    (fun t => t.d[0] == 0x20000) = true := by decide +kernel

/-- SC8. -/
theorem test_movec_read_on_m68000 : stepped [0x4E7A, 0x0801] base
    (fun t => t.entered == some 4) = true := by decide +kernel

/-- R361. -/
theorem test_moves_read : stepped [0x0E10, 0x1000] (put { m68010.setA 0 0x3000 with sfc := 5 } 0x3000 [0x8100])
    (fun t => t.d[1] == 0x81 && t.calls.head? == some (.read .b 0x3000 5)) = true := by decide +kernel

/-- R362. -/
theorem test_line_a : stepped [0xA123] (at_ 0x3000)
    (fun t => t.entered == some 10 && t.peekLong 5 0x7FFC == 0x3000) = true := by decide +kernel

/-- R363. -/
theorem test_line_f : stepped [0xF200] (at_ 0x3000)
    (fun t => t.entered == some 11 && t.peekLong 5 0x7FFC == 0x3000) = true := by decide +kernel

/-- SC15. -/
theorem test_undecoded_word : stepped [0x4C00] base
    (fun t => t.entered == some 4 && t.peekLong 5 0x7FFC == 0x1000) = true := by decide +kernel

/-- EA3. -/
theorem test_predecrement_wraps : stepped [0x3022] (put base 0xFFFFFE [0x1234])
    (fun t => t.a[2] == 0xFFFFFFFE && t.d[0] == 0x1234) = true := by decide +kernel

/-- EX1. -/
theorem test_interrupt : stepped [0x4E71] (put { base.writeSr 0x2000 with intLevel := 3 } 0x6C [0x0000, 0x5000])
    (fun t => t.entered == some 27 && t.sr == 0x2300 && t.peekWord 5 0x7FFA == 0x2000 && t.peekLong 5 0x7FFC == 0x1000 && t.pc == 0x5000 && t.intLevel == 0) = true := by decide +kernel

/-- EX2. -/
theorem test_masked_interrupt : stepped [0x4E71] { base.writeSr 0x2300 with intLevel := 3 }
    (fun t => t.entered == none && t.intLevel == 3 && t.pc == 0x1002) = true := by decide +kernel

/-- EX10. -/
theorem test_trace : stepped [0x4E71] { base.writeSr 0xA700 with pc := 0x1002, tracePending := true }
    (fun t => t.entered == some 9 && t.peekWord 5 0x7FFA == 0xA700 && t.peekLong 5 0x7FFC == 0x1002 && t.sr == 0x2700) = true := by decide +kernel

/-- EX14. -/
theorem test_address_error : stepped [0x3010] (({ base with cfg := { addressErrorMode := .exception } }).setA 0 0x1001)
    (fun t => t.entered == some 3 && t.a[7] == 0x7FF2 && t.sr == 0x2700) = true := by decide +kernel

/-- EX17. -/
theorem test_address_error_fault : faulted [0x3010] (base.setA 0 0x1001)
    .addressErrorFault = true := by decide +kernel

/-- EX15. -/
theorem test_double_fault : faulted [0x3010] ((({ base with cfg := { addressErrorMode := .exception } }).setA 0 0x1001).setA 7 0x8001)
    .haltedDoubleFault = true := by decide +kernel

/-- EX16. -/
theorem test_address_error_m68010 : faulted [0x3010] { m68010.setA 0 0x1001 with cfg := { variant := .m68010, addressErrorMode := .exception } }
    .unsupportedFrame = true := by decide +kernel

/-- SC11. -/
theorem test_rte_format_8 : faulted [0x4E73] (put (m68010.setA 7 0x7FF8) 0x7FF8 [0x2000, 0x0000, 0x1234, 0x8008])
    .unsupportedFrame = true := by decide +kernel

/-- HZ1. -/
theorem test_prefetch_hazard : faulted [0x4E71] { at_ 0x1004 with lastStores := [0x1004, 0x1005], seqEnd := 0x1004 }
    .prefetchHazard = true := by decide +kernel

/-- R145, R159. -/
theorem test_cmpm_address_error : stepped [0xB348] (({ base with cfg := { addressErrorMode := .exception } }).setA 0 0x1001)
    (fun t => t.entered == some 3 && t.a[0] == 0x1003) = true := by decide +kernel

/-- R71, R420. -/
theorem test_acknowledge_function_code : stepped [0x4E71] { base.writeSr 0x2000 with intLevel := 3 }
    (fun t => t.calls.contains (.iack 3 7)) = true := by decide +kernel

/-- R421. -/
theorem test_request_inside_acknowledge : stepped [0x4E71] { base.writeSr 0x2000 with intLevel := 3, script := [{ callbacks := [.raiseInterrupt 6] }] }
    (fun t => t.entered == some 27 && t.intLevel == 6 && t.iMask == 3) = true := by decide +kernel

/-- R441. -/
theorem test_request_inside_instruction : stepped [0x4E71] { base.writeSr 0x2000 with script := [{ callbacks := [.raiseInterrupt 2] }] }
    (fun t => t.entered == none && t.pc == 0x1002 && t.intLevel == 2 && t.recognized) = true := by decide +kernel

/-- R81. -/
theorem test_byte_changed_by_another_agent : stepped [0x1010] { put (base.setA 0 0x3000) 0x3000 [0x1100] with agents := [[⟨5, 0x3000, 0x22⟩]] }
    (fun t => t.d[0] == 0x22 && t.agents == []) = true := by decide +kernel

/-- R77, R81. -/
theorem test_answer_of_the_collaborator : stepped [0x1010] { put (base.setA 0 0x3000) 0x3000 [0x1100] with script := [{}, { answer := some 0x22 }] }
    (fun t => t.d[0] == 0x22 && t.peekByte 5 0x3000 == 0x11) = true := by decide +kernel

/-- R83, R278. -/
theorem test_tas_indivisible : stepped [0x4AD0] { base.setA 0 0x3000 with agents := [[], [⟨5, 0x3000, 0x11⟩]] }
    (fun t => t.peekByte 5 0x3000 == 0x80 && t.beginStep.peekByte 5 0x3000 == 0x11) = true := by decide +kernel

/-- R442. -/
theorem test_access_inside_callback : stepped [0x4E71] { base with script := [{ callbacks := [.registerAccess] }] }
    (fun t => t.refusedMark == some .hostPrecondition) = true := by decide +kernel

/-- R465 leaves `execute` on a marked state open; the model's choice is to return nothing (log 10). -/
theorem test_execute_marked_stopped :
    (execute 1 { base with runState := .stopped, faultMark := some .prefetchHazard }).consumed = none := by
  decide +kernel

/-- R52: a get of a register the variant has changes nothing. -/
theorem test_host_get : hostGet .sr base = ⟨base, some 0x2700⟩ := by decide +kernel

/-- R20, R52: a get of VBR on M68000 is refused and marks the state, as a set is (log 24). -/
theorem test_host_get_refused :
    hostGet .vbr base = ⟨hostSet .vbr 0 base, none⟩ ∧ (hostSet .vbr 0 base).refusedMark = some .hostPrecondition := by
  decide +kernel

/-- R465, D17: a STOPPED core with nothing to take lets the whole budget pass. -/
theorem test_execute_stopped : (execute 100 { base with runState := .stopped }).consumed = some 100 := by decide +kernel

/-! Witnesses: for each statement with hypotheses, a state and operands that meet them together. -/

/-- A test that an outcome is a next state gives that state. -/
theorem exists_next {o : StepOutcome} {p : State → Bool} (h : answers o p = true) : ∃ t, o = .next t ∧ p t = true := by
  cases o with
  | next t => exact ⟨t, rfl, h⟩
  | fault r => simp [answers] at h
  | refused r => simp [answers] at h

/-- DecodeOfEncode and EncodeOfDecode. -/
theorem witness_encoding :
    (Instr.moveW .imm (.dn 1)).wellFormed = true ∧ decodeWord 0x323C = some (.moveW .imm (.dn 1)) := by decide +kernel

/-- A MOVEQ at the PC. -/
def onMoveq : State := put base 0x1000 [0x76FF]

/-- StepRunsDecoded: the word as it stands, and one that another agent puts there before the step. -/
theorem witness_stepRunsDecoded :
    onMoveq.runsNext = true ∧ onMoveq.wordReady onMoveq.pc = true ∧
      decodeWord (onMoveq.beginStep.streamWord 0) = some (.moveq 3 0xFF) ∧
      decodeWord (({ onMoveq with agents := [[⟨6, 0x1001, 0x01⟩]] } : State).beginStep.streamWord 0) = some (.moveq 3 1) := by
  decide +kernel

/-- A word that no row takes at the PC. -/
def onUndecoded : State := put base 0x1000 [0x4C00]

/-- UndecodedWordIsIllegal. -/
theorem witness_undecodedWordIsIllegal :
    onUndecoded.runsNext = true ∧ onUndecoded.wordReady onUndecoded.pc = true ∧
      decodeWord (onUndecoded.beginStep.streamWord 0) = none ∧
      (onUndecoded.atMeaning (onUndecoded.beginStep.streamWord 0)).entryReady 4 = true := by decide +kernel

/-- StatusReadsBack and RegisterWritesBySize: both sides of a byte's size, the top bit, another register. -/
theorem witness_registers :
    (3 : Fin 8) ≠ 7 ∧ 7 < Size.b.bits ∧ ¬8 < Size.b.bits ∧ 8 < 32 ∧ 31 < 32 ∧ (1 : Fin 8) ≠ 0 := by decide +kernel

/-- MemoryReadsBack: the last byte of a long that wraps round the bus, and the byte after it. -/
theorem witness_memoryReadsBack :
    3 < Size.l.bytes ∧ memKey base.cfg 5 1 ∈ accessKeys base.cfg .l 5 0xFFFFFE ∧
      memKey base.cfg 5 2 ∉ accessKeys base.cfg .l 5 0xFFFFFE := by decide +kernel

/-- AdditionFlags, SubtractionFlags and ConditionsAfterCompare, at the most negative byte and with X in. -/
theorem witness_addition :
    low .b 0x80 = 0x80 ∧ low .b 0xFF = 0xFF ∧
      ((aluAddx .b 0x80 0xFF (cc 0b10100) = aluAddx .b 0x80 0xFF (cc 0b10100) ∧ true = (cc 0b10100).x ∧
          true = (cc 0b10100).z) ∨
        (aluAddx .b 0x80 0xFF (cc 0b10100) = aluAdd .b 0x80 0xFF (cc 0b10100) ∧ true = false ∧ true = true)) ∧
      ((aluAdd .b 0x80 0xFF (cc 0) = aluAddx .b 0x80 0xFF (cc 0) ∧ false = (cc 0).x ∧ true = (cc 0).z) ∨
        (aluAdd .b 0x80 0xFF (cc 0) = aluAdd .b 0x80 0xFF (cc 0) ∧ false = false ∧ true = true)) := by decide +kernel

/-- LogicalFlags and Rotates: the top bits. -/
theorem witness_bits : 31 < 32 ∧ 7 < Size.b.bits ∧ 31 < Size.l.bits := by decide +kernel

/-- DivisionsAreExact: the greatest divisor, and −1. -/
theorem witness_divisions :
    (0xFFFF : Long).toNat < 65536 ∧ (0xFFFF : Long) ≠ 0 ∧ signedVal .w 0xFFFF ≠ 0 := by decide +kernel

/-- DecimalArithmetic: the greatest operands. -/
theorem witness_decimalArithmetic :
    low .b 0x99 = 0x99 ∧ validBcd 0x99 = true ∧ low .b 0 = 0 ∧ validBcd 0 = true := by decide +kernel

/-- EaToRegisterResult, RegisterToEaResult, AddressAndQuickResult, UnaryResult: a postincremented long, a byte at an odd
address, a register. -/
theorem witness_operands :
    base.eaReady (.pi 0) .l = true ∧ EaClass.memoryAlterable.admits .l (.pi 0) = true ∧
      EaClass.dataAlterable.admits .l (.pi 0) = true ∧ (base.setA 0 1).eaReady (.ind 0) .b = true ∧
      EaClass.dataAlterable.admits .b (.ind 0) = true ∧ base.eaReady (.dn 0) .w = true ∧
      EaClass.dataAlterable.admits .w (.dn 0) = true := by decide +kernel

/-- ImmediateResult: a long immediate before an absolute long address. -/
theorem witness_immediateResult :
    EaClass.dataAlterable.admits .l .absL = true ∧ base.streamReady (immWords .l) = true ∧
      (base.skip (immWords .l)).eaReady .absL .l = true := by decide +kernel

/-- ExtendedResult: two registers and one register twice. -/
theorem witness_extendedResult :
    base.predPairReady 0 1 .l = true ∧ base.predPairReady 2 2 .w = true ∧ alignedAt .w base.a[1] = true ∧
      alignedAt .w (base.afterPost 1 .w).a[0] = true ∧ ((7 : Fin 8) = 7 ∧ Size.b = .b) := by decide +kernel

/-- DecimalResult. -/
theorem witness_decimalResult :
    EaClass.dataAlterable.admits .b (.pd 7) = true ∧ base.eaReady (.pd 7) .b = true := by decide +kernel

/-- MultiplyDivideResult: a divisor other than 0. -/
theorem witness_multiplyDivideResult :
    (base.setD 1 1).eaReady (.dn 1) .w = true ∧ isZero .w ((base.setD 1 1).eaValue (.dn 1) .w) = false := by
  decide +kernel

/-- DivideByZeroAndCheck: a divisor of 0 in the low word. -/
theorem witness_divideByZero :
    (base.setD 1 0x10000).eaReady (.dn 1) .w = true ∧ isZero .w ((base.setD 1 0x10000).eaValue (.dn 1) .w) = true ∧
      State.entryReady
        (((base.setD 1 0x10000).drawn 3).setCcr ⟨false, Config.freeBit 0, Config.freeBit 1, Config.freeBit 2, false⟩) 5 =
        true := by
  decide +kernel

/-- DivideByZeroAndCheck: −1, above the bound by 1, at the bound, and 0 at a bound of 0. -/
theorem witness_check :
    signedVal .w ((base.setD 0 0xFFFF).d[0]) < 0 ∧ base.entryReady 6 = true ∧
      0 ≤ signedVal .w ((base.setD 0 1).d[0]) ∧
      signedVal .w ((base.setD 0 1).eaValue (.dn 1) .w) < signedVal .w ((base.setD 0 1).d[0]) ∧
      signedVal .w (((base.setD 0 1).setD 1 1).d[0]) ≤ signedVal .w (((base.setD 0 1).setD 1 1).eaValue (.dn 1) .w) ∧
      0 ≤ signedVal .w (base.d[0]) ∧ signedVal .w (base.d[0]) ≤ signedVal .w (base.eaValue (.dn 1) .w) := by
  decide +kernel

/-- ShiftResult. -/
theorem witness_shiftResult :
    EaClass.memoryAlterable.admits .w (.ind 0) = true ∧ base.eaReady (.ind 0) .w = true := by decide +kernel

/-- BitResult: a data register and a byte at an odd address, static and dynamic. -/
theorem witness_bitResult :
    base.streamReady 1 = true ∧ (base.skip 1).eaReady (.dn 0) .l = true ∧
      ((base.setA 0 1).skip 1).eaReady (.ind 0) .b = true ∧ (base.setA 0 1).eaReady (.ind 0) .b = true ∧
      EaClass.dataAlterable.admits .b (.dn 0) = true ∧ EaClass.dataAlterable.admits .b (.ind 0) = true := by
  decide +kernel

/-- MoveResult: a destination stepped by the register the source has stepped. -/
theorem witness_moveResult :
    base.eaReady (.pi 0) .l = true ∧ EaClass.dataAlterable.admits .l (.pd 0) = true ∧
      (base.afterReadEa (.pi 0) .l).eaReady (.pd 0) .l = true ∧ base.eaReady .imm .w = true := by decide +kernel

/-- AddressResult. -/
theorem witness_addressResult :
    EaClass.control.admits .l .pc8x = true ∧ base.streamReady (Ea.pc8x.extWords .l) = true ∧ base.stackReady = true := by
  decide +kernel

/-- MoveMultipleResult: an empty list at an odd address, D0 alone at an even one. -/
theorem witness_moveMultipleResult :
    Size.l ≠ .b ∧ base.streamReady 1 = true ∧
      maskedRegs ((base.setA 0 1).streamWord 0) movemPredecrementOrder = [] ∧ isOdd (base.setA 0 1).a[0] = true ∧
      maskedRegs ((put base 0x1000 [0x8000]).streamWord 0) movemPredecrementOrder = [.d 0] ∧
      isOdd (put base 0x1000 [0x8000]).a[0] = false ∧
      (maskedRegs (base.streamWord 0) movemOrder = [] ∧
        { base with cfg := { dummyReads := false } }.cfg.dummyReads = false) ∧
      EaClass.control.admits .l .absW = true ∧ EaClass.controlAlterable.admits .l .absW = true ∧
      (base.skip 1).streamReady (Ea.absW.extWords .l) = true ∧
      (base.skip 1).eaDesc .absW .l = .mem 0 .data ∧ isOdd (0 : Long) = false := by decide +kernel

/-- BranchResult: both displacement forms, and each way through DBcc. -/
theorem witness_branchResult :
    base.streamReady (dispWords 0) = true ∧ base.streamReady (dispWords 0x7F) = true ∧ base.stackReady = true ∧
      base.streamReady 1 = true ∧ condHolds .t base.ccr = true ∧ condHolds .f base.ccr = false ∧
      lowWord base.d[0] - 1 = 0xFFFF ∧ lowWord (base.setD 0 1).d[0] - 1 ≠ 0xFFFF ∧
      ¬((base.setD 0 1).cfg.variant = .m68010 ∧ (base.setD 0 1).streamWord 0 = 0xFFFC ∧
        (base.setD 0 1).storesMeetLoop ((base.setD 0 1).pc - 2) = true) := by decide +kernel

/-- A DBcc of the M68010's loop form after a store into its loop. -/
def inLoop : State := { put (m68010.setD 0 1) 0x1000 [0xFFFC] with lastStores := [0x1001] }

/-- BranchResult: the loop form that faults. -/
theorem witness_branchResult_loop :
    inLoop.streamReady 1 = true ∧ condHolds .f inLoop.ccr = false ∧ lowWord inLoop.d[0] - 1 ≠ 0xFFFF ∧
      inLoop.cfg.variant = .m68010 ∧ inLoop.streamWord 0 = 0xFFFC ∧ inLoop.storesMeetLoop (inLoop.pc - 2) = true := by
  decide +kernel

/-- StackResult. -/
theorem witness_stackResult :
    base.streamReady 1 = true ∧ base.stackReady = true ∧ isOdd base.a[6] = false ∧ m68010.stackReady = true ∧
      m68010.cfg.variant = .m68010 ∧ m68010.streamReady 1 = true := by decide +kernel

/-- StatusRegisterResult. -/
theorem witness_statusRegisterResult :
    base.streamReady 1 = true ∧ base.sBit = true ∧ base.eaReady (.dn 0) .w = true ∧
      EaClass.dataAlterable.admits .w (.dn 0) = true ∧ m68010.cfg.variant = .m68010 ∧ user.sBit = false ∧
      user.cfg.variant ≠ .m68010 := by decide +kernel

/-- ControlRegisterResult: each code, and one that names no register. -/
theorem witness_controlRegisterResult :
    m68010.sBit = true ∧ m68010.cfg.variant = .m68010 ∧ m68010.streamReady 1 = true ∧
      [0x8000, 0x8001, 0x0800, 0x1801].map (fun w => ((put m68010 0x1000 [w]).streamWord 0).toNat % 4096) =
        [0x000, 0x001, 0x800, 0x801] ∧
      ((put m68010 0x1000 [0x0002]).streamWord 0).toNat % 4096 ∉ [0x000, 0x001, 0x800, 0x801] ∧
      ((put m68010 0x1000 [0x0002]).skip 1).entryReady 4 = true := by decide +kernel

/-- MovesResult: a store, a store of the register the operand steps, a read. -/
theorem witness_movesResult :
    m68010.cfg.variant = .m68010 ∧ m68010.sBit = true ∧ EaClass.memoryAlterable.admits .l (.pi 0) = true ∧
      m68010.streamReady 1 = true ∧ (m68010.skip 1).eaReady (.pi 0) .l = true ∧
      ((put m68010 0x1000 [0x1800]).streamWord 0).getLsbD 11 = true ∧ movesSelfUpdate (extGenReg 0x1800) (.pi 0) = false ∧
      ((put m68010 0x1000 [0x8800]).streamWord 0).getLsbD 11 = true ∧ movesSelfUpdate (extGenReg 0x8800) (.pi 0) = true ∧
      (m68010.streamWord 0).getLsbD 11 = false := by decide +kernel

/-- RteResult: each format. -/
theorem witness_rteResult :
    base.sBit = true ∧ base.stackReady = true ∧ base.cfg.variant ≠ .m68010 ∧ m68010.cfg.variant = .m68010 ∧
      [0x0000, 0x8000, 0xF000].map (fun w => (lowWord
        ((((put m68010 0x8006 [w]).load .w 5 0x8000).load .l 5 0x8002).loaded .w 5 0x8006)).extractLsb' 12 4) =
          [0, 8, 15] ∧
      (((((put m68010 0x8006 [0xF000]).load .w 5 0x8000).load .l 5 0x8002).load .w 5 0x8006).entryReady 14 = true) := by
  decide +kernel

/-- TrapResult: the first and the last trap, TRAPV both ways. -/
theorem witness_trapResult :
    base.entryReady (32 + (0 : BitVec 4).setWidth 8) = true ∧ base.entryReady (32 + (15 : BitVec 4).setWidth 8) = true ∧
      base.ccr.v = false ∧ (base.setCcr (cc 0b00010)).ccr.v = true ∧ (base.setCcr (cc 0b00010)).entryReady 7 = true ∧
      base.entryReady 4 = true ∧ base.entryReady 10 = true ∧ base.entryReady 11 = true := by decide +kernel

/-- GeneralRegisterFrame, FlagFrame, SpecialRegisterFrame, PcAdvances: MOVEQ, and registers that it does not name. -/
theorem witness_frames :
    (Instr.moveq 3 0xFF).wellFormed = true ∧ (Instr.moveq 3 0xFF).transfers = false ∧
      (2 : Fin 8) ∉ (Instr.moveq 3 0xFF).dataDests base ∧ (7 : Fin 8) ∉ (Instr.moveq 3 0xFF).addrDests base ∧
      (Instr.moveq 3 0xFF).writesSr = false ∧ (Instr.moveq 3 0xFF).writesSpInactive = false ∧ base.noCallbacks = true ∧
      ∃ t, exec (.moveq 3 0xFF) base = .next t ∧ decide (t.entered = none) = true :=
  ⟨rfl, rfl, by decide, by decide, rfl, rfl, rfl, exists_next (by decide +kernel)⟩

/-- A machine with a change of the byte at 0x3003 to come from another agent, and a request of level 5 in its second bus
call. -/
def disturbed : State :=
  { base with agents := [[⟨5, 0x3003, 0x77⟩]], script := [{}, { callbacks := [.raiseInterrupt 5] }] }

/-- MemoryFrame: a word stored at 0x3000, the byte after it, with inputs of both kinds to come. -/
theorem witness_memoryFrame :
    (Instr.moveW (.dn 0) (.ind 0)).wellFormed = true ∧
      (∀ p ∈ (Instr.moveW (.dn 0) (.ind 0)).stores (disturbed.setA 0 0x3000),
        memKey base.cfg 5 0x3002 ∉ spanKeys base.cfg p) ∧
      ∃ t, exec (.moveW (.dn 0) (.ind 0)) (disturbed.setA 0 0x3000) = .next t ∧ decide (t.entered = none) = true :=
  ⟨by decide +kernel, by decide +kernel, exists_next (by decide +kernel)⟩

/-- EntryState: on each kind of frame, the byte under it and the byte over it. -/
theorem witness_entryState :
    base.entryReady 255 = true ∧ user.entryReady 0 = true ∧ m68010.entryReady 33 = true ∧
      disturbed.entryReady 4 = true ∧
      (∀ k < 6, memKey base.cfg 5 0x7FF9 ≠ memKey base.cfg 5 (0x7FFA + BitVec.ofNat 32 k)) ∧
      (∀ k < 8, memKey m68010.cfg 5 0x8000 ≠ memKey m68010.cfg 5 (0x7FF8 + BitVec.ofNat 32 k)) := by decide +kernel

/-- PrivilegeViolation and M68010OnlyIsIllegal. -/
theorem witness_privilege :
    Instr.privilegedOn user.cfg.variant .rte = true ∧ Instr.privilegedOn .m68010 (.moveFromSr (.dn 0)) = true ∧
      user.sBit = false ∧ user.entryReady 8 = true ∧ Instr.m68010Only .rtd = true ∧ user.cfg.variant ≠ .m68010 ∧
      user.entryReady 4 = true := by decide +kernel

/-- The same machine with the address-error exception. -/
def excepting : State := { base with cfg := { addressErrorMode := .exception } }

/-- AddressErrorTaken: each mode and variant, an odd and an even supervisor stack pointer, an odd vector address. -/
theorem witness_addressErrorTaken :
    Size.w ≠ .b ∧ isOdd (1 : Long) = true ∧ base.cfg.addressErrorMode = .fault ∧
      excepting.cfg.addressErrorMode = .exception ∧ excepting.cfg.variant ≠ .m68010 ∧ isOdd excepting.ssp = false ∧
      isOdd (excepting.setA 7 0x8001).ssp = true ∧ isOdd (excepting.setA 7 0x8001).a[7] = true ∧ (2 : Byte) ≠ 0 ∧
      (excepting.setA 7 0x8001).entryReady 4 = false ∧ ({ m68010 with vbr := 1 } : State).entryReady 255 = false ∧
      ({ variant := .m68010, addressErrorMode := .exception } : Config).variant = .m68010 ∧
      ({ excepting with ir := some 0x3010 } : State).ir = some 0x3010 ∧ 23 < addressBits excepting.cfg := by decide +kernel

/-- AddressErrorTaken: the first fetch after reset at an odd PC, and a later one. -/
theorem witness_addressErrorTaken_fetch :
    (excepting.setPc 0x1001).runsNext = true ∧ isOdd (excepting.setPc 0x1001).pc = true ∧
      (excepting.setPc 0x1001).resetFetch = true ∧
      ({ excepting.setPc 0x1001 with resetFetch := false } : State).runsNext = true := by decide +kernel

/-- AddressErrorTaken: a misaligned word in data space and a misaligned long in program space. -/
theorem witness_addressErrorTaken_operand :
    (excepting.setA 0 0x1001).streamReady (Ea.extWords .w (.ind 0)) = true ∧
      (excepting.setA 0 0x1001).eaDesc (.ind 0) .w = .mem 0x1001 .data ∧ alignedAt .w 0x1001 = false ∧
      (put excepting 0x1000 [0x0001]).streamReady (Ea.extWords .l .pc16) = true ∧
      (put excepting 0x1000 [0x0001]).eaDesc .pc16 .l = .mem 0x1001 .program ∧ alignedAt .l 0x1001 = false := by
  decide +kernel

/-- A core at the last byte pair of its window, just stored to. -/
def inWindow : State := { at_ 0x1002 with lastStores := [0x1003], seqEnd := 0x1000 }

/-- PrefetchHazardFaults. -/
theorem witness_prefetchHazardFaults :
    inWindow.runsNext = true ∧ isOdd inWindow.pc = false ∧ 3 < inWindow.cfg.smcWindowBytes ∧
      busAddr inWindow.cfg (inWindow.seqEnd + BitVec.ofNat 32 3) ∈ inWindow.lastStores ∧
      busAddr inWindow.cfg (inWindow.pc + 1) = busAddr inWindow.cfg (inWindow.seqEnd + BitVec.ofNat 32 3) ∧
      0 < Ea.absW.extWords .w := by decide +kernel

/-- A request of level 3 at mask 2, one of level 7 at mask 7, and the same on a held line. -/
def requested : List State :=
  [{ base.writeSr 0x2200 with intLevel := 3 }, { base with intLevel := 7 },
    { base with intLevel := 7, prevLevel := 6, cfg := { intLineMode := .levelHeld } }]

/-- InterruptTaken. -/
theorem witness_interruptTaken :
    ∀ s ∈ requested, s.active = true ∧ s.tracePending = false ∧ s.intLevel ≠ 0 ∧
      (s.iMask.toNat < s.intLevel.val ∨
        (s.intLevel = 7 ∧ s.cfg.level7Nmi = true ∧ (s.cfg.intLineMode = .consumed ∨ s.prevLevel ≠ 7))) ∧
      s.entryReady (BitVec.ofNat 8 (24 + s.intLevel.val)) = true ∧ s.cfg.iack[s.intLevel] = .autovector := by
  decide +kernel

/-- InterruptTaken: each answer to the acknowledge. -/
theorem witness_interruptTaken_answers :
    ∀ p ∈ [(IackAnswer.vector 0x40, (0x40 : Byte)), (.vector 255, 255), (.spurious, 24), (.uninitialized, 15)],
      let s : State := { base.writeSr 0x2200 with intLevel := 3, cfg := { iack := Vector.replicate 8 p.1 } }
      s.active = true ∧ s.tracePending = false ∧ s.intLevel = 3 ∧ s.iMask.toNat < 3 ∧ s.cfg.iack[s.intLevel] = p.1 ∧
        s.entryReady p.2 = true ∧ s.noCallbacks = true := by decide +kernel

/-- InterruptTaken: a request of level 7 raised inside the acknowledge of one of level 3. -/
theorem witness_interruptTaken_callback :
    let s : State := { base.writeSr 0x2200 with intLevel := 3, script := [⟨none, [.raiseInterrupt (7 : Fin 8).val]⟩, {}] }
    s.active = true ∧ s.tracePending = false ∧ s.intLevel = 3 ∧ s.iMask.toNat < 3 ∧ s.entryReady 27 = true ∧
      (([{}] : List Reaction).all fun r => r.callbacks.isEmpty) = true := by decide +kernel

/-- A STOPPED core with a request at its mask. -/
def waiting : State := { base.writeSr 0x2300 with intLevel := 3, runState := .stopped }

/-- MaskedRequestWaits. -/
theorem witness_maskedRequestWaits :
    waiting.active = true ∧ waiting.tracePending = false ∧ waiting.intLevel.val ≤ waiting.iMask.toNat ∧
      waiting.intLevel ≠ 7 ∧ waiting.runState = .stopped ∧ waiting.agents = [] := by decide +kernel

/-- TraceTaken. -/
theorem witness_traceTaken :
    ({ base with tracePending := true } : State).active = true ∧ ({ base with tracePending := true } : State).entryReady 9 = true := by
  decide +kernel

/-- NoStepWhenMarked: each clause. -/
theorem witness_noStepWhenMarked :
    ({ base with faultMark := some .prefetchHazard } : State).faultMark = some .prefetchHazard ∧
      base.faultMark = none ∧ ({ base with refusedMark := some .hostPrecondition } : State).refusedMark = some .hostPrecondition ∧
      base.refusedMark = none ∧ ({ base with cfg := { busCollaborator := false } } : State).cfg.busCollaborator = false ∧
      base.cfg.busCollaborator = true ∧ ({ base with runState := .halted } : State).runState = .halted := by decide +kernel

/-- HostResetState: with a bus collaborator, quiet, and without one. -/
theorem witness_hostResetState :
    m68010.cfg.variant = .m68010 ∧ m68010.cfg.busCollaborator = true ∧
      m68010.noCallbacks = true ∧ ({ base with cfg := { busCollaborator := false } } : State).cfg.busCollaborator = false := by
  decide +kernel

/-- StepKeepsInvariant, AccessesAreAligned, MemoryChangesOnlyByWrites: a step that stores a word at 0x3000. -/
theorem witness_steps :
    State.Inv (put (base.setA 0 0x3000) 0x1000 [0x3080]) = true ∧
      ∃ t, step (put (base.setA 0 0x3000) 0x1000 [0x3080]) = .next t ∧
        (t.calls.contains (.write .w 0x3000 5 0) && !(writtenKeys base.cfg t.calls).contains (memKey base.cfg 5 0x3002)) =
          true :=
  ⟨by decide +kernel, exists_next (by decide +kernel)⟩

/-- MemoryChangesOnlyByWrites: such a step before which another agent changes another byte. -/
theorem witness_steps_disturbed :
    (disturbed.setA 0 0x3000).undisturbed (memKey base.cfg 5 0x3002) = true ∧
      ∃ t, step (put (disturbed.setA 0 0x3000) 0x1000 [0x3080]) = .next t ∧
        (decide (memKey base.cfg 5 0x3002 ∉ writtenKeys base.cfg t.calls) && t.peekByte 5 0x3003 == 0x77) = true :=
  ⟨by decide +kernel, exists_next (by decide +kernel)⟩

/-- UserModeIsConfined: a user-mode step that enters no exception. -/
theorem witness_userModeIsConfined :
    user.sBit = false ∧ user.noCallbacks = true ∧ ∃ t, step (put user 0x1000 [0x76FF]) = .next t ∧ decide (t.entered = none) = true :=
  ⟨rfl, rfl, exists_next (by decide +kernel)⟩

end Sys2Proof.Tests
end

section
/-! PROOFS. Relations between the start and the end of a computation that hold whenever they hold of every elementary
write: one closure proof per operation, shared body and instruction, then one for the step. A statement about every step is
the step theorem for its own relation. -/

namespace Sys2Proof.Machine

/-- The state a computation ends in, normally or by an early exit. -/
def endState {α : Type} : EStateM.Result Exit State α → State
  | .ok _ t => t
  | .error _ t => t

@[simp] theorem endState_ok {α : Type} (a : α) (t : State) :
    endState (.ok a t : EStateM.Result Exit State α) = t := rfl
@[simp] theorem endState_error {α : Type} (e : Exit) (t : State) :
    endState (.error e t : EStateM.Result Exit State α) = t := rfl

/-- Every end of a computation, normal or early, is related to its start. -/
structure Keeps (R : State → State → Prop) {α : Type} (m : M α) : Prop where
  rel : ∀ s, R s (endState (m s))

/-- A relation closed under what an instruction does in either mode: the writes of registers and flags, the draws, and the
aligned accesses. -/
structure UserFrame (R : State → State → Prop) : Prop where
  refl : ∀ s, R s s
  trans : ∀ {s t u}, R s t → R t u → R s u
  setD : ∀ s n v, R s (s.setD n v)
  setA : ∀ s n v, R s (s.setA n v)
  setPc : ∀ s v, R s (s.setPc v)
  setCcr : ∀ s c, R s (s.setCcr c)
  drawn : ∀ s n, R s (s.drawn n)
  load : ∀ {s sz fc a}, alignedAt sz a = true → R s (s.load sz fc a)
  store : ∀ {s sz fc a v}, alignedAt sz a = true → R s (s.store sz fc a v)
  skipWord : ∀ {s}, s.wordReady s.pc = true → R s s.skipWord

/-- What a handler's address taken changes besides the PC (60_exceptions.md R410). -/
def State.inHandler (s : State) (v : Byte) (discard : Bool) : State :=
  { s with
    tracePending := s.tracePending && !discard
    runState := .running
    lastStores := []
    entered := some v }

/-- A relation also closed under what only supervisor mode or an exception entry does. -/
structure CoreFrame (R : State → State → Prop) : Prop extends UserFrame R where
  setS : ∀ s, R s (s.setS true)
  maskTrace : ∀ s i, R s { s with tBit := false, iMask := i }
  inHandler : ∀ s v discard, R s (s.inHandler v discard)
  writeSr : ∀ s v, R s (s.writeSr v)
  setSpInactive : ∀ s v, R s (s.setSpInactive v)
  setControl : ∀ {s} r v, s.cfg.variant = .m68010 → R s (s.setControl r v)
  stopped : ∀ s, R s { s with runState := .stopped }
  resetOut : ∀ s, R s (s.addCall .resetOut)

/-- A relation closed under what every instruction does: behind a privilege check it need only hold where every `CoreFrame`
does. -/
structure InstrFrame (R : State → State → Prop) : Prop extends UserFrame R where
  privileged : ∀ {f : Unit → M Unit} {s}, (∀ Q, CoreFrame Q → Q s (endState (f () s))) →
    R s (endState ((privileged >>= f) s))

section
variable {R : State → State → Prop} {α β : Type}

/-- What every core operation keeps, every instruction keeps. -/
theorem CoreFrame.instrFrame (h : CoreFrame R) : InstrFrame R where
  toUserFrame := h.toUserFrame
  privileged := by
    intro f s hf
    rw [Machine.privileged, M.require_bind]
    split
    · exact hf R h
    · exact h.refl s

/-! The monad and the elementary operations. -/

theorem UserFrame.keeps_bind (h : UserFrame R) {m : M α} {f : α → M β} (hm : Keeps R m) (hf : ∀ a, Keeps R (f a)) :
    Keeps R (m >>= f) := by
  refine ⟨fun s => ?_⟩
  have hms := hm.rel s
  rw [M.bind_apply]
  cases hr : m s with
  | ok a t =>
    rw [hr] at hms
    exact h.trans hms ((hf a).rel t)
  | error e t =>
    rw [hr] at hms
    exact hms

theorem UserFrame.keeps_pure (h : UserFrame R) (a : α) : Keeps R (pure a : M α) := ⟨h.refl⟩

theorem UserFrame.keeps_look (h : UserFrame R) (f : State → α) : Keeps R (look f) := ⟨h.refl⟩

theorem UserFrame.keeps_stop (h : UserFrame R) (e : Exit) : Keeps R (stop e : M α) := ⟨h.refl⟩

theorem UserFrame.keeps_raise (h : UserFrame R) (v : Byte) (p : Long) : Keeps R (raise v p : M α) := ⟨h.refl⟩

theorem UserFrame.keeps_require (h : UserFrame R) (p : State → Bool) (e : State → Exit) : Keeps R (require p e) := by
  refine ⟨fun s => ?_⟩
  rw [M.require_apply]
  split <;> exact h.refl s

/-- A change of the state is kept when the relation holds of it. -/
theorem keeps_upd {g : State → State} (hg : ∀ s, R s (g s)) : Keeps R (upd g) := ⟨hg⟩

theorem UserFrame.keeps_look_bind (h : UserFrame R) {g : State → α} {f : α → M β} (hf : ∀ a, Keeps R (f a)) :
    Keeps R (look g >>= f) := h.keeps_bind (h.keeps_look g) hf

theorem UserFrame.keeps_upd_bind (h : UserFrame R) {g : State → State} {f : Unit → M β} (hg : ∀ s, R s (g s))
    (hf : ∀ a, Keeps R (f a)) : Keeps R (upd g >>= f) := h.keeps_bind (keeps_upd hg) hf

theorem UserFrame.keeps_drawBit (h : UserFrame R) : Keeps R drawBit := ⟨fun s => h.drawn s 1⟩

theorem UserFrame.keeps_drawBit_bind (h : UserFrame R) {f : Bool → M β} (hf : ∀ b, Keeps R (f b)) :
    Keeps R (drawBit >>= f) := h.keeps_bind h.keeps_drawBit hf

theorem UserFrame.keeps_drawByte (h : UserFrame R) : Keeps R drawByte := ⟨fun s => h.drawn s 1⟩

theorem UserFrame.keeps_drawWord (h : UserFrame R) : Keeps R drawWord := ⟨fun s => h.drawn s 1⟩

theorem UserFrame.keeps_drawLong (h : UserFrame R) : Keeps R drawLong := ⟨fun s => h.drawn s 1⟩

theorem UserFrame.keeps_memRead (h : UserFrame R) (sz : Size) (fc : BitVec 3) (a : Long) : Keeps R (memRead sz fc a) := by
  refine ⟨fun s => ?_⟩
  by_cases ha : alignedAt sz a = true
  · rw [memRead_ok ha]
    exact h.load ha
  · have he : memRead sz fc a s = .error (.addressError ⟨a, false, fc, false⟩) s := by
      simp only [alignedAt] at ha
      simp [memRead, checkAligned, ha]
    rw [he]
    exact h.refl s

theorem UserFrame.keeps_memWrite (h : UserFrame R) (sz : Size) (fc : BitVec 3) (a v : Long) :
    Keeps R (memWrite sz fc a v) := by
  refine ⟨fun s => ?_⟩
  by_cases ha : alignedAt sz a = true
  · rw [memWrite_ok ha]
    exact h.store ha
  · have he : memWrite sz fc a v s = .error (.addressError ⟨a, true, fc, false⟩) s := by
      simp only [alignedAt] at ha
      simp [memWrite, checkAligned, ha]
    rw [he]
    exact h.refl s

theorem UserFrame.keeps_readData (h : UserFrame R) (sz : Size) (a : Long) : Keeps R (readData sz a) :=
  h.keeps_look_bind fun fc => h.keeps_memRead sz fc a

theorem UserFrame.keeps_writeData (h : UserFrame R) (sz : Size) (a v : Long) : Keeps R (writeData sz a v) :=
  h.keeps_look_bind fun fc => h.keeps_memWrite sz fc a v

/-- A fetch that exits early leaves the state, by an address error or a fault. -/
theorem fetch16_error {s t : State} {e : Exit} (h : fetch16 s = .error e t) :
    t = s ∧ ((∃ x, e = .addressError x) ∨ ∃ r, e = .fault r) := by
  simp only [fetch16, checkAligned, M.look_bind, M.require_bind, M.upd_bind, M.pure_apply] at h
  split at h
  · split at h
    · cases h
    · cases h
      exact ⟨rfl, .inr ⟨_, rfl⟩⟩
  · cases h
    exact ⟨rfl, .inl ⟨_, rfl⟩⟩

theorem UserFrame.keeps_fetch16 (h : UserFrame R) : Keeps R fetch16 := by
  refine ⟨fun s => ?_⟩
  cases hf : fetch16 s with
  | ok w t =>
    obtain ⟨hr, -, rfl⟩ := fetch16_of_ok hf
    exact h.skipWord hr
  | error e t =>
    obtain ⟨rfl, -⟩ := fetch16_error hf
    exact h.refl _

theorem UserFrame.keeps_fetch16_bind (h : UserFrame R) {f : Word → M β} (hf : ∀ w, Keeps R (f w)) :
    Keeps R (fetch16 >>= f) := h.keeps_bind h.keeps_fetch16 hf

theorem UserFrame.keeps_fetch32 (h : UserFrame R) : Keeps R fetch32 :=
  h.keeps_fetch16_bind fun _ => h.keeps_fetch16_bind fun _ => h.keeps_pure _

theorem UserFrame.keeps_push (h : UserFrame R) (sz : Size) (v : Long) : Keeps R (push sz v) :=
  h.keeps_upd_bind (h.setA · _ _) fun _ => h.keeps_look_bind fun _ => h.keeps_writeData ..

theorem UserFrame.keeps_pop (h : UserFrame R) (sz : Size) : Keeps R (pop sz) :=
  h.keeps_look_bind fun _ => h.keeps_bind (h.keeps_readData ..) fun _ => h.keeps_upd_bind (h.setA · _ _) fun _ =>
    h.keeps_pure _

/-! Registers written together with the flags or at a size. -/

theorem UserFrame.setDw (h : UserFrame R) (s : State) (n : Fin 8) (sz : Size) (v : Long) : R s (s.setDw n sz v) :=
  h.setD ..

theorem UserFrame.setD_setCcr (h : UserFrame R) (s : State) (n : Fin 8) (v : Long) (c : Ccr) :
    R s ((s.setD n v).setCcr c) := h.trans (h.setD ..) (h.setCcr ..)

theorem UserFrame.setGenReg (h : UserFrame R) (s : State) (r : GenReg) (v : Long) : R s (s.setGenReg r v) := by
  cases r with
  | d n => exact h.setD ..
  | a n => exact h.setA ..

theorem UserFrame.setMoves (h : UserFrame R) (s : State) (r : GenReg) (sz : Size) (v : Long) :
    R s (s.setMoves r sz v) := by
  cases r with
  | d n => exact h.setDw ..
  | a n => exact h.setA ..

/-! Operands. -/

theorem UserFrame.keeps_immediate (h : UserFrame R) (sz : Size) : Keeps R (immediate sz) := by
  cases sz with
  | b => exact h.keeps_fetch16_bind fun _ => h.keeps_pure _
  | w => exact h.keeps_fetch16_bind fun _ => h.keeps_pure _
  | l => exact h.keeps_fetch32

theorem UserFrame.keeps_resolve (h : UserFrame R) (ea : Ea) (sz : Size) : Keeps R (resolve ea sz) := by
  have address (f : State → Long) (sp : Space) : Keeps R (look f >>= fun a => pure (Desc.mem a sp)) :=
    h.keeps_look_bind fun _ => h.keeps_pure _
  cases ea with
  | dn n => exact h.keeps_pure _
  | an n => exact h.keeps_pure _
  | ind n => exact address ..
  | pi n => exact h.keeps_look_bind fun _ => h.keeps_upd_bind (h.setA · _ _) fun _ => h.keeps_pure _
  | pd n => exact h.keeps_upd_bind (h.setA · _ _) fun _ => address ..
  | d16 n => exact h.keeps_fetch16_bind fun _ => address ..
  | d8x n => exact h.keeps_fetch16_bind fun _ => address ..
  | absW => exact h.keeps_fetch16_bind fun _ => h.keeps_pure _
  | absL => exact h.keeps_bind h.keeps_fetch32 fun _ => h.keeps_pure _
  | pc16 => exact h.keeps_look_bind fun _ => h.keeps_fetch16_bind fun _ => h.keeps_pure _
  | pc8x => exact h.keeps_look_bind fun _ => h.keeps_fetch16_bind fun _ => address ..
  | imm => exact h.keeps_bind (h.keeps_immediate sz) fun _ => h.keeps_pure _

theorem UserFrame.keeps_eaRead (h : UserFrame R) (d : Desc) (sz : Size) : Keeps R (eaRead d sz) := by
  cases d with
  | regD n => exact h.keeps_look _
  | regA n => exact h.keeps_look _
  | mem a sp => exact h.keeps_look_bind fun fc => h.keeps_memRead sz fc a
  | imm v => exact h.keeps_pure v

theorem UserFrame.keeps_eaWrite (h : UserFrame R) (d : Desc) (sz : Size) (v : Long) : Keeps R (eaWrite d sz v) := by
  cases d with
  | regD n => exact keeps_upd (h.setDw · n sz v)
  | regA n => exact keeps_upd (h.setA · n _)
  | mem a sp =>
    cases sp with
    | data => exact h.keeps_writeData sz a v
    | program => exact h.keeps_stop _
  | imm x => exact h.keeps_stop _

theorem UserFrame.keeps_eaAddr (h : UserFrame R) (d : Desc) : Keeps R (eaAddr d) := by
  cases d with
  | mem a sp => exact h.keeps_pure _
  | regD n => exact h.keeps_stop _
  | regA n => exact h.keeps_stop _
  | imm v => exact h.keeps_stop _

theorem UserFrame.keeps_readEa (h : UserFrame R) (ea : Ea) (sz : Size) : Keeps R (readEa ea sz) :=
  h.keeps_bind (h.keeps_resolve ea sz) fun d => h.keeps_eaRead d sz

theorem UserFrame.keeps_addressEa (h : UserFrame R) (ea : Ea) (sz : Size) : Keeps R (addressEa ea sz) :=
  h.keeps_bind (h.keeps_resolve ea sz) fun d => h.keeps_bind (h.keeps_eaAddr d) fun _ => h.keeps_pure _

theorem UserFrame.keeps_predecrement (h : UserFrame R) (n : Fin 8) (sz : Size) : Keeps R (predecrement n sz) :=
  h.keeps_upd_bind (h.setA · _ _) fun _ => h.keeps_look _

theorem UserFrame.keeps_readPostincrement (h : UserFrame R) (n : Fin 8) (sz : Size) : Keeps R (readPostincrement n sz) :=
  h.keeps_look_bind fun _ => h.keeps_upd_bind (h.setA · _ _) fun _ => h.keeps_readData ..

theorem UserFrame.keeps_storeDown (h : UserFrame R) (sz : Size) (rs : List GenReg) (a : Long) :
    Keeps R (storeDown sz rs a) := by
  induction rs generalizing a with
  | nil => exact h.keeps_pure a
  | cons r rs ih => exact h.keeps_look_bind fun _ => h.keeps_bind (h.keeps_writeData ..) fun _ => ih _

theorem UserFrame.keeps_storeUp (h : UserFrame R) (sz : Size) (rs : List GenReg) (a : Long) :
    Keeps R (storeUp sz rs a) := by
  induction rs generalizing a with
  | nil => exact h.keeps_pure _
  | cons r rs ih => exact h.keeps_look_bind fun _ => h.keeps_bind (h.keeps_writeData ..) fun _ => ih _

theorem UserFrame.keeps_loadUp (h : UserFrame R) (sz : Size) (sp : Space) (rs : List GenReg) (a : Long) :
    Keeps R (loadUp sz sp rs a) := by
  induction rs generalizing a with
  | nil => exact h.keeps_pure a
  | cons r rs ih =>
    exact h.keeps_look_bind fun _ => h.keeps_bind (h.keeps_memRead ..) fun _ =>
      h.keeps_upd_bind (h.setGenReg · _ _) fun _ => ih _

/-! The bodies that several instructions share. -/

theorem UserFrame.keeps_eaDnBody (h : UserFrame R) (f : AluOp) (dn : Fin 8) (sz : Size) (ea : Ea) :
    Keeps R (eaDnBody f dn sz ea) :=
  h.keeps_bind (h.keeps_readEa ea sz) fun _ => keeps_upd (h.setD_setCcr · _ _ _)

theorem UserFrame.keeps_modifyEa (h : UserFrame R) (f : Long → Ccr → Alu) (sz : Size) (ea : Ea) :
    Keeps R (modifyEa f sz ea) :=
  h.keeps_bind (h.keeps_resolve ea sz) fun d => h.keeps_bind (h.keeps_eaRead d sz) fun _ => h.keeps_look_bind fun _ =>
    h.keeps_bind (h.keeps_eaWrite d sz _) fun _ => keeps_upd (h.setCcr · _)

theorem UserFrame.keeps_dnEaBody (h : UserFrame R) (f : AluOp) (dn : Fin 8) (sz : Size) (ea : Ea) :
    Keeps R (dnEaBody f dn sz ea) :=
  h.keeps_look_bind fun _ => h.keeps_modifyEa _ sz ea

theorem UserFrame.keeps_immEaBody (h : UserFrame R) (f : AluOp) (sz : Size) (ea : Ea) : Keeps R (immEaBody f sz ea) :=
  h.keeps_bind (h.keeps_immediate sz) fun _ => h.keeps_modifyEa _ sz ea

/-- An operand read and the flags written from it. -/
theorem UserFrame.keeps_readEa_setCcr (h : UserFrame R) (ea : Ea) (sz : Size) (f : Long → State → Ccr) :
    Keeps R (readEa ea sz >>= fun v => upd fun s => s.setCcr (f v s)) :=
  h.keeps_bind (h.keeps_readEa ea sz) fun _ => keeps_upd (h.setCcr · _)

/-- An operand read and an address register written from it. -/
theorem UserFrame.keeps_readEa_setA (h : UserFrame R) (ea : Ea) (sz : Size) (n : Fin 8) (f : Long → State → Long) :
    Keeps R (readEa ea sz >>= fun v => upd fun s => s.setA n (f v s)) :=
  h.keeps_bind (h.keeps_readEa ea sz) fun _ => keeps_upd (h.setA · n _)

theorem UserFrame.keeps_extendBody (h : UserFrame R) (f : AluOp) (x : Fin 8) (sz : Size) (form : RegMem) (y : Fin 8) :
    Keeps R (extendBody f x sz form y) := by
  cases form with
  | reg => exact keeps_upd (h.setD_setCcr · _ _ _)
  | mem =>
    exact h.keeps_bind (h.keeps_predecrement y sz) fun _ => h.keeps_bind (h.keeps_readData ..) fun _ =>
      h.keeps_bind (h.keeps_predecrement x sz) fun _ => h.keeps_bind (h.keeps_readData ..) fun _ =>
        h.keeps_look_bind fun _ => h.keeps_bind (h.keeps_writeData ..) fun _ => keeps_upd (h.setCcr · _)

theorem UserFrame.keeps_clrDummyRead (h : UserFrame R) (sz : Size) (d : Desc) : Keeps R (clrDummyRead sz d) := by
  cases d with
  | mem a sp =>
    refine h.keeps_look_bind fun on => ?_
    cases on with
    | true => exact h.keeps_bind (h.keeps_eaRead _ sz) fun _ => h.keeps_pure _
    | false => exact h.keeps_pure _
  | regD n => exact h.keeps_pure _
  | regA n => exact h.keeps_pure _
  | imm v => exact h.keeps_pure _

theorem UserFrame.keeps_multiplyBody (h : UserFrame R) (f : Long → Long → Ccr → Alu) (dn : Fin 8) (ea : Ea) :
    Keeps R (multiplyBody f dn ea) :=
  h.keeps_bind (h.keeps_readEa ea .w) fun _ => keeps_upd (h.setD_setCcr · _ _ _)

theorem UserFrame.keeps_zeroDivide (h : UserFrame R) : Keeps R zeroDivide :=
  h.keeps_drawBit_bind fun _ => h.keeps_drawBit_bind fun _ => h.keeps_drawBit_bind fun _ =>
    h.keeps_upd_bind (h.setCcr · _) fun _ => h.keeps_look_bind fun _ => h.keeps_raise ..

theorem UserFrame.keeps_writeDivision (h : UserFrame R) (dn : Fin 8) (o : Division) : Keeps R (writeDivision dn o) := by
  cases o with
  | overflow => exact h.keeps_drawBit_bind fun _ => h.keeps_drawBit_bind fun _ => keeps_upd (h.setCcr · _)
  | result r n z => exact keeps_upd (h.setD_setCcr · _ _ _)

theorem UserFrame.keeps_divideBody (h : UserFrame R) (f : Long → Long → Division) (dn : Fin 8) (ea : Ea) :
    Keeps R (divideBody f dn ea) := by
  refine h.keeps_bind (h.keeps_readEa ea .w) fun src => ?_
  cases isZero .w src with
  | true => exact h.keeps_zeroDivide
  | false => exact h.keeps_look_bind fun o => h.keeps_writeDivision dn o

theorem UserFrame.keeps_bcdResult (h : UserFrame R) (valid : Bool) (exact : Long × Bool) :
    Keeps R (bcdResult valid exact) := by
  cases valid with
  | true => exact h.keeps_pure _
  | false => exact h.keeps_bind h.keeps_drawByte fun _ => h.keeps_drawBit_bind fun _ => h.keeps_pure _

theorem UserFrame.keeps_bcdFlags (h : UserFrame R) (o : Long × Bool) : Keeps R (bcdFlags o) :=
  h.keeps_drawBit_bind fun _ => h.keeps_drawBit_bind fun _ => keeps_upd (h.setCcr · _)

theorem UserFrame.keeps_bcdBody (h : UserFrame R) (f : Long → Long → Bool → Long × Bool) (x : Fin 8) (form : RegMem)
    (y : Fin 8) : Keeps R (bcdBody f x form y) := by
  cases form with
  | reg =>
    exact h.keeps_look_bind fun _ => h.keeps_look_bind fun _ => h.keeps_look_bind fun _ =>
      h.keeps_bind (h.keeps_bcdResult ..) fun o => h.keeps_bind (h.keeps_bcdFlags o) fun _ => keeps_upd (h.setDw · _ _ _)
  | mem =>
    exact h.keeps_bind (h.keeps_predecrement y .b) fun _ => h.keeps_bind (h.keeps_readData ..) fun _ =>
      h.keeps_bind (h.keeps_predecrement x .b) fun _ => h.keeps_bind (h.keeps_readData ..) fun _ =>
        h.keeps_look_bind fun _ => h.keeps_bind (h.keeps_bcdResult ..) fun o => h.keeps_bind (h.keeps_bcdFlags o) fun _ =>
          h.keeps_writeData ..

theorem UserFrame.keeps_staticBit (h : UserFrame R) : Keeps R staticBit := h.keeps_fetch16_bind fun _ => h.keeps_pure _

theorem UserFrame.keeps_testBody (h : UserFrame R) {number : M Nat} (hn : Keeps R number) (ea : Ea) :
    Keeps R (testBody number ea) :=
  h.keeps_bind hn fun _ => h.keeps_readEa_setCcr ea _ _

theorem UserFrame.keeps_bitBody (h : UserFrame R) (op : BitOp) {number : M Nat} (hn : Keeps R number) (ea : Ea) :
    Keeps R (bitBody op number ea) :=
  h.keeps_bind hn fun _ => h.keeps_modifyEa _ _ ea

theorem UserFrame.keeps_branchTarget (h : UserFrame R) (d8 : Byte) : Keeps R (branchTarget d8) := by
  refine h.keeps_look_bind fun base => ?_
  cases d8 == 0 with
  | true => exact h.keeps_fetch16_bind fun _ => h.keeps_pure _
  | false => exact h.keeps_pure _

theorem UserFrame.keeps_moveBody (h : UserFrame R) (sz : Size) (src dst : Ea) : Keeps R (moveBody sz src dst) :=
  h.keeps_bind (h.keeps_readEa src sz) fun _ => h.keeps_bind (h.keeps_resolve dst sz) fun d =>
    h.keeps_bind (h.keeps_eaWrite d sz _) fun _ => keeps_upd (h.setCcr · _)

theorem UserFrame.keeps_movemDummyRead (h : UserFrame R) (sp : Space) (a : Long) : Keeps R (movemDummyRead sp a) := by
  refine h.keeps_look_bind fun on => ?_
  cases on with
  | true => exact h.keeps_look_bind fun _ => h.keeps_bind (h.keeps_memRead ..) fun _ => h.keeps_pure _
  | false => exact h.keeps_pure _

theorem UserFrame.keeps_movepLoad (h : UserFrame R) (dn : Fin 8) (n : Nat) (ks : List Nat) (a : Long) :
    Keeps R (movepLoad dn n ks a) := by
  induction ks generalizing a with
  | nil => exact h.keeps_pure _
  | cons k ks ih => exact h.keeps_bind (h.keeps_readData ..) fun _ => h.keeps_upd_bind (h.setD · _ _) fun _ => ih _

theorem UserFrame.keeps_movepStore (h : UserFrame R) (dn : Fin 8) (n : Nat) (ks : List Nat) (a : Long) :
    Keeps R (movepStore dn n ks a) := by
  induction ks generalizing a with
  | nil => exact h.keeps_pure _
  | cons k ks ih => exact h.keeps_look_bind fun _ => h.keeps_bind (h.keeps_writeData ..) fun _ => ih _

theorem UserFrame.keeps_shiftRegBody (h : UserFrame R) (op : ShiftOp) (k : Fin 8) (sz : Size) (g : CountKind) (y : Fin 8) :
    Keeps R (shiftRegBody op k sz g y) :=
  keeps_upd (h.setD_setCcr · _ _ _)

theorem UserFrame.keeps_ccrImmBody (h : UserFrame R) (f : Byte → Byte → Byte) : Keeps R (ccrImmBody f) :=
  h.keeps_fetch16_bind fun _ => keeps_upd (h.setCcr · _)

theorem UserFrame.keeps_raiseAtIpc (h : UserFrame R) (v : Byte) : Keeps R (raiseAtIpc v) :=
  h.keeps_look_bind fun _ => h.keeps_raise ..

theorem UserFrame.keeps_movesSource (h : UserFrame R) (r : GenReg) (ea : Ea) (before : Long) :
    Keeps R (movesSource r ea before) := by
  refine h.keeps_look_bind fun now => ?_
  cases movesSelfUpdate r ea with
  | true => exact h.keeps_drawBit_bind fun _ => h.keeps_pure _
  | false => exact h.keeps_pure _

/-! Privileged bodies. -/

/-- A body behind a privilege check is kept when every `CoreFrame` keeps what follows the check. -/
theorem InstrFrame.keeps_privileged (h : InstrFrame R) {f : Unit → M Unit}
    (hf : ∀ Q, CoreFrame Q → Keeps Q (f ())) : Keeps R (Machine.privileged >>= f) :=
  ⟨fun s => h.privileged fun Q hQ => (hf Q hQ).rel s⟩

theorem InstrFrame.keeps_srImmBody (h : InstrFrame R) (f : Word → Word → Word) : Keeps R (srImmBody f) :=
  h.keeps_privileged fun _ hQ => hQ.keeps_fetch16_bind fun _ => keeps_upd (hQ.writeSr · _)

theorem CoreFrame.keeps_returnFromException (h : CoreFrame R) : Keeps R returnFromException := by
  have restore (sp sr pcv : Long) :
      Keeps R (upd (fun s => s.setA 7 sp) >>= fun _ => upd fun s => (s.writeSr (lowWord sr)).setPc pcv) :=
    h.keeps_upd_bind (h.setA · _ _) fun _ => keeps_upd fun s => h.trans (h.writeSr s _) (h.setPc _ _)
  refine h.keeps_look_bind fun ipc => h.keeps_look_bind fun sp =>
    h.keeps_bind (h.keeps_readData ..) fun sr => h.keeps_bind (h.keeps_readData ..) fun pcv =>
      h.keeps_look_bind fun variant => ?_
  cases variant with
  | m68000 => exact restore ..
  | m68008 => exact restore ..
  | m68010 =>
    refine h.keeps_bind (h.keeps_readData ..) fun fv => ?_
    split
    · exact restore ..
    · exact h.keeps_stop _
    · exact h.keeps_raise ..

/-- MOVEC reaches its register on M68010 alone, where every control register exists. -/
theorem InstrFrame.keeps_movecBody (h : InstrFrame R) {f : ControlReg → GenReg → State → State}
    (hf : ∀ Q, CoreFrame Q → ∀ r g s, s.cfg.variant = .m68010 → Q s (f r g s)) : Keeps R (movecBody f) := by
  refine ⟨fun s => ?_⟩
  rw [movecBody, onM68010, M.require_bind]
  split
  next hv =>
    refine h.privileged fun Q hQ => ?_
    rw [M.look_bind]
    cases hw : fetch16 s with
    | error e t =>
      obtain ⟨rfl, -⟩ := fetch16_error hw
      rw [M.bind_error hw]
      exact hQ.refl _
    | ok w t =>
      obtain ⟨hr, -, rfl⟩ := fetch16_of_ok hw
      rw [M.bind_ok hw]
      refine hQ.trans (hQ.skipWord hr) ?_
      cases controlReg (w.toNat % 4096) with
      | some r => exact hf Q hQ _ _ _ (by simpa using hv)
      | none => exact hQ.refl _
  next => exact h.refl s

theorem InstrFrame.keeps_onM68010 (h : InstrFrame R) : Keeps R onM68010 := h.keeps_require ..

end

/-- Every instruction is the run of one body, which every `InstrFrame` keeps. -/
theorem exec_eq_run (i : Instr) : ∃ m : M Unit, (∀ s, exec i s = run m s) ∧ ∀ R, InstrFrame R → Keeps R m := by
  cases i with
  | oriToCcr | andiToCcr | eoriToCcr => exact ⟨_, fun _ => rfl, fun _ h => h.keeps_ccrImmBody _⟩
  | oriToSr | andiToSr | eoriToSr => exact ⟨_, fun _ => rfl, fun _ h => h.keeps_srImmBody _⟩
  | ori sz ea | andi sz ea | subi sz ea | addi sz ea | eori sz ea =>
    exact ⟨_, fun _ => rfl, fun _ h => h.keeps_immEaBody _ sz ea⟩
  | btstImm ea => exact ⟨_, fun _ => rfl, fun _ h => h.keeps_testBody h.keeps_staticBit ea⟩
  | bchgImm ea | bclrImm ea | bsetImm ea => exact ⟨_, fun _ => rfl, fun _ h => h.keeps_bitBody _ h.keeps_staticBit ea⟩
  | cmpi sz ea =>
    exact ⟨_, fun _ => rfl, fun _ h => h.keeps_bind (h.keeps_immediate sz) fun _ => h.keeps_readEa_setCcr ea sz _⟩
  | moves sz ea =>
    refine ⟨_, fun _ => rfl, fun _ h => h.keeps_bind h.keeps_onM68010 fun _ => h.keeps_privileged fun _ hQ =>
      hQ.keeps_fetch16_bind fun e => hQ.keeps_look_bind fun _ =>
        hQ.keeps_bind (hQ.keeps_addressEa ea sz) fun _ => ?_⟩
    cases e.getLsbD 11 with
    | true =>
      exact hQ.keeps_bind (hQ.keeps_movesSource ..) fun _ => hQ.keeps_look_bind fun _ => hQ.keeps_memWrite ..
    | false =>
      exact hQ.keeps_look_bind fun _ => hQ.keeps_bind (hQ.keeps_memRead ..) fun _ =>
        keeps_upd (hQ.setMoves · _ _ _)
  | btstReg dn ea => exact ⟨_, fun _ => rfl, fun _ h => h.keeps_testBody (h.keeps_look _) ea⟩
  | bchgReg dn ea | bclrReg dn ea | bsetReg dn ea =>
    exact ⟨_, fun _ => rfl, fun _ h => h.keeps_bitBody _ (h.keeps_look _) ea⟩
  | movep dn dir sz an =>
    refine ⟨_, fun _ => rfl, fun _ h => h.keeps_fetch16_bind fun _ => h.keeps_look_bind fun _ => ?_⟩
    cases dir with
    | memToReg => exact h.keeps_movepLoad ..
    | regToMem => exact h.keeps_movepStore ..
  | moveB src dst | moveW src dst | moveL src dst => exact ⟨_, fun _ => rfl, fun _ h => h.keeps_moveBody _ src dst⟩
  | moveaW an src | moveaL an src => exact ⟨_, fun _ => rfl, fun _ h => h.keeps_readEa_setA src _ an _⟩
  | negx sz ea | neg sz ea | notOp sz ea => exact ⟨_, fun _ => rfl, fun _ h => h.keeps_modifyEa _ sz ea⟩
  | moveFromSr ea =>
    exact ⟨_, fun _ => rfl, fun _ h => h.keeps_bind (h.keeps_require ..) fun _ =>
      h.keeps_bind (h.keeps_resolve ea .w) fun d => h.keeps_look_bind fun _ => h.keeps_eaWrite d .w _⟩
  | chk dn ea =>
    refine ⟨_, fun _ => rfl, fun _ h => h.keeps_bind (h.keeps_readEa ea .w) fun bound => h.keeps_drawBit_bind fun _ =>
      h.keeps_drawBit_bind fun _ => h.keeps_drawBit_bind fun _ => h.keeps_look_bind fun _ =>
        h.keeps_look_bind fun value => ?_⟩
    split
    · exact h.keeps_upd_bind (h.setCcr · _) fun _ => h.keeps_raise ..
    · exact h.keeps_upd_bind (h.setCcr · _) fun _ => h.keeps_raise ..
    · exact h.keeps_drawBit_bind fun _ => keeps_upd (h.setCcr · _)
  | lea an ea =>
    exact ⟨_, fun _ => rfl, fun _ h => h.keeps_bind (h.keeps_addressEa ea .l) fun _ => keeps_upd (h.setA · an _)⟩
  | clr sz ea =>
    exact ⟨_, fun _ => rfl, fun _ h => h.keeps_bind (h.keeps_resolve ea sz) fun d =>
      h.keeps_bind (h.keeps_clrDummyRead sz d) fun _ => h.keeps_bind (h.keeps_eaWrite d sz 0) fun _ =>
        keeps_upd (h.setCcr · _)⟩
  | moveFromCcr ea =>
    exact ⟨_, fun _ => rfl, fun _ h => h.keeps_bind h.keeps_onM68010 fun _ =>
      h.keeps_bind (h.keeps_resolve ea .w) fun d => h.keeps_look_bind fun _ => h.keeps_eaWrite d .w _⟩
  | moveToCcr ea => exact ⟨_, fun _ => rfl, fun _ h => h.keeps_readEa_setCcr ea .w fun v _ => Ccr.ofByte (lowByte v)⟩
  | moveToSr ea =>
    exact ⟨_, fun _ => rfl, fun _ h => h.keeps_privileged fun _ hQ =>
      hQ.keeps_bind (hQ.keeps_readEa ea .w) fun _ => keeps_upd (hQ.writeSr · _)⟩
  | nbcd ea =>
    exact ⟨_, fun _ => rfl, fun _ h => h.keeps_bind (h.keeps_resolve ea .b) fun d =>
      h.keeps_bind (h.keeps_eaRead d .b) fun _ => h.keeps_look_bind fun _ => h.keeps_bind (h.keeps_bcdResult ..) fun o =>
        h.keeps_bind (h.keeps_bcdFlags o) fun _ => h.keeps_eaWrite d .b _⟩
  | swap dn | extW dn | extL dn | moveq dn d8 => exact ⟨_, fun _ => rfl, fun _ h => keeps_upd (h.setD_setCcr · dn _ _)⟩
  | bkpt v | illegal | lineA low | lineF low => exact ⟨_, fun _ => rfl, fun _ h => h.keeps_raiseAtIpc _⟩
  | pea ea => exact ⟨_, fun _ => rfl, fun _ h => h.keeps_bind (h.keeps_addressEa ea .l) fun _ => h.keeps_push ..⟩
  | movemToMem sz ea =>
    refine ⟨_, fun _ => rfl, fun _ h => h.keeps_fetch16_bind fun mask => ?_⟩
    split
    · exact h.keeps_look_bind fun _ => h.keeps_bind (h.keeps_storeDown ..) fun _ =>
        keeps_upd (h.setA · _ _)
    · exact h.keeps_bind (h.keeps_addressEa ..) fun _ => h.keeps_storeUp ..
  | tst sz ea | cmp dn sz ea | cmpa an sz ea => exact ⟨_, fun _ => rfl, fun _ h => h.keeps_readEa_setCcr ea sz _⟩
  | tas ea => exact ⟨_, fun _ => rfl, fun _ h => h.keeps_modifyEa _ .b ea⟩
  | movemToRegs sz ea =>
    refine ⟨_, fun _ => rfl, fun _ h => h.keeps_fetch16_bind fun mask => ?_⟩
    split
    · exact h.keeps_look_bind fun _ => h.keeps_bind (h.keeps_loadUp ..) fun _ =>
        h.keeps_bind (h.keeps_movemDummyRead ..) fun _ => keeps_upd (h.setA · _ _)
    · exact h.keeps_bind (h.keeps_resolve ..) fun _ => h.keeps_bind (h.keeps_eaAddr _) fun _ =>
        h.keeps_bind (h.keeps_loadUp ..) fun _ => h.keeps_movemDummyRead ..
  | trap v =>
    -- Without `show`, the unifier evaluates the vector's sum before it unfolds `exec`.
    exact ⟨_, fun s => show execTrap v s = _ from rfl, fun _ h => h.keeps_look_bind fun _ => h.keeps_raise ..⟩
  | link an =>
    exact ⟨_, fun _ => rfl, fun _ h => h.keeps_fetch16_bind fun _ => h.keeps_upd_bind (h.setA · _ _) fun _ =>
      h.keeps_look_bind fun _ => h.keeps_look_bind fun _ => h.keeps_bind (h.keeps_writeData ..) fun _ =>
        h.keeps_upd_bind (h.setA · _ _) fun _ => keeps_upd (h.setA · _ _)⟩
  | unlk an =>
    exact ⟨_, fun _ => rfl, fun _ h => h.keeps_upd_bind (h.setA · _ _) fun _ => h.keeps_bind (h.keeps_pop .l) fun _ =>
      keeps_upd (h.setA · an _)⟩
  | moveAnUsp an =>
    exact ⟨_, fun _ => rfl, fun _ h => h.keeps_privileged fun _ hQ => keeps_upd (hQ.setSpInactive · _)⟩
  | moveUspAn an => exact ⟨_, fun _ => rfl, fun _ h => h.keeps_privileged fun _ hQ => keeps_upd (hQ.setA · an _)⟩
  | reset => exact ⟨_, fun _ => rfl, fun _ h => h.keeps_privileged fun _ hQ => keeps_upd hQ.resetOut⟩
  | nop => exact ⟨_, fun _ => rfl, fun _ h => h.keeps_pure ()⟩
  | stop =>
    exact ⟨_, fun _ => rfl, fun _ h => h.keeps_privileged fun _ hQ => hQ.keeps_fetch16_bind fun _ =>
      keeps_upd fun s => hQ.trans (hQ.writeSr s _) (hQ.stopped _)⟩
  | rte => exact ⟨_, fun _ => rfl, fun _ h => h.keeps_privileged fun _ hQ => hQ.keeps_returnFromException⟩
  | rtd =>
    exact ⟨_, fun _ => rfl, fun _ h => h.keeps_bind h.keeps_onM68010 fun _ => h.keeps_fetch16_bind fun _ =>
      h.keeps_bind (h.keeps_pop .l) fun _ => h.keeps_upd_bind (h.setA · _ _) fun _ =>
        keeps_upd (h.setPc · _)⟩
  | rts => exact ⟨_, fun _ => rfl, fun _ h => h.keeps_bind (h.keeps_pop .l) fun _ => keeps_upd (h.setPc · _)⟩
  | trapv => exact ⟨_, fun _ => rfl, fun _ h => h.keeps_require ..⟩
  | rtr =>
    exact ⟨_, fun _ => rfl, fun _ h => h.keeps_bind (h.keeps_pop .w) fun _ => h.keeps_upd_bind (h.setCcr · _) fun _ =>
      h.keeps_bind (h.keeps_pop .l) fun _ => keeps_upd (h.setPc · _)⟩
  | movecRcRn => exact ⟨_, fun _ => rfl, fun _ h => h.keeps_movecBody fun _ hQ _ g s _ => hQ.setGenReg s g _⟩
  | movecRnRc => exact ⟨_, fun _ => rfl, fun _ h => h.keeps_movecBody fun _ hQ r _ _ hv => hQ.setControl r _ hv⟩
  | jsr ea =>
    exact ⟨_, fun _ => rfl, fun _ h => h.keeps_bind (h.keeps_addressEa ea .l) fun _ => h.keeps_look_bind fun _ =>
      h.keeps_bind (h.keeps_push ..) fun _ => keeps_upd (h.setPc · _)⟩
  | jmp ea =>
    exact ⟨_, fun _ => rfl, fun _ h => h.keeps_bind (h.keeps_addressEa ea .l) fun _ => keeps_upd (h.setPc · _)⟩
  | addq q sz ea | subq q sz ea =>
    refine ⟨_, fun _ => rfl, fun _ h => ?_⟩
    split
    · exact keeps_upd (h.setA · _ _)
    · exact h.keeps_modifyEa _ sz _
  | dbcc c dn =>
    refine ⟨_, fun _ => rfl, fun _ h => h.keeps_look_bind fun _ => h.keeps_fetch16_bind fun _ =>
      h.keeps_look_bind fun term => ?_⟩
    split
    · exact h.keeps_pure _
    refine h.keeps_look_bind fun count => h.keeps_upd_bind (h.setDw · dn _ _) fun _ => ?_
    split
    · exact h.keeps_pure _
    · exact h.keeps_bind (h.keeps_require ..) fun _ => keeps_upd (h.setPc · _)
  | scc c ea =>
    exact ⟨_, fun _ => rfl, fun _ h => h.keeps_bind (h.keeps_resolve ea .b) fun d => h.keeps_look_bind fun _ =>
      h.keeps_eaWrite d .b _⟩
  | bra d8 =>
    exact ⟨_, fun _ => rfl, fun _ h => h.keeps_bind (h.keeps_branchTarget d8) fun _ => keeps_upd (h.setPc · _)⟩
  | bsr d8 =>
    exact ⟨_, fun _ => rfl, fun _ h => h.keeps_bind (h.keeps_branchTarget d8) fun _ => h.keeps_look_bind fun _ =>
      h.keeps_bind (h.keeps_push ..) fun _ => keeps_upd (h.setPc · _)⟩
  | bcc c d8 =>
    refine ⟨_, fun _ => rfl, fun _ h => h.keeps_bind (h.keeps_branchTarget d8) fun t => keeps_upd fun s => ?_⟩
    split
    · exact h.setPc s t
    · exact h.refl s
  | orEaDn dn sz ea | subEaDn dn sz ea | andEaDn dn sz ea | addEaDn dn sz ea =>
    exact ⟨_, fun _ => rfl, fun _ h => h.keeps_eaDnBody _ dn sz ea⟩
  | orDnEa dn sz ea | subDnEa dn sz ea | eor dn sz ea | andDnEa dn sz ea | addDnEa dn sz ea =>
    exact ⟨_, fun _ => rfl, fun _ h => h.keeps_dnEaBody _ dn sz ea⟩
  | divu dn ea | divs dn ea => exact ⟨_, fun _ => rfl, fun _ h => h.keeps_divideBody _ dn ea⟩
  | sbcd x form y | abcd x form y => exact ⟨_, fun _ => rfl, fun _ h => h.keeps_bcdBody _ x form y⟩
  | suba an sz ea | adda an sz ea => exact ⟨_, fun _ => rfl, fun _ h => h.keeps_readEa_setA ea sz an _⟩
  | subx x sz form y | addx x sz form y => exact ⟨_, fun _ => rfl, fun _ h => h.keeps_extendBody _ x sz form y⟩
  | cmpm x sz y =>
    exact ⟨_, fun _ => rfl, fun _ h => h.keeps_bind (h.keeps_readPostincrement y sz) fun _ =>
      h.keeps_bind (h.keeps_readPostincrement x sz) fun _ => keeps_upd (h.setCcr · _)⟩
  | mulu dn ea | muls dn ea => exact ⟨_, fun _ => rfl, fun _ h => h.keeps_multiplyBody _ dn ea⟩
  | exgDxDy x y => exact ⟨_, fun _ => rfl, fun _ h => keeps_upd fun s => h.trans (h.setD s x _) (h.setD _ y _)⟩
  | exgAxAy x y => exact ⟨_, fun _ => rfl, fun _ h => keeps_upd fun s => h.trans (h.setA s x _) (h.setA _ y _)⟩
  | exgDxAy x y => exact ⟨_, fun _ => rfl, fun _ h => keeps_upd fun s => h.trans (h.setD s x _) (h.setA _ y _)⟩
  | asrReg k sz g y | aslReg k sz g y | lsrReg k sz g y | lslReg k sz g y | roxrReg k sz g y | roxlReg k sz g y
  | rorReg k sz g y | rolReg k sz g y => exact ⟨_, fun _ => rfl, fun _ h => h.keeps_shiftRegBody _ k sz g y⟩
  | asrEa ea | aslEa ea | lsrEa ea | lslEa ea | roxrEa ea | roxlEa ea | rorEa ea | rolEa ea =>
    exact ⟨_, fun _ => rfl, fun _ h => h.keeps_modifyEa _ .w ea⟩

section
variable {R : State → State → Prop}

/-! Exception entry, which every `CoreFrame` keeps. -/

theorem CoreFrame.keeps_pushFormatWord (h : CoreFrame R) (v : Byte) : Keeps R (pushFormatWord v) := by
  refine h.keeps_look_bind fun variant => ?_
  cases variant with
  | m68000 => exact h.keeps_pure _
  | m68008 => exact h.keeps_pure _
  | m68010 => exact h.keeps_push ..

theorem CoreFrame.keeps_loadVector (h : CoreFrame R) (v : Byte) (discard : Bool) : Keeps R (loadVector v discard) :=
  h.keeps_look_bind fun _ => h.keeps_bind (h.keeps_readData ..) fun target =>
    keeps_upd fun s => h.trans (h.inHandler s v discard) (h.setPc _ target)

theorem CoreFrame.keeps_enter (h : CoreFrame R) (v : Byte) (savedPc : Long) (newI : Option (BitVec 3)) :
    Keeps R (enter v savedPc newI) :=
  h.keeps_look_bind fun _ => h.keeps_upd_bind h.setS fun _ =>
    h.keeps_upd_bind (h.maskTrace · _) fun _ => h.keeps_bind (h.keeps_pushFormatWord v) fun _ =>
      h.keeps_bind (h.keeps_push ..) fun _ => h.keeps_bind (h.keeps_push ..) fun _ => h.keeps_loadVector ..

theorem CoreFrame.keeps_groupZeroIr (h : CoreFrame R) : Keeps R groupZeroIr := by
  refine h.keeps_look_bind fun ir => ?_
  cases ir with
  | some w => exact h.keeps_pure w
  | none => exact h.keeps_drawWord

theorem CoreFrame.keeps_enterGroupZero (h : CoreFrame R) (e : AddressError) : Keeps R (enterGroupZero e) :=
  h.keeps_look_bind fun _ => h.keeps_upd_bind h.setS fun _ =>
    h.keeps_upd_bind (fun s => h.maskTrace s s.iMask) fun _ => h.keeps_bind h.keeps_drawLong fun _ =>
      h.keeps_bind (h.keeps_push ..) fun _ => h.keeps_bind (h.keeps_push ..) fun _ =>
        h.keeps_bind h.keeps_groupZeroIr fun _ => h.keeps_bind (h.keeps_push ..) fun _ =>
          h.keeps_bind h.keeps_drawLong fun _ => h.keeps_look_bind fun _ =>
            h.keeps_bind (h.keeps_push ..) fun _ => h.keeps_bind h.keeps_drawWord fun _ =>
              h.keeps_bind (h.keeps_push ..) fun _ => h.keeps_loadVector ..

/-- An address error that leads to a next state leads there by the group-0 sequence. -/
theorem enterGroupZero_of_takeAddressError {s t : State} {e : AddressError} (ht : takeAddressError e s = .next t) :
    ∃ u, enterGroupZero e s = .ok u t := by
  unfold takeAddressError at ht
  split at ht
  · cases ht
  split at ht
  · cases ht
  split at ht
  next hz =>
    cases ht
    exact ⟨_, hz⟩
  next => cases ht

theorem CoreFrame.rel_of_takeAddressError (h : CoreFrame R) {s t : State} {e : AddressError}
    (ht : takeAddressError e s = .next t) : R s t := by
  obtain ⟨u, hz⟩ := enterGroupZero_of_takeAddressError ht
  simpa [hz] using (h.keeps_enterGroupZero e).rel s

theorem CoreFrame.rel_of_takeException (h : CoreFrame R) {s t : State} {v : Byte} {p : Long} {i : Option (BitVec 3)}
    (ht : takeException v p i s = .next t) : R s t := by
  have hk := (h.keeps_enter v p i).rel s
  unfold takeException at ht
  cases he : enter v p i s with
  | ok a u =>
    rw [he] at hk ht
    cases ht
    exact hk
  | error x u =>
    rw [he] at hk ht
    cases x with
    | addressError e => exact h.trans hk (h.rel_of_takeAddressError ht)
    | exception v p => cases ht
    | fault r => cases ht
    | refused r => cases ht

/-- A next state after a body is reached by the body, and by the entry of an exception it raised. -/
theorem CoreFrame.rel_of_run (h : CoreFrame R) {m : M Unit} (hm : Keeps R m) {s t : State} (ht : run m s = .next t) :
    R s t := by
  have hk := hm.rel s
  unfold run at ht
  cases he : m s with
  | ok a u =>
    rw [he] at hk ht
    cases ht
    exact hk
  | error x u =>
    rw [he] at hk ht
    cases x with
    | exception v p => exact h.trans hk (h.rel_of_takeException ht)
    | addressError e => exact h.trans hk (h.rel_of_takeAddressError ht)
    | fault r => cases ht
    | refused r => cases ht

/-- Every instruction that leads to a next state keeps what the core keeps. -/
theorem CoreFrame.rel_of_exec (h : CoreFrame R) {i : Instr} {s t : State} (ht : exec i s = .next t) : R s t := by
  obtain ⟨m, hrun, hm⟩ := exec_eq_run i
  exact h.rel_of_run (hm R h.instrFrame) (hrun s ▸ ht)

/-- Every instruction that enters no exception keeps what instructions keep. -/
theorem InstrFrame.rel_of_exec (h : InstrFrame R) {i : Instr} {s t : State} (ht : exec i s = .next t)
    (he : t.entered = none) : R s t := by
  obtain ⟨m, hrun, hm⟩ := exec_eq_run i
  simpa [ok_of_run (hrun s ▸ ht) he] using (hm R h).rel s

end

/-! The step. -/

/-- What a step can do: only an unmarked, connected core that is not HALTED has one, and it takes the pending trace, takes
the recognized interrupt, holds in STOP, or runs an instruction (60_exceptions.md R431). -/
theorem step_cases {s t : State} (h : step s = .next t) :
    s.runState ≠ .halted ∧
      (takeException 9 s.pc none s.beginStep = .next t ∨
        interruptEntry s.sampleLine.beginStep = .next t ∨
        t = s.sampleLine.beginStep ∨
        executeInstruction s.resetFetch s.sampleLine.beginStep = .next t) := by
  have hactive : s.runState ≠ .halted ∧ activeStep s = .next t := by
    unfold step boundaryStep at h
    split at h
    · cases h
    · cases h
    · cases h
    · cases h
    next hr => exact ⟨by simp [hr], h⟩
    next hr => exact ⟨by simp [hr], h⟩
  obtain ⟨hr, ha⟩ := hactive
  refine ⟨hr, ?_⟩
  unfold activeStep at ha
  split at ha
  · exact .inl ha
  · exact .inr (.inl ha)
  · cases ha
    exact .inr (.inr (.inl rfl))
  · exact .inr (.inr (.inr ha))
  · cases ha

/-- What an instruction step can do: it takes the address error of its fetch, runs the instruction of the word it fetched
and commits it, or takes the illegal-instruction exception of a word that stands for none (70_reset_and_hazards.md R465). -/
theorem executeInstruction_cases {b : Bool} {s t : State} (h : executeInstruction b s = .next t) :
    (∃ e, takeAddressError e s.latchTrace = .next t) ∨
      s.latchTrace.wordReady s.latchTrace.pc = true ∧
        ((∃ w i n u, exec i (s.latchTrace.skipWord.setIr w) = .next u ∧ t = u.commit n) ∨
          ∃ w p, takeException 4 p none (s.latchTrace.skipWord.setIr w) = .next t) := by
  unfold executeInstruction at h
  cases hf : fetch16 s.latchTrace with
  | error e u =>
    rw [hf] at h
    obtain ⟨rfl, ⟨x, rfl⟩ | ⟨r, rfl⟩⟩ := fetch16_error hf
    · refine .inl ⟨x, ?_⟩
      simp only [takeFetchError] at h
      split at h
      · cases h
      · cases h
      all_goals exact h
    · cases h
  | ok w u =>
    rw [hf] at h
    obtain ⟨hr, -, rfl⟩ := fetch16_of_ok hf
    refine .inr ⟨hr, ?_⟩
    simp only [runOpcode] at h
    split at h
    next i hd =>
      cases hx : exec i (s.latchTrace.skipWord.setIr w) with
      | next u =>
        rw [hx] at h
        cases h
        exact .inl ⟨w, i, _, u, hx, rfl⟩
      | fault r =>
        rw [hx] at h
        cases h
      | refused r =>
        rw [hx] at h
        cases h
    next => exact .inr ⟨w, _, h⟩

@[simp] theorem State.commit_entered (s : State) (n : Long) : (s.commit n).entered = s.entered := by
  unfold State.commit; split <;> rfl

/-- A relation closed under what a step does around an instruction. -/
structure BoundaryFrame (R : State → State → Prop) : Prop where
  sampleLine : ∀ s : State, R s.beginStep s.sampleLine.beginStep
  latchTrace : ∀ s : State, R s s.latchTrace
  setIr : ∀ s w, R s (s.setIr w)
  commit : ∀ s n, R s (s.commit n)

section
variable {R : State → State → Prop}

/-- Every step relates its start to its end, when the core's operations, the boundary's and the acknowledge do. -/
theorem CoreFrame.rel_of_step (h : CoreFrame R) (hb : BoundaryFrame R)
    (hi : ∀ s l, R s (s.consumeRequest.addCall (.iack l 7))) {s t : State} (ht : step s = .next t) : R s.beginStep t := by
  obtain ⟨-, ht | ht | rfl | ht⟩ := step_cases ht
  · exact h.rel_of_takeException ht
  · exact h.trans (hb.sampleLine s) (h.trans (hi _ _) (h.rel_of_takeException ht))
  · exact hb.sampleLine s
  refine h.trans (hb.sampleLine s) (h.trans (hb.latchTrace _) ?_)
  obtain ⟨e, ht⟩ | ⟨hr, ⟨w, i, n, u, hx, rfl⟩ | ⟨w, p, ht⟩⟩ := executeInstruction_cases ht
  · exact h.rel_of_takeAddressError ht
  · exact h.trans (h.skipWord hr) (h.trans (hb.setIr _ w) (h.trans (h.rel_of_exec hx) (hb.commit u n)))
  · exact h.trans (h.skipWord hr) (h.trans (hb.setIr _ w) (h.rel_of_takeException ht))

/-- Every step that enters no exception relates its start to its end, when instructions and the boundary do. -/
theorem InstrFrame.rel_of_step (h : InstrFrame R) (hb : BoundaryFrame R) {s t : State} (ht : step s = .next t)
    (he : t.entered = none) : R s.beginStep t := by
  have notTaken {v : Byte} {p : Long} {i : Option (BitVec 3)} {u : State} : takeException v p i u ≠ .next t := by
    intro hx
    have := takeException_entered hx
    simp [he] at this
  obtain ⟨-, ht | ht | rfl | ht⟩ := step_cases ht
  · exact absurd ht notTaken
  · exact absurd ht notTaken
  · exact hb.sampleLine s
  refine h.trans (hb.sampleLine s) (h.trans (hb.latchTrace _) ?_)
  obtain ⟨e, ht⟩ | ⟨hr, ⟨w, i, n, u, hx, rfl⟩ | ⟨w, p, ht⟩⟩ := executeInstruction_cases ht
  · have := takeAddressError_entered ht
    simp [he] at this
  · rw [State.commit_entered] at he
    exact h.trans (h.skipWord hr) (h.trans (hb.setIr _ w) (h.trans (h.rel_of_exec hx he) (hb.commit u n)))
  · exact absurd ht notTaken
end

/-! What every step keeps of the configuration, the marks and the run state (10_state.md R53), and what user mode keeps of
the supervisor's state (60_exceptions.md R435). -/

/-- With no calls back to come, a bus call leaves none to come. -/
theorem State.noCallbacks_addCall {s : State} (c : BusCall) (h : s.noCallbacks = true) :
    (s.addCall c).noCallbacks = true := by
  simp only [State.noCallbacks, List.all_eq_true, State.addCall_script] at h ⊢
  exact fun r hr => h r (List.mem_of_mem_tail hr)

/-- The configuration and the fault mark are kept, a core that is not HALTED is not halted, and the refusal mark is kept
where no call of the collaborator calls back. -/
structure MarksKept (s t : State) : Prop where
  cfg : t.cfg = s.cfg
  faultMark : t.faultMark = s.faultMark
  notHalted : s.runState ≠ .halted → t.runState ≠ .halted
  refusedMark : s.noCallbacks = true → t.refusedMark = s.refusedMark
  noCallbacks : s.noCallbacks = true → t.noCallbacks = true

/-- A write of neither the marks nor the script keeps the marks, when it does not halt. -/
theorem MarksKept.of_eq {s t : State} (hc : t.cfg = s.cfg := by simp) (hf : t.faultMark = s.faultMark := by simp)
    (hr : s.runState ≠ .halted → t.runState ≠ .halted := by simp) (hm : t.refusedMark = s.refusedMark := by simp)
    (hs : t.script = s.script := by simp) : MarksKept s t where
  cfg := hc
  faultMark := hf
  notHalted := hr
  refusedMark _ := hm
  noCallbacks h := by simpa [State.noCallbacks, hs] using h

theorem MarksKept.trans {s t u : State} (h : MarksKept s t) (h' : MarksKept t u) : MarksKept s u where
  cfg := h'.cfg.trans h.cfg
  faultMark := h'.faultMark.trans h.faultMark
  notHalted hs := h'.notHalted (h.notHalted hs)
  refusedMark hs := (h'.refusedMark (h.noCallbacks hs)).trans (h.refusedMark hs)
  noCallbacks hs := h'.noCallbacks (h.noCallbacks hs)

theorem MarksKept.addCall (s : State) (c : BusCall) : MarksKept s (s.addCall c) where
  cfg := rfl
  faultMark := rfl
  notHalted := id
  refusedMark h := (State.addCall_of_noCallbacks c h).2
  noCallbacks := State.noCallbacks_addCall c

/-- No operation of the core changes the configuration or a fault mark, halts, or refuses. -/
theorem marksKept_coreFrame : CoreFrame MarksKept where
  refl s := .of_eq
  trans := .trans
  setD s n v := .of_eq
  setA s n v := .of_eq
  setPc s v := .of_eq
  setCcr s c := .of_eq
  drawn s n := .of_eq
  load _ := .addCall ..
  store {s sz fc a v} _ := (MarksKept.addCall s (.write sz a fc (low sz v))).trans .of_eq
  skipWord {s} _ := (MarksKept.addCall s (.fetch16 s.pc s.progFc)).trans .of_eq
  setS s := .of_eq
  maskTrace s i := .of_eq
  inHandler s v discard := .of_eq rfl rfl (by simp [State.inHandler]) rfl rfl
  writeSr s v := .of_eq
  setSpInactive s v := .of_eq
  setControl r v _ := .of_eq
  stopped s := .of_eq
  resetOut s := .addCall ..

/-- The supervisor's part of the state: S, T, I, the inactive stack pointer, VBR, SFC, DFC and the run state. -/
def State.supervisorPart (s : State) : Bool × Bool × BitVec 3 × Long × Long × BitVec 3 × BitVec 3 × RunState :=
  (s.sBit, s.tBit, s.iMask, s.spInactive, s.vbr, s.sfc, s.dfc, s.runState)

/-- From user mode, the supervisor's part of the state is kept, S = 0 with it. -/
def Confined (s t : State) : Prop := s.sBit = false → t.supervisorPart = s.supervisorPart

theorem Confined.trans {s t u : State} (h : Confined s t) (h' : Confined t u) : Confined s u := fun hs => by
  have ht := h hs
  have hu : t.sBit = false := (congrArg Prod.fst ht).trans hs
  exact (h' hu).trans ht

/-- Nothing that an instruction does in user mode reaches the supervisor's part: a privileged one stops at its check. -/
theorem confined_instrFrame : InstrFrame Confined where
  refl s _ := rfl
  trans := .trans
  setD s n v _ := rfl
  setA s n v _ := rfl
  setPc s v _ := rfl
  setCcr s c _ := rfl
  drawn s n _ := rfl
  load _ _ := rfl
  store _ _ := by simp [State.supervisorPart]
  skipWord _ _ := rfl
  privileged {f s} _ hs := by rw [privileged, M.require_bind, hs]; rfl

theorem marksKept_boundaryFrame : BoundaryFrame MarksKept where
  sampleLine s := .of_eq
  latchTrace s := .of_eq
  setIr s w := .of_eq
  commit s n := by unfold State.commit; split <;> exact .of_eq

theorem confined_boundaryFrame : BoundaryFrame Confined where
  sampleLine s _ := by simp [State.supervisorPart]
  latchTrace s _ := rfl
  setIr s w _ := rfl
  commit s n _ := by unfold State.commit; split <;> rfl

/-- Settles O57: every step keeps the marks, and one that enters no exception is confined when it starts in user mode. -/
theorem userModeIsConfined : Obligations.UserModeIsConfined := by
  unfold Obligations.UserModeIsConfined
  intro s t ht
  have hm : MarksKept s.beginStep t :=
    marksKept_coreFrame.rel_of_step marksKept_boundaryFrame
      (fun s l => (MarksKept.of_eq (t := s.consumeRequest)).trans (.addCall ..)) ht
  refine ⟨⟨hm.cfg, hm.faultMark, hm.notHalted (step_cases ht).1, hm.refusedMark⟩, fun hs he => ?_⟩
  have hc := confined_instrFrame.rel_of_step confined_boundaryFrame ht he hs
  simp only [State.supervisorPart, State.beginStep_sBit, Prod.mk.injEq] at hc
  obtain ⟨hS, hT, hI, hsp, hvbr, hsfc, hdfc, hrun⟩ := hc
  rw [hs] at hS
  refine ⟨hS, hT, hI, ?_, hvbr, hsfc, hdfc, hrun⟩
  simpa [State.ssp, hS, hs] using hsp

/-- Settles O52, reading the marks, the collaborator and the run state in the order in which the step asks for them. -/
theorem noStepWhenMarked : Obligations.NoStepWhenMarked := by
  unfold Obligations.NoStepWhenMarked step boundaryStep
  intro s
  refine ⟨fun r hf => ?_, fun r hf hr => ?_, fun hf hr hb => ?_, fun hf hr hb hh => ?_⟩
  · simp [hf]
  · simp [hf, hr]
  · simp [hf, hr, hb]
  · simp [hf, hr, hb, hh]

/-! The host's reset (70_reset_and_hazards.md R450). -/

/-- The part of the state that `reset()` sets first or keeps, and that none of its draws changes (R450). -/
def State.resetPart (s : State) :
    (Bool × Bool × BitVec 3 × Bool × List Nat × List BusCall) × Config × List Host.Cell × List Reaction ×
      List (List Change) × Fin 8 × Fin 8 × Option Fault × Option Refusal :=
  ((s.sBit, s.tBit, s.iMask, s.tracePending, s.lastStores, s.calls), s.cfg, s.mem, s.script, s.agents, s.intLevel,
    s.prevLevel, s.faultMark, s.refusedMark)

theorem drawRegs_ok {write : State → Fin 8 → Long → State}
    (hw : ∀ s n v, (write s n v).resetPart = s.resetPart) (ns : List (Fin 8)) (s : State) :
    ∃ t, drawRegs write ns s = .ok () t ∧ t.resetPart = s.resetPart := by
  induction ns generalizing s with
  | nil => exact ⟨s, rfl, rfl⟩
  | cons n ns ih =>
    obtain ⟨t, ht, hp⟩ := ih (write (s.drawn 1) n (Config.freeLong s.draws))
    exact ⟨t, ht, hp.trans (hw ..)⟩

theorem resetM68010_ok (s : State) :
    ∃ t, resetM68010 s = .ok () t ∧ t.resetPart = s.resetPart ∧ (s.cfg.variant = .m68010 → t.vbr = 0) := by
  simp only [resetM68010, M.look_bind]
  cases s.cfg.variant with
  | m68000 => exact ⟨s, rfl, rfl, nofun⟩
  | m68008 => exact ⟨s, rfl, rfl, nofun⟩
  | m68010 =>
    simp only [M.drawByte_bind, M.upd_apply]
    exact ⟨_, rfl, rfl, fun _ => rfl⟩

/-- The status and the model's own fields as `reset()` sets them first. -/
def State.resetStatus (s : State) : State :=
  { s with tracePending := false, lastStores := [], tBit := false, sBit := true, iMask := 7, calls := [], ir := none,
           entered := none, resetFetch := true }

/-- A7 and the PC read from addresses 0 and 4 with function code 6. -/
def State.vectorsRead (p : State) : State :=
  let q := (p.load .l 6 0).setA 7 (p.loaded .l 6 0)
  (q.load .l 6 4).setPc (q.loaded .l 6 4)

theorem State.vectorsRead_script (p : State) : p.vectorsRead.script = p.script.drop 2 := by
  rw [← List.drop_drop (i := 1) (j := 1), List.drop_one, List.drop_one]
  rfl

theorem State.vectorsRead_a7 (p : State) : p.vectorsRead.a[7] = p.loaded .l 6 0 := by simp [State.vectorsRead]

theorem State.vectorsRead_pc (p : State) : p.vectorsRead.pc = (p.load .l 6 0).loaded .l 6 4 := rfl

/-- With no calls back to come, the two reads leave the interrupt request and the refusal mark. -/
theorem State.vectorsRead_of_noCallbacks {p : State} (h : p.noCallbacks = true) :
    p.vectorsRead.intLevel = p.intLevel ∧ p.vectorsRead.refusedMark = p.refusedMark := by
  obtain ⟨hint, href⟩ := State.addCall_of_noCallbacks (.read .l 0 6) h
  obtain ⟨hint', href'⟩ := State.addCall_of_noCallbacks (.read .l 4 6) (State.noCallbacks_addCall (.read .l 0 6) h)
  exact ⟨hint'.trans hint, href'.trans href⟩

/-- `reset()` with a bus collaborator: the two reads from a state that the draws have left as `resetStatus` sets it. -/
theorem hostReset_eq {s : State} (hb : s.cfg.busCollaborator = true) :
    ∃ p : State, p.resetPart = s.resetStatus.resetPart ∧ p.runState = .running ∧ (s.cfg.variant = .m68010 → p.vbr = 0) ∧
      hostReset s = p.vectorsRead := by
  simp only [hostReset, hb, if_true, resetSequence, M.upd_bind, M.drawBit_bind]
  obtain ⟨t, ht, htp⟩ := drawRegs_ok (write := State.setD) (fun _ _ _ => rfl) [0, 1, 2, 3, 4, 5, 6, 7] _
  rw [M.bind_ok ht]
  obtain ⟨u, hu, hup⟩ := drawRegs_ok (write := State.setA) (fun _ _ _ => rfl) [0, 1, 2, 3, 4, 5, 6] t
  rw [M.bind_ok hu, M.drawLong_bind, M.upd_bind]
  obtain ⟨w, hw, hwp, hvbr⟩ := resetM68010_ok ((u.drawn 1).setSpInactive (Config.freeLong u.draws))
  rw [M.bind_ok hw]
  have hupart : u.resetPart = s.resetStatus.resetPart := by
    rw [hup, htp]
    simp [State.resetPart, State.resetStatus]
  have hcfg : u.cfg = s.cfg := congrArg (·.2.1) hupart
  exact ⟨{ w with runState := .running }, hwp.trans hupart, rfl, fun hv => hvbr (hcfg ▸ hv), rfl⟩

/-- Settles O54: the reads of the vectors, from a state that the draws have left as `resetStatus` sets it. -/
theorem hostResetState : Obligations.HostResetState := by
  unfold Obligations.HostResetState
  refine ⟨fun s hb => by simp [hostReset, hb], fun s hb => ?_⟩
  obtain ⟨p, hp, hrun, hvbr, hr⟩ := hostReset_eq hb
  simp only [State.resetPart, State.resetStatus, Prod.mk.injEq] at hp
  obtain ⟨⟨hS, hT, hI, htrace, hstores, hcalls⟩, hcfg, hmem, hscript, hagents, hint, hprev, hfault, hrefused⟩ := hp
  have hload : (p.load .l 6 0).script = (s.load .l 6 0).script := congrArg List.tail hscript
  have hquiet (h : s.noCallbacks = true) : p.noCallbacks = true := by simpa [State.noCallbacks, hscript] using h
  rw [hr]
  refine ⟨?_, ?_, ?_, ?_, ?_, ?_, ?_, ?_, ?_, ?_, fun hv => ?_, ?_, ?_, ?_, ?_, ?_, fun h => ?_⟩
  case refine_7 => rw [State.vectorsRead_a7, State.loaded_congr hcfg hmem hscript]
  case refine_8 => rw [State.vectorsRead_pc, State.loaded_congr (s := p.load .l 6 0) (t := s.load .l 6 0) hcfg hmem hload]
  case refine_10 => rw [State.vectorsRead_script, hscript]
  case refine_11 => simpa [State.vectorsRead] using hvbr hv
  case refine_17 => rw [← hint, ← hrefused]; exact State.vectorsRead_of_noCallbacks (hquiet h)
  all_goals simp [State.vectorsRead, *]

end Sys2Proof.Machine
end

section
/-! PROOFS. The registers and the status register written and read back (10_state.md R31–R42), and the invariant that
reset establishes and every step keeps. -/

namespace Sys2Proof.Machine

/-! Reset. -/

/-- Settles O53: both vectors are long zeros of a memory with nothing listed. -/
theorem resetState : Obligations.ResetState := by
  unfold Obligations.ResetState
  exact ⟨rfl, rfl, rfl, rfl, rfl, rfl, rfl, rfl, rfl⟩

/-- Settles O55: nothing is listed, kept or pending. -/
theorem resetInvariant : Obligations.ResetInvariant := by
  unfold Obligations.ResetInvariant
  decide

/-! Register writes. -/

theorem sext16_lowWord_getLsbD (v : Long) {k : Nat} (hk : k < 32) :
    (sext16 (lowWord v)).getLsbD k = v.getLsbD (min k 15) := by
  rw [sext16, lowWord, BitVec.getLsbD_signExtend, decide_eq_true hk, Bool.true_and]
  split
  next h => rw [BitVec.getLsbD_setWidth, decide_eq_true h, Bool.true_and, Nat.min_eq_left (by omega)]
  next h =>
    rw [BitVec.msb_eq_getLsbD_last, BitVec.getLsbD_setWidth, Nat.min_eq_right (by omega)]
    simp

/-- Settles O7: a data register by the merge of its low bits, an address register by the sign extension. -/
theorem registerWritesBySize : Obligations.RegisterWritesBySize := by
  unfold Obligations.RegisterWritesBySize
  intro s n m sz v
  have other {xs : Vector Long 8} {x : Long} (h : m ≠ n) : (xs.set n.val x)[m] = xs[m] :=
    Vector.getElem_set_ne _ _ fun h' => h (Fin.ext h'.symm)
  refine ⟨fun k _ => ?_, other, State.setA_get .., fun k hk => ?_, other⟩
  · simp [mergeLow_getLsbD]
  · rw [State.setAw, State.setA_get]
    exact sext16_lowWord_getLsbD v hk

/-! The status register. -/

/-- The bits of SR (10_state.md R40). -/
theorem State.sr_getLsbD (s : State) {k : Nat} (hk : k < 16) : s.sr.getLsbD k =
    if k < 8 then s.ccr.toByte.getLsbD k
    else if k < 11 then s.iMask.getLsbD (k - 8)
    else decide (k = 13) && s.sBit || decide (k = 15) && s.tBit := by
  rw [State.sr]
  simp only [BitVec.getLsbD_append]
  interval_cases k <;> simp

/-- The flags of a byte are its bits 4–0. -/
theorem Ccr.toByte_ofByte (v : Byte) : (Ccr.ofByte v).toByte = v &&& 0x1F := by
  refine BitVec.eq_of_getLsbD_eq fun k hk => ?_
  simp only [Ccr.toByte, Ccr.ofByte, BitVec.getLsbD_append]
  interval_cases k <;> simp

theorem State.sr_writeSr (s : State) (v : Word) : (s.writeSr v).sr = v &&& srMask := by
  refine BitVec.eq_of_getLsbD_eq fun k hk => ?_
  rw [State.sr_getLsbD _ hk, State.writeSr_ccr, Ccr.toByte_ofByte]
  interval_cases k <;> simp [srMask, wordLowByte]

theorem State.sr_writeCcr (s : State) (c : Byte) :
    (s.writeCcr c).sr = (s.sr &&& 0xFF00) ||| (c &&& 0x1F).setWidth 16 := by
  refine BitVec.eq_of_getLsbD_eq fun k hk => ?_
  rw [BitVec.getLsbD_or, BitVec.getLsbD_and, State.sr_getLsbD _ hk, State.sr_getLsbD _ hk, State.writeCcr_ccr,
    Ccr.toByte_ofByte]
  interval_cases k <;> simp

/-! The stack pointers. -/

/-- The stack pointers swap exactly when S changes (10_state.md R35). -/
theorem State.setS_of_ne {s : State} {b : Bool} (h : b ≠ s.sBit) :
    s.setS b = { s with a := s.a.set 7 s.spInactive, spInactive := s.a[7], sBit := b } := if_neg h

@[simp] theorem State.setS_sBit_self (s : State) : s.setS s.sBit = s := if_pos rfl

@[simp] theorem State.usp_setS (s : State) (b : Bool) : (s.setS b).usp = s.usp := by
  by_cases h : b = s.sBit
  · rw [h, State.setS_sBit_self]
  · rw [State.setS_of_ne h]
    cases b <;> simp_all [State.usp]

@[simp] theorem State.ssp_setS (s : State) (b : Bool) : (s.setS b).ssp = s.ssp := by
  by_cases h : b = s.sBit
  · rw [h, State.setS_sBit_self]
  · rw [State.setS_of_ne h]
    cases b <;> simp_all [State.ssp]

theorem State.setS_a_of_ne (s : State) (b : Bool) {n : Fin 8} (hn : n ≠ 7) : (s.setS b).a[n] = s.a[n] := by
  by_cases h : b = s.sBit
  · rw [h, State.setS_sBit_self]
  · rw [State.setS_of_ne h]
    exact Vector.getElem_set_ne (by decide) n.isLt fun h' => hn (Fin.ext h'.symm)

/-- A7 is the stack pointer of the mode (10_state.md R33). -/
theorem State.a7_eq (s : State) : s.a[7] = if s.sBit then s.ssp else s.usp := by
  cases h : s.sBit <;> simp [State.ssp, State.usp, h]

/-- Settles O6: SR bit by bit, the stack pointers by whether S changes. -/
theorem statusReadsBack : Obligations.StatusReadsBack := by
  unfold Obligations.StatusReadsBack
  intro s v c b
  refine ⟨s.sr_writeSr v, State.usp_setS _ _, State.ssp_setS _ _, rfl, s.sr_writeCcr c, s.setS_sBit b, s.usp_setS b,
    s.ssp_setS b, ?_, fun n hn => ⟨s.setS_a_of_ne b hn, State.setS_a_of_ne _ _ hn⟩⟩
  rw [State.a7_eq, State.setS_sBit, State.ssp_setS, State.usp_setS]

/-! The invariant. -/

/-- A byte store in its canonical form with bus addresses for keys (20_memory.md R71–R73). -/
def storeValid (cfg : Config) (m : List Host.Cell) : Prop :=
  Memory.wf m = true ∧ ∀ c ∈ m, validKey cfg c.1 = true

theorem State.inv_iff {s : State} :
    s.Inv = true ↔ storeValid s.cfg s.mem ∧ (∀ k ∈ s.lastStores, k < 2 ^ addressBits s.cfg) ∧
      (s.tracePending = true → s.cfg.traceEnabled = true) ∧
      (s.cfg.variant = .m68010 ∨ s.vbr = 0 ∧ s.sfc = 0 ∧ s.dfc = 0) := by
  simp only [State.Inv, storeValid, Bool.and_eq_true, Bool.or_eq_true, List.all_eq_true, decide_eq_true_eq, beq_iff_eq,
    Bool.not_eq_true', Bool.not_eq_true, imp_iff_not_or, and_assoc]

theorem addressBits_le (cfg : Config) : addressBits cfg ≤ 24 := by
  unfold addressBits
  split
  · exact le_rfl
  · exact le_rfl
  · split <;> decide

theorem busAddr_lt (cfg : Config) (a : Long) : busAddr cfg a < 2 ^ addressBits cfg :=
  Nat.mod_lt _ (Nat.two_pow_pos _)

theorem validKey_memKey (cfg : Config) (fc : BitVec 3) (a : Long) : validKey cfg (memKey cfg fc a) = true := by
  have hb := busAddr_lt cfg a
  have hp : 2 ^ addressBits cfg ≤ 2 ^ 24 := Nat.pow_le_pow_right (by decide) (addressBits_le cfg)
  have hfc : fc.toNat < 8 := fc.isLt
  unfold validKey memKey
  cases cfg.fcSeparateSpaces with
  | false => simpa using hb
  | true =>
    simp only [if_true, Bool.and_eq_true, decide_eq_true_eq]
    constructor <;> omega

theorem storeValid_write {cfg : Config} {m : List Host.Cell} {k : Nat} (v : Byte) (hk : validKey cfg k = true)
    (h : storeValid cfg m) : storeValid cfg (Memory.write m k v) := by
  obtain ⟨hwf, hkeys⟩ := h
  refine ⟨Memory.wf_write k v hwf, fun c hc => ?_⟩
  rcases Memory.mem_write hc with rfl | hc
  · exact hk
  · exact hkeys c hc

theorem storeValid_changeBytes {cfg : Config} (cs : List Change) {m : List Host.Cell} (h : storeValid cfg m) :
    storeValid cfg (changeBytes cfg cs m) := by
  induction cs generalizing m with
  | nil => exact h
  | cons c cs ih => exact ih (storeValid_write c.value (validKey_memKey ..) h)

theorem State.storeValid_poke {s : State} (sz : Size) (fc : BitVec 3) (a v : Long) (h : storeValid s.cfg s.mem) :
    storeValid s.cfg (s.poke sz fc a v).mem := by
  have hw {m : List Host.Cell} (b : Long) (x : Byte) (h : storeValid s.cfg m) :
    storeValid s.cfg (Memory.write m (memKey s.cfg fc b) x) := storeValid_write x (validKey_memKey ..) h
  cases sz with
  | b => exact hw _ _ h
  | w => exact hw _ _ (hw _ _ h)
  | l => exact hw _ _ (hw _ _ (hw _ _ (hw _ _ h)))

/-- What a step keeps for the hazard check are bus addresses (70_reset_and_hazards.md R461). -/
theorem storedBytes_lt {cfg : Config} {cs : List BusCall} {k : Nat} (hk : k ∈ storedBytes cfg cs) :
    k < 2 ^ addressBits cfg := by
  induction cs with
  | nil => cases hk
  | cons c cs ih =>
    cases c with
    | write sz a fc v =>
      rcases List.mem_append.mp hk with hk | hk
      · obtain ⟨n, -, rfl⟩ := List.mem_map.mp hk
        exact busAddr_lt ..
      · exact ih hk
    | read sz a fc => exact ih hk
    | fetch16 a fc => exact ih hk
    | resetOut => exact ih hk
    | iack l fc => exact ih hk

/-- The invariant passes from a state to another. -/
def InvKept (s t : State) : Prop := s.Inv = true → t.Inv = true

/-- A write of nothing that the invariant reads keeps it, and so does dropping the kept stores or a pending trace. -/
theorem InvKept.of_eq {s t : State} (hc : t.cfg = s.cfg := by simp) (hm : t.mem = s.mem := by simp)
    (hl : ∀ k ∈ t.lastStores, k ∈ s.lastStores := by simp)
    (ht : t.tracePending = true → s.tracePending = true := by simp)
    (hr : t.vbr = s.vbr ∧ t.sfc = s.sfc ∧ t.dfc = s.dfc := by simp) : InvKept s t := fun h => by
  obtain ⟨hmem, hstores, htrace, hcontrol⟩ := State.inv_iff.mp h
  obtain ⟨hvbr, hsfc, hdfc⟩ := hr
  refine State.inv_iff.mpr ⟨?_, ?_, ?_, ?_⟩
  · rwa [hc, hm]
  · rw [hc]
    exact fun k hk => hstores k (hl k hk)
  · rw [hc]
    exact fun hp => htrace (ht hp)
  · rwa [hc, hvbr, hsfc, hdfc]

theorem InvKept.store (s : State) (sz : Size) (fc : BitVec 3) (a v : Long) : InvKept s (s.store sz fc a v) := fun h => by
  obtain ⟨hmem, hrest⟩ := State.inv_iff.mp h
  refine State.inv_iff.mpr ⟨?_, by simpa using hrest⟩
  rw [State.store_cfg]
  exact State.storeValid_poke (s := s.addCall _) sz fc a v hmem

theorem InvKept.setControl {s : State} (r : ControlReg) (v : Long) (hv : s.cfg.variant = .m68010) :
    InvKept s (s.setControl r v) := fun h => by
  obtain ⟨hmem, hstores, htrace, -⟩ := State.inv_iff.mp h
  exact State.inv_iff.mpr ⟨by simpa using hmem, by simpa using hstores, by simpa using htrace, .inl (by simpa using hv)⟩

/-- A change of the bytes from outside keeps the invariant (20_memory.md R76). -/
theorem InvKept.beginStep (s : State) : InvKept s s.beginStep := fun h => by
  obtain ⟨hmem, hrest⟩ := State.inv_iff.mp h
  exact State.inv_iff.mpr ⟨storeValid_changeBytes _ hmem, hrest⟩

theorem InvKept.latchTrace (s : State) : InvKept s s.latchTrace := fun h => by
  obtain ⟨hmem, hstores, -, hcontrol⟩ := State.inv_iff.mp h
  exact State.inv_iff.mpr ⟨hmem, hstores, by simp, hcontrol⟩

theorem InvKept.commit (s : State) (n : Long) : InvKept s (s.commit n) := fun h => by
  obtain ⟨hmem, -, hrest⟩ := State.inv_iff.mp h
  unfold State.commit
  split
  · exact h
  · exact State.inv_iff.mpr ⟨hmem, fun k hk => storedBytes_lt hk, hrest⟩

theorem invKept_coreFrame : CoreFrame InvKept where
  refl s := id
  trans h h' := h' ∘ h
  setD s n v := .of_eq
  setA s n v := .of_eq
  setPc s v := .of_eq
  setCcr s c := .of_eq
  drawn s n := .of_eq
  load _ := .of_eq
  store _ := InvKept.store _ _ _ _ _
  skipWord _ := .of_eq
  setS s := .of_eq
  maskTrace s i := .of_eq
  inHandler s v discard := .of_eq rfl rfl nofun (fun h => (Bool.and_eq_true_iff.mp h).1) ⟨rfl, rfl, rfl⟩
  writeSr s v := .of_eq
  setSpInactive s v := .of_eq
  setControl := .setControl
  stopped s := .of_eq
  resetOut s := .of_eq

theorem invKept_boundaryFrame : BoundaryFrame InvKept where
  sampleLine s := .of_eq
  latchTrace := .latchTrace
  setIr s w := .of_eq
  commit := .commit

/-- Settles O56: the changes before a step keep the invariant, and so does every operation of a step. -/
theorem stepKeepsInvariant : Obligations.StepKeepsInvariant := by
  unfold Obligations.StepKeepsInvariant
  intro s t hs ht
  exact invKept_coreFrame.rel_of_step invKept_boundaryFrame (fun s l => .of_eq) ht (InvKept.beginStep s hs)

end Sys2Proof.Machine
end
section
/-! PROOFS. What an instruction that completes may have changed: its footprint, one closure proof per operation, shared
body and instruction. A footprint names registers and counts the words fetched, which the relations of `UserFrame`, closed
under every write, cannot; so it holds of normal ends alone. The frames of the registers and the advance of the PC are read
off it. -/

namespace Sys2Proof.Machine

/-- What a computation may write: data and address registers, the system byte of SR, `SP_inactive`, VBR, SFC and DFC, the
run state, and the PC with a target. -/
structure Footprint where
  d : List (Fin 8)
  a : List (Fin 8)
  status : Bool
  spInactive : Bool
  control : Bool
  stops : Bool
  jumps : Bool

/-- T, S and I (10_state.md R40). -/
def State.systemByte (s : State) : Bool × Bool × BitVec 3 := (s.tBit, s.sBit, s.iMask)

/-- The registers of the M68010 alone (10_state.md R44, R45). -/
def State.controlPart (s : State) : Long × BitVec 3 × BitVec 3 := (s.vbr, s.sfc, s.dfc)

/-- What only the host may change from inside a bus call (60_exceptions.md R441). -/
def State.hostPart (s : State) : Fin 8 × Option Refusal := (s.intLevel, s.refusedMark)

/-- What no instruction changes. -/
def State.fixedPart (s : State) : Config × Fin 8 × Bool × List Nat × Long × Option Fault × Option Word × Bool ×
    List (List Change) :=
  (s.cfg, s.prevLevel, s.tracePending, s.lastStores, s.seqEnd, s.faultMark, s.ir, s.resetFetch, s.agents)

/-- From `s` to `t` nothing changes outside the footprint `P`, and the PC passes `k` extension words unless `P` jumps. -/
structure Within (P : Footprint) (k : Nat) (s t : State) : Prop where
  d : ∀ n : Fin 8, n ∉ P.d → t.d[n] = s.d[n]
  a : ∀ n : Fin 8, n ∉ P.a → t.a[n] = s.a[n]
  pc : P.jumps = false → t.pc = s.pc + BitVec.ofNat 32 (2 * k)
  status : P.status = false → t.systemByte = s.systemByte
  spInactive : P.spInactive = false → t.spInactive = s.spInactive
  control : P.control = false → t.controlPart = s.controlPart
  runState : P.stops = false → t.runState = s.runState
  host : s.noCallbacks = true → t.noCallbacks = true ∧ t.hostPart = s.hostPart
  fixed : t.fixedPart = s.fixedPart

/-- A computation that completes stays within a footprint and passes `k` extension words. -/
structure Touches (P : Footprint) (k : Nat) {α : Type} (m : M α) : Prop where
  within : ∀ {s a t}, m s = .ok a t → Within P k s t

/-- A footprint that an operand read needs: the register it steps. -/
structure Footprint.Reads (P : Footprint) (ea : Ea) : Prop where
  stepped : ∀ n ∈ ea.stepped, n ∈ P.a

/-- A footprint that an operand written needs: the register it steps and the register it is. -/
structure Footprint.Writes (P : Footprint) (ea : Ea) : Prop extends P.Reads ea where
  data : ∀ n ∈ ea.dataRegs, n ∈ P.d
  addr : ∀ n ∈ ea.addrRegs, n ∈ P.a

/-- A footprint that a write of SR needs: A7 and `SP_inactive` may swap (10_state.md R35). -/
structure Footprint.WritesSr (P : Footprint) : Prop where
  status : P.status = true
  spInactive : P.spInactive = true
  a7 : 7 ∈ P.a

/-- A footprint that a general register written needs. -/
structure Footprint.WritesReg (P : Footprint) (r : GenReg) : Prop where
  data : ∀ n, r = .d n → n ∈ P.d
  addr : ∀ n, r = .a n → n ∈ P.a

section
variable {P : Footprint} {s t u : State} {j k : Nat} {α β : Type}

/-! The elementary changes. -/

theorem Within.trans (h : Within P j s t) (h' : Within P k t u) : Within P (j + k) s u where
  d n hn := (h'.d n hn).trans (h.d n hn)
  a n hn := (h'.a n hn).trans (h.a n hn)
  pc hp := by rw [h'.pc hp, h.pc hp, BitVec.add_assoc, ← BitVec.ofNat_add, ← Nat.mul_add]
  status hp := (h'.status hp).trans (h.status hp)
  spInactive hp := (h'.spInactive hp).trans (h.spInactive hp)
  control hp := (h'.control hp).trans (h.control hp)
  runState hp := (h'.runState hp).trans (h.runState hp)
  host hs :=
    have ⟨hq, hh⟩ := h.host hs
    ⟨(h'.host hq).1, (h'.host hq).2.trans hh⟩
  fixed := h'.fixed.trans h.fixed

/-- A change that makes no bus call, each part within the footprint. -/
theorem Within.of_eq (hfixed : t.fixedPart = s.fixedPart := by rfl) (hhost : t.hostPart = s.hostPart := by rfl)
    (hscript : t.script = s.script := by rfl)
    (d : ∀ n : Fin 8, n ∉ P.d → t.d[n] = s.d[n] := by exact fun _ _ => rfl)
    (a : ∀ n : Fin 8, n ∉ P.a → t.a[n] = s.a[n] := by exact fun _ _ => rfl)
    (pc : P.jumps = false → t.pc = s.pc := by exact fun _ => rfl)
    (status : P.status = false → t.systemByte = s.systemByte := by exact fun _ => rfl)
    (spInactive : P.spInactive = false → t.spInactive = s.spInactive := by exact fun _ => rfl)
    (control : P.control = false → t.controlPart = s.controlPart := by exact fun _ => rfl)
    (runState : P.stops = false → t.runState = s.runState := by exact fun _ => rfl) : Within P 0 s t where
  d := d
  a := a
  pc hp := by simpa using pc hp
  status := status
  spInactive := spInactive
  control := control
  runState := runState
  host h := ⟨by simpa [State.noCallbacks, hscript] using h, hhost⟩
  fixed := hfixed

theorem Within.refl (s : State) : Within P 0 s s := .of_eq

theorem Within.setD {n : Fin 8} (hn : n ∈ P.d) (s : State) (v : Long) : Within P 0 s (s.setD n v) :=
  .of_eq (d := fun _ hm => Vector.getElem_set_ne n.isLt (Fin.isLt _) fun h => hm (Fin.ext h ▸ hn))

theorem Within.setA {n : Fin 8} (hn : n ∈ P.a) (s : State) (v : Long) : Within P 0 s (s.setA n v) :=
  .of_eq (a := fun _ hm => Vector.getElem_set_ne n.isLt (Fin.isLt _) fun h => hm (Fin.ext h ▸ hn))

theorem Within.setPc (hp : P.jumps = true) (s : State) (v : Long) : Within P 0 s (s.setPc v) :=
  .of_eq (pc := fun h => absurd h (by simp [hp]))

theorem Within.setCcr (s : State) (c : Ccr) : Within P 0 s (s.setCcr c) := .of_eq

theorem Within.drawn (s : State) (n : Nat) : Within P 0 s (s.drawn n) := .of_eq

theorem Within.addCall (s : State) (c : BusCall) : Within P 0 s (s.addCall c) where
  d _ _ := rfl
  a _ _ := rfl
  pc _ := by simp
  status _ := rfl
  spInactive _ := rfl
  control _ := rfl
  runState _ := rfl
  host h :=
    have ⟨hl, hr⟩ := State.addCall_of_noCallbacks c h
    ⟨State.noCallbacks_addCall c h, Prod.ext hl hr⟩
  fixed := rfl

theorem Within.store (s : State) (sz : Size) (fc : BitVec 3) (x v : Long) : Within P 0 s (s.store sz fc x v) :=
  (Within.addCall s (.write sz x fc (low sz v))).trans <|
    .of_eq (by simp [State.fixedPart]) (by simp [State.hostPart]) (by simp) (by simp) (by simp) (by simp)
      (by simp [State.systemByte]) (by simp) (by simp [State.controlPart]) (by simp)

theorem Within.skipWord (s : State) : Within P 1 s s.skipWord :=
  { Within.addCall s (.fetch16 s.pc s.progFc) with pc := fun _ => rfl }

theorem Within.writeSr (hp : P.WritesSr) (s : State) (v : Word) : Within P 0 s (s.writeSr v) :=
  .of_eq (by simp [State.fixedPart]) (by simp [State.hostPart]) (by simp) (by simp)
    (fun n hn => State.setS_a_of_ne _ _ fun h => hn (h ▸ hp.a7)) (by simp) (fun h => absurd h (by simp [hp.status]))
    (fun h => absurd h (by simp [hp.spInactive])) (by simp [State.controlPart]) (by simp)

theorem Within.setSpInactive (hp : P.spInactive = true) (s : State) (v : Long) : Within P 0 s (s.setSpInactive v) :=
  .of_eq (spInactive := fun h => absurd h (by simp [hp]))

theorem Within.setControl (hc : P.control = true) (hp : P.spInactive = true) (s : State) (r : ControlReg) (v : Long) :
    Within P 0 s (s.setControl r v) := by
  cases r with
  | usp => exact .setSpInactive hp s v
  | sfc | dfc | vbr => exact .of_eq (control := fun h => absurd h (by simp [hc]))

theorem Within.stopped (hp : P.stops = true) (s : State) : Within P 0 s { s with runState := .stopped } :=
  .of_eq (runState := fun h => absurd h (by simp [hp]))

theorem Within.setD_setCcr {n : Fin 8} (hn : n ∈ P.d) (s : State) (v : Long) (c : Ccr) :
    Within P 0 s ((s.setD n v).setCcr c) := (Within.setD hn s v).trans (.setCcr ..)

theorem Within.setGenReg {r : GenReg} (hr : P.WritesReg r) (s : State) (v : Long) : Within P 0 s (s.setGenReg r v) := by
  cases r with
  | d n => exact .setD (hr.data n rfl) s v
  | a n => exact .setA (hr.addr n rfl) s v

theorem Within.setMoves {r : GenReg} (hr : P.WritesReg r) (s : State) (sz : Size) (v : Long) :
    Within P 0 s (s.setMoves r sz v) := by
  cases r with
  | d n => exact .setD (hr.data n rfl) s _
  | a n => exact .setA (hr.addr n rfl) s _

/-! The monad and the elementary operations. -/

theorem Touches.bind {m : M α} {f : α → M β} (hm : Touches P j m) (hf : ∀ a, Touches P k (f a)) :
    Touches P (j + k) (m >>= f) := by
  refine ⟨fun h => ?_⟩
  obtain ⟨a, u, h1, h2⟩ := M.of_bind_ok h
  exact (hm.within h1).trans ((hf a).within h2)

/-- A computation that fetches nothing, continued. -/
theorem Touches.next {m : M α} {f : α → M β} (hm : Touches P 0 m) (hf : ∀ a, Touches P k (f a)) :
    Touches P k (m >>= f) := Nat.zero_add k ▸ hm.bind hf

/-- A computation continued by one that fetches nothing. -/
theorem Touches.last {m : M α} {f : α → M β} (hm : Touches P k m) (hf : ∀ a, Touches P 0 (f a)) :
    Touches P k (m >>= f) := hm.bind hf

theorem touches_pure (a : α) : Touches P 0 (pure a : M α) := ⟨fun h => by cases h; exact .refl _⟩

theorem touches_look (f : State → α) : Touches P 0 (look f) := ⟨fun h => by cases h; exact .refl _⟩

theorem touches_upd {g : State → State} (hg : ∀ s, Within P k s (g s)) : Touches P k (upd g) :=
  ⟨fun h => by cases h; exact hg _⟩

theorem touches_stop (e : Exit) : Touches P k (stop e : M α) := ⟨nofun⟩

theorem touches_require (p : State → Bool) (e : State → Exit) : Touches P 0 (require p e) := by
  refine ⟨fun {s a t} h => ?_⟩
  rw [M.require_apply] at h
  split at h
  · cases h
    exact .refl s
  · cases h

theorem touches_look_bind {g : State → α} {f : α → M β} (hf : ∀ a, Touches P k (f a)) : Touches P k (look g >>= f) :=
  (touches_look g).next hf

theorem touches_upd_bind {g : State → State} {f : Unit → M β} (hg : ∀ s, Within P 0 s (g s))
    (hf : ∀ a, Touches P k (f a)) : Touches P k (upd g >>= f) :=
  (touches_upd hg).next hf

theorem touches_drawBit : Touches P 0 drawBit := ⟨fun h => by cases h; exact .drawn _ 1⟩

theorem touches_drawByte : Touches P 0 drawByte := ⟨fun h => by cases h; exact .drawn _ 1⟩

theorem touches_drawBit_bind {f : Bool → M β} (hf : ∀ a, Touches P k (f a)) : Touches P k (drawBit >>= f) :=
  touches_drawBit.next hf

theorem touches_memRead (sz : Size) (fc : BitVec 3) (x : Long) : Touches P 0 (memRead sz fc x) := by
  refine ⟨fun h => ?_⟩
  obtain ⟨-, -, rfl⟩ := memRead_of_ok h
  exact .addCall ..

theorem touches_memWrite (sz : Size) (fc : BitVec 3) (x v : Long) : Touches P 0 (memWrite sz fc x v) := by
  refine ⟨fun h => ?_⟩
  obtain ⟨-, rfl⟩ := memWrite_of_ok h
  exact .store ..

theorem touches_readData (sz : Size) (x : Long) : Touches P 0 (readData sz x) :=
  touches_look_bind fun fc => touches_memRead sz fc x

theorem touches_writeData (sz : Size) (x v : Long) : Touches P 0 (writeData sz x v) :=
  touches_look_bind fun fc => touches_memWrite sz fc x v

theorem touches_fetch16 : Touches P 1 fetch16 := by
  refine ⟨fun h => ?_⟩
  obtain ⟨-, -, rfl⟩ := fetch16_of_ok h
  exact .skipWord _

theorem touches_fetch16_bind {f : Word → M β} (hf : ∀ w, Touches P k (f w)) : Touches P (1 + k) (fetch16 >>= f) :=
  touches_fetch16.bind hf

/-- One word fetched and nothing after. -/
theorem touches_fetch16_last {f : Word → M β} (hf : ∀ w, Touches P 0 (f w)) : Touches P 1 (fetch16 >>= f) :=
  touches_fetch16.last hf

theorem touches_fetch32 : Touches P 2 fetch32 :=
  touches_fetch16_bind fun _ => touches_fetch16_last fun _ => touches_pure _

theorem touches_push (hp : 7 ∈ P.a) (sz : Size) (v : Long) : Touches P 0 (push sz v) :=
  touches_upd_bind (.setA hp · _) fun _ => touches_look_bind fun _ => touches_writeData ..

theorem touches_pop (hp : 7 ∈ P.a) (sz : Size) : Touches P 0 (pop sz) :=
  touches_look_bind fun _ => (touches_readData ..).next fun _ => touches_upd_bind (.setA hp · _) fun _ => touches_pure _

/-! Operands. -/

theorem touches_immediate (sz : Size) : Touches P (immWords sz) (immediate sz) := by
  cases sz with
  | b => exact touches_fetch16_last fun _ => touches_pure _
  | w => exact touches_fetch16_last fun _ => touches_pure _
  | l => exact touches_fetch32

theorem touches_resolve {ea : Ea} (hr : P.Reads ea) (sz : Size) : Touches P (ea.extWords sz) (resolve ea sz) := by
  have address (f : State → Long) (sp : Space) : Touches P 0 (look f >>= fun x => pure (Desc.mem x sp)) :=
    touches_look_bind fun _ => touches_pure _
  cases ea with
  | dn n => exact touches_pure _
  | an n => exact touches_pure _
  | ind n => exact address ..
  | pi n =>
    have hn : n ∈ P.a := hr.stepped n List.mem_cons_self
    exact touches_look_bind fun _ => touches_upd_bind (.setA hn · _) fun _ => touches_pure _
  | pd n =>
    have hn : n ∈ P.a := hr.stepped n List.mem_cons_self
    exact touches_upd_bind (.setA hn · _) fun _ => address ..
  | d16 n => exact touches_fetch16_last fun _ => address ..
  | d8x n => exact touches_fetch16_last fun _ => address ..
  | absW => exact touches_fetch16_last fun _ => touches_pure _
  | absL => exact touches_fetch32.last fun _ => touches_pure _
  | pc16 => exact touches_look_bind fun _ => touches_fetch16_last fun _ => touches_pure _
  | pc8x => exact touches_look_bind fun _ => touches_fetch16_last fun _ => address ..
  | imm =>
    have hs : Ea.imm.extWords sz = immWords sz := by cases sz <;> rfl
    rw [hs]
    exact (touches_immediate sz).last fun _ => touches_pure _

/-- An operand resolved, its descriptor used by what follows. -/
theorem touches_resolve_bind {ea : Ea} (hr : P.Reads ea) {sz : Size} {f : Desc → M β}
    (hf : ∀ s : State, Touches P 0 (f (s.eaDesc ea sz))) : Touches P (ea.extWords sz) (resolve ea sz >>= f) := by
  refine ⟨fun h => ?_⟩
  obtain ⟨d, u, h1, h2⟩ := M.of_bind_ok h
  obtain ⟨-, rfl, -⟩ := resolve_of_ok h1
  exact ((touches_resolve hr sz).within h1).trans ((hf _).within h2)

theorem touches_eaRead (d : Desc) (sz : Size) : Touches P 0 (eaRead d sz) := by
  cases d with
  | regD n => exact touches_look _
  | regA n => exact touches_look _
  | mem x sp => exact touches_look_bind fun fc => touches_memRead sz fc x
  | imm v => exact touches_pure v

theorem touches_eaWrite {ea : Ea} (hw : P.Writes ea) (s : State) (sz sz' : Size) (v : Long) :
    Touches P 0 (eaWrite (s.eaDesc ea sz) sz' v) := by
  cases ea with
  | dn n => exact touches_upd (.setD (hw.data n List.mem_cons_self) · _)
  | an n => exact touches_upd (.setA (hw.addr n List.mem_cons_self) · _)
  | ind | pi | pd | d16 | d8x | absW | absL => exact touches_writeData ..
  | pc16 | pc8x | imm => exact touches_stop _

theorem touches_eaAddr (d : Desc) : Touches P 0 (eaAddr d) := by
  cases d with
  | mem x sp => exact touches_pure _
  | regD n => exact touches_stop _
  | regA n => exact touches_stop _
  | imm v => exact touches_stop _

theorem touches_readEa {ea : Ea} (hr : P.Reads ea) (sz : Size) : Touches P (ea.extWords sz) (readEa ea sz) :=
  (touches_resolve hr sz).last fun d => touches_eaRead d sz

/-- A control operand steps no register. -/
theorem touches_addressEa {ea : Ea} (hr : P.Reads ea) (sz : Size) : Touches P (ea.extWords sz) (addressEa ea sz) :=
  (touches_resolve hr sz).last fun d => (touches_eaAddr d).next fun _ => touches_pure _

theorem touches_predecrement {n : Fin 8} (hn : n ∈ P.a) (sz : Size) : Touches P 0 (predecrement n sz) :=
  touches_upd_bind (.setA hn · _) fun _ => touches_look _

theorem touches_readPostincrement {n : Fin 8} (hn : n ∈ P.a) (sz : Size) : Touches P 0 (readPostincrement n sz) :=
  touches_look_bind fun _ => touches_upd_bind (.setA hn · _) fun _ => touches_readData ..

theorem touches_storeDown (sz : Size) (rs : List GenReg) (x : Long) : Touches P 0 (storeDown sz rs x) := by
  induction rs generalizing x with
  | nil => exact touches_pure x
  | cons r rs ih => exact touches_look_bind fun _ => (touches_writeData ..).next fun _ => ih _

theorem touches_storeUp (sz : Size) (rs : List GenReg) (x : Long) : Touches P 0 (storeUp sz rs x) := by
  induction rs generalizing x with
  | nil => exact touches_pure ()
  | cons r rs ih => exact touches_look_bind fun _ => (touches_writeData ..).next fun _ => ih _

theorem touches_loadUp {rs : List GenReg} (hr : ∀ r ∈ rs, P.WritesReg r) (sz : Size) (sp : Space) (x : Long) :
    Touches P 0 (loadUp sz sp rs x) := by
  induction rs generalizing x with
  | nil => exact touches_pure x
  | cons r rs ih =>
    exact touches_look_bind fun _ => (touches_memRead ..).next fun _ =>
      touches_upd_bind (.setGenReg (hr r List.mem_cons_self) · _) fun _ =>
        ih (fun r' h => hr r' (List.mem_cons_of_mem r h)) _

/-! The bodies that several instructions share. -/

theorem touches_readEa_setCcr {ea : Ea} (hr : P.Reads ea) (sz : Size) (f : Long → State → Ccr) :
    Touches P (ea.extWords sz) (readEa ea sz >>= fun v => upd fun s => s.setCcr (f v s)) :=
  (touches_readEa hr sz).last fun _ => touches_upd (.setCcr · _)

theorem touches_readEa_setA {ea : Ea} (hr : P.Reads ea) {n : Fin 8} (hn : n ∈ P.a) (sz : Size)
    (f : Long → State → Long) : Touches P (ea.extWords sz) (readEa ea sz >>= fun v => upd fun s => s.setA n (f v s)) :=
  (touches_readEa hr sz).last fun _ => touches_upd (.setA hn · _)

theorem touches_eaDnBody {ea : Ea} (hr : P.Reads ea) {dn : Fin 8} (hd : dn ∈ P.d) (f : AluOp) (sz : Size) :
    Touches P (ea.extWords sz) (eaDnBody f dn sz ea) :=
  (touches_readEa hr sz).last fun _ => touches_upd (.setD_setCcr hd · _ _)

theorem touches_modifyEa {ea : Ea} (hw : P.Writes ea) (f : Long → Ccr → Alu) (sz : Size) :
    Touches P (ea.extWords sz) (modifyEa f sz ea) :=
  touches_resolve_bind hw.toReads fun s => (touches_eaRead _ sz).next fun _ => touches_look_bind fun _ =>
    (touches_eaWrite hw s sz sz _).next fun _ => touches_upd (.setCcr · _)

theorem touches_dnEaBody {ea : Ea} (hw : P.Writes ea) (f : AluOp) (dn : Fin 8) (sz : Size) :
    Touches P (ea.extWords sz) (dnEaBody f dn sz ea) :=
  touches_look_bind fun _ => touches_modifyEa hw _ sz

theorem touches_immEaBody {ea : Ea} (hw : P.Writes ea) (f : AluOp) (sz : Size) :
    Touches P (immWords sz + ea.extWords sz) (immEaBody f sz ea) :=
  (touches_immediate sz).bind fun _ => touches_modifyEa hw _ sz

theorem touches_clrDummyRead (sz : Size) (d : Desc) : Touches P 0 (clrDummyRead sz d) := by
  cases d with
  | mem x sp =>
    refine touches_look_bind fun on => ?_
    cases on with
    | true => exact (touches_eaRead _ sz).next fun _ => touches_pure _
    | false => exact touches_pure _
  | regD n => exact touches_pure _
  | regA n => exact touches_pure _
  | imm v => exact touches_pure _

theorem touches_multiplyBody {ea : Ea} (hr : P.Reads ea) {dn : Fin 8} (hd : dn ∈ P.d) (f : Long → Long → Ccr → Alu) :
    Touches P (ea.extWords .w) (multiplyBody f dn ea) :=
  (touches_readEa hr .w).last fun _ => touches_upd (.setD_setCcr hd · _ _)

theorem touches_zeroDivide : Touches P 0 zeroDivide :=
  touches_drawBit_bind fun _ => touches_drawBit_bind fun _ => touches_drawBit_bind fun _ =>
    touches_upd_bind (.setCcr · _) fun _ => touches_look_bind fun _ => touches_stop _

theorem touches_writeDivision {dn : Fin 8} (hd : dn ∈ P.d) (o : Division) : Touches P 0 (writeDivision dn o) := by
  cases o with
  | overflow => exact touches_drawBit_bind fun _ => touches_drawBit_bind fun _ => touches_upd (.setCcr · _)
  | result r n z => exact touches_upd (.setD_setCcr hd · _ _)

theorem touches_divideBody {ea : Ea} (hr : P.Reads ea) {dn : Fin 8} (hd : dn ∈ P.d) (f : Long → Long → Division) :
    Touches P (ea.extWords .w) (divideBody f dn ea) := by
  refine (touches_readEa hr .w).last fun src => ?_
  cases isZero .w src with
  | true => exact touches_zeroDivide
  | false => exact touches_look_bind fun o => touches_writeDivision hd o

theorem touches_bcdResult (valid : Bool) (exact : Long × Bool) : Touches P 0 (bcdResult valid exact) := by
  cases valid with
  | true => exact touches_pure _
  | false => exact touches_drawByte.next fun _ => touches_drawBit_bind fun _ => touches_pure _

theorem touches_bcdFlags (o : Long × Bool) : Touches P 0 (bcdFlags o) :=
  touches_drawBit_bind fun _ => touches_drawBit_bind fun _ => touches_upd (.setCcr · _)

/-- Register or memory operands of ADDX, SUBX, ABCD and SBCD (30_encoding.md R108). -/
structure Footprint.WritesPair (P : Footprint) (x : Fin 8) (form : RegMem) (y : Fin 8) : Prop where
  data : form = .reg → x ∈ P.d
  addr : form = .mem → x ∈ P.a ∧ y ∈ P.a

theorem touches_extendBody {x y : Fin 8} {form : RegMem} (hp : P.WritesPair x form y) (f : AluOp) (sz : Size) :
    Touches P 0 (extendBody f x sz form y) := by
  cases form with
  | reg => exact touches_upd (.setD_setCcr (hp.data rfl) · _ _)
  | mem =>
    obtain ⟨hx, hy⟩ := hp.addr rfl
    exact (touches_predecrement hy sz).next fun _ => (touches_readData ..).next fun _ =>
      (touches_predecrement hx sz).next fun _ => (touches_readData ..).next fun _ => touches_look_bind fun _ =>
        (touches_writeData ..).next fun _ => touches_upd (.setCcr · _)

theorem touches_bcdBody {x y : Fin 8} {form : RegMem} (hp : P.WritesPair x form y)
    (f : Long → Long → Bool → Long × Bool) : Touches P 0 (bcdBody f x form y) := by
  cases form with
  | reg =>
    exact touches_look_bind fun _ => touches_look_bind fun _ => touches_look_bind fun _ =>
      (touches_bcdResult ..).next fun o => (touches_bcdFlags o).next fun _ => touches_upd (.setD (hp.data rfl) · _)
  | mem =>
    obtain ⟨hx, hy⟩ := hp.addr rfl
    exact (touches_predecrement hy .b).next fun _ => (touches_readData ..).next fun _ =>
      (touches_predecrement hx .b).next fun _ => (touches_readData ..).next fun _ => touches_look_bind fun _ =>
        (touches_bcdResult ..).next fun o => (touches_bcdFlags o).next fun _ => touches_writeData ..

/-- A bit operand has as many extension words as a byte (46_bit_manipulation.md R300). -/
theorem extWords_bitSize (ea : Ea) : ea.extWords (bitSize ea) = ea.extWords .b := by cases ea <;> rfl

theorem touches_staticBit : Touches P 1 staticBit := touches_fetch16_last fun _ => touches_pure _

theorem touches_testBody {ea : Ea} (hr : P.Reads ea) {number : M Nat} (hn : Touches P k number) :
    Touches P (k + ea.extWords .b) (testBody number ea) :=
  hn.bind fun _ => extWords_bitSize ea ▸ touches_readEa_setCcr hr _ _

theorem touches_bitBody {ea : Ea} (hw : P.Writes ea) {number : M Nat} (hn : Touches P k number) (op : BitOp) :
    Touches P (k + ea.extWords .b) (bitBody op number ea) :=
  hn.bind fun _ => extWords_bitSize ea ▸ touches_modifyEa hw _ _

theorem touches_branchTarget (d8 : Byte) : Touches P (dispWords d8) (branchTarget d8) := by
  refine touches_look_bind fun base => ?_
  by_cases h : d8 = 0
  · rw [dispWords, if_pos h, beq_iff_eq.mpr h]
    exact touches_fetch16_last fun _ => touches_pure _
  · rw [dispWords, if_neg h, beq_eq_false_iff_ne.mpr h]
    exact touches_pure _

theorem touches_moveBody {src dst : Ea} (hr : P.Reads src) (hw : P.Writes dst) (sz : Size) :
    Touches P (src.extWords sz + dst.extWords sz) (moveBody sz src dst) :=
  (touches_readEa hr sz).bind fun _ => touches_resolve_bind hw.toReads fun s =>
    (touches_eaWrite hw s sz sz _).next fun _ => touches_upd (.setCcr · _)

theorem touches_movemDummyRead (sp : Space) (x : Long) : Touches P 0 (movemDummyRead sp x) := by
  refine touches_look_bind fun on => ?_
  cases on with
  | true => exact touches_look_bind fun _ => (touches_memRead ..).next fun _ => touches_pure _
  | false => exact touches_pure _

theorem touches_movepLoad {dn : Fin 8} (hd : dn ∈ P.d) (n : Nat) (ks : List Nat) (x : Long) :
    Touches P 0 (movepLoad dn n ks x) := by
  induction ks generalizing x with
  | nil => exact touches_pure ()
  | cons k ks ih => exact (touches_readData ..).next fun _ => touches_upd_bind (.setD hd · _) fun _ => ih _

theorem touches_movepStore (dn : Fin 8) (n : Nat) (ks : List Nat) (x : Long) :
    Touches P 0 (movepStore dn n ks x) := by
  induction ks generalizing x with
  | nil => exact touches_pure ()
  | cons k ks ih => exact touches_look_bind fun _ => (touches_writeData ..).next fun _ => ih _

theorem touches_shiftRegBody {y : Fin 8} (hy : y ∈ P.d) (op : ShiftOp) (k : Fin 8) (sz : Size) (g : CountKind) :
    Touches P 0 (shiftRegBody op k sz g y) :=
  touches_upd (.setD_setCcr hy · _ _)

theorem touches_ccrImmBody (f : Byte → Byte → Byte) : Touches P 1 (ccrImmBody f) :=
  touches_fetch16_last fun _ => touches_upd (.setCcr · _)

theorem touches_srImmBody (hp : P.WritesSr) (f : Word → Word → Word) : Touches P 1 (srImmBody f) :=
  (touches_require ..).next fun _ => touches_fetch16_last fun _ => touches_upd (.writeSr hp · _)

theorem touches_raiseAtIpc (v : Byte) : Touches P 0 (raiseAtIpc v) := touches_look_bind fun _ => touches_stop _

theorem touches_returnFromException (hp : P.WritesSr) (hj : P.jumps = true) : Touches P 0 returnFromException := by
  have restore (sp sr pcv : Long) :
      Touches P 0 (upd (fun s => s.setA 7 sp) >>= fun _ => upd fun s => (s.writeSr (lowWord sr)).setPc pcv) :=
    touches_upd_bind (.setA hp.a7 · _) fun _ => touches_upd fun s => (Within.writeSr hp s _).trans (.setPc hj _ _)
  refine touches_look_bind fun ipc => touches_look_bind fun sp => (touches_readData ..).next fun sr =>
    (touches_readData ..).next fun pcv => touches_look_bind fun variant => ?_
  cases variant with
  | m68000 => exact restore ..
  | m68008 => exact restore ..
  | m68010 =>
    refine (touches_readData ..).next fun fv => ?_
    split
    · exact restore ..
    · exact touches_stop _
    · exact touches_stop _

theorem touches_movesSource (r : GenReg) (ea : Ea) (before : Long) : Touches P 0 (movesSource r ea before) := by
  refine touches_look_bind fun now => ?_
  cases movesSelfUpdate r ea with
  | true => exact touches_drawBit_bind fun _ => touches_pure _
  | false => exact touches_pure _

/-! From a body to an instruction. -/

/-- An instruction that enters no exception stays within the footprint of its body. -/
theorem Touches.of_run {m : M Unit} (hm : Touches P k m) (ht : run m s = .next t) (he : t.entered = none) :
    Within P k s t := hm.within (ok_of_run ht he)

/-- A body that begins with a fetch goes on with the word that stands there. -/
theorem within_of_fetch16 {f : Word → M α} {a : α} (h : (fetch16 >>= f) s = .ok a t)
    (hf : Touches P k (f (s.streamWord 0))) : Within P (1 + k) s t := by
  obtain ⟨w, u, h1, h2⟩ := M.of_bind_ok h
  obtain ⟨-, rfl, rfl⟩ := fetch16_of_ok h1
  exact (Within.skipWord s).trans (hf.within h2)

end

/-! The footprint of an instruction. -/

/-- What an instruction may write; a term that no encoding has may write any general register. -/
def footprint (i : Instr) (s : State) : Footprint where
  d := if i.wellFormed then i.dataDests s else List.finRange 8
  a := if i.wellFormed then i.addrDests s else List.finRange 8
  status := i.writesSr
  spInactive := i.writesSpInactive
  control := i == .movecRnRc
  stops := i == .stop
  jumps := i.transfers

section
variable {i : Instr} {s : State} {n : Fin 8} {ea : Ea}

theorem mem_footprint_d (h : i.wellFormed = true → n ∈ i.dataDests s) : n ∈ (footprint i s).d := by
  unfold footprint
  split
  next hw => exact h hw
  next => exact List.mem_finRange n

theorem mem_footprint_a (h : i.wellFormed = true → n ∈ i.addrDests s) : n ∈ (footprint i s).a := by
  unfold footprint
  split
  next hw => exact h hw
  next => exact List.mem_finRange n

theorem footprint_reads (h : i.wellFormed = true → ∀ n ∈ ea.stepped, n ∈ i.addrDests s) : (footprint i s).Reads ea :=
  ⟨fun n hn => mem_footprint_a fun hw => h hw n hn⟩

/-- A control operand steps no register (30_encoding.md R104). -/
theorem stepped_of_control {sz : Size} (h : EaClass.control.admits sz ea = true) : ea.stepped = [] := by
  cases ea with
  | pi n | pd n => simp [EaClass.admits, EaClass.modes, Ea.mode] at h
  | _ => rfl

theorem footprint_reads_control (sz : Size) (h : i.wellFormed = true → EaClass.control.admits sz ea = true) :
    (footprint i s).Reads ea :=
  footprint_reads fun hw _ hn => by
    rw [stepped_of_control (h hw)] at hn
    cases hn

/-- A data alterable operand is no address register (R104). -/
theorem addrRegs_of_dataAlterable {sz : Size} (h : EaClass.dataAlterable.admits sz ea = true) : ea.addrRegs = [] := by
  cases ea with
  | an n => simp [EaClass.admits, EaClass.modes, Ea.mode] at h
  | _ => rfl

/-- A memory alterable operand is no data register (R104). -/
theorem dataRegs_of_memoryAlterable {sz : Size} (h : EaClass.memoryAlterable.admits sz ea = true) :
    ea.dataRegs = [] := by
  cases ea with
  | dn n => simp [EaClass.admits, EaClass.modes, Ea.mode] at h
  | _ => rfl

theorem footprint_writes (sz : Size) (hd : i.wellFormed = true → ea.dataRegs ⊆ i.dataDests s)
    (ha : ea.stepped ⊆ i.addrDests s) (hc : i.wellFormed = true → EaClass.dataAlterable.admits sz ea = true) :
    (footprint i s).Writes ea where
  stepped n hn := mem_footprint_a fun _ => ha hn
  data n hn := mem_footprint_d fun hw => hd hw hn
  addr n hn := mem_footprint_a fun hw => by
    rw [addrRegs_of_dataAlterable (hc hw)] at hn
    cases hn

/-- An instruction whose destination is its one operand. -/
theorem footprint_modifies (sz : Size) (hd : i.dataDests s = ea.dataRegs) (ha : i.addrDests s = ea.stepped)
    (hc : i.wellFormed = true → EaClass.dataAlterable.admits sz ea = true) : (footprint i s).Writes ea :=
  footprint_writes sz (fun _ => hd ▸ List.Subset.refl _) (ha ▸ List.Subset.refl _) hc

/-- An instruction whose destination is its one operand, in memory. -/
theorem footprint_modifies_memory (sz : Size) (ha : i.addrDests s = ea.stepped)
    (hc : i.wellFormed = true → EaClass.memoryAlterable.admits sz ea = true) : (footprint i s).Writes ea :=
  footprint_writes sz (fun hw => dataRegs_of_memoryAlterable (hc hw) ▸ List.nil_subset _) (ha ▸ List.Subset.refl _)
    fun hw => dataAlterable_of_memoryAlterable (hc hw)

/-- ADDQ and SUBQ, whose destination may be an address register (43_integer_arithmetic.md R234). -/
theorem footprint_writes_quick (hd : i.dataDests s = ea.dataRegs) (ha : i.addrDests s = ea.stepped ++ ea.addrRegs) :
    (footprint i s).Writes ea where
  stepped _ hn := mem_footprint_a fun _ => ha ▸ List.mem_append_left _ hn
  data _ hn := mem_footprint_d fun _ => hd ▸ hn
  addr _ hn := mem_footprint_a fun _ => ha ▸ List.mem_append_right _ hn

/-- The first register named as a destination. -/
theorem footprint_dest_d {ns : List (Fin 8)} (h : i.dataDests s = n :: ns) : n ∈ (footprint i s).d :=
  mem_footprint_d fun _ => h ▸ List.mem_cons_self

theorem footprint_dest_a {ns : List (Fin 8)} (h : i.addrDests s = n :: ns) : n ∈ (footprint i s).a :=
  mem_footprint_a fun _ => h ▸ List.mem_cons_self

theorem footprint_writesPair {x y : Fin 8} {form : RegMem} (hd : form = .reg → i.dataDests s = [x])
    (ha : form = .mem → i.addrDests s = [x, y]) : (footprint i s).WritesPair x form y where
  data h := footprint_dest_d (hd h)
  addr h :=
    ⟨mem_footprint_a fun _ => ha h ▸ List.mem_cons_self,
      mem_footprint_a fun _ => ha h ▸ List.mem_cons_of_mem _ List.mem_cons_self⟩

theorem footprint_writesSr (h : i.writesSr = true) (h7 : 7 ∈ i.addrDests s) : (footprint i s).WritesSr where
  status := h
  spInactive := by simp [footprint, Instr.writesSpInactive, h]
  a7 := mem_footprint_a fun _ => h7

theorem mem_dataRegsOf {rs : List GenReg} (h : .d n ∈ rs) : n ∈ dataRegsOf rs := by
  induction rs with
  | nil => cases h
  | cons r rs ih =>
    cases r with
    | d m =>
      obtain h | h := List.mem_cons.mp h
      · cases h
        exact List.mem_cons_self
      · exact List.mem_cons_of_mem m (ih h)
    | a m => exact ih ((List.mem_cons.mp h).resolve_left nofun)

theorem mem_addrRegsOf {rs : List GenReg} (h : .a n ∈ rs) : n ∈ addrRegsOf rs := by
  induction rs with
  | nil => cases h
  | cons r rs ih =>
    cases r with
    | a m =>
      obtain h | h := List.mem_cons.mp h
      · cases h
        exact List.mem_cons_self
      · exact List.mem_cons_of_mem m (ih h)
    | d m => exact ih ((List.mem_cons.mp h).resolve_left nofun)

theorem footprint_writesReg {rs : List GenReg} {r : GenReg} (hr : r ∈ rs) (hd : dataRegsOf rs ⊆ i.dataDests s)
    (ha : addrRegsOf rs ⊆ i.addrDests s) : (footprint i s).WritesReg r where
  data _ h := mem_footprint_d fun _ => hd (mem_dataRegsOf (h ▸ hr))
  addr _ h := mem_footprint_a fun _ => ha (mem_addrRegsOf (h ▸ hr))

end

/-- MOVEC writes one register, after the fetch of its extension word (49_system_control.md R360). -/
theorem within_of_movecBody {P : Footprint} {f : ControlReg → GenReg → State → State} {s t : State} {u : Unit}
    (h : movecBody f s = .ok u t) (hf : ∀ r s', Within P 0 s' (f r (extGenReg (s.streamWord 0)) s')) :
    Within P 1 s t := by
  obtain ⟨-, h⟩ := require_bind_iff.mp h
  obtain ⟨-, h⟩ := require_bind_iff.mp h
  rw [M.look_bind] at h
  refine within_of_fetch16 (k := 0) h ?_
  split
  next r _ => exact touches_upd (hf r)
  next => exact touches_stop _

/-! Every instruction that enters no exception. -/

/-- An instruction that enters no exception passes its extension words and changes nothing outside its footprint. -/
theorem exec_within {i : Instr} {s t : State} (ht : exec i s = .next t) (he : t.entered = none) :
    Within (footprint i s) i.extWords s t := by
  cases i with
  | oriToCcr | andiToCcr | eoriToCcr => exact (touches_ccrImmBody _).of_run ht he
  | oriToSr | andiToSr | eoriToSr =>
    exact (touches_srImmBody (footprint_writesSr rfl List.mem_cons_self) _).of_run ht he
  | ori sz ea | andi sz ea | subi sz ea | addi sz ea | eori sz ea =>
    exact (touches_immEaBody (footprint_modifies sz rfl rfl id) _ sz).of_run ht he
  | btstImm ea => exact (touches_testBody (footprint_reads fun _ _ => id) touches_staticBit).of_run ht he
  | bchgImm ea | bclrImm ea | bsetImm ea =>
    exact (touches_bitBody (footprint_modifies .b rfl rfl id) touches_staticBit _).of_run ht he
  | cmpi sz ea =>
    exact ((touches_immediate sz).bind fun _ =>
      touches_readEa_setCcr (footprint_reads fun _ _ => id) sz _).of_run ht he
  | moves sz ea =>
    obtain ⟨-, h⟩ := require_bind_iff.mp (ok_of_run ht he)
    obtain ⟨-, h⟩ := require_bind_iff.mp h
    have hr : (footprint (.moves sz ea) s).WritesReg (extGenReg (s.streamWord 0)) :=
      footprint_writesReg List.mem_cons_self (List.Subset.refl _) (List.subset_append_right _ _)
    refine within_of_fetch16 h (touches_look_bind fun _ =>
      (touches_addressEa (footprint_reads fun _ _ => List.mem_append_left _) sz).last fun _ => ?_)
    split
    · exact (touches_movesSource ..).next fun _ => touches_look_bind fun _ => touches_memWrite ..
    · exact touches_look_bind fun _ => (touches_memRead ..).next fun _ => touches_upd (.setMoves hr · _ _)
  | btstReg dn ea =>
    rw [← Nat.zero_add (Instr.extWords _)]
    exact (touches_testBody (footprint_reads fun _ _ => id) (touches_look _)).of_run ht he
  | bchgReg dn ea | bclrReg dn ea | bsetReg dn ea =>
    rw [← Nat.zero_add (Instr.extWords _)]
    exact (touches_bitBody (footprint_modifies .b rfl rfl id) (touches_look _) _).of_run ht he
  | movep dn dir sz an =>
    refine (touches_fetch16_last fun _ => touches_look_bind fun _ => ?_).of_run ht he
    cases dir with
    | memToReg => exact touches_movepLoad (footprint_dest_d rfl) ..
    | regToMem => exact touches_movepStore ..
  | moveB src dst | moveW src dst | moveL src dst =>
    refine (touches_moveBody (footprint_reads fun _ _ => List.mem_append_left _) ?_ _).of_run ht he
    exact footprint_writes _ (fun _ => List.Subset.refl _) (List.subset_append_right _ _) fun h =>
      (Bool.and_eq_true_iff.mp h).2
  | moveaW an src | moveaL an src =>
    exact (touches_readEa_setA (footprint_reads fun _ _ => List.mem_cons_of_mem _)
      (footprint_dest_a rfl) _ _).of_run ht he
  | negx sz ea | neg sz ea | notOp sz ea => exact (touches_modifyEa (footprint_modifies sz rfl rfl id) _ sz).of_run ht he
  | moveFromSr ea =>
    have hw : (footprint (.moveFromSr ea) s).Writes ea := footprint_modifies .w rfl rfl id
    exact ((touches_require ..).next fun _ => touches_resolve_bind hw.toReads fun s => touches_look_bind fun _ =>
      touches_eaWrite hw s .w .w _).of_run ht he
  | chk dn ea =>
    refine ((touches_readEa (footprint_reads fun _ _ => id) .w).last fun bound => touches_drawBit_bind fun _ =>
      touches_drawBit_bind fun _ => touches_drawBit_bind fun _ => touches_look_bind fun _ =>
        touches_look_bind fun value => ?_).of_run ht he
    split
    · exact touches_upd_bind (.setCcr · _) fun _ => touches_stop _
    · exact touches_upd_bind (.setCcr · _) fun _ => touches_stop _
    · exact touches_drawBit_bind fun _ => touches_upd (.setCcr · _)
  | lea an ea =>
    have hn : an ∈ (footprint (.lea an ea) s).a := footprint_dest_a rfl
    exact ((touches_addressEa (footprint_reads_control .l id) .l).last fun _ => touches_upd (.setA hn · _)).of_run ht he
  | clr sz ea =>
    have hw : (footprint (.clr sz ea) s).Writes ea := footprint_modifies sz rfl rfl id
    exact (touches_resolve_bind hw.toReads fun s => (touches_clrDummyRead sz _).next fun _ =>
      (touches_eaWrite hw s sz sz 0).next fun _ => touches_upd (.setCcr · _)).of_run ht he
  | moveFromCcr ea =>
    have hw : (footprint (.moveFromCcr ea) s).Writes ea := footprint_modifies .w rfl rfl id
    exact ((touches_require ..).next fun _ => touches_resolve_bind hw.toReads fun s => touches_look_bind fun _ =>
      touches_eaWrite hw s .w .w _).of_run ht he
  | moveToCcr ea =>
    exact (touches_readEa_setCcr (footprint_reads fun _ _ => id) .w fun v _ => Ccr.ofByte (lowByte v)).of_run ht he
  | moveToSr ea =>
    have hp : (footprint (.moveToSr ea) s).WritesSr := footprint_writesSr rfl List.mem_cons_self
    have hr : (footprint (.moveToSr ea) s).Reads ea := footprint_reads fun _ _ => List.mem_cons_of_mem _
    exact ((touches_require ..).next fun _ => (touches_readEa hr .w).last fun _ =>
      touches_upd (.writeSr hp · _)).of_run ht he
  | nbcd ea =>
    have hw : (footprint (.nbcd ea) s).Writes ea := footprint_modifies .b rfl rfl id
    exact (touches_resolve_bind hw.toReads fun s => (touches_eaRead _ .b).next fun _ => touches_look_bind fun _ =>
      (touches_bcdResult ..).next fun o => (touches_bcdFlags o).next fun _ => touches_eaWrite hw s .b .b _).of_run ht he
  | swap dn | extW dn | extL dn | moveq dn d8 =>
    dsimp only [exec] at ht
    refine Touches.of_run ?_ ht he
    exact touches_upd (.setD_setCcr (footprint_dest_d rfl) · _ _)
  | bkpt v | illegal | lineA low | lineF low => exact (touches_raiseAtIpc _).of_run ht he
  | pea ea =>
    exact ((touches_addressEa (footprint_reads_control .l id) .l).last fun _ =>
      touches_push (footprint_dest_a rfl) ..).of_run ht he
  | movemToMem sz ea =>
    refine (touches_fetch16_bind fun mask => ?_).of_run ht he
    split
    next n =>
      have hn : n ∈ (footprint (.movemToMem sz (.pd n)) s).a := footprint_dest_a rfl
      exact touches_look_bind fun _ => (touches_storeDown ..).next fun _ => touches_upd (.setA hn · _)
    next => exact (touches_addressEa (footprint_reads fun _ _ => id) sz).last fun _ => touches_storeUp ..
  | tst sz ea | cmp dn sz ea | cmpa an sz ea =>
    exact (touches_readEa_setCcr (footprint_reads fun _ _ => id) sz _).of_run ht he
  | tas ea => exact (touches_modifyEa (footprint_modifies .b rfl rfl id) _ .b).of_run ht he
  | movemToRegs sz ea =>
    have hr : ∀ r ∈ maskedRegs (s.streamWord 0) movemOrder, (footprint (.movemToRegs sz ea) s).WritesReg r :=
      fun _ hr => footprint_writesReg hr (List.Subset.refl _) (List.subset_append_right _ _)
    refine within_of_fetch16 (ok_of_run ht he) ?_
    split
    next n =>
      have hn : n ∈ (footprint (.movemToRegs sz (.pi n)) s).a := footprint_dest_a rfl
      exact touches_look_bind fun _ => (touches_loadUp hr ..).next fun _ => (touches_movemDummyRead ..).next fun _ =>
        touches_upd (.setA hn · _)
    next =>
      exact (touches_resolve (footprint_reads fun _ _ => List.mem_append_left _) sz).last fun d =>
        (touches_eaAddr d).next fun _ => (touches_loadUp hr ..).next fun _ => touches_movemDummyRead ..
  | trap v =>
    -- Without `show`, the unifier evaluates the vector's sum before it unfolds `exec`.
    exact Touches.of_run (touches_look_bind fun _ => touches_stop _) (show execTrap v s = _ from ht) he
  | link an =>
    have hn : an ∈ (footprint (.link an) s).a := footprint_dest_a rfl
    have h7 : 7 ∈ (footprint (.link an) s).a := mem_footprint_a fun _ => List.mem_cons_of_mem _ List.mem_cons_self
    exact (touches_fetch16_last fun _ => touches_upd_bind (.setA h7 · _) fun _ => touches_look_bind fun _ =>
      touches_look_bind fun _ => (touches_writeData ..).next fun _ => touches_upd_bind (.setA hn · _) fun _ =>
        touches_upd (.setA h7 · _)).of_run ht he
  | unlk an =>
    have hn : an ∈ (footprint (.unlk an) s).a := footprint_dest_a rfl
    have h7 : 7 ∈ (footprint (.unlk an) s).a := mem_footprint_a fun _ => List.mem_cons_of_mem _ List.mem_cons_self
    exact (touches_upd_bind (.setA h7 · _) fun _ => (touches_pop h7 .l).next fun _ =>
      touches_upd (.setA hn · _)).of_run ht he
  | moveAnUsp an => exact ((touches_require ..).next fun _ => touches_upd (.setSpInactive rfl · _)).of_run ht he
  | moveUspAn an =>
    have hn : an ∈ (footprint (.moveUspAn an) s).a := footprint_dest_a rfl
    exact ((touches_require ..).next fun _ => touches_upd (.setA hn · _)).of_run ht he
  | reset => exact ((touches_require ..).next fun _ => touches_upd (.addCall · _)).of_run ht he
  | nop => exact (touches_pure ()).of_run ht he
  | stop =>
    have hp : (footprint .stop s).WritesSr := footprint_writesSr rfl List.mem_cons_self
    exact ((touches_require ..).next fun _ => touches_fetch16_last fun _ =>
      touches_upd fun s => (Within.writeSr hp s _).trans (.stopped rfl _)).of_run ht he
  | rte =>
    exact ((touches_require ..).next fun _ =>
      touches_returnFromException (footprint_writesSr rfl List.mem_cons_self) rfl).of_run ht he
  | rtd =>
    have h7 : 7 ∈ (footprint .rtd s).a := footprint_dest_a rfl
    exact ((touches_require ..).next fun _ => touches_fetch16_last fun _ => (touches_pop h7 .l).next fun _ =>
      touches_upd_bind (.setA h7 · _) fun _ => touches_upd (.setPc rfl · _)).of_run ht he
  | rts =>
    exact ((touches_pop (footprint_dest_a rfl) .l).next fun _ =>
      touches_upd (.setPc rfl · _)).of_run ht he
  | trapv => exact (touches_require ..).of_run ht he
  | rtr =>
    have h7 : 7 ∈ (footprint .rtr s).a := footprint_dest_a rfl
    exact ((touches_pop h7 .w).next fun _ => touches_upd_bind (.setCcr · _) fun _ => (touches_pop h7 .l).next fun _ =>
      touches_upd (.setPc rfl · _)).of_run ht he
  | movecRcRn =>
    have hr : (footprint .movecRcRn s).WritesReg (extGenReg (s.streamWord 0)) :=
      footprint_writesReg List.mem_cons_self (List.Subset.refl _) (List.Subset.refl _)
    exact within_of_movecBody (ok_of_run ht he) fun r s => .setGenReg hr s _
  | movecRnRc => exact within_of_movecBody (ok_of_run ht he) fun r s => .setControl rfl rfl s r _
  | jsr ea =>
    exact ((touches_addressEa (footprint_reads_control .l id) .l).last fun _ => touches_look_bind fun _ =>
      (touches_push (footprint_dest_a rfl) ..).next fun _ => touches_upd (.setPc rfl · _)).of_run ht he
  | jmp ea =>
    exact ((touches_addressEa (footprint_reads_control .l id) .l).last fun _ => touches_upd (.setPc rfl · _)).of_run ht he
  | addq q sz ea | subq q sz ea =>
    refine Touches.of_run ?_ ht he
    split
    next n => exact touches_upd (.setA (footprint_dest_a rfl) · _)
    next => exact touches_modifyEa (footprint_writes_quick rfl rfl) _ sz
  | dbcc c dn =>
    refine (touches_look_bind fun _ => touches_fetch16_last fun _ => touches_look_bind fun term => ?_).of_run ht he
    split
    · exact touches_pure _
    refine touches_look_bind fun count => touches_upd_bind (.setD (footprint_dest_d rfl) · _) fun _ => ?_
    split
    · exact touches_pure _
    · exact (touches_require ..).next fun _ => touches_upd (.setPc rfl · _)
  | scc c ea =>
    have hw : (footprint (.scc c ea) s).Writes ea := footprint_modifies .b rfl rfl id
    exact (touches_resolve_bind hw.toReads fun s => touches_look_bind fun _ =>
      touches_eaWrite hw s .b .b _).of_run ht he
  | bra d8 => exact ((touches_branchTarget d8).last fun _ => touches_upd (.setPc rfl · _)).of_run ht he
  | bsr d8 =>
    exact ((touches_branchTarget d8).last fun _ => touches_look_bind fun _ =>
      (touches_push (footprint_dest_a rfl) ..).next fun _ => touches_upd (.setPc rfl · _)).of_run ht he
  | bcc c d8 =>
    refine ((touches_branchTarget d8).last fun x => touches_upd fun s => ?_).of_run ht he
    split
    · exact .setPc rfl s x
    · exact .refl s
  | orEaDn dn sz ea | subEaDn dn sz ea | andEaDn dn sz ea | addEaDn dn sz ea =>
    exact (touches_eaDnBody (footprint_reads fun _ _ => id) (footprint_dest_d rfl) _ sz).of_run ht he
  | eor dn sz ea => exact (touches_dnEaBody (footprint_modifies sz rfl rfl id) _ dn sz).of_run ht he
  | orDnEa dn sz ea | subDnEa dn sz ea | andDnEa dn sz ea | addDnEa dn sz ea =>
    exact (touches_dnEaBody (footprint_modifies_memory sz rfl id) _ dn sz).of_run ht he
  | divu dn ea | divs dn ea =>
    exact (touches_divideBody (footprint_reads fun _ _ => id) (footprint_dest_d rfl) _).of_run ht he
  | sbcd x form y | abcd x form y =>
    refine (touches_bcdBody (footprint_writesPair ?_ ?_) _).of_run ht he <;> (rintro rfl; rfl)
  | subx x sz form y | addx x sz form y =>
    refine (touches_extendBody (footprint_writesPair ?_ ?_) _ sz).of_run ht he <;> (rintro rfl; rfl)
  | suba an sz ea | adda an sz ea =>
    exact (touches_readEa_setA (footprint_reads fun _ _ => List.mem_cons_of_mem _)
      (footprint_dest_a rfl) sz _).of_run ht he
  | cmpm x sz y =>
    have hx : x ∈ (footprint (.cmpm x sz y) s).a := footprint_dest_a rfl
    have hy : y ∈ (footprint (.cmpm x sz y) s).a := mem_footprint_a fun _ => List.mem_cons_of_mem _ List.mem_cons_self
    exact ((touches_readPostincrement hy sz).next fun _ => (touches_readPostincrement hx sz).next fun _ =>
      touches_upd (.setCcr · _)).of_run ht he
  | mulu dn ea | muls dn ea =>
    exact (touches_multiplyBody (footprint_reads fun _ _ => id) (footprint_dest_d rfl) _).of_run ht he
  | exgDxDy x y =>
    have hx : x ∈ (footprint (.exgDxDy x y) s).d := footprint_dest_d rfl
    have hy : y ∈ (footprint (.exgDxDy x y) s).d := mem_footprint_d fun _ => List.mem_cons_of_mem _ List.mem_cons_self
    exact (touches_upd fun s => (Within.setD hx s _).trans (.setD hy _ _)).of_run ht he
  | exgAxAy x y =>
    have hx : x ∈ (footprint (.exgAxAy x y) s).a := footprint_dest_a rfl
    have hy : y ∈ (footprint (.exgAxAy x y) s).a := mem_footprint_a fun _ => List.mem_cons_of_mem _ List.mem_cons_self
    exact (touches_upd fun s => (Within.setA hx s _).trans (.setA hy _ _)).of_run ht he
  | exgDxAy x y =>
    have hx : x ∈ (footprint (.exgDxAy x y) s).d := footprint_dest_d rfl
    have hy : y ∈ (footprint (.exgDxAy x y) s).a := footprint_dest_a rfl
    exact (touches_upd fun s => (Within.setD hx s _).trans (.setA hy _ _)).of_run ht he
  | asrReg k sz g y | aslReg k sz g y | lsrReg k sz g y | lslReg k sz g y | roxrReg k sz g y | roxlReg k sz g y
  | rorReg k sz g y | rolReg k sz g y => exact (touches_shiftRegBody (footprint_dest_d rfl) _ k sz g).of_run ht he
  | asrEa ea | aslEa ea | lsrEa ea | lslEa ea | roxrEa ea | roxlEa ea | rorEa ea | rolEa ea =>
    exact (touches_modifyEa (footprint_modifies_memory .w rfl id) _ .w).of_run ht he

/-- Settles O40: the footprint of a well-formed instruction has its destinations and no other general register. -/
theorem generalRegisterFrame : Obligations.GeneralRegisterFrame := by
  unfold Obligations.GeneralRegisterFrame
  intro i s t n hw ht he
  have h := exec_within ht he
  exact ⟨fun hn => h.d n (by simpa [footprint, hw] using hn), fun hn => h.a n (by simpa [footprint, hw] using hn)⟩

/-- Settles O42, which is the footprint's part outside the general registers and the PC. -/
theorem specialRegisterFrame : Obligations.SpecialRegisterFrame := by
  unfold Obligations.SpecialRegisterFrame
  intro i s t ht he
  obtain ⟨-, -, -, hstatus, hsp, hcontrol, hrun, hhost, hfixed⟩ := exec_within ht he
  simp only [State.systemByte, State.controlPart, State.hostPart, State.fixedPart, Prod.mk.injEq]
    at hstatus hcontrol hhost hfixed
  exact ⟨hstatus, hsp, fun hi => hcontrol (beq_eq_false_iff_ne.mpr hi), fun hi => hrun (beq_eq_false_iff_ne.mpr hi),
    fun hs => (hhost hs).2, hfixed⟩

/-- Settles O60: the PC starts past the operation word and passes the extension words. -/
theorem pcAdvances : Obligations.PcAdvances := by
  unfold Obligations.PcAdvances
  intro i s t _ hj ht he
  have h := (exec_within ht he).pc hj
  rw [h, Instr.lengthBytes, BitVec.ofNat_add, ← BitVec.add_assoc]
  congr 1
  exact (BitVec.sub_add_cancel _ _).symm

end Sys2Proof.Machine
end
section
/-! PROOFS. The fields of an operation word (30_encoding.md R102–R109): each is the bits under a mask, read as the values
whose codes they are. -/

namespace Sys2Proof

/-! Bits under disjoint masks. -/

theorem add_eq_or_of_and_eq_zero {x y : Nat} (h : x &&& y = 0) : x + y = x ||| y := by
  have hlt : x + y < 2 ^ (x + y) := Nat.lt_two_pow_self
  have hx : x < 2 ^ (x + y) := by omega
  have hy : y < 2 ^ (x + y) := by omega
  have hand : BitVec.ofNat (x + y) x &&& BitVec.ofNat (x + y) y = 0#(x + y) := by
    rw [← BitVec.ofNat_and, h]
  have hadd := congrArg BitVec.toNat (BitVec.add_eq_or_of_and_eq_zero _ _ hand)
  simpa [Nat.mod_eq_of_lt, hlt, hx, hy] using hadd

theorem and_eq_zero_of_subset {a b x y : Nat} (hab : a &&& b = 0) (hx : x &&& a = x) (hy : y &&& b = y) :
    x &&& y = 0 := by
  rw [← hx, ← hy, Nat.and_comm y b, Nat.and_assoc, ← Nat.and_assoc a, hab, Nat.zero_and, Nat.and_zero]

section
variable {n a b x y : Nat} (hab : a &&& b = 0) (hx : x &&& a = x) (hy : y &&& b = y)
include hab hx hy

theorem add_eq_or_of_subset : x + y = x ||| y := add_eq_or_of_and_eq_zero (and_eq_zero_of_subset hab hx hy)

theorem add_and_left : (x + y) &&& a = x := by
  have hya : y &&& a = 0 := by rw [Nat.and_comm, and_eq_zero_of_subset hab (Nat.and_self a) hy]
  rw [add_eq_or_of_subset hab hx hy, Nat.and_or_distrib_right, hx, hya, Nat.or_zero]

theorem add_and_right : (x + y) &&& b = y := by
  have hxb : x &&& b = 0 := and_eq_zero_of_subset hab hx (Nat.and_self b)
  rw [add_eq_or_of_subset hab hx hy, Nat.and_or_distrib_right, hxb, hy, Nat.zero_or]

theorem add_and_or : (x + y) &&& (a ||| b) = x + y := by
  rw [Nat.and_or_distrib_left, add_and_left hab hx hy, add_and_right hab hx hy, add_eq_or_of_subset hab hx hy]

/-- A number is given on two disjoint masks exactly when it is the sum of its values on them. -/
theorem and_or_eq_add_iff : n &&& (a ||| b) = x + y ↔ n &&& a = x ∧ n &&& b = y := by
  constructor
  · intro h
    have ha : a = (a ||| b) &&& a := by
      rw [Nat.and_or_distrib_right, Nat.and_self, Nat.and_comm b, hab, Nat.or_zero]
    have hb : b = (a ||| b) &&& b := by
      rw [Nat.and_or_distrib_right, hab, Nat.and_self, Nat.zero_or]
    constructor
    · rw [ha, ← Nat.and_assoc, h, add_and_left hab hx hy]
    · rw [hb, ← Nat.and_assoc, h, add_and_right hab hx hy]
  · rintro ⟨hna, hnb⟩
    rw [Nat.and_or_distrib_left, hna, hnb, add_eq_or_of_subset hab hx hy]

end

/-- The bits of a field in its place. -/
theorem and_field (n lo len : Nat) : n &&& (2 ^ len - 1) * 2 ^ lo = n / 2 ^ lo % 2 ^ len * 2 ^ lo := by
  refine Nat.eq_of_testBit_eq fun k => ?_
  simp only [Nat.testBit_and, Nat.testBit_mul_two_pow, Nat.testBit_two_pow_sub_one, Nat.testBit_mod_two_pow,
    Nat.testBit_div_two_pow]
  by_cases h : lo ≤ k
  · simp [h, Nat.sub_add_cancel h, Bool.and_comm]
  · simp [h]

theorem Word.and_full (w : Word) : w.toNat &&& 0xFFFF = w.toNat := by
  rw [show (0xFFFF : Nat) = 2 ^ 16 - 1 from rfl, Nat.and_two_pow_sub_one_eq_mod, Nat.mod_eq_of_lt w.isLt]

/-! Fields. -/

/-- Words with given values at the bits under a mask. -/
structure BitPattern where
  mask : Nat
  value : Nat

/-- The words of a pattern. -/
def BitPattern.Matches (p : BitPattern) (w : Word) : Prop := w.toNat &&& p.mask = p.value

/-- A field of the operation word: `read` answers exactly the values that `ok` admits, from the bits under `mask`, where
`code` puts them; no word with an admitted value has a pattern of `avoid`. -/
structure Reads {α : Type} (read : Word → Option α) (mask : Nat) (ok : α → Bool) (code : α → Nat)
    (avoid : List BitPattern) : Prop where
  read_iff : ∀ {w x}, read w = some x ↔ ok x = true ∧ w.toNat &&& mask = code x
  code_mask : ∀ {x}, ok x = true → code x &&& mask = code x
  avoids : ∀ {w x}, read w = some x → ∀ p ∈ avoid, ¬p.Matches w

/-- A field of `len` bits from bit `lo` on. -/
theorem Reads.ofBits {α : Type} (lo len : Nat) {read : Word → Option α} {ok : α → Bool} (value : α → Nat)
    {mask : Nat} {code : α → Nat}
    (hread : ∀ {w x}, read w = some x ↔ ok x = true ∧ w.toNat / 2 ^ lo % 2 ^ len = value x)
    (hlt : ∀ x, ok x = true → value x < 2 ^ len := by exact fun x _ => x.isLt)
    (hmask : mask = (2 ^ len - 1) * 2 ^ lo := by rfl)
    (hcode : ∀ x, code x = value x * 2 ^ lo := by exact fun _ => rfl) :
    Reads read mask ok code [] where
  read_iff {w x} := by
    rw [hread, hmask, hcode, and_field, Nat.mul_left_inj (Nat.two_pow_pos lo).ne']
  code_mask {x} hx := by
    rw [hmask, hcode, and_field, Nat.mul_div_cancel _ (Nat.two_pow_pos lo), Nat.mod_eq_of_lt (hlt x hx)]
  avoids _ _ hp := nomatch hp

/-- A field whose codes all miss some patterns of its own bits. -/
theorem Reads.avoiding {α : Type} {read : Word → Option α} {mask : Nat} {ok : α → Bool} {code : α → Nat}
    {avoid : List BitPattern} (h : Reads read mask ok code [])
    (hmiss : ∀ x, ok x = true → ∀ p ∈ avoid, mask &&& p.mask = p.mask ∧ code x &&& p.mask ≠ p.value) :
    Reads read mask ok code avoid where
  read_iff := h.read_iff
  code_mask := h.code_mask
  avoids {w x} hr p hp hm := by
    obtain ⟨hok, hw⟩ := h.read_iff.mp hr
    obtain ⟨hsub, hne⟩ := hmiss x hok p hp
    apply hne
    rw [← hw, Nat.and_assoc, hsub, hm]

/-- Two fields side by side, the second of which may depend on the value of the first. -/
theorem Reads.pair {α β : Type} {f : Word → Option α} {g : α → Word → Option β} {m m' : Nat} {ok : α → Bool}
    {ok' : α → β → Bool} {code : α → Nat} {code' : β → Nat} {avoid avoid' : List BitPattern}
    (hf : Reads f m ok code avoid) (hg : ∀ a, Reads (g a) m' (ok' a) code' avoid') (hm : m &&& m' = 0 := by decide) :
    Reads (fun w => (f w).bind fun a => (g a w).map (a, ·)) (m ||| m') (fun x => ok x.1 && ok' x.1 x.2)
      (fun x => code x.1 + code' x.2) (avoid ++ avoid') where
  read_iff {w x} := by
    obtain ⟨a, b⟩ := x
    have hpair : ((f w).bind fun a => (g a w).map (a, ·)) = some (a, b) ↔ f w = some a ∧ g a w = some b := by
      simp [Option.bind_eq_some_iff]
    rw [hpair, hf.read_iff, (hg a).read_iff, Bool.and_eq_true]
    constructor
    · rintro ⟨⟨ha, hwa⟩, hb, hwb⟩
      exact ⟨⟨ha, hb⟩, (and_or_eq_add_iff hm (hf.code_mask ha) ((hg a).code_mask hb)).mpr ⟨hwa, hwb⟩⟩
    · rintro ⟨⟨ha, hb⟩, hw⟩
      obtain ⟨hwa, hwb⟩ := (and_or_eq_add_iff hm (hf.code_mask ha) ((hg a).code_mask hb)).mp hw
      exact ⟨⟨ha, hwa⟩, hb, hwb⟩
  code_mask {x} h := by
    obtain ⟨ha, hb⟩ := Bool.and_eq_true_iff.mp h
    exact add_and_or hm (hf.code_mask ha) ((hg x.1).code_mask hb)
  avoids {w x} h p hp := by
    obtain ⟨a, ha, hb⟩ := Option.bind_eq_some_iff.mp h
    obtain ⟨b, hb, -⟩ := Option.map_eq_some_iff.mp hb
    rcases List.mem_append.mp hp with hp | hp
    · exact hf.avoids ha p hp
    · exact (hg a).avoids hb p hp

/-- A field read only where its value passes a test. -/
theorem Reads.filter {α : Type} {read : Word → Option α} {mask : Nat} {ok : α → Bool} {code : α → Nat}
    {avoid : List BitPattern} (h : Reads read mask ok code avoid) (test : α → Bool) :
    Reads (fun w => (read w).filter test) mask (fun x => ok x && test x) code avoid where
  read_iff {w x} := by
    rw [Option.filter_eq_some_iff, h.read_iff, Bool.and_eq_true]
    exact and_right_comm
  code_mask hx := h.code_mask (Bool.and_eq_true_iff.mp hx).1
  avoids hr := h.avoids (Option.filter_eq_some_iff.mp hr).1

/-! The fields of R102 to R109. -/

theorem field3_eq_iff {w : Word} {lo : Nat} {x : Fin 8} : field3 w lo = x ↔ w.toNat / 2 ^ lo % 8 = x.val := by
  rw [Fin.ext_iff, field3, Fin.val_ofNat, Nat.shiftRight_eq_div_pow]

theorem getLsbD_eq_true_iff {w : Word} {bit : Nat} : w.getLsbD bit = true ↔ w.toNat / 2 ^ bit % 2 = 1 := by
  rw [BitVec.getLsbD, Nat.testBit_eq_decide_div_mod_eq, decide_eq_true_iff]

/-- A field of one bit. -/
theorem Reads.ofBit {α : Type} (bit : Nat) {on off : α} {ok : α → Bool} (value : α → Nat) {mask : Nat} {code : α → Nat}
    (hok : ∀ x, ok x = true ↔ x = on ∨ x = off) (hon : value on = 1 := by rfl) (hoff : value off = 0 := by rfl)
    (hmask : mask = (2 ^ 1 - 1) * 2 ^ bit := by rfl)
    (hcode : ∀ x, code x = value x * 2 ^ bit := by exact fun _ => rfl) :
    Reads (fun w => some (if w.getLsbD bit then on else off)) mask ok code [] :=
  .ofBits bit 1 value
    (fun {w x} => by
      have hbit : w.toNat / 2 ^ bit % 2 < 2 := Nat.mod_lt _ (by decide)
      rw [hok, Option.some_inj, pow_one]
      split
      next h =>
        rw [getLsbD_eq_true_iff] at h
        constructor
        · rintro rfl
          exact ⟨.inl rfl, h.trans hon.symm⟩
        · rintro ⟨rfl | rfl, hx⟩
          · rfl
          · omega
      next h =>
        rw [getLsbD_eq_true_iff] at h
        constructor
        · rintro rfl
          exact ⟨.inr rfl, by omega⟩
        · rintro ⟨rfl | rfl, hx⟩
          · omega
          · rfl)
    (fun x hx => by obtain rfl | rfl := (hok x).mp hx <;> omega) hmask hcode

theorem reads_rx : Reads (fun w => some (rxField w)) 0x0E00 (fun _ => true) (fun x => x.val * 512) [] :=
  .ofBits 9 3 Fin.val (by simp [rxField, field3_eq_iff])

theorem reads_ry : Reads (fun w => some (ryField w)) 0x0007 (fun _ => true) Fin.val [] :=
  .ofBits 0 3 Fin.val (by simp [ryField, field3_eq_iff]) (hcode := fun x => (Nat.mul_one _).symm)

/-- The field of a row that has none. -/
theorem reads_nothing : Reads (fun _ => some ()) 0 (fun _ => true) (fun _ => 0) [] :=
  .ofBits 0 0 (fun _ => 0) (by simp [Nat.mod_one]) fun _ _ => Nat.one_pos

/-- The low bits of a word (R107). -/
theorem reads_low (len : Nat) :
    Reads (fun w => some (w.setWidth len)) (2 ^ len - 1) (fun _ => true) BitVec.toNat [] :=
  .ofBits 0 len BitVec.toNat (by simp [← BitVec.toNat_inj]) (hmask := (Nat.mul_one _).symm)
    (hcode := fun x => (Nat.mul_one _).symm)

theorem reads_quick :
    Reads (fun w => some (w.extractLsb' 9 3)) 0x0E00 (fun _ => true) (fun q => q.toNat * 512) [] :=
  .ofBits 9 3 BitVec.toNat (by simp [← BitVec.toNat_inj, BitVec.extractLsb'_toNat, Nat.shiftRight_eq_div_pow])

theorem Size.code_lt (sz : Size) : sz.code < 3 := by cases sz <;> decide

theorem sizeField_eq_some_iff {w : Word} {sz : Size} : sizeField w = some sz ↔ w.toNat / 2 ^ 6 % 4 = sz.code := by
  have hlt : w.toNat / 2 ^ 6 % 4 < 4 := Nat.mod_lt _ (by decide)
  rw [sizeField, Nat.shiftRight_eq_div_pow]
  generalize w.toNat / 2 ^ 6 % 4 = n at hlt
  interval_cases n <;> cases sz <;> simp [Size.code]

/-- The two-bit size, which is never `11` (R105). -/
theorem reads_size : Reads sizeField 0x00C0 (fun _ => true) (fun sz => sz.code * 64) [⟨0x00C0, 0x00C0⟩] :=
  (Reads.ofBits 6 2 Size.code (by simp [sizeField_eq_some_iff]) fun sz _ => Nat.lt_succ_of_lt sz.code_lt).avoiding
    fun sz _ => by cases sz <;> decide

theorem Size.isWordLong_iff (sz : Size) : sz.isWordLong = true ↔ sz = .l ∨ sz = .w := by cases sz <;> decide

/-- The one-bit size (R105). -/
theorem reads_wordLong (bit : Nat) : Reads (fun w => some (wordLongField w bit)) ((2 ^ 1 - 1) * 2 ^ bit) Size.isWordLong
    (fun sz => sz.wordLongCode * 2 ^ bit) [] :=
  .ofBit bit Size.wordLongCode Size.isWordLong_iff

theorem reads_rm : Reads (fun w => some (rmField w)) 0x0008 (fun _ => true) (fun x => x.code * 8) [] :=
  .ofBit 3 RegMem.code fun x => by cases x <;> decide

theorem reads_moveDir : Reads (fun w => some (if w.getLsbD 7 then MoveDir.regToMem else .memToReg)) 0x0080
    (fun _ => true) (fun x => x.code * 128) [] :=
  .ofBit 7 MoveDir.code fun x => by cases x <;> decide

theorem reads_countKind : Reads (fun w => some (if w.getLsbD 5 then CountKind.register else .immediate)) 0x0020
    (fun _ => true) (fun x => x.code * 32) [] :=
  .ofBit 5 CountKind.code fun x => by cases x <;> decide

theorem Ea.modeCode_lt (ea : Ea) : ea.modeCode < 8 := by cases ea <;> simp [Ea.modeCode]

theorem Ea.regCode_lt (ea : Ea) : ea.regCode < 8 := by cases ea <;> simp [Ea.regCode]

theorem Ea.ofFields_eq_some_iff {m r : Fin 8} {ea : Ea} :
    Ea.ofFields m r = some ea ↔ m.val = ea.modeCode ∧ r.val = ea.regCode := by
  constructor
  · intro h
    have hall : ∀ m r : Fin 8, (Ea.ofFields m r).all fun ea => m.val == ea.modeCode && r.val == ea.regCode := by decide
    simpa [h] using hall m r
  · rintro ⟨hm, hr⟩
    cases ea <;> simp_all [Ea.ofFields, Ea.modeCode, Ea.regCode, ← Fin.ext_iff]

theorem ofFields_field3 {w : Word} {lo lo' : Nat} {ea : Ea} : Ea.ofFields (field3 w lo) (field3 w lo') = some ea ↔
    w.toNat / 2 ^ lo % 8 = ea.modeCode ∧ w.toNat / 2 ^ lo' % 8 = ea.regCode := by
  simp only [Ea.ofFields_eq_some_iff, field3, Fin.val_ofNat, Nat.shiftRight_eq_div_pow]

/-- Patterns of bits 5–0 that name no operand of a class (R102, R104), for the classes whose rows need them. -/
def EaClass.avoid : EaClass → List BitPattern
  | .data => [⟨0x38, 0x08⟩]
  | .dataAlterable => [⟨0x38, 0x08⟩, ⟨0x3C, 0x3C⟩]
  | .memoryAlterable => [⟨0x30, 0x00⟩]
  | .control => [⟨0x30, 0x00⟩]
  | .movemToMem => [⟨0x30, 0x00⟩]
  | _ => []

/-- What holds of the EA of every mode and register field holds of every EA. -/
theorem Ea.forall_of_fields {P : Ea → Bool} (h : ∀ m r : Fin 8, (Ea.ofFields m r).all P = true) (ea : Ea) :
    P ea = true := by
  have hea : Ea.ofFields ⟨ea.modeCode, ea.modeCode_lt⟩ ⟨ea.regCode, ea.regCode_lt⟩ = some ea :=
    Ea.ofFields_eq_some_iff.mpr ⟨rfl, rfl⟩
  simpa [hea] using h ⟨ea.modeCode, ea.modeCode_lt⟩ ⟨ea.regCode, ea.regCode_lt⟩

/-- No operand of a class has a pattern that the class avoids. -/
theorem EaClass.avoid_spec (c : EaClass) (sz : Size) (ea : Ea) (h : c.admits sz ea = true) :
    ∀ p ∈ c.avoid, 0x3F &&& p.mask = p.mask ∧ ea.fieldCode &&& p.mask ≠ p.value := by
  have hall := Ea.forall_of_fields (P := fun ea => !c.admits sz ea ||
    decide (∀ p ∈ c.avoid, 0x3F &&& p.mask = p.mask ∧ ea.fieldCode &&& p.mask ≠ p.value))
    (by cases c <;> cases sz <;> decide) ea
  simpa only [h, Bool.not_true, Bool.false_or, decide_eq_true_iff] using hall

/-- MOVE's destination is no address register. -/
theorem destCode_avoid (sz : Size) (ea : Ea) (h : EaClass.dataAlterable.admits sz ea = true) :
    ea.destCode &&& 0x01C0 ≠ 0x0040 := by
  have hall := Ea.forall_of_fields (P := fun ea => !EaClass.dataAlterable.admits sz ea ||
    decide (ea.destCode &&& 0x01C0 ≠ 0x0040)) (by cases sz <;> decide) ea
  simpa only [h, Bool.not_true, Bool.false_or, decide_eq_true_iff] using hall

/-- The standard EA field (R102). -/
theorem reads_ea (c : EaClass) (sz : Size) :
    Reads (eaField c sz) 0x003F (fun ea => c.admits sz ea) Ea.fieldCode c.avoid := by
  have hread : Reads (fun w => Ea.ofFields (field3 w 3) (field3 w 0)) 0x003F (fun _ => true) Ea.fieldCode [] :=
    .ofBits 0 6 Ea.fieldCode
      (fun {w ea} => by
        have hm := ea.modeCode_lt
        have hr := ea.regCode_lt
        simp only [ofFields_field3, Ea.fieldCode, Nat.reducePow, true_and]
        omega)
      (fun ea _ => by have := ea.modeCode_lt; have := ea.regCode_lt; simp only [Ea.fieldCode]; omega)
      (hcode := fun x => (Nat.mul_one _).symm)
  exact (hread.filter (c.admits sz)).avoiding (EaClass.avoid_spec c sz)

/-- MOVE's destination field (R102). -/
theorem reads_dest (sz : Size) : Reads (destField .dataAlterable sz) 0x0FC0
    (fun ea => EaClass.dataAlterable.admits sz ea) Ea.destCode [⟨0x01C0, 0x0040⟩] := by
  have hread : Reads (fun w => Ea.ofFields (field3 w 6) (field3 w 9)) 0x0FC0 (fun _ => true) Ea.destCode [] :=
    .ofBits 6 6 (fun ea => ea.regCode * 8 + ea.modeCode)
      (fun {w ea} => by
        have hm := ea.modeCode_lt
        have hr := ea.regCode_lt
        simp only [ofFields_field3, Nat.reducePow, true_and]
        omega)
      (fun ea _ => by have := ea.modeCode_lt; have := ea.regCode_lt; omega)
      (hcode := fun ea => by rw [Ea.destCode]; omega)
  exact (hread.filter (EaClass.dataAlterable.admits sz)).avoiding fun ea hea p hp => by
    obtain rfl := List.mem_singleton.mp hp
    exact ⟨by decide, destCode_avoid sz ea hea⟩

theorem Cond.code_lt (c : Cond) : c.code < 16 := by cases c <;> decide

theorem Cond.ofCode_eq_iff {n : Nat} (hn : n < 16) {c : Cond} : Cond.ofCode n = c ↔ n = c.code := by
  interval_cases n <;> cases c <;> decide

/-- The condition field (R109). -/
theorem reads_cond :
    Reads (fun w => some (condField w)) 0x0F00 (fun _ => true) (fun c => c.code * 256) [] :=
  .ofBits 8 4 Cond.code
    (fun {w c} => by
      rw [Option.some_inj, condField, Nat.shiftRight_eq_div_pow, Cond.ofCode_eq_iff (Nat.mod_lt _ (by decide))]
      simp)
    fun c _ => c.code_lt

/-- The condition field of Bcc, which BRA and BSR share the word with (R110). -/
theorem reads_branchCond : Reads (fun w => (some (condField w)).filter Cond.isBranch) 0x0F00
    (fun c => true && c.isBranch) (fun c => c.code * 256) [⟨0x0F00, 0x0000⟩, ⟨0x0F00, 0x0100⟩] :=
  (reads_cond.filter Cond.isBranch).avoiding fun c hc => by cases c <;> revert hc <;> decide

end Sys2Proof
end

section
/-! PROOFS. The rows of the opcode map (R110): a row is its fixed bits with the fields that its mask leaves free, so it takes
exactly the encodings of its own well-formed instructions. One lemma per shape of row. -/

namespace Sys2Proof

theorem encode_eq_iff {i : Instr} (h : i.opcode < 2 ^ 16) {w : Word} : encode i = w ↔ w.toNat = i.opcode := by
  rw [← BitVec.toNat_inj, encode, BitVec.toNat_ofNat, Nat.mod_eq_of_lt h, eq_comm]

/-- A row decodes exactly the encodings of the well-formed instructions that `make` makes, and takes no word of a pattern
of `avoid`. -/
structure OpRow.Encodes (r : OpRow) {α : Type} (make : α → Instr) (avoid : List BitPattern) : Prop where
  decode_iff : ∀ {w i}, r.decode w = some i ↔ ∃ x, make x = i ∧ i.wellFormed = true ∧ encode i = w
  avoids : ∀ {w i}, r.decode w = some i → ∀ p ∈ avoid, ¬p.Matches w

theorem OpRow.decode_eq_some_iff {r : OpRow} {w : Word} {i : Instr} :
    r.decode w = some i ↔ w.toNat &&& r.mask = r.pat ∧ r.build w = some i := by
  rw [OpRow.decode]
  split <;> simp_all

/-- A row whose mask leaves free one field, which its instruction is made of. -/
theorem Reads.encodes {α : Type} {name : String} {mask pat : Nat} {build : Word → Option Instr} {read : Word → Option α}
    {free : Nat} {ok : α → Bool} {code : α → Nat} {avoid : List BitPattern} {make : α → Instr}
    (h : Reads read free ok code avoid) (hpat : pat &&& mask = pat) (hbuild : ∀ w, build w = (read w).map make)
    (hwf : ∀ x, (make x).wellFormed = ok x) (hop : ∀ x, (make x).opcode = pat + code x)
    (hfull : mask ||| free = 0xFFFF := by decide) (hdisj : mask &&& free = 0 := by decide) :
    OpRow.Encodes ⟨name, mask, pat, build⟩ make avoid where
  decode_iff {w i} := by
    have hword {x : α} (hx : ok x = true) :
        encode (make x) = w ↔ w.toNat &&& mask = pat ∧ w.toNat &&& free = code x := by
      have hcode := h.code_mask hx
      have hsum := add_and_or hdisj hpat hcode
      rw [hfull] at hsum
      have hlt : pat + code x < 2 ^ 16 := by
        have : pat + code x ≤ 0xFFFF := hsum ▸ Nat.and_le_right
        omega
      rw [encode_eq_iff (by rw [hop]; exact hlt), hop, ← and_or_eq_add_iff hdisj hpat hcode, hfull, Word.and_full]
    simp only [OpRow.decode_eq_some_iff, hbuild, Option.map_eq_some_iff]
    constructor
    · rintro ⟨hw, x, hx, rfl⟩
      obtain ⟨hok, hfree⟩ := h.read_iff.mp hx
      exact ⟨x, rfl, (hwf x).trans hok, (hword hok).mpr ⟨hw, hfree⟩⟩
    · rintro ⟨x, rfl, hi, he⟩
      have hok : ok x = true := (hwf x).symm.trans hi
      obtain ⟨hw, hfree⟩ := (hword hok).mp he
      exact ⟨hw, x, h.read_iff.mpr ⟨hok, hfree⟩, rfl⟩
  avoids {w i} hd := by
    obtain ⟨-, hb⟩ := OpRow.decode_eq_some_iff.mp hd
    obtain ⟨x, hx, -⟩ := Option.map_eq_some_iff.mp ((hbuild w).symm.trans hb)
    exact h.avoids hx

section
variable {name : String} {pat : Nat}

theorem fixedRow_encodes {i : Instr} (hpat : pat &&& 0xFFFF = pat := by decide) (hwf : i.wellFormed = true := by rfl)
    (hop : i.opcode = pat := by rfl) : OpRow.Encodes ⟨name, 0xFFFF, pat, fixedRow i⟩ (fun _ : Unit => i) [] :=
  reads_nothing.encodes hpat (fun _ => rfl) (fun _ => hwf) fun _ => hop

theorem eaRow_encodes {c : EaClass} {sz : Size} {mk : Ea → Instr} (hpat : pat &&& 0xFFC0 = pat := by decide)
    (hwf : ∀ ea, (mk ea).wellFormed = c.admits sz ea := by exact fun _ => rfl)
    (hop : ∀ ea, (mk ea).opcode = pat + ea.fieldCode := by exact fun _ => rfl) :
    OpRow.Encodes ⟨name, 0xFFC0, pat, eaRow c sz mk⟩ mk c.avoid :=
  (reads_ea c sz).encodes hpat (fun _ => rfl) hwf hop

theorem sizeEaRow_encodes {c : EaClass} {mk : Size → Ea → Instr} (hpat : pat &&& 0xFF00 = pat := by decide)
    (hwf : ∀ sz ea, (mk sz ea).wellFormed = c.admits sz ea := by exact fun _ _ => rfl)
    (hop : ∀ sz ea, (mk sz ea).opcode = pat + sz.code * 64 + ea.fieldCode := by exact fun _ _ => rfl) :
    OpRow.Encodes ⟨name, 0xFF00, pat, sizeEaRow c mk⟩ (fun x : Size × Ea => mk x.1 x.2)
      (⟨0x00C0, 0x00C0⟩ :: c.avoid) :=
  (reads_size.pair (reads_ea c)).encodes hpat (fun w => by simp [sizeEaRow, Function.comp_def, Option.map_bind])
    (fun _ => hwf ..) fun _ => by simp only [hop]; omega

theorem regEaRow_encodes {c : EaClass} {sz : Size} {mk : Fin 8 → Ea → Instr} (hpat : pat &&& 0xF1C0 = pat := by decide)
    (hwf : ∀ x ea, (mk x ea).wellFormed = c.admits sz ea := by exact fun _ _ => rfl)
    (hop : ∀ x ea, (mk x ea).opcode = pat + x.val * 512 + ea.fieldCode := by exact fun _ _ => rfl) :
    OpRow.Encodes ⟨name, 0xF1C0, pat, regEaRow c sz mk⟩ (fun x : Fin 8 × Ea => mk x.1 x.2) c.avoid :=
  (reads_rx.pair fun _ => reads_ea c sz).encodes hpat (fun w => by simp [regEaRow, Function.comp_def])
    (fun _ => hwf ..) fun _ => by simp only [hop]; omega

theorem regSizeEaRow_encodes {c : EaClass} {mk : Fin 8 → Size → Ea → Instr} (hpat : pat &&& 0xF100 = pat := by decide)
    (hwf : ∀ x sz ea, (mk x sz ea).wellFormed = c.admits sz ea := by exact fun _ _ _ => rfl)
    (hop : ∀ x sz ea, (mk x sz ea).opcode = pat + x.val * 512 + sz.code * 64 + ea.fieldCode := by
      exact fun _ _ _ => rfl) :
    OpRow.Encodes ⟨name, 0xF100, pat, regSizeEaRow c mk⟩ (fun x : Fin 8 × Size × Ea => mk x.1 x.2.1 x.2.2)
      (⟨0x00C0, 0x00C0⟩ :: c.avoid) :=
  (reads_rx.pair fun _ => reads_size.pair (reads_ea c)).encodes hpat
    (fun w => by simp [regSizeEaRow, Function.comp_def, Option.map_bind])
    (fun _ => hwf ..) fun _ => by simp only [hop]; omega

theorem addrRow_encodes {mk : Fin 8 → Size → Ea → Instr} (hpat : pat &&& 0xF0C0 = pat := by decide)
    (hwf : ∀ x sz ea, (mk x sz ea).wellFormed = (sz.isWordLong && EaClass.all.admits sz ea) := by exact fun _ _ _ => rfl)
    (hop : ∀ x sz ea, (mk x sz ea).opcode = pat + x.val * 512 + sz.wordLongCode * 256 + ea.fieldCode := by
      exact fun _ _ _ => rfl) :
    OpRow.Encodes ⟨name, 0xF0C0, pat, addrRow mk⟩ (fun x : Fin 8 × Size × Ea => mk x.1 x.2.1 x.2.2) [] :=
  (reads_rx.pair fun _ => (reads_wordLong 8).pair (reads_ea .all)).encodes hpat
    (fun w => by simp [addrRow, Function.comp_def]) (fun _ => hwf ..) fun _ => by simp only [hop]; omega

theorem movemRow_encodes {c : EaClass} {mk : Size → Ea → Instr} (hpat : pat &&& 0xFF80 = pat := by decide)
    (hwf : ∀ sz ea, (mk sz ea).wellFormed = (sz.isWordLong && c.admits sz ea) := by exact fun _ _ => rfl)
    (hop : ∀ sz ea, (mk sz ea).opcode = pat + sz.wordLongCode * 64 + ea.fieldCode := by exact fun _ _ => rfl) :
    OpRow.Encodes ⟨name, 0xFF80, pat, movemRow c mk⟩ (fun x : Size × Ea => mk x.1 x.2) c.avoid :=
  ((reads_wordLong 6).pair (reads_ea c)).encodes hpat (fun w => by simp [movemRow, Function.comp_def])
    (fun _ => hwf ..) fun _ => by simp only [hop]; omega

theorem moveRow_encodes {c : EaClass} {sz : Size} {mk : Ea → Ea → Instr} (hpat : pat &&& 0xF000 = pat := by decide)
    (hwf : ∀ src dst, (mk src dst).wellFormed = (c.admits sz src && EaClass.dataAlterable.admits sz dst) := by
      exact fun _ _ => rfl)
    (hop : ∀ src dst, (mk src dst).opcode = pat + dst.destCode + src.fieldCode := by exact fun _ _ => rfl) :
    OpRow.Encodes ⟨name, 0xF000, pat, moveRow c sz mk⟩ (fun x : Ea × Ea => mk x.1 x.2)
      (c.avoid ++ [⟨0x01C0, 0x0040⟩]) :=
  ((reads_ea c sz).pair fun _ => reads_dest sz).encodes hpat
    (fun w => by simp [moveRow, Function.comp_def, Option.map_bind]) (fun _ => hwf ..)
    fun _ => by simp only [hop]; omega

theorem ryRow_encodes {mk : Fin 8 → Instr} (hpat : pat &&& 0xFFF8 = pat := by decide)
    (hwf : ∀ y, (mk y).wellFormed = true := by exact fun _ => rfl)
    (hop : ∀ y, (mk y).opcode = pat + y.val := by exact fun _ => rfl) :
    OpRow.Encodes ⟨name, 0xFFF8, pat, ryRow mk⟩ mk [] :=
  reads_ry.encodes hpat (fun _ => rfl) hwf hop

theorem rxRyRow_encodes {mk : Fin 8 → Fin 8 → Instr} (hpat : pat &&& 0xF1F8 = pat := by decide)
    (hwf : ∀ x y, (mk x y).wellFormed = true := by exact fun _ _ => rfl)
    (hop : ∀ x y, (mk x y).opcode = pat + x.val * 512 + y.val := by exact fun _ _ => rfl) :
    OpRow.Encodes ⟨name, 0xF1F8, pat, rxRyRow mk⟩ (fun x : Fin 8 × Fin 8 => mk x.1 x.2) [] :=
  (reads_rx.pair fun _ => reads_ry).encodes hpat (fun _ => rfl) (fun _ => hwf ..) fun _ => by simp only [hop]; omega

theorem rmRow_encodes {mk : Fin 8 → RegMem → Fin 8 → Instr} (hpat : pat &&& 0xF1F0 = pat := by decide)
    (hwf : ∀ x form y, (mk x form y).wellFormed = true := by exact fun _ _ _ => rfl)
    (hop : ∀ x form y, (mk x form y).opcode = pat + x.val * 512 + form.code * 8 + y.val := by exact fun _ _ _ => rfl) :
    OpRow.Encodes ⟨name, 0xF1F0, pat, rmRow mk⟩ (fun x : Fin 8 × RegMem × Fin 8 => mk x.1 x.2.1 x.2.2) [] :=
  (reads_rx.pair fun _ => reads_rm.pair fun _ => reads_ry).encodes hpat (fun _ => rfl) (fun _ => hwf ..)
    fun _ => by simp only [hop]; omega

theorem extendRow_encodes {mk : Fin 8 → Size → RegMem → Fin 8 → Instr} (hpat : pat &&& 0xF130 = pat := by decide)
    (hwf : ∀ x sz form y, (mk x sz form y).wellFormed = true := by exact fun _ _ _ _ => rfl)
    (hop : ∀ x sz form y, (mk x sz form y).opcode = pat + x.val * 512 + sz.code * 64 + form.code * 8 + y.val := by
      exact fun _ _ _ _ => rfl) :
    OpRow.Encodes ⟨name, 0xF130, pat, extendRow mk⟩
      (fun x : Fin 8 × Size × RegMem × Fin 8 => mk x.1 x.2.1 x.2.2.1 x.2.2.2) [⟨0x00C0, 0x00C0⟩] :=
  (reads_rx.pair fun _ => reads_size.pair fun _ => reads_rm.pair fun _ => reads_ry).encodes hpat
    (fun w => by unfold extendRow; cases sizeField w <;> rfl) (fun _ => hwf ..) fun _ => by simp only [hop]; omega

theorem cmpmRow_encodes :
    OpRow.Encodes ⟨name, 0xF138, 0xB108, cmpmRow⟩ (fun x : Fin 8 × Size × Fin 8 => .cmpm x.1 x.2.1 x.2.2)
      [⟨0x00C0, 0x00C0⟩] :=
  (reads_rx.pair fun _ => reads_size.pair fun _ => reads_ry).encodes (by decide)
    (fun w => by unfold cmpmRow; cases sizeField w <;> rfl) (fun _ => rfl)
    fun _ => by simp only [Instr.opcode]; omega

theorem movepRow_encodes :
    OpRow.Encodes ⟨name, 0xF138, 0x0108, movepRow⟩
      (fun x : Fin 8 × MoveDir × Size × Fin 8 => .movep x.1 x.2.1 x.2.2.1 x.2.2.2) [] :=
  (reads_rx.pair fun _ => reads_moveDir.pair fun _ => (reads_wordLong 6).pair fun _ => reads_ry).encodes (by decide)
    (fun _ => rfl) (fun _ => by simp [Instr.wellFormed]) fun _ => by simp only [Instr.opcode]; omega

theorem bkptRow_encodes : OpRow.Encodes ⟨name, 0xFFF8, 0x4848, bkptRow⟩ Instr.bkpt [] :=
  (reads_low 3).encodes (by decide) (fun _ => rfl) (fun _ => rfl) fun _ => rfl

theorem trapRow_encodes : OpRow.Encodes ⟨name, 0xFFF0, 0x4E40, trapRow⟩ Instr.trap [] :=
  (reads_low 4).encodes (by decide) (fun _ => rfl) (fun _ => rfl) fun _ => rfl

theorem quickRow_encodes {mk : BitVec 3 → Size → Ea → Instr} (hpat : pat &&& 0xF100 = pat := by decide)
    (hwf : ∀ q sz ea, (mk q sz ea).wellFormed = EaClass.alterableNoAnIfByte.admits sz ea := by exact fun _ _ _ => rfl)
    (hop : ∀ q sz ea, (mk q sz ea).opcode = pat + q.toNat * 512 + sz.code * 64 + ea.fieldCode := by
      exact fun _ _ _ => rfl) :
    OpRow.Encodes ⟨name, 0xF100, pat, quickRow mk⟩ (fun x : BitVec 3 × Size × Ea => mk x.1 x.2.1 x.2.2)
      [⟨0x00C0, 0x00C0⟩] :=
  (reads_quick.pair fun _ => reads_size.pair (reads_ea .alterableNoAnIfByte)).encodes hpat
    (fun w => by simp [quickRow, Function.comp_def, Option.map_bind]) (fun _ => hwf ..)
    fun _ => by simp only [hop]; omega

theorem dbccRow_encodes :
    OpRow.Encodes ⟨name, 0xF0F8, 0x50C8, dbccRow⟩ (fun x : Cond × Fin 8 => .dbcc x.1 x.2) [] :=
  (reads_cond.pair fun _ => reads_ry).encodes (by decide) (fun _ => rfl) (fun _ => rfl)
    fun _ => by simp only [Instr.opcode]; omega

theorem sccRow_encodes :
    OpRow.Encodes ⟨name, 0xF0C0, 0x50C0, sccRow⟩ (fun x : Cond × Ea => .scc x.1 x.2) EaClass.dataAlterable.avoid :=
  (reads_cond.pair fun _ => reads_ea .dataAlterable .b).encodes (by decide)
    (fun w => by simp [sccRow, Function.comp_def]) (fun _ => rfl) fun _ => by simp only [Instr.opcode]; omega

theorem dispRow_encodes {mk : Byte → Instr} (hpat : pat &&& 0xFF00 = pat := by decide)
    (hwf : ∀ d8, (mk d8).wellFormed = true := by exact fun _ => rfl)
    (hop : ∀ d8, (mk d8).opcode = pat + d8.toNat := by exact fun _ => rfl) :
    OpRow.Encodes ⟨name, 0xFF00, pat, dispRow mk⟩ mk [] :=
  (reads_low 8).encodes hpat (fun _ => rfl) hwf hop

theorem bccRow_encodes :
    OpRow.Encodes ⟨name, 0xF000, 0x6000, bccRow⟩ (fun x : Cond × Byte => .bcc x.1 x.2)
      [⟨0x0F00, 0x0000⟩, ⟨0x0F00, 0x0100⟩] :=
  (reads_branchCond.pair fun _ => reads_low 8).encodes (by decide)
    (fun w => by unfold bccRow; rw [Option.filter_some]; split <;> rfl) (fun _ => by simp [Instr.wellFormed])
    fun _ => by simp only [Instr.opcode]; omega

theorem moveqRow_encodes :
    OpRow.Encodes ⟨name, 0xF100, 0x7000, moveqRow⟩ (fun x : Fin 8 × Byte => .moveq x.1 x.2) [] :=
  (reads_rx.pair fun _ => reads_low 8).encodes (by decide) (fun _ => rfl) (fun _ => rfl)
    fun _ => by simp only [Instr.opcode]; omega

theorem shiftRow_encodes {mk : Fin 8 → Size → CountKind → Fin 8 → Instr} (hpat : pat &&& 0xF118 = pat := by decide)
    (hwf : ∀ k sz g y, (mk k sz g y).wellFormed = true := by exact fun _ _ _ _ => rfl)
    (hop : ∀ k sz g y, (mk k sz g y).opcode = shiftCode pat k sz g y := by exact fun _ _ _ _ => rfl) :
    OpRow.Encodes ⟨name, 0xF118, pat, shiftRow mk⟩
      (fun x : Fin 8 × Size × CountKind × Fin 8 => mk x.1 x.2.1 x.2.2.1 x.2.2.2) [⟨0x00C0, 0x00C0⟩] :=
  (reads_rx.pair fun _ => reads_size.pair fun _ => reads_countKind.pair fun _ => reads_ry).encodes hpat
    (fun w => by unfold shiftRow; cases sizeField w <;> rfl) (fun _ => hwf ..)
    fun _ => by simp only [hop, shiftCode]; omega

theorem emulatorRow_encodes {mk : BitVec 12 → Instr} (hpat : pat &&& 0xF000 = pat := by decide)
    (hwf : ∀ low, (mk low).wellFormed = true := by exact fun _ => rfl)
    (hop : ∀ low, (mk low).opcode = pat + low.toNat := by exact fun _ => rfl) :
    OpRow.Encodes ⟨name, 0xF000, pat, emulatorRow mk⟩ mk [] :=
  (reads_low 12).encodes hpat (fun _ => rfl) hwf hop

end

end Sys2Proof
end

section
/-! PROOFS. Decoding and encoding (R101, R110, R111). No word is taken by two rows of a line, since their fixed bits differ or
one row's fields avoid a pattern that the fixed bits of both make up; so the order of the rows does not matter, and a word
decodes to what any row makes of it. -/

namespace Sys2Proof

/-- What the decoder needs of a row: it takes only encodings of well-formed instructions, and none with a pattern of
`avoid`. -/
structure OpRow.Lawful (r : OpRow) (avoid : List BitPattern) : Prop where
  sound : ∀ {w i}, r.decode w = some i → i.wellFormed = true ∧ encode i = w
  avoids : ∀ {w i}, r.decode w = some i → ∀ p ∈ avoid, ¬p.Matches w

theorem OpRow.Lawful.of {r : OpRow} {α : Type} {make : α → Instr} {avoid : List BitPattern}
    (h : r.Encodes make avoid) : r.Lawful avoid where
  sound hd := by
    obtain ⟨-, -, hi, he⟩ := h.decode_iff.mp hd
    exact ⟨hi, he⟩
  avoids := h.avoids

/-- Two rows that no word has the fixed bits of both of, or whose fixed bits make up a pattern that one of them avoids. -/
def apart (x y : OpRow × List BitPattern) : Bool :=
  x.1.pat &&& y.1.mask != y.1.pat &&& x.1.mask || (x.2 ++ y.2).any fun p =>
    (x.1.mask ||| y.1.mask) &&& p.mask == p.mask && (x.1.pat ||| y.1.pat) &&& p.mask == p.value

theorem apart_iff {x y : OpRow × List BitPattern} : apart x y = true ↔
    x.1.pat &&& y.1.mask ≠ y.1.pat &&& x.1.mask ∨
      ∃ p ∈ x.2 ++ y.2, (x.1.mask ||| y.1.mask) &&& p.mask = p.mask ∧ (x.1.pat ||| y.1.pat) &&& p.mask = p.value := by
  simp only [apart, Bool.or_eq_true, bne_iff_ne, List.any_eq_true, Bool.and_eq_true, beq_iff_eq]

/-- Rows apart take no word both. -/
theorem decode_eq_none_of_apart {x y : OpRow × List BitPattern} (h : apart x y = true) (hx : x.1.Lawful x.2)
    (hy : y.1.Lawful y.2) {w : Word} {i : Instr} (hd : y.1.decode w = some i) : x.1.decode w = none := by
  refine Option.eq_none_iff_forall_ne_some.mpr fun j hj => ?_
  obtain ⟨hwx, -⟩ := OpRow.decode_eq_some_iff.mp hj
  obtain ⟨hwy, -⟩ := OpRow.decode_eq_some_iff.mp hd
  rcases apart_iff.mp h with hne | ⟨p, hp, hmask, hvalue⟩
  · exact hne (by rw [← hwx, ← hwy, Nat.and_right_comm])
  · have hm : p.Matches w := by
      rw [BitPattern.Matches, ← hmask, ← Nat.and_assoc, Nat.and_or_distrib_left, hwx, hwy, hvalue]
    rcases List.mem_append.mp hp with hp | hp
    · exact hx.avoids hj p hp hm
    · exact hy.avoids hd p hp hm

/-- A line of rows that are lawful and each two of which are apart. -/
def LawfulLine (rows : List OpRow) : Prop :=
  ∃ l : List (OpRow × List BitPattern), l.map Prod.fst = rows ∧ (∀ x ∈ l, x.1.Lawful x.2) ∧
    l.Pairwise fun x y => apart x y = true

theorem LawfulLine.of {rows : List OpRow} {avoids : List (List BitPattern)} (h : List.Forall₂ OpRow.Lawful rows avoids)
    (ha : (rows.zip avoids).Pairwise fun x y => apart x y = true) : LawfulLine rows := by
  obtain ⟨hlen, hlawful⟩ := List.forall₂_iff_zip.mp h
  exact ⟨rows.zip avoids, List.map_fst_zip hlen.le, fun _ hx => hlawful hx, ha⟩

/-- A row of a lawful line takes only encodings of well-formed instructions. -/
theorem LawfulLine.sound {rows : List OpRow} (h : LawfulLine rows) {r : OpRow} (hr : r ∈ rows) {w : Word} {i : Instr}
    (hd : r.decode w = some i) : i.wellFormed = true ∧ encode i = w := by
  obtain ⟨l, rfl, hlawful, -⟩ := h
  obtain ⟨x, hx, rfl⟩ := List.mem_map.mp hr
  exact (hlawful x hx).sound hd

/-- The order of the rows of a lawful line does not matter. -/
theorem LawfulLine.findSome?_decode {rows : List OpRow} (h : LawfulLine rows) {r : OpRow} (hr : r ∈ rows) {w : Word}
    {i : Instr} (hd : r.decode w = some i) : rows.findSome? (fun r => r.decode w) = some i := by
  obtain ⟨l, rfl, hlawful, hapart⟩ := h
  obtain ⟨x, hx, rfl⟩ := List.mem_map.mp hr
  clear hr
  induction hapart with
  | nil => cases hx
  | @cons y l hy _ ih =>
    rw [List.map_cons, List.findSome?_cons]
    rcases List.mem_cons.mp hx with rfl | hx
    · rw [hd]
    · have hnone : y.1.decode w = none :=
        decode_eq_none_of_apart (hy x hx) (hlawful y List.mem_cons_self) (hlawful x (List.mem_cons_of_mem y hx)) hd
      rw [hnone]
      exact ih (fun z hz => hlawful z (List.mem_cons_of_mem y hz)) hx

/-! The lines of R110. -/

theorem line0_lawful : LawfulLine line0Rows :=
  .of (.cons (.of fixedRow_encodes) <| .cons (.of fixedRow_encodes) <| .cons (.of sizeEaRow_encodes) <|
    .cons (.of fixedRow_encodes) <| .cons (.of fixedRow_encodes) <| .cons (.of sizeEaRow_encodes) <|
    .cons (.of sizeEaRow_encodes) <| .cons (.of sizeEaRow_encodes) <| .cons (.of eaRow_encodes) <|
    .cons (.of eaRow_encodes) <| .cons (.of eaRow_encodes) <| .cons (.of eaRow_encodes) <|
    .cons (.of fixedRow_encodes) <| .cons (.of fixedRow_encodes) <| .cons (.of sizeEaRow_encodes) <|
    .cons (.of sizeEaRow_encodes) <| .cons (.of sizeEaRow_encodes) <| .cons (.of regEaRow_encodes) <|
    .cons (.of regEaRow_encodes) <| .cons (.of regEaRow_encodes) <| .cons (.of regEaRow_encodes) <|
    .cons (.of movepRow_encodes) .nil) (by decide)

theorem line1_lawful : LawfulLine line1Rows :=
  .of (.cons (.of moveRow_encodes) .nil) (by decide)

theorem line2_lawful : LawfulLine line2Rows :=
  .of (.cons (.of moveRow_encodes) <| .cons (.of regEaRow_encodes) .nil) (by decide)

theorem line3_lawful : LawfulLine line3Rows :=
  .of (.cons (.of moveRow_encodes) <| .cons (.of regEaRow_encodes) .nil) (by decide)

theorem line4_lawful : LawfulLine line4Rows :=
  .of (.cons (.of sizeEaRow_encodes) <| .cons (.of eaRow_encodes) <| .cons (.of regEaRow_encodes) <|
    .cons (.of regEaRow_encodes) <| .cons (.of sizeEaRow_encodes) <| .cons (.of eaRow_encodes) <|
    .cons (.of sizeEaRow_encodes) <| .cons (.of eaRow_encodes) <| .cons (.of sizeEaRow_encodes) <|
    .cons (.of eaRow_encodes) <| .cons (.of eaRow_encodes) <| .cons (.of ryRow_encodes) <|
    .cons (.of bkptRow_encodes) <| .cons (.of eaRow_encodes) <| .cons (.of ryRow_encodes) <|
    .cons (.of ryRow_encodes) <| .cons (.of movemRow_encodes) <| .cons (.of sizeEaRow_encodes) <|
    .cons (.of eaRow_encodes) <| .cons (.of fixedRow_encodes) <| .cons (.of movemRow_encodes) <|
    .cons (.of trapRow_encodes) <| .cons (.of ryRow_encodes) <| .cons (.of ryRow_encodes) <|
    .cons (.of ryRow_encodes) <| .cons (.of ryRow_encodes) <| .cons (.of fixedRow_encodes) <|
    .cons (.of fixedRow_encodes) <| .cons (.of fixedRow_encodes) <| .cons (.of fixedRow_encodes) <|
    .cons (.of fixedRow_encodes) <| .cons (.of fixedRow_encodes) <| .cons (.of fixedRow_encodes) <|
    .cons (.of fixedRow_encodes) <| .cons (.of fixedRow_encodes) <| .cons (.of fixedRow_encodes) <|
    .cons (.of eaRow_encodes) <| .cons (.of eaRow_encodes) .nil) (by decide)

theorem line5_lawful : LawfulLine line5Rows :=
  .of (.cons (.of quickRow_encodes) <| .cons (.of quickRow_encodes) <| .cons (.of dbccRow_encodes) <|
    .cons (.of sccRow_encodes) .nil) (by decide)

theorem line6_lawful : LawfulLine line6Rows :=
  .of (.cons (.of dispRow_encodes) <| .cons (.of dispRow_encodes) <| .cons (.of bccRow_encodes) .nil) (by decide)

theorem line7_lawful : LawfulLine line7Rows :=
  .of (.cons (.of moveqRow_encodes) .nil) (by decide)

theorem line8_lawful : LawfulLine line8Rows :=
  .of (.cons (.of regSizeEaRow_encodes) <| .cons (.of regSizeEaRow_encodes) <| .cons (.of regEaRow_encodes) <|
    .cons (.of regEaRow_encodes) <| .cons (.of rmRow_encodes) .nil) (by decide)

theorem line9_lawful : LawfulLine line9Rows :=
  .of (.cons (.of regSizeEaRow_encodes) <| .cons (.of regSizeEaRow_encodes) <| .cons (.of addrRow_encodes) <|
    .cons (.of extendRow_encodes) .nil) (by decide)

theorem lineA_lawful : LawfulLine lineARows :=
  .of (.cons (.of emulatorRow_encodes) .nil) (by decide)

theorem lineB_lawful : LawfulLine lineBRows :=
  .of (.cons (.of regSizeEaRow_encodes) <| .cons (.of addrRow_encodes) <| .cons (.of regSizeEaRow_encodes) <|
    .cons (.of cmpmRow_encodes) .nil) (by decide)

theorem lineC_lawful : LawfulLine lineCRows :=
  .of (.cons (.of regSizeEaRow_encodes) <| .cons (.of regSizeEaRow_encodes) <| .cons (.of regEaRow_encodes) <|
    .cons (.of regEaRow_encodes) <| .cons (.of rmRow_encodes) <| .cons (.of rxRyRow_encodes) <|
    .cons (.of rxRyRow_encodes) <| .cons (.of rxRyRow_encodes) .nil) (by decide)

theorem lineD_lawful : LawfulLine lineDRows :=
  .of (.cons (.of regSizeEaRow_encodes) <| .cons (.of regSizeEaRow_encodes) <| .cons (.of addrRow_encodes) <|
    .cons (.of extendRow_encodes) .nil) (by decide)

theorem lineE_lawful : LawfulLine lineERows :=
  .of (.cons (.of shiftRow_encodes) <| .cons (.of shiftRow_encodes) <| .cons (.of shiftRow_encodes) <|
    .cons (.of shiftRow_encodes) <| .cons (.of shiftRow_encodes) <| .cons (.of shiftRow_encodes) <|
    .cons (.of shiftRow_encodes) <| .cons (.of shiftRow_encodes) <| .cons (.of eaRow_encodes) <|
    .cons (.of eaRow_encodes) <| .cons (.of eaRow_encodes) <| .cons (.of eaRow_encodes) <|
    .cons (.of eaRow_encodes) <| .cons (.of eaRow_encodes) <| .cons (.of eaRow_encodes) <|
    .cons (.of eaRow_encodes) .nil) (by decide)

theorem lineF_lawful : LawfulLine lineFRows :=
  .of (.cons (.of emulatorRow_encodes) .nil) (by decide)

theorem lineRows_lawful (n : Nat) : LawfulLine (lineRows n) := by
  unfold lineRows
  split
  exacts [line0_lawful, line1_lawful, line2_lawful, line3_lawful, line4_lawful, line5_lawful, line6_lawful, line7_lawful,
    line8_lawful, line9_lawful, lineA_lawful, lineB_lawful, lineC_lawful, lineD_lawful, lineE_lawful, lineF_lawful]

/-- Settles O3: the row that takes the word takes only encodings of well-formed instructions. -/
theorem encodeOfDecode : Obligations.EncodeOfDecode := by
  unfold Obligations.EncodeOfDecode
  intro w i h
  obtain ⟨r, hr, hd⟩ := List.exists_of_findSome?_eq_some h
  exact (lineRows_lawful (lineOf w)).sound hr hd

/-! From an instruction to its row. -/

/-- The rows of all lines. -/
def opRows : List OpRow := (List.range 16).flatMap lineRows

/-- The fixed bits of a row hold its line. -/
theorem line_fixed : ∀ n < 16, ∀ r ∈ lineRows n, r.mask &&& 0xF000 = 0xF000 ∧ r.pat &&& 0xF000 = n * 2 ^ 12 := by decide

theorem lineOf_eq_of_decode {n : Nat} {r : OpRow} {w : Word} {i : Instr} (hn : n < 16) (hr : r ∈ lineRows n)
    (hd : r.decode w = some i) : lineOf w = n := by
  obtain ⟨hw, -⟩ := OpRow.decode_eq_some_iff.mp hd
  obtain ⟨hmask, hpat⟩ := line_fixed n hn r hr
  have hline : w.toNat &&& 0xF000 = n * 2 ^ 12 := by rw [← hpat, ← hw, Nat.and_assoc, hmask]
  rw [show 0xF000 = (2 ^ 4 - 1) * 2 ^ 12 from rfl, and_field] at hline
  have hlt := w.isLt
  rw [lineOf, Nat.shiftRight_eq_div_pow]
  omega

/-- A word that a row takes decodes to what the row makes of it. -/
theorem decodeWord_of_row {r : OpRow} {w : Word} {i : Instr} (hr : r ∈ opRows) (hd : r.decode w = some i) :
    decodeWord w = some i := by
  obtain ⟨n, hn, hr⟩ := List.mem_flatMap.mp hr
  rw [decodeWord, lineOf_eq_of_decode (List.mem_range.mp hn) hr hd]
  exact (lineRows_lawful n).findSome?_decode hr hd

theorem decodeWord_encode_at {i : Instr} (k : Nat) {r : OpRow} {α : Type} {make : α → Instr} {avoid : List BitPattern}
    (hk : opRows[k]? = some r) (hr : r.Encodes make avoid) (x : α) (hx : make x = i) (hi : i.wellFormed = true) :
    decodeWord (encode i) = some i :=
  decodeWord_of_row (List.mem_of_getElem? hk) (hr.decode_iff.mpr ⟨x, hx, hi, rfl⟩)

/-- The constructors of `Instr` are in the order of the rows, but for MOVE and MOVEA. -/
theorem decodeWord_encode_row {i : Instr} {r : OpRow} {α : Type} {make : α → Instr} {avoid : List BitPattern}
    (hk : opRows[i.ctorIdx]? = some r) (hr : r.Encodes make avoid) (x : α) (hx : make x = i)
    (hi : i.wellFormed = true) : decodeWord (encode i) = some i := decodeWord_encode_at _ hk hr x hx hi

theorem decodeWord_encode (i : Instr) (h : i.wellFormed = true) : decodeWord (encode i) = some i := by
  cases i with
  | oriToCcr | oriToSr | andiToCcr | andiToSr | eoriToCcr | eoriToSr | illegal | reset | nop | stop | rte | rtd | rts
  | trapv | rtr | movecRcRn | movecRnRc => exact decodeWord_encode_row rfl fixedRow_encodes () rfl h
  | ori sz ea | andi sz ea | subi sz ea | addi sz ea | eori sz ea | cmpi sz ea | moves sz ea | negx sz ea | clr sz ea
  | neg sz ea | notOp sz ea | tst sz ea => exact decodeWord_encode_row rfl sizeEaRow_encodes (sz, ea) rfl h
  | btstImm ea | bchgImm ea | bclrImm ea | bsetImm ea | moveFromSr ea | moveFromCcr ea | moveToCcr ea | moveToSr ea
  | nbcd ea | pea ea | tas ea | jsr ea | jmp ea | asrEa ea | aslEa ea | lsrEa ea | lslEa ea | roxrEa ea | roxlEa ea
  | rorEa ea | rolEa ea => exact decodeWord_encode_row rfl eaRow_encodes ea rfl h
  | btstReg dn ea | bchgReg dn ea | bclrReg dn ea | bsetReg dn ea | chk dn ea | lea dn ea | divu dn ea | divs dn ea
  | mulu dn ea | muls dn ea => exact decodeWord_encode_row rfl regEaRow_encodes (dn, ea) rfl h
  | movep dn dir sz an => exact decodeWord_encode_row rfl movepRow_encodes (dn, dir, sz, an) rfl h
  | moveB src dst => exact decodeWord_encode_at 22 rfl moveRow_encodes (src, dst) rfl h
  | moveL src dst => exact decodeWord_encode_at 23 rfl moveRow_encodes (src, dst) rfl h
  | moveaL an src => exact decodeWord_encode_at 24 rfl regEaRow_encodes (an, src) rfl h
  | moveW src dst => exact decodeWord_encode_at 25 rfl moveRow_encodes (src, dst) rfl h
  | moveaW an src => exact decodeWord_encode_at 26 rfl regEaRow_encodes (an, src) rfl h
  | swap y | extW y | extL y | link y | unlk y | moveAnUsp y | moveUspAn y =>
    exact decodeWord_encode_row rfl ryRow_encodes y rfl h
  | bkpt v => exact decodeWord_encode_row rfl bkptRow_encodes v rfl h
  | movemToMem sz ea | movemToRegs sz ea => exact decodeWord_encode_row rfl movemRow_encodes (sz, ea) rfl h
  | trap v => exact decodeWord_encode_row rfl trapRow_encodes v rfl h
  | addq q sz ea | subq q sz ea => exact decodeWord_encode_row rfl quickRow_encodes (q, sz, ea) rfl h
  | dbcc c dn => exact decodeWord_encode_row rfl dbccRow_encodes (c, dn) rfl h
  | scc c ea => exact decodeWord_encode_row rfl sccRow_encodes (c, ea) rfl h
  | bra d8 | bsr d8 => exact decodeWord_encode_row rfl dispRow_encodes d8 rfl h
  | bcc c d8 => exact decodeWord_encode_row rfl bccRow_encodes (c, d8) rfl h
  | moveq dn d8 => exact decodeWord_encode_row rfl moveqRow_encodes (dn, d8) rfl h
  | orEaDn dn sz ea | orDnEa dn sz ea | subEaDn dn sz ea | subDnEa dn sz ea | cmp dn sz ea | eor dn sz ea
  | andEaDn dn sz ea | andDnEa dn sz ea | addEaDn dn sz ea | addDnEa dn sz ea =>
    exact decodeWord_encode_row rfl regSizeEaRow_encodes (dn, sz, ea) rfl h
  | sbcd x form y | abcd x form y => exact decodeWord_encode_row rfl rmRow_encodes (x, form, y) rfl h
  | suba an sz ea | cmpa an sz ea | adda an sz ea => exact decodeWord_encode_row rfl addrRow_encodes (an, sz, ea) rfl h
  | subx x sz form y | addx x sz form y => exact decodeWord_encode_row rfl extendRow_encodes (x, sz, form, y) rfl h
  | lineA low | lineF low => exact decodeWord_encode_row rfl emulatorRow_encodes low rfl h
  | cmpm x sz y => exact decodeWord_encode_row rfl cmpmRow_encodes (x, sz, y) rfl h
  | exgDxDy x y | exgAxAy x y | exgDxAy x y => exact decodeWord_encode_row rfl rxRyRow_encodes (x, y) rfl h
  | asrReg k sz g y | aslReg k sz g y | lsrReg k sz g y | lslReg k sz g y | roxrReg k sz g y | roxlReg k sz g y
  | rorReg k sz g y | rolReg k sz g y => exact decodeWord_encode_row rfl shiftRow_encodes (k, sz, g, y) rfl h

theorem wordOfBytes_bytesOfWord (w : Word) : wordOfBytes (w.extractLsb' 8 8) (w.setWidth 8) = w := by
  rw [wordOfBytes, BitVec.setWidth_eq_extractLsb' (by decide),
    BitVec.extractLsb'_append_extractLsb'_eq_extractLsb' (start₂ := 8) (start₁ := 0) rfl]
  exact BitVec.extractLsb'_eq_self

/-- Settles O2: the row of the instruction takes its encoding, and no other row of the line does. -/
theorem decodeOfEncode : Obligations.DecodeOfEncode := by
  unfold Obligations.DecodeOfEncode
  intro i rest hi
  simp only [bytesOfWord, List.cons_append, List.nil_append, decode, wordOfBytes_bytesOfWord, decodeWord_encode i hi]

/-- Settles O1, by evaluation. -/
theorem decodedWords : Obligations.DecodedWords := by
  unfold Obligations.DecodedWords
  decide

end Sys2Proof
end

section
/-! PROOFS. Illegal instructions (30_encoding.md R112), and the immediate, quick and address forms of the arithmetic and
logical families (R107): each reads its operands through the shared bodies, whose laws say when they complete. -/

namespace Sys2Proof.Machine

/-- What starts with the check of the variant is illegal on M68000 and M68008, whatever follows (30_encoding.md R112). -/
theorem run_onM68010 {f : Unit → M Unit} {s : State} (hv : s.cfg.variant ≠ .m68010) (he : s.entryReady 4 = true) :
    run (onM68010 >>= f) s = .next (s.entry 4 (s.pc - 2) none) := by
  have hx : (onM68010 >>= f) s = .error (.exception 4 s.ipc) s := by simp [onM68010, hv]
  rw [run_exception hx, takeException_ok he, State.ipc]

theorem run_raiseAtIpc {s : State} {v : Byte} (he : s.entryReady v = true) :
    run (raiseAtIpc v) s = .next (s.entry v (s.pc - 2) none) := by
  have hx : raiseAtIpc v s = .error (.exception v s.ipc) s := rfl
  rw [run_exception hx, takeException_ok he, State.ipc]

/-- Settles O46: the check of the variant comes first, and BKPT raises the same exception on every variant. -/
theorem m68010OnlyIsIllegal : Obligations.M68010OnlyIsIllegal := by
  unfold Obligations.M68010OnlyIsIllegal
  intro i s hi hv he
  cases i with
  | moves sz ea | moveFromCcr ea | rtd | movecRcRn | movecRnRc => exact run_onM68010 hv he
  | bkpt v => exact run_raiseAtIpc he
  | _ => cases hi

/-! The step of an instruction. -/

theorem step_of_runsNext {s : State} (h : s.runsNext = true) :
    step s = executeInstruction s.resetFetch s.sampleLine.beginStep := by
  simp only [State.runsNext, Bool.and_eq_true, Option.isNone_iff_eq_none, beq_iff_eq, Bool.not_eq_true'] at h
  obtain ⟨⟨⟨⟨⟨hf, hm⟩, hb⟩, hr⟩, ht⟩, hi⟩ := h
  simp only [step, boundaryStep, activeStep, hf, hm, hb, hr, ht, hi]

/-- The word that an instruction step fetches is the one at the PC once what changed outside the core is in memory. -/
theorem fetch16_latchTrace {s : State} (h : s.wordReady s.pc = true) :
    fetch16 s.sampleLine.beginStep.latchTrace =
      .ok (s.beginStep.streamWord 0) s.sampleLine.beginStep.latchTrace.skipWord := by
  have hready : s.sampleLine.beginStep.latchTrace.wordReady s.sampleLine.beginStep.latchTrace.pc = true := by
    simpa [State.wordReady, State.staleWord, State.staleByte, State.inWindow] using h
  have hword : s.sampleLine.beginStep.latchTrace.streamWord 0 = s.beginStep.streamWord 0 := by
    have hfc : s.sampleLine.beginStep.latchTrace.progFc = s.beginStep.progFc := by
      unfold State.progFc
      rw [State.latchTrace_sBit, State.beginStep_sBit, State.beginStep_sBit, State.sampleLine_sBit]
    simp only [State.streamWord, State.skip, hfc]
    rw [State.loaded_congr (t := s.beginStep) (by simp) (by simp) (by simp)]
    simp
  rw [fetch16_ok hready, hword]

/-- An instruction step runs the word at the PC (70_reset_and_hazards.md R465). -/
theorem step_eq_runOpcode {s : State} (h : s.runsNext = true) (hw : s.wordReady s.pc = true) :
    step s = runOpcode (s.beginStep.streamWord 0) (s.atMeaning (s.beginStep.streamWord 0)) := by
  rw [step_of_runsNext h, executeInstruction, fetch16_latchTrace hw]
  rfl

/-- Settles O5: the step runs a word that decodes to nothing, past which the PC stands. -/
theorem undecodedWordIsIllegal : Obligations.UndecodedWordIsIllegal := by
  unfold Obligations.UndecodedWordIsIllegal
  intro s hs hw w hd he
  have hpc : (s.atMeaning w).ipc = s.pc := by simp [State.ipc, State.atMeaning]
  rw [step_eq_runOpcode hs hw, runOpcode, hd]
  show takeException 4 (s.atMeaning w).ipc none (s.atMeaning w) = _
  rw [takeException_ok he, hpc]

/-! Immediates, and the quick and address forms. -/

theorem run_immEaBody {f : AluOp} {sz : Size} {ea : Ea} {s : State} (hc : EaClass.dataAlterable.admits sz ea = true)
    (himm : s.streamReady (immWords sz) = true) (hea : (s.skip (immWords sz)).eaReady ea sz = true) :
    run (immEaBody f sz ea) s = .next ((s.skip (immWords sz)).modified (f sz (s.immValue sz)) sz ea) :=
  run_ok (immEaBody_iff.mpr ⟨himm, hea, State.writable_eaDesc _ ea sz sz hc, rfl⟩)

/-- Settles O20: five are one body, and CMPI reads its operand after the immediate's words and writes the flags. -/
theorem immediateResult : Obligations.ImmediateResult := by
  unfold Obligations.ImmediateResult
  intro sz ea s hc himm hea
  refine ⟨run_immEaBody hc himm hea, run_immEaBody hc himm hea, run_immEaBody hc himm hea, run_immEaBody hc himm hea,
    run_immEaBody hc himm hea, run_ok ?_⟩
  rw [immediate_bind_iff, readEa_bind_iff]
  refine ⟨himm, hea, ?_⟩
  simp

theorem run_modifyEa {f : Long → Ccr → Alu} {sz : Size} {ea : Ea} {s : State}
    (hc : EaClass.dataAlterable.admits sz ea = true) (hea : s.eaReady ea sz = true) :
    run (modifyEa f sz ea) s = .next (s.modified f sz ea) :=
  run_ok (modifyEa_iff.mpr ⟨hea, State.writable_eaDesc _ ea sz sz hc, rfl⟩)

theorem run_readEa_upd {ea : Ea} {sz : Size} {g : Long → State → State} {s : State} (hea : s.eaReady ea sz = true) :
    run (readEa ea sz >>= fun v => upd (g v)) s = .next (g (s.eaValue ea sz) (s.afterReadEa ea sz)) :=
  run_ok (readEa_bind_iff.mpr ⟨hea, rfl⟩)

/-- A quick field of 0 stands for 8 (30_encoding.md R107). -/
theorem quickLong_eq (q : BitVec 3) : quickLong q = if q = 0 then 8 else q.setWidth 32 := by
  revert q
  decide

/-- Settles O21: the address forms read one operand and write one register or the flags; the quick forms of an address
register have no operand to resolve. -/
theorem addressAndQuickResult : Obligations.AddressAndQuickResult := by
  unfold Obligations.AddressAndQuickResult
  intro n q sz ea s
  have hflags : (s.afterReadEa ea sz).ccr = s.ccr := State.afterReadEa_ccr s ea sz
  refine ⟨fun hea => ⟨run_readEa_upd hea, run_readEa_upd hea, hflags ▸ run_readEa_upd hea⟩, ?_⟩
  simp only [← quickLong_eq]
  refine ⟨rfl, rfl, fun hc hea => ?_⟩
  cases ea with
  | an m => simp [EaClass.admits, EaClass.modes, Ea.mode] at hc
  | _ => exact ⟨run_modifyEa hc hea, run_modifyEa hc hea⟩

end Sys2Proof.Machine
end

section
/-! PROOFS. The operand forms: an operand and a data register (43_integer_arithmetic.md R230, 44_logical.md R270), the
extended forms and CMPM (R235, R240, R244), and MOVE (42_data_movement.md R201, R202). -/

namespace Sys2Proof.Machine

/-! An operand and a data register. -/

theorem run_eaDnBody {f : AluOp} {dn : Fin 8} {sz : Size} {ea : Ea} {s : State} (hea : s.eaReady ea sz = true) :
    run (eaDnBody f dn sz ea) s =
      .next ((s.afterReadEa ea sz).putD dn sz (f sz (s.eaValue ea sz) (low sz s.d[dn]) s.ccr)) :=
  run_ok (eaDnBody_iff.mpr ⟨hea, rfl⟩)

/-- Settles O18: four are one body; CMP reads Dn and the flags after its operand, which leaves both as they were. -/
theorem eaToRegisterResult : Obligations.EaToRegisterResult := by
  unfold Obligations.EaToRegisterResult
  intro dn sz ea s hea
  refine ⟨run_eaDnBody hea, run_eaDnBody hea, run_eaDnBody hea, run_eaDnBody hea, (run_readEa_upd hea).trans ?_⟩
  simp only [State.afterReadEa_d, State.afterReadEa_ccr]

theorem run_dnEaBody {f : AluOp} {dn : Fin 8} {sz : Size} {ea : Ea} {s : State}
    (hc : EaClass.dataAlterable.admits sz ea = true) (hea : s.eaReady ea sz = true) :
    run (dnEaBody f dn sz ea) s = .next (s.modified (f sz (low sz s.d[dn])) sz ea) :=
  run_ok (dnEaBody_iff.mpr ⟨hea, State.writable_eaDesc s ea sz sz hc, rfl⟩)

/-- Settles O19: all five are one body, and an alterable operand in memory is a data alterable one. -/
theorem registerToEaResult : Obligations.RegisterToEaResult := by
  unfold Obligations.RegisterToEaResult
  intro dn sz ea s hea
  refine ⟨fun hm => ?_, fun hc => run_dnEaBody hc hea⟩
  have hc : EaClass.dataAlterable.admits sz ea = true := dataAlterable_of_memoryAlterable hm
  exact ⟨run_dnEaBody hc hea, run_dnEaBody hc hea, run_dnEaBody hc hea, run_dnEaBody hc hea⟩

/-! The extended forms and CMPM. -/

theorem State.afterPost_get (s : State) (n : Fin 8) (sz : Size) :
    (s.afterPost n sz).a[n] = s.a[n] + stepSize n sz := by
  simp [State.afterPost]

/-- The memory form stores at Ax as the second predecrement has left it (R235, R240). -/
theorem run_extendBody_mem {f : AluOp} {x y : Fin 8} {sz : Size} {s : State} (h : s.predPairReady x y sz = true) :
    let u := (s.afterPred y sz).afterPred x sz
    let o := f sz (s.predValue y sz) ((s.afterPred y sz).predValue x sz) s.ccr
    run (extendBody f x sz .mem y) s = .next ((u.store sz u.dataFc u.a[x] o.r).setCcr o.ccr) := by
  intro u o
  have hx : u.a[x] = (s.afterPred y sz).predAddress x sz := State.afterPred_get (s.afterPred y sz) x sz
  rw [hx]
  exact run_ok (extendBody_mem_iff.mpr ⟨h, rfl⟩)

/-- Settles O22: each form of ADDX and SUBX is one body; CMPM reads two postincremented operands, neither of which
changes the flags it keeps. -/
theorem extendedResult : Obligations.ExtendedResult := by
  unfold Obligations.ExtendedResult
  intro x y sz s
  refine ⟨⟨rfl, State.afterPred_get s y sz, State.afterPost_get s y sz⟩, run_ok extendBody_reg, run_ok extendBody_reg,
    fun h => ⟨run_extendBody_mem h, run_extendBody_mem h⟩, fun hy hx => run_ok ?_⟩
  rw [readPost_bind_iff, readPost_bind_iff]
  exact ⟨hy, hx, rfl⟩

/-! MOVE and MOVEA. -/

/-- A value of a size, zero-extended, has no bits above the size. -/
theorem low_setWidth (sz : Size) (v : BitVec sz.bits) : low sz (v.setWidth 32) = v.setWidth 32 := by
  apply BitVec.eq_of_toNat_eq
  rw [low_toNat, BitVec.toNat_setWidth]
  exact Nat.mod_eq_of_lt ((Nat.mod_le _ _).trans_lt v.isLt)

theorem State.low_peek (s : State) (sz : Size) (fc : BitVec 3) (a : Long) :
    low sz (s.peek sz fc a) = s.peek sz fc a := by
  cases sz with
  | b => exact low_setWidth .b (s.peekByte fc a)
  | w => exact low_setWidth .w (s.peekWord fc a)
  | l => exact low_long (s.peekLong fc a)

/-- What a read answers fits its size: the collaborator's answer is cut to it (20_memory.md R77; log 5). -/
theorem State.low_loaded (s : State) (sz : Size) (fc : BitVec 3) (a : Long) :
    low sz (s.loaded sz fc a) = s.loaded sz fc a := by
  unfold State.loaded Reaction.value
  split
  · exact low_low sz _
  · exact State.low_peek s sz fc a

theorem State.low_immValue (s : State) (sz : Size) : low sz (s.immValue sz) = s.immValue sz := by
  cases sz with
  | b => exact low_setWidth .b (wordLowByte (s.streamWord 0))
  | w => exact low_setWidth .w (s.streamWord 0)
  | l => exact low_long (s.streamLong 0)

/-- The value of an operand fits its size, wherever it is read from (40_ea_resolver.md R155). -/
theorem State.low_eaValue (s : State) (ea : Ea) (sz : Size) : low sz (s.eaValue ea sz) = s.eaValue ea sz := by
  cases ea with
  | dn n | an n => exact low_low sz _
  | imm => exact State.low_immValue s sz
  | _ => exact State.low_loaded _ sz _ _

/-- N and Z of a value that fits its size, read off the whole value (41_flag_model.md R176). -/
theorem nz00_of_low {sz : Size} {v : Long} (f : Ccr) (h : low sz v = v) :
    nz00 sz v f = ⟨f.x, v.getLsbD (sz.bits - 1), decide (v = 0), false, false⟩ := by
  rw [nz00, isZero_eq, h, msb]

/-- MOVE resolves its destination in the state that reading the source leaves (R201). -/
theorem run_moveBody {sz : Size} {src dst : Ea} {s : State} (hs : s.eaReady src sz = true)
    (hc : EaClass.dataAlterable.admits sz dst = true) (hd : (s.afterReadEa src sz).eaReady dst sz = true) :
    let t := s.afterReadEa src sz
    let v := s.eaValue src sz
    run (moveBody sz src dst) s = .next (((t.afterEa dst sz).afterWrite (t.eaDesc dst sz) sz v).setCcr
      ⟨s.ccr.x, v.getLsbD (sz.bits - 1), decide (v = 0), false, false⟩) := by
  rw [State.eaReady, Bool.and_eq_true] at hd
  obtain ⟨hwords, haligned⟩ := hd
  apply run_ok
  rw [moveBody, readEa_bind_iff, resolve_bind_iff, eaWrite_bind_iff]
  refine ⟨hs, hwords, State.writable_eaDesc _ dst sz sz hc, haligned, ?_⟩
  rw [M.upd_apply, State.afterWrite_ccr, State.afterEa_ccr, State.afterReadEa_ccr,
    nz00_of_low s.ccr (State.low_eaValue s src sz)]

/-- Settles O30: the three sizes are one body, and MOVEA reads an operand and writes An, a word sign-extended. -/
theorem moveResult : Obligations.MoveResult := by
  unfold Obligations.MoveResult
  intro an src dst s
  refine ⟨fun sz => ⟨rfl, rfl, rfl, rfl⟩, fun sz hs hc hd => ?_, fun hs => run_readEa_upd hs,
    fun hs => run_readEa_upd hs⟩
  refine ⟨?_, ?_, ?_⟩ <;> (rintro rfl; exact run_moveBody hs hc hd)

end Sys2Proof.Machine
end
section
/-! PROOFS. The flags of the addition, the subtraction, the compare and the logical operations in integers. The carry and
overflow formulas of R173 and R174 speak of top bits; a top bit is a comparison with half of `2^w`, so each formula is a
linear statement about the operands and the one multiple of `2^w` that the result leaves out. -/

namespace Sys2Proof.Machine

section
variable {sz : Size} {src dst v : Long}

/-! Values that fit their size. -/

theorem two_pow_eq_cast (n : Nat) : (2 : Int) ^ n = (2 ^ n : Nat) := by push_cast; rfl

theorem two_pow_bits (sz : Size) : 2 ^ sz.bits = 2 * 2 ^ (sz.bits - 1) := by cases sz <;> rfl

theorem toNat_lt_of_low (h : low sz v = v) : v.toNat < 2 ^ sz.bits := by
  rw [← h, low_toNat]
  exact Nat.mod_lt _ (Nat.two_pow_pos _)

theorem msb_of_low (h : low sz v = v) : msb sz v = decide (2 ^ (sz.bits - 1) ≤ v.toNat) := by rw [msb_eq, h]

/-- The signed value of an operand, half of `2^w` and the top bit in one integer form. -/
theorem signedVal_of_low (h : low sz v = v) :
    signedVal sz v = if 2 ^ (sz.bits - 1) ≤ v.toNat then (v.toNat : Int) - 2 * 2 ^ (sz.bits - 1) else v.toNat := by
  have hpow : (2 : Int) ^ sz.bits = 2 * 2 ^ (sz.bits - 1) := mod_cast two_pow_bits sz
  simp only [signedVal_eq, msb_of_low h, h, hpow, decide_eq_true_eq]

theorem isZero_of_low (h : low sz v = v) : isZero sz v = decide (v = 0) := by rw [isZero_eq, h]

theorem toNat_zeroLong : (0 : Long).toNat = 0 := rfl

theorem bitValue_toNat (b : Bool) : (bitValue b).toNat = b.toNat := by cases b <;> rfl

/-- Two operands of one size, and a carry or borrow beside them. -/
theorem operand_bounds (hs : low sz src = src) (hd : low sz dst = dst) (b : Bool) :
    src.toNat < 2 ^ sz.bits ∧ dst.toNat < 2 ^ sz.bits ∧ b.toNat ≤ 1 :=
  ⟨toNat_lt_of_low hs, toNat_lt_of_low hd, b.toNat_le⟩

/-! Results. -/

theorem low_addResult (sz : Size) (src dst : Long) (cin : Bool) :
    low sz (addResult sz src dst cin) = addResult sz src dst cin := low_low ..

theorem low_subResult (sz : Size) (src dst : Long) (bin : Bool) :
    low sz (subResult sz src dst bin) = subResult sz src dst bin := low_low ..

theorem addResult_toNat (sz : Size) (src dst : Long) (cin : Bool) :
    (addResult sz src dst cin).toNat = (dst.toNat + src.toNat + cin.toNat) % 2 ^ sz.bits := by
  have hdvd : 2 ^ sz.bits ∣ 2 ^ 32 := Nat.pow_dvd_pow 2 sz.bits_le
  rw [addResult, low_toNat, BitVec.toNat_add, BitVec.toNat_add, bitValue_toNat, Nat.mod_add_mod,
    Nat.mod_mod_of_dvd _ hdvd]

theorem subResult_toNat (hs : low sz src = src) (bin : Bool) :
    (subResult sz src dst bin).toNat = (2 ^ sz.bits + dst.toNat - src.toNat - bin.toNat) % 2 ^ sz.bits := by
  have hlt := toNat_lt_of_low hs
  have hb := bin.toNat_le
  rw [subResult, low_toNat, BitVec.toNat_sub, BitVec.toNat_sub, bitValue_toNat]
  cases sz <;> simp only [Size.bits] at hlt ⊢ <;> omega

/-- A sum of two operands and a carry leaves out `2^w` at most once. -/
theorem addResult_cases (hs : low sz src = src) (hd : low sz dst = dst) (cin : Bool) :
    (addResult sz src dst cin).toNat < 2 ^ sz.bits ∧
      ((addResult sz src dst cin).toNat = dst.toNat + src.toNat + cin.toNat ∨
        (addResult sz src dst cin).toNat + 2 ^ sz.bits = dst.toNat + src.toNat + cin.toNat) := by
  have hbounds := operand_bounds hs hd cin
  rw [addResult_toNat]
  refine ⟨Nat.mod_lt _ (Nat.two_pow_pos _), ?_⟩
  rcases Nat.lt_or_ge (dst.toNat + src.toNat + cin.toNat) (2 ^ sz.bits) with h | h
  · exact .inl (Nat.mod_eq_of_lt h)
  · rw [Nat.mod_eq_sub_mod h, Nat.mod_eq_of_lt (by omega)]
    omega

/-- A difference of two operands and a borrow takes in `2^w` at most once. -/
theorem subResult_cases (hs : low sz src = src) (hd : low sz dst = dst) (bin : Bool) :
    (subResult sz src dst bin).toNat < 2 ^ sz.bits ∧
      ((subResult sz src dst bin).toNat + src.toNat + bin.toNat = dst.toNat ∨
        (subResult sz src dst bin).toNat + src.toNat + bin.toNat = dst.toNat + 2 ^ sz.bits) := by
  have hbounds := operand_bounds hs hd bin
  rw [subResult_toNat hs]
  refine ⟨Nat.mod_lt _ (Nat.two_pow_pos _), ?_⟩
  rcases Nat.lt_or_ge (2 ^ sz.bits + dst.toNat - src.toNat - bin.toNat) (2 ^ sz.bits) with h | h
  · rw [Nat.mod_eq_of_lt h]
    omega
  · rw [Nat.mod_eq_sub_mod h, Nat.mod_eq_of_lt (by omega)]
    omega

/-! The formulas of R173. -/

theorem addCarry_eq (hs : low sz src = src) (hd : low sz dst = dst) (cin : Bool) :
    addCarry sz src dst (addResult sz src dst cin) = decide (2 ^ sz.bits ≤ dst.toNat + src.toNat + cin.toNat) := by
  have hcases := addResult_cases hs hd cin
  have hbounds := operand_bounds hs hd cin
  rw [addCarry, msb_of_low hs, msb_of_low hd, msb_of_low (low_addResult ..), Bool.eq_iff_iff]
  simp only [two_pow_bits, Bool.or_eq_true, Bool.and_eq_true, Bool.not_eq_true', decide_eq_true_eq,
    decide_eq_false_iff_not] at *
  omega

theorem addOverflow_eq (hs : low sz src = src) (hd : low sz dst = dst) (cin : Bool) :
    addOverflow sz src dst (addResult sz src dst cin) =
      decide (signedVal sz dst + signedVal sz src + cin.toNat < -2 ^ (sz.bits - 1) ∨
        2 ^ (sz.bits - 1) ≤ signedVal sz dst + signedVal sz src + cin.toNat) := by
  have hcases := addResult_cases hs hd cin
  have hbounds := operand_bounds hs hd cin
  rw [addOverflow, msb_of_low hs, msb_of_low hd, msb_of_low (low_addResult ..), signedVal_of_low hs, signedVal_of_low hd,
    Bool.eq_iff_iff, two_pow_eq_cast]
  simp only [two_pow_bits, Bool.or_eq_true, Bool.and_eq_true, Bool.not_eq_true', decide_eq_true_eq,
    decide_eq_false_iff_not] at *
  split <;> split <;> omega

/-! The formulas of R174. -/

theorem subCarry_eq (hs : low sz src = src) (hd : low sz dst = dst) (bin : Bool) :
    subCarry sz src dst (subResult sz src dst bin) = decide (dst.toNat < src.toNat + bin.toNat) := by
  have hcases := subResult_cases hs hd bin
  have hbounds := operand_bounds hs hd bin
  rw [subCarry, msb_of_low hs, msb_of_low hd, msb_of_low (low_subResult ..), Bool.eq_iff_iff]
  simp only [two_pow_bits, Bool.or_eq_true, Bool.and_eq_true, Bool.not_eq_true', decide_eq_true_eq,
    decide_eq_false_iff_not] at *
  omega

theorem subOverflow_eq (hs : low sz src = src) (hd : low sz dst = dst) (bin : Bool) :
    subOverflow sz src dst (subResult sz src dst bin) =
      decide (signedVal sz dst - signedVal sz src - bin.toNat < -2 ^ (sz.bits - 1) ∨
        2 ^ (sz.bits - 1) ≤ signedVal sz dst - signedVal sz src - bin.toNat) := by
  have hcases := subResult_cases hs hd bin
  have hbounds := operand_bounds hs hd bin
  rw [subOverflow, msb_of_low hs, msb_of_low hd, msb_of_low (low_subResult ..), signedVal_of_low hs, signedVal_of_low hd,
    Bool.eq_iff_iff, two_pow_eq_cast]
  simp only [two_pow_bits, Bool.or_eq_true, Bool.and_eq_true, Bool.not_eq_true', decide_eq_true_eq,
    decide_eq_false_iff_not] at *
  split <;> split <;> omega

/-! N, Z, V and C of a compare, each as what it says of the operands. -/

theorem cmpFlags_c (hs : low sz src = src) (hd : low sz dst = dst) (f : Ccr) :
    (cmpFlags sz src dst f).c = decide (dst.toNat < src.toNat) := subCarry_eq hs hd false

theorem cmpFlags_v (hs : low sz src = src) (hd : low sz dst = dst) (f : Ccr) :
    (cmpFlags sz src dst f).v = decide (signedVal sz dst - signedVal sz src < -2 ^ (sz.bits - 1) ∨
      2 ^ (sz.bits - 1) ≤ signedVal sz dst - signedVal sz src) := by
  simpa [cmpFlags] using subOverflow_eq hs hd false

theorem cmpFlags_n (hs : low sz src = src) (f : Ccr) :
    (cmpFlags sz src dst f).n =
      decide (2 ^ (sz.bits - 1) ≤ (2 ^ sz.bits + dst.toNat - src.toNat) % 2 ^ sz.bits) := by
  simpa [cmpFlags, subResult_toNat hs] using msb_of_low (low_subResult sz src dst false)

theorem cmpFlags_z (hs : low sz src = src) (hd : low sz dst = dst) (f : Ccr) :
    (cmpFlags sz src dst f).z = decide (dst = src) := by
  have hz : (cmpFlags sz src dst f).z = decide (subResult sz src dst false = 0) := isZero_of_low (low_subResult ..)
  obtain ⟨hrlt, hcases⟩ := subResult_cases hs hd false
  have hbounds := operand_bounds hs hd false
  rw [hz, decide_eq_decide, ← BitVec.toNat_inj, ← BitVec.toNat_inj, toNat_zeroLong]
  rw [Bool.toNat_false] at hcases
  omega

/-- N and V disagree exactly when the signed difference is negative. -/
theorem cmpFlags_n_bne_v (hs : low sz src = src) (hd : low sz dst = dst) (f : Ccr) :
    ((cmpFlags sz src dst f).n != (cmpFlags sz src dst f).v) = decide (signedVal sz dst < signedVal sz src) := by
  have hn : (cmpFlags sz src dst f).n = decide (2 ^ (sz.bits - 1) ≤ (subResult sz src dst false).toNat) :=
    msb_of_low (low_subResult ..)
  obtain ⟨hrlt, hcases⟩ := subResult_cases hs hd false
  have hbounds := operand_bounds hs hd false
  rw [hn, cmpFlags_v hs hd, signedVal_of_low hs, signedVal_of_low hd, two_pow_eq_cast, Bool.eq_iff_iff]
  simp only [two_pow_bits, Bool.toNat_false, bne_iff_ne, ne_eq, decide_eq_decide, decide_eq_true_eq] at *
  split <;> split <;> omega

theorem cmpFlags_n_beq_v (hs : low sz src = src) (hd : low sz dst = dst) (f : Ccr) :
    ((cmpFlags sz src dst f).n == (cmpFlags sz src dst f).v) = decide (signedVal sz src ≤ signedVal sz dst) := by
  rw [← Bool.not_not (_ == _), ← bne, cmpFlags_n_bne_v hs hd, ← decide_not, decide_eq_decide, Int.not_lt]

/-- Operands that fit their size are equal exactly when their signed values are. -/
theorem signedVal_inj (hs : low sz src = src) (hd : low sz dst = dst) :
    signedVal sz dst = signedVal sz src ↔ dst = src := by
  refine ⟨fun h => BitVec.eq_of_toNat_eq ?_, fun h => h ▸ rfl⟩
  have hbounds := operand_bounds hs hd false
  rw [two_pow_bits] at hbounds
  rw [signedVal_of_low hs, signedVal_of_low hd, two_pow_eq_cast] at h
  split at h <;> split at h <;> omega

/-! NEG: the subtraction of an operand from 0. -/

theorem low_zero (sz : Size) : low sz 0 = 0 := by cases sz <;> rfl

theorem signedVal_zero (sz : Size) : signedVal sz 0 = 0 := by cases sz <;> rfl

theorem aluNeg_c (hd : low sz dst = dst) (f : Ccr) : (aluNeg sz dst f).ccr.c = decide (dst ≠ 0) := by
  rw [aluNeg, aluSub, subCarry_eq hd (low_zero sz), decide_eq_decide, Ne, ← BitVec.toNat_inj, toNat_zeroLong,
    Bool.toNat_false]
  omega

theorem aluNeg_v (hd : low sz dst = dst) (f : Ccr) :
    (aluNeg sz dst f).ccr.v = decide (dst.toNat = 2 ^ (sz.bits - 1)) := by
  have hlt := toNat_lt_of_low hd
  rw [aluNeg, aluSub, subOverflow_eq hd (low_zero sz), decide_eq_decide, signedVal_zero, signedVal_of_low hd,
    two_pow_eq_cast, Bool.toNat_false]
  rw [two_pow_bits] at hlt
  split <;> omega

end

/-! The logical results. -/

/-- N and Z of a value, read off its low bits (R176). -/
theorem nz00_eq (sz : Size) (v : Long) (f : Ccr) :
    nz00 sz v f = ⟨f.x, (low sz v).getLsbD (sz.bits - 1), decide (low sz v = 0), false, false⟩ := by
  have hbit : msb sz v = (low sz v).getLsbD (sz.bits - 1) := by simp [low_getLsbD, msb, sz.bits_pos]
  rw [nz00, isZero_eq, hbit]

/-- Settles O9: ADDX with its carry and its Z, and ADD, are one addition. -/
theorem additionFlags : Obligations.AdditionFlags := by
  unfold Obligations.AdditionFlags
  rintro sz src dst f hs hd o cin zin (⟨rfl, rfl, rfl⟩ | ⟨rfl, rfl, rfl⟩)
  · exact ⟨addResult_toNat .., addCarry_eq hs hd _, addOverflow_eq hs hd _, rfl, msb_of_low (low_addResult ..),
      congrArg (f.z && ·) (isZero_of_low (low_addResult ..))⟩
  · exact ⟨addResult_toNat .., addCarry_eq hs hd _, addOverflow_eq hs hd _, rfl, msb_of_low (low_addResult ..),
      isZero_of_low (low_addResult ..)⟩

/-- Settles O10: the flags of SUB are those of a compare but X, and NEG takes its operand from 0. -/
theorem subtractionFlags : Obligations.SubtractionFlags := by
  unfold Obligations.SubtractionFlags
  intro sz src dst f hs hd
  refine ⟨⟨subResult_toNat hs _, subCarry_eq hs hd _, subOverflow_eq hs hd _, rfl, msb_of_low (low_subResult ..),
    congrArg (f.z && ·) (isZero_of_low (low_subResult ..))⟩, ⟨?_, cmpFlags_c hs hd f, cmpFlags_v hs hd f, rfl,
    msb_of_low (low_subResult ..), cmpFlags_z hs hd f, rfl⟩, rfl, rfl, aluNeg_c hd f, aluNeg_v hd f⟩
  exact subResult_toNat hs false

/-- Settles O11: N and Z of a logical operation are read off the value before it is cut to its size. -/
theorem logicalFlags : Obligations.LogicalFlags := by
  unfold Obligations.LogicalFlags
  intro sz src dst f k hk
  refine ⟨?_, ?_⟩
  · simp only [aluAnd, aluOr, aluEor, aluNot, low_getLsbD, BitVec.getLsbD_and, BitVec.getLsbD_or, BitVec.getLsbD_xor,
      BitVec.getLsbD_not, hk, decide_true, Bool.true_and, and_self]
  · simp only [List.forall_mem_cons, List.not_mem_nil, false_implies, implies_true, and_true]
    exact ⟨nz00_eq .., nz00_eq .., nz00_eq .., nz00_eq ..⟩

/-- Settles O17: each condition is a test of flags that are comparisons already. -/
theorem conditionsAfterCompare : Obligations.ConditionsAfterCompare := by
  unfold Obligations.ConditionsAfterCompare
  intro sz src dst f hs hd
  have hinj := signedVal_inj hs hd
  simp only [condHolds, cmpFlags_n_beq_v hs hd, cmpFlags_n_bne_v hs hd]
  simp only [cmpFlags_c hs hd, cmpFlags_z hs hd, cmpFlags_v hs hd, cmpFlags_n hs, ← decide_not,
    ← Bool.decide_and, ← Bool.decide_or, ← BitVec.toNat_inj, ne_eq, not_or, not_lt, not_le, decide_eq_decide,
    true_and, and_true] at hinj ⊢
  omega

end Sys2Proof.Machine
end
section
/-! PROOFS. Which flags an instruction that completes leaves alone: one closure proof per operation, shared body and
instruction. What a computation may do to the flags depends on the row of the flag table (R179), so the relations of
`UserFrame`, closed under every write of the flags, cannot say it; an operation that leaves the flags alone keeps those of
every row, and what is left of each instruction is the one value it writes to them. -/

namespace Sys2Proof.Machine

/-- A computation that completes changes no flag but those of a row of the flag table. -/
structure KeepsFlags (u : FlagUse) {α : Type} (m : M α) : Prop where
  kept : ∀ {s a t}, m s = .ok a t → u.kept s.ccr t.ccr

section
variable {u : FlagUse} {α β : Type}

theorem FlagUse.kept_refl (u : FlagUse) (f : Ccr) : u.kept f f := by
  cases u with
  | none => rfl
  | zero => exact ⟨rfl, rfl, rfl, rfl⟩
  | nzvc => rfl
  | all => trivial

theorem FlagUse.kept_trans {f g h : Ccr} (hfg : u.kept f g) (hgh : u.kept g h) : u.kept f h := by
  cases u with
  | none | nzvc => exact Eq.trans hgh hfg
  | zero =>
    obtain ⟨hx, hn, hv, hc⟩ := hfg
    obtain ⟨hx', hn', hv', hc'⟩ := hgh
    exact ⟨hx'.trans hx, hn'.trans hn, hv'.trans hv, hc'.trans hc⟩
  | all => trivial

/-! The monad and the elementary operations. -/

/-- A computation that leaves the flags alone keeps those of every row. -/
theorem KeepsFlags.of_ccr_eq {m : M α} (h : ∀ {s a t}, m s = .ok a t → t.ccr = s.ccr) : KeepsFlags u m :=
  ⟨fun hm => h hm ▸ FlagUse.kept_refl u _⟩

/-- Where the row has all five flags there is nothing to keep. -/
theorem keepsFlags_all (m : M α) : KeepsFlags .all m := ⟨fun _ => trivial⟩

theorem KeepsFlags.bind {m : M α} {f : α → M β} (hm : KeepsFlags u m) (hf : ∀ a, KeepsFlags u (f a)) :
    KeepsFlags u (m >>= f) := by
  refine ⟨fun h => ?_⟩
  obtain ⟨a, t, h1, h2⟩ := M.of_bind_ok h
  exact FlagUse.kept_trans (hm.kept h1) ((hf a).kept h2)

theorem keepsFlags_pure (a : α) : KeepsFlags u (pure a : M α) := .of_ccr_eq fun h => by cases h; rfl

theorem keepsFlags_look (f : State → α) : KeepsFlags u (look f) := .of_ccr_eq fun h => by cases h; rfl

theorem keepsFlags_stop (e : Exit) : KeepsFlags u (stop e : M α) := ⟨nofun⟩

theorem keepsFlags_require (p : State → Bool) (e : State → Exit) : KeepsFlags u (require p e) := by
  refine .of_ccr_eq fun h => ?_
  rw [M.require_apply] at h
  split at h <;> cases h
  rfl

/-- A change of the state that is not one of the flags. -/
theorem keepsFlags_upd {g : State → State} (hg : ∀ s, (g s).ccr = s.ccr := by exact fun _ => rfl) :
    KeepsFlags u (upd g) := .of_ccr_eq fun h => by cases h; exact hg _

/-- A change of the state that writes the flags of the row. -/
theorem keepsFlags_updCcr {g : State → State} (hg : ∀ s, u.kept s.ccr (g s).ccr) : KeepsFlags u (upd g) :=
  ⟨fun h => by cases h; exact hg _⟩

theorem keepsFlags_look_bind {g : State → α} {f : α → M β} (hf : ∀ a, KeepsFlags u (f a)) :
    KeepsFlags u (look g >>= f) := (keepsFlags_look g).bind hf

theorem keepsFlags_upd_bind {g : State → State} {f : Unit → M β} (hf : ∀ a, KeepsFlags u (f a))
    (hg : ∀ s, (g s).ccr = s.ccr := by exact fun _ => rfl) : KeepsFlags u (upd g >>= f) := (keepsFlags_upd hg).bind hf

theorem keepsFlags_drawBit_bind {f : Bool → M β} (hf : ∀ a, KeepsFlags u (f a)) : KeepsFlags u (drawBit >>= f) :=
  KeepsFlags.bind (.of_ccr_eq fun h => by cases h; rfl) hf

theorem keepsFlags_fetch16 : KeepsFlags u fetch16 :=
  .of_ccr_eq fun h => by obtain ⟨-, -, rfl⟩ := fetch16_of_ok h; rfl

theorem keepsFlags_fetch16_bind {f : Word → M β} (hf : ∀ w, KeepsFlags u (f w)) : KeepsFlags u (fetch16 >>= f) :=
  keepsFlags_fetch16.bind hf

theorem keepsFlags_memRead (sz : Size) (fc : BitVec 3) (x : Long) : KeepsFlags u (memRead sz fc x) :=
  .of_ccr_eq fun h => by obtain ⟨-, -, rfl⟩ := memRead_of_ok h; rfl

theorem keepsFlags_memWrite (sz : Size) (fc : BitVec 3) (x v : Long) : KeepsFlags u (memWrite sz fc x v) :=
  .of_ccr_eq fun h => by obtain ⟨-, rfl⟩ := memWrite_of_ok h; exact State.store_ccr ..

theorem keepsFlags_readData (sz : Size) (x : Long) : KeepsFlags u (readData sz x) :=
  keepsFlags_look_bind fun fc => keepsFlags_memRead sz fc x

theorem keepsFlags_writeData (sz : Size) (x v : Long) : KeepsFlags u (writeData sz x v) :=
  keepsFlags_look_bind fun fc => keepsFlags_memWrite sz fc x v

theorem keepsFlags_push (sz : Size) (v : Long) : KeepsFlags u (push sz v) :=
  .of_ccr_eq fun h => by obtain ⟨-, rfl⟩ := push_of_ok h; exact State.pushed_ccr ..

theorem keepsFlags_pop (sz : Size) : KeepsFlags u (pop sz) :=
  .of_ccr_eq fun h => by obtain ⟨-, -, rfl⟩ := pop_of_ok h; rfl

/-! Operands. -/

theorem keepsFlags_immediate (sz : Size) : KeepsFlags u (immediate sz) :=
  .of_ccr_eq fun h => by obtain ⟨-, -, rfl⟩ := immediate_of_ok h; exact State.skip_ccr ..

theorem keepsFlags_resolve (ea : Ea) (sz : Size) : KeepsFlags u (resolve ea sz) :=
  .of_ccr_eq fun h => by obtain ⟨-, -, rfl⟩ := resolve_of_ok h; exact State.afterEa_ccr ..

theorem keepsFlags_eaRead (d : Desc) (sz : Size) : KeepsFlags u (eaRead d sz) :=
  .of_ccr_eq fun h => by obtain ⟨-, -, rfl⟩ := eaRead_of_ok h; exact State.afterRead_ccr ..

theorem keepsFlags_eaWrite (d : Desc) (sz : Size) (v : Long) : KeepsFlags u (eaWrite d sz v) :=
  .of_ccr_eq fun h => by obtain ⟨-, -, rfl⟩ := eaWrite_of_ok h; exact State.afterWrite_ccr ..

theorem keepsFlags_readEa (ea : Ea) (sz : Size) : KeepsFlags u (readEa ea sz) :=
  (keepsFlags_resolve ea sz).bind fun d => keepsFlags_eaRead d sz

theorem keepsFlags_eaAddr (d : Desc) : KeepsFlags u (eaAddr d) := by
  cases d with
  | mem x sp => exact keepsFlags_pure _
  | regD n | regA n | imm v => exact keepsFlags_stop _

theorem keepsFlags_addressEa (ea : Ea) (sz : Size) : KeepsFlags u (addressEa ea sz) :=
  (keepsFlags_resolve ea sz).bind fun d => (keepsFlags_eaAddr d).bind fun _ => keepsFlags_pure _

theorem keepsFlags_readPostincrement (n : Fin 8) (sz : Size) : KeepsFlags u (readPostincrement n sz) :=
  keepsFlags_look_bind fun _ => keepsFlags_upd_bind fun _ => keepsFlags_readData ..

theorem keepsFlags_storeDown (sz : Size) (rs : List GenReg) (x : Long) : KeepsFlags u (storeDown sz rs x) := by
  induction rs generalizing x with
  | nil => exact keepsFlags_pure x
  | cons r rs ih => exact keepsFlags_look_bind fun _ => (keepsFlags_writeData ..).bind fun _ => ih _

theorem keepsFlags_storeUp (sz : Size) (rs : List GenReg) (x : Long) : KeepsFlags u (storeUp sz rs x) := by
  induction rs generalizing x with
  | nil => exact keepsFlags_pure ()
  | cons r rs ih => exact keepsFlags_look_bind fun _ => (keepsFlags_writeData ..).bind fun _ => ih _

theorem keepsFlags_loadUp (sz : Size) (sp : Space) (rs : List GenReg) (x : Long) : KeepsFlags u (loadUp sz sp rs x) := by
  induction rs generalizing x with
  | nil => exact keepsFlags_pure x
  | cons r rs ih =>
    exact keepsFlags_look_bind fun _ => (keepsFlags_memRead ..).bind fun _ =>
      (keepsFlags_upd (State.setGenReg_ccr · _ _)).bind fun _ => ih _

/-! Bodies that write no flag. -/

theorem keepsFlags_movemDummyRead (sp : Space) (x : Long) : KeepsFlags u (movemDummyRead sp x) := by
  refine keepsFlags_look_bind fun on => ?_
  cases on with
  | true => exact keepsFlags_look_bind fun _ => (keepsFlags_memRead ..).bind fun _ => keepsFlags_pure _
  | false => exact keepsFlags_pure _

theorem keepsFlags_movepLoad (dn : Fin 8) (n : Nat) (ks : List Nat) (x : Long) :
    KeepsFlags u (movepLoad dn n ks x) := by
  induction ks generalizing x with
  | nil => exact keepsFlags_pure ()
  | cons k ks ih => exact (keepsFlags_readData ..).bind fun _ => keepsFlags_upd_bind fun _ => ih _

theorem keepsFlags_movepStore (dn : Fin 8) (n : Nat) (ks : List Nat) (x : Long) :
    KeepsFlags u (movepStore dn n ks x) := by
  induction ks generalizing x with
  | nil => exact keepsFlags_pure ()
  | cons k ks ih => exact keepsFlags_look_bind fun _ => (keepsFlags_writeData ..).bind fun _ => ih _

theorem keepsFlags_branchTarget (d8 : Byte) : KeepsFlags u (branchTarget d8) := by
  refine keepsFlags_look_bind fun base => ?_
  cases d8 == 0 with
  | true => exact keepsFlags_fetch16_bind fun _ => keepsFlags_pure _
  | false => exact keepsFlags_pure _

theorem keepsFlags_raiseAtIpc (v : Byte) : KeepsFlags u (raiseAtIpc v) :=
  keepsFlags_look_bind fun _ => keepsFlags_stop _

theorem keepsFlags_movesSource (r : GenReg) (ea : Ea) (before : Long) : KeepsFlags u (movesSource r ea before) := by
  refine keepsFlags_look_bind fun now => ?_
  cases movesSelfUpdate r ea with
  | true => exact keepsFlags_drawBit_bind fun _ => keepsFlags_pure _
  | false => exact keepsFlags_pure _

theorem keepsFlags_movecBody {f : ControlReg → GenReg → State → State} (hf : ∀ r g s, (f r g s).ccr = s.ccr) :
    KeepsFlags u (movecBody f) := by
  refine (keepsFlags_require ..).bind fun _ => (keepsFlags_require ..).bind fun _ => keepsFlags_look_bind fun _ =>
    keepsFlags_fetch16_bind fun e => ?_
  cases controlReg (e.toNat % 4096) with
  | some r => exact keepsFlags_upd (hf r _)
  | none => exact keepsFlags_stop _

theorem keepsFlags_clrDummyRead (sz : Size) (d : Desc) : KeepsFlags u (clrDummyRead sz d) := by
  cases d with
  | mem x sp =>
    refine keepsFlags_look_bind fun on => ?_
    cases on with
    | true => exact (keepsFlags_eaRead _ sz).bind fun _ => keepsFlags_pure _
    | false => exact keepsFlags_pure _
  | regD n | regA n | imm v => exact keepsFlags_pure _

/-- An operand read and an address register written from it. -/
theorem keepsFlags_readEa_setA (ea : Ea) (sz : Size) (n : Fin 8) (f : Long → State → Long) :
    KeepsFlags u (readEa ea sz >>= fun v => upd fun s => s.setA n (f v s)) :=
  (keepsFlags_readEa ea sz).bind fun _ => keepsFlags_upd

/-! Bodies whose flags are those of an operation. -/

/-- An operand read and the flags written from it. -/
theorem keepsFlags_readEa_setCcr (ea : Ea) (sz : Size) {f : Long → State → Ccr} (hf : ∀ v s, u.kept s.ccr (f v s)) :
    KeepsFlags u (readEa ea sz >>= fun v => upd fun s => s.setCcr (f v s)) :=
  (keepsFlags_readEa ea sz).bind fun v => keepsFlags_updCcr (hf v)

theorem keepsFlags_eaDnBody {f : AluOp} (hf : ∀ sz src dst c, u.kept c (f sz src dst c).ccr) (dn : Fin 8) (sz : Size)
    (ea : Ea) : KeepsFlags u (eaDnBody f dn sz ea) :=
  (keepsFlags_readEa ea sz).bind fun _ => keepsFlags_updCcr fun _ => hf ..

theorem keepsFlags_modifyEa {f : Long → Ccr → Alu} (hf : ∀ v c, u.kept c (f v c).ccr) (sz : Size) (ea : Ea) :
    KeepsFlags u (modifyEa f sz ea) := by
  refine ⟨fun h => ?_⟩
  obtain ⟨-, -, rfl⟩ := modifyEa_iff.mp h
  exact hf ..

theorem keepsFlags_dnEaBody {f : AluOp} (hf : ∀ sz src dst c, u.kept c (f sz src dst c).ccr) (dn : Fin 8) (sz : Size)
    (ea : Ea) : KeepsFlags u (dnEaBody f dn sz ea) :=
  keepsFlags_look_bind fun _ => keepsFlags_modifyEa (hf sz _) sz ea

theorem keepsFlags_immEaBody {f : AluOp} (hf : ∀ sz src dst c, u.kept c (f sz src dst c).ccr) (sz : Size) (ea : Ea) :
    KeepsFlags u (immEaBody f sz ea) :=
  (keepsFlags_immediate sz).bind fun _ => keepsFlags_modifyEa (hf sz _) sz ea

theorem keepsFlags_multiplyBody {f : Long → Long → Ccr → Alu} (hf : ∀ src dst c, u.kept c (f src dst c).ccr)
    (dn : Fin 8) (ea : Ea) : KeepsFlags u (multiplyBody f dn ea) :=
  (keepsFlags_readEa ea .w).bind fun _ => keepsFlags_updCcr fun _ => hf ..

theorem keepsFlags_moveBody (sz : Size) (src dst : Ea) : KeepsFlags .nzvc (moveBody sz src dst) :=
  (keepsFlags_readEa src sz).bind fun _ => (keepsFlags_resolve dst sz).bind fun d =>
    (keepsFlags_eaWrite d sz _).bind fun _ => keepsFlags_updCcr fun _ => by rfl

theorem keepsFlags_divideBody (f : Long → Long → Division) (dn : Fin 8) (ea : Ea) :
    KeepsFlags .nzvc (divideBody f dn ea) := by
  refine (keepsFlags_readEa ea .w).bind fun src => ?_
  cases isZero .w src with
  | true =>
    exact keepsFlags_drawBit_bind fun _ => keepsFlags_drawBit_bind fun _ => keepsFlags_drawBit_bind fun _ =>
      (keepsFlags_updCcr fun _ => by rfl).bind fun _ => keepsFlags_look_bind fun _ => keepsFlags_stop _
  | false =>
    refine keepsFlags_look_bind fun o => ?_
    cases o with
    | overflow => exact keepsFlags_drawBit_bind fun _ => keepsFlags_drawBit_bind fun _ => keepsFlags_updCcr fun _ => by rfl
    | result r n z => exact keepsFlags_updCcr fun _ => by rfl

/-- A bit operation writes Z alone (46_bit_manipulation.md R300). -/
theorem kept_bitFlags (sz : Size) (k : Nat) (v : Long) (f : Ccr) : FlagUse.zero.kept f (bitFlags sz k v f) :=
  ⟨rfl, rfl, rfl, rfl⟩

theorem keepsFlags_staticBit : KeepsFlags u staticBit := keepsFlags_fetch16_bind fun _ => keepsFlags_pure _

theorem keepsFlags_testBody {number : M Nat} (hn : KeepsFlags .zero number) (ea : Ea) :
    KeepsFlags .zero (testBody number ea) :=
  hn.bind fun _ => keepsFlags_readEa_setCcr ea _ fun _ _ => kept_bitFlags ..

theorem keepsFlags_bitBody (op : BitOp) {number : M Nat} (hn : KeepsFlags .zero number) (ea : Ea) :
    KeepsFlags .zero (bitBody op number ea) :=
  hn.bind fun _ => keepsFlags_modifyEa (fun _ _ => kept_bitFlags ..) _ ea

/-- ROL and ROR leave X alone, whatever the count (45_shift_rotate.md R285, R290, R291). -/
theorem aluShift_x_of_rotate {op : ShiftOp} (hop : op = .rol ∨ op = .ror) (sz : Size) (n : Nat) (v : Long) (f : Ccr) :
    (aluShift op sz n v f).ccr.x = f.x := by
  by_cases hn : n = 0
  · simp [aluShift, hn, shiftZero]
  · rcases hop with rfl | rfl <;> simp [aluShift, hn, ShiftOp.apply, shiftRol, shiftRor]

end

/-- Every instruction is the run of one body, which keeps the flags that its row of the table does not give it (R179). -/
theorem exec_keepsFlags (i : Instr) : ∃ m : M Unit, (∀ s, exec i s = run m s) ∧ KeepsFlags i.flagUse m := by
  cases i with
  -- Rows with all five flags.
  | oriToCcr | oriToSr | andiToCcr | andiToSr | eoriToCcr | eoriToSr | stop | rte | rtr | moveToCcr ea | moveToSr ea
  | subi sz ea | addi sz ea | negx sz ea | neg sz ea | nbcd ea | sbcd x form y | abcd x form y | subx x sz form y
  | addx x sz form y | subEaDn dn sz ea | subDnEa dn sz ea | addEaDn dn sz ea | addDnEa dn sz ea | asrEa ea | aslEa ea
  | lsrEa ea | lslEa ea | roxrEa ea | roxlEa ea => exact ⟨_, fun _ => rfl, keepsFlags_all _⟩
  | asrReg k sz g y | aslReg k sz g y | lsrReg k sz g y | lslReg k sz g y | roxrReg k sz g y | roxlReg k sz g y =>
    exact ⟨_, fun _ => rfl, keepsFlags_all (shiftRegBody _ k sz g y)⟩
  -- Rows with Z alone.
  | btstImm ea => exact ⟨_, fun _ => rfl, keepsFlags_testBody keepsFlags_staticBit ea⟩
  | btstReg dn ea => exact ⟨_, fun _ => rfl, keepsFlags_testBody (keepsFlags_look _) ea⟩
  | bchgImm ea | bclrImm ea | bsetImm ea => exact ⟨_, fun _ => rfl, keepsFlags_bitBody _ keepsFlags_staticBit ea⟩
  | bchgReg dn ea | bclrReg dn ea | bsetReg dn ea =>
    exact ⟨_, fun _ => rfl, keepsFlags_bitBody _ (keepsFlags_look _) ea⟩
  -- Rows with N, Z, V and C.
  | ori sz ea | andi sz ea | eori sz ea => exact ⟨_, fun _ => rfl, keepsFlags_immEaBody (fun _ _ _ _ => by rfl) sz ea⟩
  | orEaDn dn sz ea | andEaDn dn sz ea => exact ⟨_, fun _ => rfl, keepsFlags_eaDnBody (fun _ _ _ _ => by rfl) dn sz ea⟩
  | orDnEa dn sz ea | andDnEa dn sz ea | eor dn sz ea =>
    exact ⟨_, fun _ => rfl, keepsFlags_dnEaBody (fun _ _ _ _ => by rfl) dn sz ea⟩
  | notOp sz ea => exact ⟨_, fun _ => rfl, keepsFlags_modifyEa (fun _ _ => by rfl) sz ea⟩
  | tas ea => exact ⟨_, fun _ => rfl, keepsFlags_modifyEa (fun _ _ => by rfl) .b ea⟩
  | mulu dn ea | muls dn ea => exact ⟨_, fun _ => rfl, keepsFlags_multiplyBody (fun _ _ _ => by rfl) dn ea⟩
  | divu dn ea | divs dn ea => exact ⟨_, fun _ => rfl, keepsFlags_divideBody _ dn ea⟩
  | moveB src dst | moveW src dst | moveL src dst => exact ⟨_, fun _ => rfl, keepsFlags_moveBody _ src dst⟩
  | swap dn | extW dn | extL dn | moveq dn d8 => exact ⟨_, fun _ => rfl, keepsFlags_updCcr fun _ => by rfl⟩
  | tst sz ea | cmp dn sz ea | cmpa an sz ea =>
    exact ⟨_, fun _ => rfl, keepsFlags_readEa_setCcr ea sz fun _ _ => rfl⟩
  | cmpi sz ea =>
    exact ⟨_, fun _ => rfl, (keepsFlags_immediate sz).bind fun _ => keepsFlags_readEa_setCcr ea sz fun _ _ => rfl⟩
  | cmpm x sz y =>
    exact ⟨_, fun _ => rfl, (keepsFlags_readPostincrement y sz).bind fun _ =>
      (keepsFlags_readPostincrement x sz).bind fun _ => keepsFlags_updCcr fun _ => by rfl⟩
  | clr sz ea =>
    exact ⟨_, fun _ => rfl, (keepsFlags_resolve ea sz).bind fun d => (keepsFlags_clrDummyRead sz d).bind fun _ =>
      (keepsFlags_eaWrite d sz 0).bind fun _ => keepsFlags_updCcr fun _ => by rfl⟩
  | chk dn ea =>
    refine ⟨_, fun _ => rfl, (keepsFlags_readEa ea .w).bind fun bound => keepsFlags_drawBit_bind fun _ =>
      keepsFlags_drawBit_bind fun _ => keepsFlags_drawBit_bind fun _ => keepsFlags_look_bind fun _ =>
        keepsFlags_look_bind fun value => ?_⟩
    split
    · exact (keepsFlags_updCcr fun _ => by rfl).bind fun _ => keepsFlags_stop _
    · exact (keepsFlags_updCcr fun _ => by rfl).bind fun _ => keepsFlags_stop _
    · exact keepsFlags_drawBit_bind fun _ => keepsFlags_updCcr fun _ => by rfl
  | rolReg k sz g y =>
    exact ⟨_, fun _ => rfl, keepsFlags_updCcr fun _ => by exact aluShift_x_of_rotate (.inl rfl) ..⟩
  | rorReg k sz g y =>
    exact ⟨_, fun _ => rfl, keepsFlags_updCcr fun _ => by exact aluShift_x_of_rotate (.inr rfl) ..⟩
  | rolEa ea => exact ⟨_, fun _ => rfl, keepsFlags_modifyEa (by exact aluShift_x_of_rotate (.inl rfl) .w 1) .w ea⟩
  | rorEa ea => exact ⟨_, fun _ => rfl, keepsFlags_modifyEa (by exact aluShift_x_of_rotate (.inr rfl) .w 1) .w ea⟩
  -- ADDQ and SUBQ: no flags through an address register, else all five.
  | addq q sz ea | subq q sz ea =>
    refine ⟨_, fun _ => rfl, ?_⟩
    cases ea with
    | an n => exact keepsFlags_upd
    | _ => exact keepsFlags_all _
  -- Rows with none.
  | moveaW an src | moveaL an src => exact ⟨_, fun _ => rfl, keepsFlags_readEa_setA src _ an _⟩
  | suba an sz ea | adda an sz ea => exact ⟨_, fun _ => rfl, keepsFlags_readEa_setA ea sz an _⟩
  | exgDxDy x y | exgAxAy x y | exgDxAy x y => exact ⟨_, fun _ => rfl, keepsFlags_upd⟩
  | bkpt v | illegal | lineA low | lineF low => exact ⟨_, fun _ => rfl, keepsFlags_raiseAtIpc _⟩
  | trap v =>
    -- Without `show`, the unifier evaluates the vector's sum before it unfolds `exec`.
    exact ⟨_, fun s => show execTrap v s = _ from rfl, keepsFlags_look_bind fun _ => keepsFlags_stop _⟩
  | trapv => exact ⟨_, fun _ => rfl, keepsFlags_require ..⟩
  | nop => exact ⟨_, fun _ => rfl, keepsFlags_pure ()⟩
  | reset | moveAnUsp an | moveUspAn an => exact ⟨_, fun _ => rfl, (keepsFlags_require ..).bind fun _ => keepsFlags_upd⟩
  | movecRcRn => exact ⟨_, fun _ => rfl, keepsFlags_movecBody fun _ g s => State.setGenReg_ccr s g _⟩
  | movecRnRc => exact ⟨_, fun _ => rfl, keepsFlags_movecBody fun r _ s => State.setControl_ccr s r _⟩
  | moves sz ea =>
    refine ⟨_, fun _ => rfl, (keepsFlags_require ..).bind fun _ => (keepsFlags_require ..).bind fun _ =>
      keepsFlags_fetch16_bind fun e => keepsFlags_look_bind fun _ => (keepsFlags_addressEa ea sz).bind fun _ => ?_⟩
    cases e.getLsbD 11 with
    | true => exact (keepsFlags_movesSource ..).bind fun _ => keepsFlags_look_bind fun _ => keepsFlags_memWrite ..
    | false =>
      exact keepsFlags_look_bind fun _ => (keepsFlags_memRead ..).bind fun _ => keepsFlags_upd (State.setMoves_ccr · _ _ _)
  | moveFromSr ea | moveFromCcr ea =>
    exact ⟨_, fun _ => rfl, (keepsFlags_require ..).bind fun _ => (keepsFlags_resolve ea .w).bind fun d =>
      keepsFlags_look_bind fun _ => keepsFlags_eaWrite d .w _⟩
  | movep dn dir sz an =>
    refine ⟨_, fun _ => rfl, keepsFlags_fetch16_bind fun _ => keepsFlags_look_bind fun _ => ?_⟩
    cases dir with
    | memToReg => exact keepsFlags_movepLoad ..
    | regToMem => exact keepsFlags_movepStore ..
  | movemToMem sz ea =>
    refine ⟨_, fun _ => rfl, keepsFlags_fetch16_bind fun mask => ?_⟩
    split
    · exact keepsFlags_look_bind fun _ => (keepsFlags_storeDown ..).bind fun _ => keepsFlags_upd
    · exact (keepsFlags_addressEa ..).bind fun _ => keepsFlags_storeUp ..
  | movemToRegs sz ea =>
    refine ⟨_, fun _ => rfl, keepsFlags_fetch16_bind fun mask => ?_⟩
    split
    · exact keepsFlags_look_bind fun _ => (keepsFlags_loadUp ..).bind fun _ =>
        (keepsFlags_movemDummyRead ..).bind fun _ => keepsFlags_upd
    · exact (keepsFlags_resolve ..).bind fun d => (keepsFlags_eaAddr d).bind fun _ =>
        (keepsFlags_loadUp ..).bind fun _ => keepsFlags_movemDummyRead ..
  | lea an ea | jmp ea => exact ⟨_, fun _ => rfl, (keepsFlags_addressEa ea .l).bind fun _ => keepsFlags_upd⟩
  | pea ea => exact ⟨_, fun _ => rfl, (keepsFlags_addressEa ea .l).bind fun _ => keepsFlags_push ..⟩
  | jsr ea =>
    exact ⟨_, fun _ => rfl, (keepsFlags_addressEa ea .l).bind fun _ => keepsFlags_look_bind fun _ =>
      (keepsFlags_push ..).bind fun _ => keepsFlags_upd⟩
  | link an =>
    exact ⟨_, fun _ => rfl, keepsFlags_fetch16_bind fun _ => keepsFlags_upd_bind fun _ => keepsFlags_look_bind fun _ =>
      keepsFlags_look_bind fun _ => (keepsFlags_writeData ..).bind fun _ => keepsFlags_upd_bind fun _ =>
        keepsFlags_upd⟩
  | unlk an =>
    exact ⟨_, fun _ => rfl, keepsFlags_upd_bind fun _ => (keepsFlags_pop .l).bind fun _ => keepsFlags_upd⟩
  | rts => exact ⟨_, fun _ => rfl, (keepsFlags_pop .l).bind fun _ => keepsFlags_upd⟩
  | rtd =>
    exact ⟨_, fun _ => rfl, (keepsFlags_require ..).bind fun _ => keepsFlags_fetch16_bind fun _ =>
      (keepsFlags_pop .l).bind fun _ => keepsFlags_upd_bind fun _ => keepsFlags_upd⟩
  | bra d8 => exact ⟨_, fun _ => rfl, (keepsFlags_branchTarget d8).bind fun _ => keepsFlags_upd⟩
  | bsr d8 =>
    exact ⟨_, fun _ => rfl, (keepsFlags_branchTarget d8).bind fun _ => keepsFlags_look_bind fun _ =>
      (keepsFlags_push ..).bind fun _ => keepsFlags_upd⟩
  | bcc c d8 =>
    exact ⟨_, fun _ => rfl, (keepsFlags_branchTarget d8).bind fun _ => keepsFlags_upd fun s => by split <;> rfl⟩
  | scc c ea =>
    exact ⟨_, fun _ => rfl, (keepsFlags_resolve ea .b).bind fun d => keepsFlags_look_bind fun _ =>
      keepsFlags_eaWrite d .b _⟩
  | dbcc c dn =>
    refine ⟨_, fun _ => rfl, keepsFlags_look_bind fun _ => keepsFlags_fetch16_bind fun _ =>
      keepsFlags_look_bind fun term => ?_⟩
    split
    · exact keepsFlags_pure _
    refine keepsFlags_look_bind fun count => keepsFlags_upd_bind fun _ => ?_
    split
    · exact keepsFlags_pure _
    · exact (keepsFlags_require ..).bind fun _ => keepsFlags_upd

/-- Settles O41: an instruction that enters no exception is the normal end of its body. -/
theorem flagFrame : Obligations.FlagFrame := by
  unfold Obligations.FlagFrame
  intro i s t ht he
  obtain ⟨m, hrun, hm⟩ := exec_keepsFlags i
  exact hm.kept (ok_of_run (hrun s ▸ ht) he)

end Sys2Proof.Machine
end

section
/-! PROOFS. The address forms (42_data_movement.md R206, R207; 48_program_control.md R326, R327) and the forms on the
stack (R210, R211; R328–R330; 49_system_control.md R355): each completes where its accesses are aligned. -/

namespace Sys2Proof.Machine

/-! Alignment. -/

theorem alignedAt_of_even {a : Long} (sz : Size) (h : isOdd a = false) : alignedAt sz a = true := by
  simp [alignedAt, h]

theorem State.stackReady_iff {s : State} : s.stackReady = true ↔ isOdd s.a[7] = false := by
  simp [State.stackReady]

/-- An even address is even a word or a long further on. -/
theorem isOdd_add_bytes {sz : Size} (hsz : sz ≠ .b) (a : Long) : isOdd (a + BitVec.ofNat 32 sz.bytes) = isOdd a := by
  refine isOdd_add _ _ ?_
  cases sz with
  | b => exact absurd rfl hsz
  | w | l => rfl

theorem State.popped_a7 (s : State) (sz : Size) : (s.popped sz).a[7] = s.a[7] + BitVec.ofNat 32 sz.bytes := by simp

/-- A push completes on an even stack pointer. -/
theorem push_bind_of_even {α : Type} {sz : Size} (hsz : sz ≠ .b) {v : Long} {f : Unit → M α} {s : State}
    (h : isOdd s.a[7] = false) : (push sz v >>= f) s = f () (s.pushed sz v) :=
  M.bind_ok (push_ok (alignedAt_push sz hsz h).1)

/-- A pop completes on an even stack pointer. -/
theorem pop_bind_of_even {α : Type} {sz : Size} {f : Long → M α} {s : State} (h : isOdd s.a[7] = false) :
    (pop sz >>= f) s = f (s.stackTop sz) (s.popped sz) :=
  M.bind_ok (pop_ok (alignedAt_of_even sz h))

theorem fetch16_bind_of_ready {α : Type} {f : Word → M α} {s : State} (h : s.streamReady 1 = true) :
    (fetch16 >>= f) s = f (s.streamWord 0) (s.skip 1) :=
  M.bind_ok (fetch16_ok (State.streamReady_one s ▸ h))

theorem onM68010_bind {α : Type} {f : Unit → M α} {s : State} (h : s.cfg.variant = .m68010) :
    (onM68010 >>= f) s = f () s := by
  simp [onM68010, h]

/-! Addresses. -/

/-- A control operand steps no register (40_ea_resolver.md R157). -/
theorem State.afterEa_a_of_control (s : State) {ea : Ea} {sz : Size} (h : EaClass.control.admits sz ea = true) :
    (s.afterEa ea sz).a = s.a := by
  cases ea with
  | pi n | pd n => cases h
  | _ => simp [State.afterEa]

theorem addressEa_bind_of_control {α : Type} {ea : Ea} {sz : Size} {f : Long → M α} {s : State}
    (hc : EaClass.control.admits sz ea = true) (hr : s.streamReady (ea.extWords sz) = true) :
    (addressEa ea sz >>= f) s = f (s.eaAddress ea sz) (s.afterEa ea sz) :=
  M.bind_ok (addressEa_ok hc hr)

/-- Settles O31: all four compute the address first; a control operand leaves the stack pointer as it was. -/
theorem addressResult : Obligations.AddressResult := by
  unfold Obligations.AddressResult
  intro an ea s hc hr
  have hlea : exec (.lea an ea) s = .next ((s.afterEa ea .l).setA an (s.eaAddress ea .l)) :=
    run_ok (addressEa_bind_of_control hc hr)
  have hjmp : exec (.jmp ea) s = .next ((s.afterEa ea .l).setPc (s.eaAddress ea .l)) :=
    run_ok (addressEa_bind_of_control hc hr)
  refine ⟨hlea, hjmp, fun hs => ?_⟩
  have heven : isOdd (s.afterEa ea .l).a[7] = false := by
    rw [State.afterEa_a_of_control s hc]
    exact State.stackReady_iff.mp hs
  constructor
  · refine run_ok ((addressEa_bind_of_control hc hr).trans ?_)
    exact push_ok (alignedAt_push .l (by decide) heven).1
  · refine run_ok ((addressEa_bind_of_control hc hr).trans ?_)
    exact push_bind_of_even (by decide) heven

/-! The stack. -/

theorem State.setA_a7 (s : State) (v : Long) : (s.setA 7 v).a[7] = v := State.setA_get s 7 v

theorem State.setA_getElem (s : State) (m n : Fin 8) (v : Long) : (s.setA m v).a[n] = if n = m then v else s.a[n] := by
  split
  next h => rw [h, State.setA_get]
  next h => exact Vector.getElem_set_ne m.isLt n.isLt fun h' => h (Fin.ext h'.symm)

/-- LINK stores An as the decrement of A7 has left it (R210). -/
theorem execLink_eq {an : Fin 8} {s : State} (hr : s.streamReady 1 = true) (hs : s.stackReady = true) :
    let sp := s.a[7] - 4
    let t := ((s.skip 1).setA 7 sp).store .l s.dataFc sp (if an = 7 then sp else s.a[an])
    execLink an s = .next ((t.setA an sp).setA 7 (sp + sext16 (s.streamWord 0))) := by
  intro sp t
  have haligned : alignedAt .l sp = true := (alignedAt_push .l (by decide) (State.stackReady_iff.mp hs)).1
  have hstore : writeData .l sp (if an = 7 then sp else s.a[an]) ((s.skip 1).setA 7 sp) = .ok () t :=
    writeData_ok haligned
  have ht : t.a[7] = sp := by rw [State.store_a, State.setA_a7]
  have htop : (t.setA an sp).a[7] = sp := (State.setA_getElem t an 7 sp).trans (ite_eq_left_iff.mpr fun _ => ht)
  refine run_ok ?_
  rw [fetch16_bind_of_ready hr]
  simp only [M.upd_bind, M.look_bind, State.setA_a7, State.setA_getElem, State.skip_a]
  rw [M.bind_ok hstore]
  simp only [M.upd_bind, M.upd_apply, ht, htop]

/-- UNLK takes the stack pointer from An before it pops An (R211). -/
theorem execUnlk_eq {an : Fin 8} {s : State} (h : isOdd s.a[an] = false) :
    execUnlk an s = .next (((s.setA 7 s.a[an]).popped .l).setA an (s.loaded .l s.dataFc s.a[an])) := by
  have ha : (s.setA 7 s.a[an]).a[7] = s.a[an] := State.setA_get s 7 s.a[an]
  refine run_ok ?_
  rw [M.upd_bind, pop_bind_of_even (by rw [ha, h]), State.stackTop, ha]
  rfl

/-- Settles O34: a pop leaves an even stack pointer even. -/
theorem stackResult : Obligations.StackResult := by
  unfold Obligations.StackResult
  intro an s
  refine ⟨rfl, execLink_eq, execUnlk_eq, fun hs => ?_⟩
  have heven : isOdd s.a[7] = false := State.stackReady_iff.mp hs
  refine ⟨run_ok (pop_bind_of_even heven), run_ok ?_, fun hv hr => run_ok ?_⟩
  · rw [pop_bind_of_even heven, M.upd_bind, pop_bind_of_even]
    · rfl
    · show isOdd (s.popped .w).a[7] = false
      rw [State.popped_a7, isOdd_add_bytes (by decide), heven]
  · rw [onM68010_bind hv, fetch16_bind_of_ready hr, pop_bind_of_even]
    · rfl
    · rw [State.skip_a, heven]

end Sys2Proof.Machine
end

section
/-! PROOFS. Lists of registers (42_data_movement.md R204, R205): which registers a mask names and in which order, and
MOVEM and MOVEP, one induction over the list for each direction. -/

namespace Sys2Proof.Machine

/-! Masks. -/

theorem mem_maskedFrom {mask : Word} {i : Nat} {rs : List GenReg} {r : GenReg} :
    r ∈ maskedFrom mask i rs ↔ ∃ k, rs[k]? = some r ∧ mask.getLsbD (i + k) = true := by
  induction rs generalizing i with
  | nil => simp [maskedFrom]
  | cons q rs ih =>
    have hcons : r ∈ maskedFrom mask i (q :: rs) ↔
        (q = r ∧ mask.getLsbD i = true) ∨ r ∈ maskedFrom mask (i + 1) rs := by
      rw [maskedFrom]
      split
      next h => simp [h, eq_comm]
      next h => simp [h]
    have hplaces := Nat.or_exists_add_one (p := fun k => (q :: rs)[k]? = some r ∧ mask.getLsbD (i + k) = true)
    rw [hcons, ih, ← hplaces]
    simp [Nat.add_assoc, Nat.add_comm 1]

theorem maskedFrom_sublist (mask : Word) (i : Nat) (rs : List GenReg) : (maskedFrom mask i rs).Sublist rs := by
  induction rs generalizing i with
  | nil => exact .slnil
  | cons r rs ih =>
    unfold maskedFrom
    split
    · exact (ih (i + 1)).cons_cons r
    · exact (ih (i + 1)).cons r

/-- Bit `k` of a mask selects the register in place `k`, if no other place has it. -/
theorem mem_maskedRegs {mask : Word} {order : List GenReg} (hnodup : order.Nodup) {k : Nat} {r : GenReg}
    (hk : order[k]? = some r) : r ∈ maskedRegs mask order ↔ mask.getLsbD k = true := by
  rw [maskedRegs, mem_maskedFrom]
  constructor
  · rintro ⟨j, hj, hbit⟩
    have hlt : j < order.length := (List.getElem?_eq_some_iff.mp hj).1
    obtain rfl : j = k := (List.getElem?_inj hlt hnodup).mp (hj.trans hk.symm)
    simpa using hbit
  · exact fun hbit => ⟨k, hk, by simpa using hbit⟩

/-- The numbering of MOVEM's mask, in the predecrement form and in the others (R204). -/
theorem mem_movemRegs (mask : Word) (n : Fin 8) :
    (GenReg.d n ∈ maskedRegs mask movemOrder ↔ mask.getLsbD n.val = true) ∧
      (GenReg.a n ∈ maskedRegs mask movemOrder ↔ mask.getLsbD (8 + n.val) = true) ∧
      (GenReg.d n ∈ maskedRegs mask movemPredecrementOrder ↔ mask.getLsbD (15 - n.val) = true) ∧
      (GenReg.a n ∈ maskedRegs mask movemPredecrementOrder ↔ mask.getLsbD (7 - n.val) = true) := by
  have hup : movemOrder.Nodup := by decide
  have hdown : movemPredecrementOrder.Nodup := by decide
  have hplaces : movemOrder[n.val]? = some (.d n) ∧ movemOrder[8 + n.val]? = some (.a n) ∧
      movemPredecrementOrder[15 - n.val]? = some (.d n) ∧ movemPredecrementOrder[7 - n.val]? = some (.a n) := by
    revert n
    decide
  obtain ⟨hud, hua, hdd, hda⟩ := hplaces
  exact ⟨mem_maskedRegs hup hud, mem_maskedRegs hup hua, mem_maskedRegs hdown hdd, mem_maskedRegs hdown hda⟩

/-! Addresses. -/

theorem addressUp_zero (sz : Size) (a : Long) : addressUp sz 0 a = a := by simp [addressUp]

theorem addressDown_zero (sz : Size) (a : Long) : addressDown sz 0 a = a := by simp [addressDown]

theorem addressUp_succ (sz : Size) (n : Nat) (a : Long) :
    addressUp sz (n + 1) a = addressUp sz n (a + BitVec.ofNat 32 sz.bytes) := by
  rw [addressUp, addressUp, BitVec.add_assoc, ← BitVec.ofNat_add, Nat.succ_mul, Nat.add_comm]

theorem addressDown_succ (sz : Size) (n : Nat) (a : Long) :
    addressDown sz (n + 1) a = addressDown sz n (a - BitVec.ofNat 32 sz.bytes) := by
  rw [addressDown, addressDown, Nat.succ_mul, Nat.add_comm, BitVec.ofNat_add, sub_add_eq_sub_sub]

/-- Words and longs moved from an even address end at an even one. -/
theorem isOdd_addressUp {sz : Size} (hsz : sz ≠ .b) (n : Nat) (a : Long) : isOdd (addressUp sz n a) = isOdd a := by
  induction n generalizing a with
  | zero => rw [addressUp_zero]
  | succ n ih => rw [addressUp_succ, ih, isOdd_add_bytes hsz]

/-! MOVEM's transfers. -/

theorem movemDummyRead_ok {s : State} {sp : Space} {a : Long} (h : s.cfg.dummyReads = false ∨ isOdd a = false) :
    movemDummyRead sp a s = .ok () (s.dummyRead sp a) := by
  rw [movemDummyRead, M.look_bind, State.dummyRead]
  cases hd : s.cfg.dummyReads with
  | false => rfl
  | true =>
    have heven : isOdd a = false := h.resolve_left (by simp [hd])
    dsimp only
    rw [M.look_bind, M.bind_ok (memRead_ok (alignedAt_of_even .w heven))]
    rfl

theorem State.loadedUp_cfg (s : State) (sz : Size) (sp : Space) (rs : List GenReg) (a : Long) :
    (s.loadedUp sz sp rs a).cfg = s.cfg := by
  induction rs generalizing s a with
  | nil => rfl
  | cons r rs ih => rw [State.loadedUp, ih]; simp

section
variable {sz : Size} (hsz : sz ≠ .b) {rs : List GenReg} {a : Long} {s : State}
include hsz

theorem storeDown_ok (h : rs = [] ∨ isOdd a = false) :
    storeDown sz rs a s = .ok (addressDown sz rs.length a) (s.storedDown sz rs a) := by
  induction rs generalizing a s with
  | nil => rw [List.length_nil, addressDown_zero]; rfl
  | cons r rs ih =>
    obtain ⟨haligned, heven⟩ := alignedAt_push sz hsz (h.resolve_left (List.cons_ne_nil r rs))
    rw [storeDown, M.look_bind, M.bind_ok (writeData_ok haligned), ih (.inr heven), List.length_cons, addressDown_succ]
    rfl

theorem storeUp_ok (h : rs = [] ∨ isOdd a = false) : storeUp sz rs a s = .ok () (s.storedUp sz rs a) := by
  induction rs generalizing a s with
  | nil => rfl
  | cons r rs ih =>
    have heven : isOdd a = false := h.resolve_left (List.cons_ne_nil r rs)
    rw [storeUp, M.look_bind, M.bind_ok (writeData_ok (alignedAt_of_even sz heven)),
      ih (.inr (isOdd_add_bytes hsz a ▸ heven))]
    rfl

theorem loadUp_ok {sp : Space} (h : rs = [] ∨ isOdd a = false) :
    loadUp sz sp rs a s = .ok (addressUp sz rs.length a) (s.loadedUp sz sp rs a) := by
  induction rs generalizing a s with
  | nil => rw [List.length_nil, addressUp_zero]; rfl
  | cons r rs ih =>
    have heven : isOdd a = false := h.resolve_left (List.cons_ne_nil r rs)
    rw [loadUp, M.look_bind, M.bind_ok (memRead_ok (alignedAt_of_even sz heven)), M.upd_bind,
      ih (.inr (isOdd_add_bytes hsz a ▸ heven)), List.length_cons, addressUp_succ]
    rfl

/-- The registers loaded, then the extra read at the address after them (R204). -/
theorem loadUp_movemDummyRead_ok {sp : Space} (h : (rs = [] ∧ s.cfg.dummyReads = false) ∨ isOdd a = false) :
    let u := s.loadedUp sz sp rs a
    let next := addressUp sz rs.length a
    loadUp sz sp rs a s = .ok next u ∧ movemDummyRead sp next u = .ok () (u.dummyRead sp next) := by
  intro u next
  refine ⟨loadUp_ok hsz (h.imp_left And.left), movemDummyRead_ok ?_⟩
  rw [State.loadedUp_cfg, isOdd_addressUp hsz]
  exact h.imp_left And.right

end

/-! MOVEM. -/

theorem execMovemToMem_pd {sz : Size} {n : Fin 8} {s : State} (hsz : sz ≠ .b) (hr : s.streamReady 1 = true)
    (h : maskedRegs (s.streamWord 0) movemPredecrementOrder = [] ∨ isOdd s.a[n] = false) :
    let down := maskedRegs (s.streamWord 0) movemPredecrementOrder
    execMovemToMem sz (.pd n) s =
      .next (((s.skip 1).storedDown sz down s.a[n]).setA n (addressDown sz down.length s.a[n])) := by
  intro down
  refine run_ok ((fetch16_bind_of_ready hr).trans ?_)
  dsimp only
  rw [M.look_bind, State.skip_a, M.bind_ok (storeDown_ok hsz h), M.upd_apply]

theorem execMovemToMem_control {sz : Size} {ea : Ea} {s : State} {a : Long} {sp : Space} (hsz : sz ≠ .b)
    (hr : s.streamReady 1 = true) (hc : EaClass.control.admits sz ea = true)
    (hea : (s.skip 1).streamReady (ea.extWords sz) = true) (hd : (s.skip 1).eaDesc ea sz = .mem a sp)
    (h : maskedRegs (s.streamWord 0) movemOrder = [] ∨ isOdd a = false) :
    execMovemToMem sz ea s =
      .next (((s.skip 1).afterEa ea sz).storedUp sz (maskedRegs (s.streamWord 0) movemOrder) a) := by
  have haddr : (s.skip 1).eaAddress ea sz = a := by rw [State.eaAddress, hd]
  have hbody : (addressEa ea sz >>= storeUp sz (maskedRegs (s.streamWord 0) movemOrder)) (s.skip 1) =
      .ok () (((s.skip 1).afterEa ea sz).storedUp sz (maskedRegs (s.streamWord 0) movemOrder) a) := by
    rw [addressEa_bind_of_control hc hea, haddr, storeUp_ok hsz h]
  refine run_ok ((fetch16_bind_of_ready hr).trans ?_)
  cases ea with
  | pd n => cases hc
  | _ => exact hbody

theorem execMovemToRegs_pi {sz : Size} {n : Fin 8} {s : State} (hsz : sz ≠ .b) (hr : s.streamReady 1 = true)
    (h : (maskedRegs (s.streamWord 0) movemOrder = [] ∧ s.cfg.dummyReads = false) ∨ isOdd s.a[n] = false) :
    let regs := maskedRegs (s.streamWord 0) movemOrder
    let next := addressUp sz regs.length s.a[n]
    execMovemToRegs sz (.pi n) s =
      .next ((((s.skip 1).loadedUp sz .data regs s.a[n]).dummyRead .data next).setA n next) := by
  intro regs next
  obtain ⟨hload, hdummy⟩ := loadUp_movemDummyRead_ok hsz (s := s.skip 1) (sp := .data) (State.skip_cfg s 1 ▸ h)
  refine run_ok ((fetch16_bind_of_ready hr).trans ?_)
  dsimp only
  rw [M.look_bind, State.skip_a, M.bind_ok hload, M.bind_ok hdummy, M.upd_apply]

theorem execMovemToRegs_control {sz : Size} {ea : Ea} {s : State} {a : Long} {sp : Space} (hsz : sz ≠ .b)
    (hr : s.streamReady 1 = true) (hc : EaClass.control.admits sz ea = true)
    (hea : (s.skip 1).streamReady (ea.extWords sz) = true) (hd : (s.skip 1).eaDesc ea sz = .mem a sp)
    (h : (maskedRegs (s.streamWord 0) movemOrder = [] ∧ s.cfg.dummyReads = false) ∨ isOdd a = false) :
    let regs := maskedRegs (s.streamWord 0) movemOrder
    execMovemToRegs sz ea s =
      .next ((((s.skip 1).afterEa ea sz).loadedUp sz sp regs a).dummyRead sp (addressUp sz regs.length a)) := by
  intro regs
  have hcfg : ((s.skip 1).afterEa ea sz).cfg = s.cfg := by simp
  obtain ⟨hload, hdummy⟩ := loadUp_movemDummyRead_ok hsz (s := (s.skip 1).afterEa ea sz) (sp := sp) (hcfg ▸ h)
  have hbody : (resolve ea sz >>= fun d => eaAddr d >>= fun p => loadUp sz p.2 regs p.1 >>= movemDummyRead p.2)
      (s.skip 1) = .ok () ((((s.skip 1).afterEa ea sz).loadedUp sz sp regs a).dummyRead sp
        (addressUp sz regs.length a)) := by
    rw [M.bind_ok (resolve_ok hea), hd, eaAddr, M.pure_bind, M.bind_ok hload, hdummy]
  refine run_ok ((fetch16_bind_of_ready hr).trans ?_)
  cases ea with
  | pi n => cases hc
  | _ => exact hbody

/-! MOVEP. -/

/-- A byte is never misaligned (20_memory.md R74). -/
theorem movepLoad_ok (dn : Fin 8) (n : Nat) (ks : List Nat) (a : Long) (s : State) :
    movepLoad dn n ks a s = .ok () (s.movepLoaded dn n ks a) := by
  induction ks generalizing a s with
  | nil => rfl
  | cons k ks ih =>
    rw [movepLoad, M.bind_ok (readData_ok rfl), M.upd_bind, ih]
    rfl

theorem movepStore_ok (dn : Fin 8) (n : Nat) (ks : List Nat) (a : Long) (s : State) :
    movepStore dn n ks a s = .ok () (s.movepStored dn n ks a) := by
  induction ks generalizing a s with
  | nil => rfl
  | cons k ks ih =>
    rw [movepStore, M.look_bind, M.bind_ok (writeData_ok rfl), ih]
    rfl

theorem execMovep_memToReg {dn an : Fin 8} (sz : Size) {s : State} (hr : s.streamReady 1 = true) :
    execMovep dn .memToReg sz an s = .next ((s.skip 1).movepLoaded dn (movepIndexes sz).length (movepIndexes sz)
      (s.a[an] + sext16 (s.streamWord 0))) := by
  refine run_ok ((fetch16_bind_of_ready hr).trans ?_)
  rw [M.look_bind, State.skip_a]
  exact movepLoad_ok ..

theorem execMovep_regToMem {dn an : Fin 8} (sz : Size) {s : State} (hr : s.streamReady 1 = true) :
    execMovep dn .regToMem sz an s = .next ((s.skip 1).movepStored dn (movepIndexes sz).length (movepIndexes sz)
      (s.a[an] + sext16 (s.streamWord 0))) := by
  refine run_ok ((fetch16_bind_of_ready hr).trans ?_)
  rw [M.look_bind, State.skip_a]
  exact movepStore_ok ..

/-- Settles O32: the lists are sublists of the two orders, and each form moves one list in one direction. -/
theorem moveMultipleResult : Obligations.MoveMultipleResult := by
  unfold Obligations.MoveMultipleResult
  intro sz dn an s hsz hr
  refine ⟨mem_movemRegs _, maskedFrom_sublist .., maskedFrom_sublist ..,
    ⟨execMovep_memToReg .w hr, execMovep_memToReg .l hr, execMovep_regToMem .w hr, execMovep_regToMem .l hr⟩,
    fun n h => ?_, fun n h => ?_, fun ea a sp hc hea hd => ⟨fun _ h => ?_, fun h => ?_⟩⟩
  · exact execMovemToMem_pd hsz hr h
  · exact execMovemToRegs_pi hsz hr h
  · exact execMovemToMem_control hsz hr hc hea hd h
  · exact execMovemToRegs_control hsz hr hc hea hd h

end Sys2Proof.Machine
end

section
/-! PROOFS. MOVEQ, EXG, SWAP and EXT (42_data_movement.md R203, R208, R209; 43_integer_arithmetic.md R248): their words,
and N and Z of their results read off the operand. -/

namespace Sys2Proof

/-! Words. -/

theorem toNat_append_eq_add {m n : Nat} (x : BitVec m) (y : BitVec n) :
    (x ++ y).toNat = x.toNat * 2 ^ n + y.toNat := by
  rw [BitVec.toNat_append, ← Nat.shiftLeft_add_eq_or_of_lt y.isLt, Nat.shiftLeft_eq]

/-- A word with the value of an instruction's encoding decodes to it. -/
theorem decodeWord_of_toNat {i : Instr} {w : Word} (h : w.toNat = i.opcode) (hi : i.wellFormed = true := by rfl) :
    decodeWord w = some i := by
  obtain rfl : encode i = w := (encode_eq_iff (h ▸ w.isLt)).mpr h
  exact decodeWord_encode i hi

theorem decodeWord_moveq (x : Fin 8) (d8 : Byte) :
    decodeWord (0b0111#4 ++ BitVec.ofFin (w := 3) x ++ 0#1 ++ d8) = some (.moveq x d8) := by
  refine decodeWord_of_toNat ?_
  simp only [toNat_append_eq_add, BitVec.toNat_ofFin, BitVec.toNat_ofNat, Instr.opcode]
  omega

theorem decodeWord_exg (x y : Fin 8) :
    decodeWord (0b1100#4 ++ BitVec.ofFin (w := 3) x ++ 0b101000#6 ++ BitVec.ofFin (w := 3) y) =
        some (.exgDxDy x y) ∧
      decodeWord (0b1100#4 ++ BitVec.ofFin (w := 3) x ++ 0b101001#6 ++ BitVec.ofFin (w := 3) y) =
        some (.exgAxAy x y) ∧
      decodeWord (0b1100#4 ++ BitVec.ofFin (w := 3) x ++ 0b110001#6 ++ BitVec.ofFin (w := 3) y) =
        some (.exgDxAy x y) := by
  refine ⟨decodeWord_of_toNat ?_, decodeWord_of_toNat ?_, decodeWord_of_toNat ?_⟩ <;>
    simp only [toNat_append_eq_add, BitVec.toNat_ofFin, BitVec.toNat_ofNat, Instr.opcode] <;> omega

theorem decodeWord_swap_ext (y : Fin 8) :
    decodeWord (0b0100100001000#13 ++ BitVec.ofFin (w := 3) y) = some (.swap y) ∧
      decodeWord (0b0100100010000#13 ++ BitVec.ofFin (w := 3) y) = some (.extW y) ∧
      decodeWord (0b0100100011000#13 ++ BitVec.ofFin (w := 3) y) = some (.extL y) := by
  refine ⟨decodeWord_of_toNat ?_, decodeWord_of_toNat ?_, decodeWord_of_toNat ?_⟩ <;>
    simp only [toNat_append_eq_add, BitVec.toNat_ofFin, BitVec.toNat_ofNat, Instr.opcode] <;> omega

end Sys2Proof

namespace Sys2Proof.Machine

/-! Flags. -/

theorem msb_swapHalves (v : Long) : msb .l (swapHalves v) = v.getLsbD 15 := by
  rw [msb, swapHalves, joinWords, BitVec.getLsbD_append]
  simp [Size.bits, lowWord]

theorem swapHalves_eq_zero_iff (v : Long) : swapHalves v = 0 ↔ v = 0 := by
  have hv : (swapHalves v).toNat = v.toNat % 2 ^ 16 * 2 ^ 16 + v.toNat / 2 ^ 16 % 2 ^ 16 := by
    rw [swapHalves, joinWords, toNat_append_eq_add, lowWord, highWord, BitVec.toNat_setWidth, BitVec.extractLsb'_toNat,
      Nat.shiftRight_eq_div_pow]
  have hlt := v.isLt
  have hzero : (0 : Long).toNat = 0 := rfl
  rw [← BitVec.toNat_inj, ← BitVec.toNat_inj, hv, hzero]
  omega

/-- N and Z of exchanged halves (R209). -/
theorem nz00_swapHalves (v : Long) (f : Ccr) :
    nz00 .l (swapHalves v) f = ⟨f.x, v.getLsbD 15, decide (v = 0), false, false⟩ := by
  rw [nz00, msb_swapHalves, isZero_eq, low_long, decide_eq_decide.mpr (swapHalves_eq_zero_iff v)]

theorem msb_signExtend {n : Nat} {sz : Size} (hpos : 0 < n) (hn : n ≤ sz.bits) (v : BitVec n) :
    msb sz (v.signExtend 32) = v.getLsbD (n - 1) := by
  have hsz := sz.bits_le
  rw [msb, BitVec.getLsbD_signExtend, decide_eq_true (by omega), Bool.true_and]
  split
  next h => rw [show sz.bits - 1 = n - 1 by omega]
  next h => rw [BitVec.msb_eq_getLsbD_last]

theorem low_signExtend_eq_zero_iff {n : Nat} {sz : Size} (hn : n ≤ sz.bits) (v : BitVec n) :
    low sz (v.signExtend 32) = 0 ↔ v = 0 := by
  constructor
  · intro h
    refine BitVec.eq_of_getLsbD_eq fun k hk => ?_
    have hk' : k < sz.bits := hk.trans_le hn
    have hbit : (low sz (v.signExtend 32)).getLsbD k = v.getLsbD k := by
      rw [low_getLsbD, BitVec.getLsbD_signExtend, decide_eq_true hk', decide_eq_true (hk'.trans_le sz.bits_le),
        if_pos hk, Bool.true_and, Bool.true_and]
    rw [← hbit, h]
    simp
  · rintro rfl
    simp [low, BitVec.signExtend_eq_setWidth_of_msb_false]

/-- N and Z of a sign extension are those of what it extends, at every size that holds it. -/
theorem nz00_signExtend {n : Nat} {sz : Size} (hpos : 0 < n) (hn : n ≤ sz.bits) (v : BitVec n) (f : Ccr) :
    nz00 sz (v.signExtend 32) f = ⟨f.x, v.getLsbD (n - 1), decide (v = 0), false, false⟩ := by
  rw [nz00, msb_signExtend hpos hn, isZero_eq, decide_eq_decide.mpr (low_signExtend_eq_zero_iff hn v)]

theorem nz00_low (sz : Size) (r : Long) (f : Ccr) : nz00 sz (low sz r) f = nz00 sz r f := by
  have hpos := sz.bits_pos
  rw [nz00, nz00, isZero_eq, isZero_eq, low_low, msb, msb, low_getLsbD, decide_eq_true (by omega), Bool.true_and]

/-! Results. -/

theorem execMoveq_eq (x : Fin 8) (d8 : Byte) (s : State) : execMoveq x d8 s =
    .next ((s.setD x (d8.signExtend 32)).setCcr ⟨s.ccr.x, d8.getLsbD 7, decide (d8 = 0), false, false⟩) := by
  rw [← nz00_signExtend (sz := .l) (by decide) (by decide)]
  rfl

theorem execSwap_eq (x : Fin 8) (s : State) : execSwap x s = .next (s.putD x .l
    ⟨swapHalves s.d[x], ⟨s.ccr.x, s.d[x].getLsbD 15, decide (s.d[x] = 0), false, false⟩⟩) := by
  rw [← nz00_swapHalves, State.putD, State.setDw, mergeLow_long]
  rfl

theorem lowByte_getLsbD_seven (v : Long) : (lowByte v).getLsbD 7 = v.getLsbD 7 := by simp [lowByte]

theorem lowWord_getLsbD_fifteen (v : Long) : (lowWord v).getLsbD 15 = v.getLsbD 15 := by simp [lowWord]

theorem execExtW_eq (x : Fin 8) (s : State) : execExtW x s = .next (s.putD x .w
    ⟨(lowByte s.d[x]).signExtend 32, ⟨s.ccr.x, s.d[x].getLsbD 7, decide (lowByte s.d[x] = 0), false, false⟩⟩) := by
  rw [← lowByte_getLsbD_seven, ← nz00_signExtend (sz := .w) (by decide) (by decide), ← nz00_low, State.putD,
    State.setDw, ← mergeLow_low]
  rfl

theorem execExtL_eq (x : Fin 8) (s : State) : execExtL x s = .next (s.putD x .l
    ⟨(lowWord s.d[x]).signExtend 32, ⟨s.ccr.x, s.d[x].getLsbD 15, decide (lowWord s.d[x] = 0), false, false⟩⟩) := by
  rw [← lowWord_getLsbD_fifteen, ← nz00_signExtend (sz := .l) (by decide) (by decide), State.putD, State.setDw,
    mergeLow_long]
  rfl

/-- Settles O25: the words by their encodings, the exchanges by definition, the rest by N and Z of the operand. -/
theorem registerOnlyResult : Obligations.RegisterOnlyResult := by
  unfold Obligations.RegisterOnlyResult
  intro x y d8 s rx ry
  obtain ⟨hdd, haa, hda⟩ := decodeWord_exg x y
  obtain ⟨hswap, hextW, hextL⟩ := decodeWord_swap_ext y
  exact ⟨⟨decodeWord_moveq x d8, hdd, haa, hda, hswap, hextW, hextL⟩, execMoveq_eq x d8 s, rfl, rfl, rfl,
    execSwap_eq x s, execExtW_eq x s, execExtL_eq x s⟩

end Sys2Proof.Machine
end

section
/-! PROOFS. Multiplication, division and CHK (43_integer_arithmetic.md R250–R254). The products fit in 32 bits; a quotient
rounded toward zero is the only one that leaves a remainder smaller than the divisor and of the dividend's sign. -/

namespace Sys2Proof.Machine

/-! Products. -/

/-- N and Z of a long, as an integer (41_flag_model.md R176). -/
theorem nz00_long_toInt (r : Long) (f : Ccr) : nz00 .l r f = ⟨f.x, decide (r.toInt < 0), decide (r = 0), false, false⟩ := by
  rw [nz00_of_low f (low_long r), ← BitVec.msb_eq_toInt, BitVec.msb_eq_getLsbD_last]
  rfl

theorem aluMulu_toNat (src dst : Long) (f : Ccr) :
    (aluMulu src dst f).r.toNat = dst.toNat % 65536 * (src.toNat % 65536) := by
  have hword (v : Long) : (low .w v).toNat = v.toNat % 65536 := low_toNat .w v
  have hlt (v : Long) : (low .w v).toNat < 65536 := toNat_lt_of_low (low_low .w v)
  rw [aluMulu, BitVec.toNat_mul_of_lt (Nat.mul_lt_mul'' (hlt dst) (hlt src)), hword, hword]

theorem signedVal_word (v : Long) : signedVal .w v = (lowWord v).toInt := BitVec.toInt_signExtend_of_le (by decide)

theorem aluMuls_toInt (src dst : Long) (f : Ccr) :
    (aluMuls src dst f).r.toInt = signedVal .w dst * signedVal .w src := by
  have hmul : (aluMuls src dst f).r.toInt = (signedVal .w dst * signedVal .w src).bmod (2 ^ 32) := BitVec.toInt_mul _ _
  have hle : (lowWord dst).toInt * (lowWord src).toInt ≤ 2 ^ 30 := BitVec.toInt_mul_toInt_le
  have hge : -2 ^ 30 ≤ (lowWord dst).toInt * (lowWord src).toInt := BitVec.le_toInt_mul_toInt
  rw [hmul, signedVal_word, signedVal_word]
  exact Int.bmod_eq_of_le_mul_two (by omega) (by omega)

/-- Settles O12: both products fit in 32 bits, the signed one between −2^30 and 2^30. -/
theorem productsAreExact : Obligations.ProductsAreExact := by
  unfold Obligations.ProductsAreExact
  intro src dst f
  refine ⟨aluMulu_toNat src dst f, aluMuls_toInt src dst f, fun o ho => ?_⟩
  rw [List.mem_pair] at ho
  obtain rfl | rfl := ho
  · exact nz00_long_toInt _ f
  · exact nz00_long_toInt _ f

/-! Quotients. -/

/-- The quotient rounded toward zero and its remainder, by what they satisfy. -/
theorem tdiv_tmod_iff {d s q r : Int} (hs : s ≠ 0) :
    d.tdiv s = q ∧ d.tmod s = r ↔ d = q * s + r ∧ |r| < |s| ∧ 0 ≤ r * d := by
  rw [Int.abs_eq_natAbs s, abs_lt, mul_nonneg_iff, mul_comm q s]
  constructor
  · intro h
    rcases le_total 0 d with hd | hd
    · obtain ⟨he, h0, hlt⟩ := (Int.tdiv_tmod_unique hd hs).mp h
      omega
    · obtain ⟨he, hlt, h0⟩ := (Int.tdiv_tmod_unique' hd hs).mp h
      omega
  · rintro ⟨he, ⟨hgt, hlt⟩, ⟨h0, hd⟩ | ⟨h0, hd⟩⟩
    · exact (Int.tdiv_tmod_unique hd hs).mpr ⟨by omega, h0, hlt⟩
    · exact (Int.tdiv_tmod_unique' hd hs).mpr ⟨by omega, hgt, h0⟩

theorem divideUnsigned_of_lt {src dst : Long} (h : dst.toNat / src.toNat < 65536) :
    divideUnsigned src dst = .result (BitVec.ofNat 16 (dst.toNat % src.toNat) ++ BitVec.ofNat 16 (dst.toNat / src.toNat))
      ((dst.toNat / src.toNat).testBit 15) (dst.toNat / src.toNat == 0) := if_neg (by omega)

theorem divideUnsigned_of_le {src dst : Long} (h : 65536 ≤ dst.toNat / src.toNat) :
    divideUnsigned src dst = .overflow := if_pos h

/-- DIVU (R252). -/
theorem divideUnsigned_exact {src dst : Long} (hlt : src.toNat < 65536) (hne : src ≠ 0) :
    (65536 * src.toNat ≤ dst.toNat ∧ divideUnsigned src dst = .overflow) ∨
    ∃ r q : Word, divideUnsigned src dst = .result (r ++ q) (q.getLsbD 15) (decide (q = 0)) ∧
      dst.toNat = q.toNat * src.toNat + r.toNat ∧ r.toNat < src.toNat := by
  have hpos : 0 < src.toNat := Nat.pos_of_ne_zero fun h => hne (BitVec.eq_of_toNat_eq h)
  rcases Nat.lt_or_ge (dst.toNat / src.toNat) 65536 with hfits | hover
  · have hmod : dst.toNat % src.toNat < src.toNat := Nat.mod_lt _ hpos
    have hq : (BitVec.ofNat 16 (dst.toNat / src.toNat)).toNat = dst.toNat / src.toNat := Nat.mod_eq_of_lt hfits
    have hr : (BitVec.ofNat 16 (dst.toNat % src.toNat)).toNat = dst.toNat % src.toNat :=
      Nat.mod_eq_of_lt (hmod.trans hlt)
    refine .inr ⟨BitVec.ofNat 16 (dst.toNat % src.toNat), BitVec.ofNat 16 (dst.toNat / src.toNat), ?_, ?_, ?_⟩
    · simp only [divideUnsigned_of_lt hfits, ← BitVec.testBit_toNat, ← BitVec.toNat_inj, hq]
      rfl
    · rw [hq, hr, Nat.div_add_mod']
    · rwa [hr]
  · exact .inl ⟨(Nat.le_div_iff_mul_le hpos).mp hover, divideUnsigned_of_le hover⟩

theorem divideSigned_of_fits {src dst : Long} {q r : Int}
    (h : dst.toInt.tdiv (signedVal .w src) = q ∧ dst.toInt.tmod (signedVal .w src) = r)
    (hfits : -32768 ≤ q ∧ q ≤ 32767) :
    divideSigned src dst = .result (BitVec.ofInt 16 r ++ BitVec.ofInt 16 q) (decide (q < 0)) (q == 0) := by
  obtain ⟨rfl, rfl⟩ := h
  rw [Int.tmod_def, mul_comm]
  exact if_neg (not_or.mpr ⟨not_lt.mpr hfits.1, not_lt.mpr hfits.2⟩)

theorem divideSigned_of_not_fits {src dst : Long}
    (h : ¬(-32768 ≤ dst.toInt.tdiv (signedVal .w src) ∧ dst.toInt.tdiv (signedVal .w src) ≤ 32767)) :
    divideSigned src dst = .overflow := if_pos ((not_and_or.mp h).imp not_le.mp not_le.mp)

theorem toInt_ofInt_word {n : Int} (hge : -32768 ≤ n) (hle : n ≤ 32767) : (BitVec.ofInt 16 n).toInt = n :=
  BitVec.toInt_ofInt_eq_self (by decide) hge (Int.lt_add_one_of_le hle)

theorem abs_signedVal_word_le (v : Long) : |signedVal .w v| ≤ 32768 := by
  rw [signedVal_word, abs_le]
  exact ⟨(lowWord v).le_toInt, (lowWord v).toInt_lt.le⟩

/-- DIVS (R253). -/
theorem divideSigned_exact {src dst : Long} (hne : signedVal .w src ≠ 0) :
    (divideSigned src dst = .overflow ∧
      ¬∃ q r : Int, dst.toInt = q * signedVal .w src + r ∧ |r| < |signedVal .w src| ∧ 0 ≤ r * dst.toInt ∧
        -32768 ≤ q ∧ q ≤ 32767) ∨
    ∃ r q : Word, divideSigned src dst = .result (r ++ q) (decide (q.toInt < 0)) (decide (q = 0)) ∧
      dst.toInt = q.toInt * signedVal .w src + r.toInt ∧ |r.toInt| < |signedVal .w src| ∧ 0 ≤ r.toInt * dst.toInt := by
  obtain ⟨q, r, hdiv⟩ : ∃ q r, dst.toInt.tdiv (signedVal .w src) = q ∧ dst.toInt.tmod (signedVal .w src) = r :=
    ⟨_, _, rfl, rfl⟩
  by_cases hfits : -32768 ≤ q ∧ q ≤ 32767
  · have hspec := (tdiv_tmod_iff hne).mp hdiv
    have hbound := abs_le.mp (Int.le_sub_one_of_lt (hspec.2.1.trans_le (abs_signedVal_word_le src)))
    have hq := toInt_ofInt_word hfits.1 hfits.2
    have hr : (BitVec.ofInt 16 r).toInt = r := toInt_ofInt_word (by omega) hbound.2
    refine .inr ⟨BitVec.ofInt 16 r, BitVec.ofInt 16 q, ?_, by rwa [hq, hr]⟩
    simp only [divideSigned_of_fits hdiv hfits, ← BitVec.toInt_inj, hq]
    rfl
  · refine .inl ⟨divideSigned_of_not_fits (hdiv.1 ▸ hfits), ?_⟩
    rintro ⟨q', r', he, hr, hsign, hq'⟩
    have hsame : q = q' := hdiv.1.symm.trans ((tdiv_tmod_iff hne).mpr ⟨he, hr, hsign⟩).1
    exact hfits (hsame ▸ hq')

/-- Settles O13: DIVU by division with remainder, DIVS by the one quotient that leaves a remainder as R253 asks. -/
theorem divisionsAreExact : Obligations.DivisionsAreExact := by
  unfold Obligations.DivisionsAreExact
  exact ⟨fun _ _ hlt hne => divideUnsigned_exact hlt hne, fun _ _ hne => divideSigned_exact hne⟩

/-! Multiplication and division, instruction by instruction. -/

theorem run_readEa_bind {ea : Ea} {sz : Size} {f : Long → M Unit} {s : State} (hea : s.eaReady ea sz = true) :
    run (readEa ea sz >>= f) s = run (f (s.eaValue ea sz)) (s.afterReadEa ea sz) := by
  rw [run, M.bind_ok (readEa_ok hea), run]

@[simp] theorem State.afterReadEa_draws (s : State) (ea : Ea) (sz : Size) : (s.afterReadEa ea sz).draws = s.draws := by
  simp [State.afterReadEa]

@[simp] theorem State.drawn_drawn (s : State) (m n : Nat) : (s.drawn m).drawn n = s.drawn (m + n) := by
  simp [State.drawn, Nat.add_assoc]

theorem run_multiplyBody {f : Long → Long → Ccr → Alu} {dn : Fin 8} {ea : Ea} {s : State}
    (hea : s.eaReady ea .w = true) :
    run (multiplyBody f dn ea) s = .next ((s.afterReadEa ea .w).putD dn .l (f (s.eaValue ea .w) s.d[dn] s.ccr)) := by
  rw [multiplyBody, run_readEa_upd hea, State.afterReadEa_ccr]
  simp only [State.afterReadEa_d, State.putD, State.setDw, mergeLow_long]

theorem run_divideBody {f : Long → Long → Division} {dn : Fin 8} {ea : Ea} {s : State} (hea : s.eaReady ea .w = true)
    (hne : isZero .w (s.eaValue ea .w) = false) :
    run (divideBody f dn ea) s = run (writeDivision dn (f (s.eaValue ea .w) s.d[dn])) (s.afterReadEa ea .w) := by
  rw [divideBody, run_readEa_bind hea, hne]
  simp only [run, M.look_bind, State.afterReadEa_d]

/-- Settles O26: both products are one body and both quotients another, whose overflow draws N and Z. -/
theorem multiplyDivideResult : Obligations.MultiplyDivideResult := by
  unfold Obligations.MultiplyDivideResult
  intro dn ea s hea t
  refine ⟨run_multiplyBody hea, run_multiplyBody hea, ?_⟩
  intro hne after
  have hwrite : ∀ o, run (writeDivision dn o) t = .next (after o) := by
    intro o
    have hccr : t.ccr = s.ccr := State.afterReadEa_ccr s ea .w
    have hdraws : t.draws = s.draws := State.afterReadEa_draws s ea .w
    cases o with
    | overflow => simp [writeDivision, run, after, hccr, hdraws]
    | result r n z => simp [writeDivision, run, after, hccr]
  exact ⟨(run_divideBody hea hne).trans (hwrite _), (run_divideBody hea hne).trans (hwrite _)⟩

/-! The zero divide and CHK. -/

@[simp] theorem State.entryReady_setCcr (s : State) (c : Ccr) (v : Byte) :
    (s.setCcr c).entryReady v = s.entryReady v := rfl

@[simp] theorem State.entryReady_drawn (s : State) (n : Nat) (v : Byte) :
    (s.drawn n).entryReady v = s.entryReady v := rfl

theorem run_raise {m : M Unit} {s t : State} {v : Byte} {p : Long} (hm : m s = .error (.exception v p) t)
    (ht : t.entryReady v = true) : run m s = .next (t.entry v p none) := (run_exception hm).trans (takeException_ok ht)

theorem run_zeroDivide {s : State} (h : s.entryReady 5 = true) :
    run zeroDivide s = .next (((s.drawn 3).setCcr ⟨s.ccr.x, Config.freeBit s.draws, Config.freeBit (s.draws + 1),
      Config.freeBit (s.draws + 2), false⟩).entry 5 s.pc none) := by
  refine run_raise ?_ h
  simp [zeroDivide, raise]

theorem run_divideBody_zero {f : Long → Long → Division} {dn : Fin 8} {ea : Ea} {s : State}
    (hea : s.eaReady ea .w = true) (hz : isZero .w (s.eaValue ea .w) = true) :
    run (divideBody f dn ea) s = run zeroDivide (s.afterReadEa ea .w) := by rw [divideBody, run_readEa_bind hea, hz]

section
variable {dn : Fin 8} {ea : Ea} {s : State}

/-- CHK out of bounds: N says which bound is broken (R254). -/
theorem execChk_traps {n : Bool} (hea : s.eaReady ea .w = true)
    (hout : n = true ∧ signedVal .w s.d[dn] < 0 ∨
      n = false ∧ 0 ≤ signedVal .w s.d[dn] ∧ signedVal .w (s.eaValue ea .w) < signedVal .w s.d[dn])
    (hready : (s.afterReadEa ea .w).entryReady 6 = true) :
    execChk dn ea s = .next ((((s.afterReadEa ea .w).drawn 3).setCcr ⟨s.ccr.x, n, Config.freeBit s.draws,
      Config.freeBit (s.draws + 1), Config.freeBit (s.draws + 2)⟩).entry 6 (s.afterReadEa ea .w).pc none) := by
  rw [execChk, run_readEa_bind hea]
  refine run_raise ?_ hready
  rcases hout with ⟨rfl, hv⟩ | ⟨rfl, hv, hb⟩
  · simp [raise, hv, -Fin.getElem_fin]
  · simp [raise, not_lt.mpr hv, hb, -Fin.getElem_fin]

/-- CHK in bounds (R254). -/
theorem execChk_within (hea : s.eaReady ea .w = true) (hv : 0 ≤ signedVal .w s.d[dn])
    (hb : signedVal .w s.d[dn] ≤ signedVal .w (s.eaValue ea .w)) :
    execChk dn ea s = .next (((s.afterReadEa ea .w).drawn 4).setCcr ⟨s.ccr.x, Config.freeBit (s.draws + 3),
      Config.freeBit s.draws, Config.freeBit (s.draws + 1), Config.freeBit (s.draws + 2)⟩) := by
  rw [execChk, run_readEa_bind hea]
  refine run_ok ?_
  simp [not_lt.mpr hv, not_lt.mpr hb, -Fin.getElem_fin]

end

/-- Settles O27: the draws and the flags come before the raise, so the entry is from the state they leave. -/
theorem divideByZeroAndCheck : Obligations.DivideByZeroAndCheck := by
  unfold Obligations.DivideByZeroAndCheck
  intro dn ea s hea t free zd ck v b
  refine ⟨fun hz hready => ?_, fun hv => execChk_traps hea (.inl ⟨rfl, hv⟩),
    fun hv hb => execChk_traps hea (.inr ⟨rfl, hv, hb⟩), execChk_within hea⟩
  have hzero : run zeroDivide t = .next (zd.entry 5 t.pc none) := by
    have hccr : t.ccr = s.ccr := State.afterReadEa_ccr s ea .w
    have hdraws : t.draws = s.draws := State.afterReadEa_draws s ea .w
    rw [run_zeroDivide (s := t) hready, hccr, hdraws]
    rfl
  exact ⟨(run_divideBody_zero hea hz).trans hzero, (run_divideBody_zero hea hz).trans hzero⟩

end Sys2Proof.Machine
end
section
/-! PROOFS. Shifts and rotates (45_shift_rotate.md R285–R293). Each rule, said for counts of at least 1, gives the value
itself at count 0, so results have one form for every count. Moved bits are followed one by one, C and X among them;
an arithmetic shift is that of the sign-extended operand. -/

namespace Sys2Proof

theorem low_toNat_testBit (sz : Size) (v : Long) (k : Nat) :
    (low sz v).toNat.testBit k = (decide (k < sz.bits) && v.getLsbD k) := by rw [BitVec.testBit_toNat, low_getLsbD]

/-- Sign extension repeats the top bit of the size. -/
theorem sextSize_getLsbD (sz : Size) (v : Long) {k : Nat} (hk : k < 32) :
    (sextSize sz v).getLsbD k = v.getLsbD (min k (sz.bits - 1)) := by
  cases sz with
  | b | w =>
    simp only [sextSize, sext8, sext16, lowByte, lowWord, Size.bits, BitVec.getLsbD_signExtend, BitVec.msb_setWidth,
      BitVec.getLsbD_setWidth, hk, decide_true, Bool.true_and]
    split
    next h => rw [decide_eq_true h, Bool.true_and, min_eq_left (by omega)]
    next h => rw [min_eq_right (by omega)]; rfl
  | l => rw [show Size.l.bits = 32 from rfl, min_eq_left (Nat.le_sub_one_of_lt hk)]; rfl

end Sys2Proof

namespace Sys2Proof.Machine

section
variable {w v n k : Nat}

/-! The rules on values of `w` bits. -/

theorem testBit_arithmeticRight (hv : v < 2 ^ w) (hk : k < w) :
    (arithmeticRight w v n).testBit k = v.testBit (min (n + k) (w - 1)) := by
  have hshift : (2 ^ w - 1) >>> n < 2 ^ w := (Nat.shiftRight_le _ _).trans_lt (Nat.sub_lt (Nat.two_pow_pos w) one_pos)
  have hfill : (2 ^ w - 1 - (2 ^ w - 1) >>> n).testBit k = !decide (n + k < w) := by
    rw [Nat.sub_sub, Nat.add_comm, Nat.testBit_two_pow_sub_succ hshift, Nat.testBit_shiftRight,
      Nat.testBit_two_pow_sub_one, decide_eq_true hk, Bool.true_and]
  rcases Nat.lt_or_ge (n + k) w with hin | hout
  · rw [min_eq_left (by omega), arithmeticRight]
    split <;> simp [hfill, hin]
  · have hzero : v.testBit (n + k) = false :=
      Nat.testBit_lt_two_pow (hv.trans_le (Nat.pow_le_pow_right (by decide) hout))
    rw [min_eq_right (by omega), arithmeticRight]
    split
    next htop => simp [hfill, hout, htop]
    next htop => simp [hzero, htop]

theorem arithmeticRight_lt (hv : v < 2 ^ w) : arithmeticRight w v n < 2 ^ w := by
  have hshift : v >>> n < 2 ^ w := (Nat.shiftRight_le _ _).trans_lt hv
  have hfill : 2 ^ w - 1 - (2 ^ w - 1) >>> n < 2 ^ w :=
    (Nat.sub_le ..).trans_lt (Nat.sub_lt (Nat.two_pow_pos w) one_pos)
  unfold arithmeticRight
  split
  · exact Nat.or_lt_two_pow hshift hfill
  · exact hshift

theorem testBit_rotateLeft (hv : v < 2 ^ w) (hk : k < w) :
    (rotateLeft w v (n % w)).testBit ((k + n) % w) = v.testBit k := by
  have hr : n % w < w := Nat.mod_lt _ (by omega)
  have hhigh : v.testBit (w + k) = false :=
    Nat.testBit_lt_two_pow (hv.trans_le (Nat.pow_le_pow_right (by decide) (by omega)))
  rw [← Nat.add_mod_mod]
  generalize n % w = r at hr ⊢
  rcases Nat.lt_or_ge (k + r) w with hin | hout
  · rw [Nat.mod_eq_of_lt hin]
    simp [rotateLeft, Nat.testBit_shiftRight, hin, hhigh, show w - r + (k + r) = w + k by omega]
  · rw [Nat.mod_eq_sub_mod hout, Nat.mod_eq_of_lt (by omega)]
    simp [rotateLeft, Nat.testBit_shiftRight, show k + r - w < w by omega, show ¬r ≤ k + r - w by omega,
      show w - r + (k + r - w) = k by omega]

theorem testBit_rotateRight (hv : v < 2 ^ w) (hk : k < w) :
    (rotateRight w v (n % w)).testBit k = v.testBit ((k + n) % w) := by
  have hr : n % w < w := Nat.mod_lt _ (by omega)
  rw [← Nat.add_mod_mod]
  generalize n % w = r at hr ⊢
  rcases Nat.lt_or_ge (k + r) w with hin | hout
  · rw [Nat.mod_eq_of_lt hin]
    simp [rotateRight, Nat.testBit_shiftRight, hk, show ¬w - r ≤ k by omega, Nat.add_comm]
  · have hhigh : v.testBit (r + k) = false :=
      Nat.testBit_lt_two_pow (hv.trans_le (Nat.pow_le_pow_right (by decide) (by omega)))
    rw [Nat.mod_eq_sub_mod hout, Nat.mod_eq_of_lt (by omega)]
    simp [rotateRight, Nat.testBit_shiftRight, hk, hhigh, show w - r ≤ k by omega,
      show k - (w - r) = k + r - w by omega]

/-- The bits that ASL by `n < w` moves through the sign are equal exactly for the values next to 0 and to `2^w`. -/
theorem allEqual_top (hv : v < 2 ^ w) (hn : n < w) :
    allEqual v (w - 1) (w - 1 - n) = decide (v < 2 ^ (w - 1 - n) ∨ 2 ^ w - 2 ^ (w - 1 - n) ≤ v) := by
  have hsplit : 2 ^ w = 2 ^ (n + 1) * 2 ^ (w - 1 - n) := by rw [← Nat.pow_add]; congr 1; omega
  have hpos := Nat.two_pow_pos (w - 1 - n)
  have hlt : v / 2 ^ (w - 1 - n) < 2 ^ (n + 1) := (Nat.div_lt_iff_lt_mul hpos).mpr (hsplit ▸ hv)
  have hzero : v / 2 ^ (w - 1 - n) = 0 ↔ v < 2 ^ (w - 1 - n) := Nat.div_eq_zero_iff_lt hpos
  have hones : 2 ^ (n + 1) - 1 ≤ v / 2 ^ (w - 1 - n) ↔ 2 ^ w - 2 ^ (w - 1 - n) ≤ v := by
    rw [Nat.le_div_iff_mul_le hpos, Nat.sub_mul, Nat.one_mul, hsplit]
  rw [allEqual, show w - 1 + 1 - (w - 1 - n) = n + 1 by omega, Nat.shiftRight_eq_div_pow, Nat.mod_eq_of_lt hlt,
    Bool.eq_iff_iff]
  simp only [Bool.or_eq_true, beq_iff_eq, decide_eq_true_eq]
  omega

/-- A signed product by `2^n` leaves `w` bits exactly when the factor leaves the `w - n` upper ones. -/
theorem mul_two_pow_overflows (hn : n < w) (a : Int) : a * 2 ^ n < -2 ^ (w - 1) ∨ 2 ^ (w - 1) ≤ a * 2 ^ n ↔
    a < -2 ^ (w - 1 - n) ∨ 2 ^ (w - 1 - n) ≤ a := by
  have hsplit : (2 : Int) ^ (w - 1) = 2 ^ (w - 1 - n) * 2 ^ n := by rw [← pow_add]; congr 1; omega
  have hpos : (0 : Int) < 2 ^ n := by positivity
  rw [hsplit, ← neg_mul, mul_lt_mul_iff_left₀ hpos, mul_le_mul_iff_left₀ hpos]

theorem mul_two_pow_overflows_of_le (hw : 0 < w) (hn : w ≤ n) (a : Int) :
    a * 2 ^ n < -2 ^ (w - 1) ∨ 2 ^ (w - 1) ≤ a * 2 ^ n ↔ a ≠ 0 := by
  have hhalf : (0 : Int) < 2 ^ (w - 1) := by positivity
  have hle : (2 : Int) ^ (w - 1) < 2 ^ n := pow_lt_pow_right₀ (by decide) (by omega)
  rcases lt_trichotomy a 0 with ha | rfl | ha
  · have : a * 2 ^ n ≤ -1 * 2 ^ n := Int.mul_le_mul_of_nonneg_right (by omega) (by positivity)
    omega
  · omega
  · have : 1 * 2 ^ n ≤ a * 2 ^ n := Int.mul_le_mul_of_nonneg_right (by omega) (by positivity)
    omega

theorem rotateLeft_zero (hv : v < 2 ^ w) : rotateLeft w v 0 = v := by
  rw [rotateLeft, Nat.sub_zero, Nat.shiftLeft_zero, Nat.shiftRight_eq_div_pow, Nat.div_eq_of_lt hv, Nat.or_zero,
    Nat.mod_eq_of_lt hv]

theorem rotateRight_zero (hv : v < 2 ^ w) : rotateRight w v 0 = v := by
  rw [rotateRight, Nat.or_mod_two_pow, Nat.sub_zero, Nat.shiftRight_zero, Nat.shiftLeft_eq, Nat.mul_mod_left, Nat.or_zero,
    Nat.mod_eq_of_lt hv]

theorem extendedValue_eq (w v : Nat) (x : Bool) : extendedValue w v x = 2 ^ w * x.toNat + v := by
  cases x <;> simp [extendedValue]

theorem extendedValue_lt (hv : v < 2 ^ w) (x : Bool) : extendedValue w v x < 2 ^ (w + 1) := by
  rw [extendedValue, Nat.pow_succ]
  split <;> omega

/-- X stands on top of the value (R292). -/
theorem testBit_extendedValue (hv : v < 2 ^ w) (x : Bool) (hk : k ≤ w) :
    (extendedValue w v x).testBit k = if k = w then x else v.testBit k := by
  rw [extendedValue_eq, Nat.testBit_two_pow_mul_add _ hv]
  rcases hk.lt_or_eq with hlt | rfl
  · rw [if_pos hlt, if_neg hlt.ne]
  · cases x <;> simp

/-- A shift by 0 gives the value itself by every rule. -/
theorem ShiftOp.apply_zero (op : ShiftOp) (hv : v < 2 ^ w) (x : Bool) : (op.apply w v 0 x).r = v := by
  have hext : extendedValue w v x % 2 ^ w = v := by rw [extendedValue_eq, Nat.mul_add_mod, Nat.mod_eq_of_lt hv]
  cases op with
  | asl | lsl => exact Nat.mod_eq_of_lt hv
  | asr => simp [apply, shiftAsr, arithmeticRight]
  | lsr => rfl
  | rol => simp only [apply, shiftRol, Nat.zero_mod, rotateLeft_zero hv]
  | ror => simp only [apply, shiftRor, Nat.zero_mod, rotateRight_zero hv]
  | roxl => simp only [apply, shiftRoxl, Nat.zero_mod, rotateLeft_zero (extendedValue_lt hv x), hext]
  | roxr => simp only [apply, shiftRoxr, Nat.zero_mod, rotateRight_zero (extendedValue_lt hv x), hext]

/-- A rotate through X by 0 gives X itself. -/
theorem ShiftOp.apply_zero_x {op : ShiftOp} (hop : op = .roxl ∨ op = .roxr) (hv : v < 2 ^ w) (x : Bool) :
    (op.apply w v 0 x).x = x := by
  have htop : (extendedValue w v x).testBit w = x := (testBit_extendedValue hv x le_rfl).trans (if_pos rfl)
  rcases hop with rfl | rfl
  · simp only [apply, shiftRoxl, Nat.zero_mod, rotateLeft_zero (extendedValue_lt hv x), htop]
  · simp only [apply, shiftRoxr, Nat.zero_mod, rotateRight_zero (extendedValue_lt hv x), htop]

theorem ShiftOp.apply_lt (op : ShiftOp) (hv : v < 2 ^ w) (x : Bool) : (op.apply w v n x).r < 2 ^ w := by
  cases op with
  | asr => exact arithmeticRight_lt hv
  | lsr => exact (Nat.shiftRight_le ..).trans_lt hv
  | _ => exact Nat.mod_lt _ (Nat.two_pow_pos w)

end

section
variable (op : ShiftOp) (sz : Size) (n : Nat) (v : Long) (f : Ccr)

/-! A shift of an operand: the result and the flags for every count. -/

theorem low_toNat_lt : (low sz v).toNat < 2 ^ sz.bits := toNat_lt_of_low (low_low sz v)

theorem aluShift_toNat : (aluShift op sz n v f).r.toNat = (op.apply sz.bits (low sz v).toNat n f.x).r := by
  have hlt : (op.apply sz.bits (low sz v).toNat n f.x).r < 2 ^ 32 :=
    (op.apply_lt (low_toNat_lt sz v) f.x).trans_le (Nat.pow_le_pow_right (by decide) sz.bits_le)
  have hr : (aluShift op sz n v f).r = BitVec.ofNat 32 (op.apply sz.bits (low sz v).toNat n f.x).r := by
    rw [aluShift]
    split
    next h => rw [h, op.apply_zero (low_toNat_lt sz v)]; rfl
    next => rfl
  rw [hr, BitVec.toNat_ofNat, Nat.mod_eq_of_lt hlt]

theorem aluShift_getLsbD (k : Nat) :
    (aluShift op sz n v f).r.getLsbD k = (op.apply sz.bits (low sz v).toNat n f.x).r.testBit k := by
  rw [← BitVec.testBit_toNat, aluShift_toNat]

theorem low_aluShift : low sz (aluShift op sz n v f).r = (aluShift op sz n v f).r := by
  apply BitVec.eq_of_toNat_eq
  rw [low_toNat, aluShift_toNat, Nat.mod_eq_of_lt (op.apply_lt (low_toNat_lt sz v) f.x)]

theorem aluShift_c : (aluShift op sz n v f).ccr.c =
    if n = 0 then op.throughX && f.x else (op.apply sz.bits (low sz v).toNat n f.x).c := by
  rw [aluShift, apply_ite Shifted.c]; rfl

theorem aluShift_v : (aluShift op sz n v f).ccr.v =
    if n = 0 then false else (op.apply sz.bits (low sz v).toNat n f.x).v := by
  rw [aluShift, apply_ite Shifted.v]; rfl

theorem aluShift_x : (aluShift op sz n v f).ccr.x =
    if n = 0 then f.x else (op.apply sz.bits (low sz v).toNat n f.x).x := by
  rw [aluShift, apply_ite Shifted.x]; rfl

theorem aluShift_z : (aluShift op sz n v f).ccr.z = decide ((aluShift op sz n v f).r = 0) :=
  isZero_of_low (low_aluShift op sz n v f)

/-- Only ASL can set V (R286). -/
theorem aluShift_v_of_ne_asl (h : op ≠ .asl) : (aluShift op sz n v f).ccr.v = false := by
  rw [aluShift_v]
  cases op with
  | asl => exact absurd rfl h
  | _ => exact ite_self _

/-! Shifts. -/

theorem aluShift_left_toNat {op : ShiftOp} (hop : op = .asl ∨ op = .lsl) :
    (aluShift op sz n v f).r.toNat = (low sz v).toNat * 2 ^ n % 2 ^ sz.bits := by
  rw [aluShift_toNat, ← Nat.shiftLeft_eq]
  rcases hop with rfl | rfl <;> rfl

theorem aluShift_lsr_toNat : (aluShift .lsr sz n v f).r.toNat = (low sz v).toNat / 2 ^ n := by
  rw [aluShift_toNat, ← Nat.shiftRight_eq_div_pow]
  rfl

/-- ASR of a size is the arithmetic shift of the sign-extended operand. -/
theorem sextSize_aluShift_asr : sextSize sz (aluShift .asr sz n v f).r = (sextSize sz v).sshiftRight n := by
  have hpos := sz.bits_pos
  have hle := sz.bits_le
  refine BitVec.eq_of_getLsbD_eq fun k hk => ?_
  have hbit : (aluShift .asr sz n v f).r.getLsbD (min k (sz.bits - 1)) =
      v.getLsbD (min (n + min k (sz.bits - 1)) (sz.bits - 1)) := by
    rw [aluShift_getLsbD]
    change (arithmeticRight ..).testBit _ = _
    rw [testBit_arithmeticRight (low_toNat_lt sz v) (by omega), low_toNat_testBit, decide_eq_true (by omega),
      Bool.true_and]
  have hmsb : (sextSize sz v).msb = v.getLsbD (sz.bits - 1) := by
    rw [BitVec.msb_eq_getLsbD_last, sextSize_getLsbD sz v (by omega), min_eq_right (by omega)]
  rw [sextSize_getLsbD sz _ hk, hbit, BitVec.getLsbD_sshiftRight, hmsb, decide_eq_false (by omega), Bool.not_false,
    Bool.true_and]
  split
  next h => rw [sextSize_getLsbD sz v h]; congr 1; omega
  next h => congr 1; omega

theorem signedVal_aluShift_asr : signedVal sz (aluShift .asr sz n v f).r = signedVal sz v / 2 ^ n := by
  rw [signedVal, sextSize_aluShift_asr, BitVec.toInt_sshiftRight, Int.shiftRight_eq_div_pow, Nat.cast_pow]
  rfl

theorem aluShift_left_c {op : ShiftOp} (hop : op = .asl ∨ op = .lsl) : (aluShift op sz n v f).ccr.c =
    (decide (0 < n) && decide (n ≤ sz.bits) && v.getLsbD (sz.bits - n)) := by
  have hrule : (op.apply sz.bits (low sz v).toNat n f.x).c =
      if n ≤ sz.bits then (low sz v).toNat.testBit (sz.bits - n) else false := by rcases hop with rfl | rfl <;> rfl
  have hx : op.throughX = false := by rcases hop with rfl | rfl <;> rfl
  rw [aluShift_c, hrule, hx, low_toNat_testBit]
  rcases Nat.eq_zero_or_pos n with rfl | hn
  · rfl
  · have hlt : sz.bits - n < sz.bits := Nat.sub_lt sz.bits_pos hn
    simp [hn, hn.ne', hlt]

theorem aluShift_lsr_c : (aluShift .lsr sz n v f).ccr.c =
    (decide (0 < n) && decide (n ≤ sz.bits) && v.getLsbD (n - 1)) := by
  rw [aluShift_c]
  rcases Nat.eq_zero_or_pos n with rfl | hn
  · rfl
  · rw [if_neg hn.ne', decide_eq_true hn, Bool.true_and, ShiftOp.apply, shiftLsr]
    dsimp only
    rw [low_toNat_testBit]
    split
    next h => rw [decide_eq_true h, decide_eq_true (by omega), Bool.true_and]
    next h => rw [decide_eq_false h, Bool.false_and]

theorem aluShift_asr_c : (aluShift .asr sz n v f).ccr.c = (decide (0 < n) && v.getLsbD (min n sz.bits - 1)) := by
  have hpos := sz.bits_pos
  rw [aluShift_c]
  rcases Nat.eq_zero_or_pos n with rfl | hn
  · rfl
  · rw [if_neg hn.ne', decide_eq_true hn, Bool.true_and, ShiftOp.apply, shiftAsr]
    dsimp only
    rw [low_toNat_testBit, decide_eq_true (by omega), Bool.true_and]

theorem aluShift_shift_x {op : ShiftOp} (hop : op ∈ [ShiftOp.asl, .lsl, .lsr, .asr]) :
    (aluShift op sz n v f).ccr.x = if n = 0 then f.x else (aluShift op sz n v f).ccr.c := by
  rw [aluShift_x, aluShift_c]
  split
  · rfl
  · simp only [List.mem_cons, List.not_mem_nil, or_false] at hop
    rcases hop with rfl | rfl | rfl | rfl <;> rfl

theorem signedVal_low : signedVal sz (low sz v) = signedVal sz v := by
  rw [signedVal_eq, signedVal_eq, msb_eq, msb_eq, low_low]

theorem signedVal_outside_iff {m : Nat} (hm : m ≤ 2 ^ (sz.bits - 1)) : signedVal sz v < -m ∨ m ≤ signedVal sz v ↔
    m ≤ (low sz v).toNat ∧ (low sz v).toNat < 2 ^ sz.bits - m := by
  have hlt := low_toNat_lt sz v
  rw [two_pow_bits] at hlt
  rw [← signedVal_low, signedVal_of_low (low_low sz v), two_pow_eq_cast, two_pow_bits]
  split <;> omega

theorem signedVal_eq_zero_iff : signedVal sz v = 0 ↔ (low sz v).toNat = 0 := by
  have hlt := low_toNat_lt sz v
  rw [two_pow_bits] at hlt
  rw [← signedVal_low, signedVal_of_low (low_low sz v), two_pow_eq_cast]
  split <;> omega

/-- V of ASL as R286 states it, by the bits that pass the sign, is the overflow of the signed product. -/
theorem aluShift_asl_v : (aluShift .asl sz n v f).ccr.v =
    decide (signedVal sz v * 2 ^ n < -2 ^ (sz.bits - 1) ∨ 2 ^ (sz.bits - 1) ≤ signedVal sz v * 2 ^ n) := by
  rw [aluShift_v]
  rcases Nat.lt_or_ge n sz.bits with hn | hn
  · have hhalf : 2 ^ (sz.bits - 1 - n) ≤ 2 ^ (sz.bits - 1) := Nat.pow_le_pow_right (by decide) (Nat.sub_le ..)
    have hrule : (ShiftOp.asl.apply sz.bits (low sz v).toNat n f.x).v =
        !allEqual (low sz v).toNat (sz.bits - 1) (sz.bits - 1 - n) := if_pos hn
    have hover := mul_two_pow_overflows hn (signedVal sz v)
    rw [two_pow_eq_cast (sz.bits - 1 - n), signedVal_outside_iff sz v hhalf] at hover
    rw [hrule, allEqual_top (low_toNat_lt sz v) hn, Bool.eq_iff_iff, decide_eq_true_eq, hover]
    rcases Nat.eq_zero_or_pos n with hzero | hpos
    · have hbits := two_pow_bits sz
      rw [if_pos hzero, hzero, Nat.sub_zero, Bool.false_eq_true, false_iff]
      omega
    · rw [if_neg hpos.ne', Bool.not_eq_true', decide_eq_false_iff_not]
      omega
  · have hrule : (ShiftOp.asl.apply sz.bits (low sz v).toNat n f.x).v = ((low sz v).toNat != 0) := if_neg hn.not_gt
    have hover := mul_two_pow_overflows_of_le sz.bits_pos hn (signedVal sz v)
    rw [if_neg (sz.bits_pos.trans_le hn).ne', hrule, Bool.eq_iff_iff, decide_eq_true_eq, hover, Ne,
      signedVal_eq_zero_iff, bne_iff_ne]

/-! Rotates. -/

theorem aluShift_rol_getLsbD {k : Nat} (hk : k < sz.bits) :
    (aluShift .rol sz n v f).r.getLsbD ((k + n) % sz.bits) = v.getLsbD k := by
  rw [aluShift_getLsbD]
  change (rotateLeft ..).testBit _ = _
  rw [testBit_rotateLeft (low_toNat_lt sz v) hk, low_toNat_testBit, decide_eq_true hk, Bool.true_and]

theorem aluShift_ror_getLsbD {k : Nat} (hk : k < sz.bits) :
    (aluShift .ror sz n v f).r.getLsbD k = v.getLsbD ((k + n) % sz.bits) := by
  rw [aluShift_getLsbD]
  change (rotateRight ..).testBit _ = _
  rw [testBit_rotateRight (low_toNat_lt sz v) hk, low_toNat_testBit, decide_eq_true (Nat.mod_lt _ sz.bits_pos),
    Bool.true_and]

/-- A rule that takes C from a bit of its result, the last bit moved (R290, R291). -/
theorem aluShift_c_of_bit {op : ShiftOp} {b : Nat} (hx : op.throughX = false)
    (hc : ∀ u x, (op.apply sz.bits u n x).c = (op.apply sz.bits u n x).r.testBit b) :
    (aluShift op sz n v f).ccr.c = (decide (0 < n) && (aluShift op sz n v f).r.getLsbD b) := by
  rw [aluShift_c, aluShift_getLsbD, hx, hc]
  rcases Nat.eq_zero_or_pos n with rfl | hn
  · rfl
  · rw [if_neg hn.ne', decide_eq_true hn, Bool.true_and]

theorem aluShift_throughX_x {op : ShiftOp} (hop : op = .roxl ∨ op = .roxr) :
    (aluShift op sz n v f).ccr.x = (op.apply sz.bits (low sz v).toNat n f.x).x := by
  rw [aluShift_x]
  split
  next h => rw [h, ShiftOp.apply_zero_x hop (low_toNat_lt sz v)]
  next => rfl

theorem aluShift_throughX_c {op : ShiftOp} (hop : op = .roxl ∨ op = .roxr) :
    (aluShift op sz n v f).ccr.c = (aluShift op sz n v f).ccr.x := by
  rw [aluShift_c, aluShift_x]
  rcases hop with rfl | rfl <;> rfl

/-- The bits of a result with X on top of them are those of the `w + 1` bits that the rule leaves (R292, R293). -/
theorem aluShift_extended_bit {op : ShiftOp} (hop : op = .roxl ∨ op = .roxr) {t k : Nat} (hk : k ≤ sz.bits)
    (hr : (op.apply sz.bits (low sz v).toNat n f.x).r = t % 2 ^ sz.bits)
    (hx : (op.apply sz.bits (low sz v).toNat n f.x).x = t.testBit sz.bits) :
    (if k = sz.bits then (aluShift op sz n v f).ccr.x else (aluShift op sz n v f).r.getLsbD k) = t.testBit k := by
  rw [aluShift_getLsbD, hr, aluShift_throughX_x sz n v f hop, hx, Nat.testBit_mod_two_pow]
  split
  next h => rw [h]
  next h => rw [decide_eq_true (by omega), Bool.true_and]

/-- The operand's bits with X on top. -/
theorem extendedOperand_testBit {k : Nat} (hk : k ≤ sz.bits) :
    (extendedValue sz.bits (low sz v).toNat f.x).testBit k = if k = sz.bits then f.x else v.getLsbD k := by
  rw [testBit_extendedValue (low_toNat_lt sz v) f.x hk, low_toNat_testBit]
  split
  next => rfl
  next h => rw [decide_eq_true (by omega), Bool.true_and]

theorem extendedOperand_lt : extendedValue sz.bits (low sz v).toNat f.x < 2 ^ (sz.bits + 1) :=
  extendedValue_lt (low_toNat_lt sz v) f.x

theorem extended_index_le (k : Nat) : (k + n) % (sz.bits + 1) ≤ sz.bits :=
  Nat.le_of_lt_succ (Nat.mod_lt _ (Nat.succ_pos _))

theorem aluShift_roxl_bit {k : Nat} (hk : k ≤ sz.bits) :
    (if (k + n) % (sz.bits + 1) = sz.bits then (aluShift .roxl sz n v f).ccr.x
      else (aluShift .roxl sz n v f).r.getLsbD ((k + n) % (sz.bits + 1))) =
        if k = sz.bits then f.x else v.getLsbD k := by
  rw [aluShift_extended_bit sz n v f (.inl rfl) (extended_index_le sz n k) rfl rfl,
    testBit_rotateLeft (extendedOperand_lt sz v f) (Nat.lt_succ_of_le hk), extendedOperand_testBit sz v f hk]

theorem aluShift_roxr_bit {k : Nat} (hk : k ≤ sz.bits) :
    (if k = sz.bits then (aluShift .roxr sz n v f).ccr.x else (aluShift .roxr sz n v f).r.getLsbD k) =
      if (k + n) % (sz.bits + 1) = sz.bits then f.x else v.getLsbD ((k + n) % (sz.bits + 1)) := by
  rw [aluShift_extended_bit sz n v f (.inr rfl) hk rfl rfl,
    testBit_rotateRight (extendedOperand_lt sz v f) (Nat.lt_succ_of_le hk),
    extendedOperand_testBit sz v f (extended_index_le sz n k)]

end

/-- Settles O14: each result, and each C, by its own rule; V of ASL by the bits that pass the sign. -/
theorem shiftsAreExact : Obligations.ShiftsAreExact := by
  unfold Obligations.ShiftsAreExact
  intro sz n v f
  refine ⟨aluShift_left_toNat sz n v f (.inl rfl), aluShift_left_toNat sz n v f (.inr rfl), aluShift_lsr_toNat sz n v f,
    signedVal_aluShift_asr sz n v f, low_aluShift .asr sz n v f, aluShift_asl_v sz n v f,
    aluShift_left_c sz n v f (.inl rfl), aluShift_left_c sz n v f (.inr rfl), aluShift_lsr_c sz n v f,
    aluShift_asr_c sz n v f, fun op hop => ?_, fun op hop => ⟨aluShift_shift_x sz n v f hop, rfl, rfl⟩⟩
  exact aluShift_v_of_ne_asl op sz n v f (by rintro rfl; revert hop; decide)

/-- Settles O15: each bit by its rule, the bits through X with X on top of them. -/
theorem rotates : Obligations.Rotates := by
  unfold Obligations.Rotates
  intro sz n v f k hk
  refine ⟨⟨aluShift_rol_getLsbD sz n v f hk, aluShift_ror_getLsbD sz n v f hk, aluShift_x_of_rotate (.inl rfl) ..,
      aluShift_x_of_rotate (.inr rfl) .., aluShift_c_of_bit sz n v f rfl fun _ _ => rfl,
      aluShift_c_of_bit sz n v f rfl fun _ _ => rfl⟩,
    ⟨fun _ hj => aluShift_roxl_bit sz n v f hj, aluShift_throughX_c sz n v f (.inl rfl)⟩,
    ⟨fun _ hj => aluShift_roxr_bit sz n v f hj, aluShift_throughX_c sz n v f (.inr rfl)⟩, fun op hop => ?_⟩
  exact ⟨aluShift_v_of_ne_asl op sz n v f (by rintro rfl; revert hop; decide), low_aluShift op sz n v f, rfl,
    aluShift_z op sz n v f⟩

/-! The instructions. -/

theorem State.shiftCount_immediate (s : State) (k : Fin 8) :
    s.shiftCount .immediate k = if k = 0 then 8 else k.val := by
  simp only [State.shiftCount, quickValue, Fin.ext_iff, Fin.val_zero]

theorem run_shiftRegBody (op : ShiftOp) (k : Fin 8) (sz : Size) (g : CountKind) (y : Fin 8) (s : State) :
    run (shiftRegBody op k sz g y) s = .next (s.putD y sz (aluShift op sz (s.shiftCount g k) s.d[y] s.ccr)) := rfl

/-- Settles O28: the eight register forms are one body, and the eight memory forms another. -/
theorem shiftResult : Obligations.ShiftResult := by
  unfold Obligations.ShiftResult
  intro k y sz g ea s n reg memory
  have hcount : s.shiftCount g k = n := by
    cases g with
    | immediate => exact s.shiftCount_immediate k
    | register => rfl
  have hreg (op : ShiftOp) : run (shiftRegBody op k sz g y) s = .next (reg op) := by
    rw [run_shiftRegBody, hcount]
  refine ⟨⟨hreg _, hreg _, hreg _, hreg _, hreg _, hreg _, hreg _, hreg _⟩, fun hm hea => ?_⟩
  have hmem (op : ShiftOp) : run (shiftEaBody op ea) s = .next (memory op) :=
    run_modifyEa (dataAlterable_of_memoryAlterable hm) hea
  exact ⟨hmem _, hmem _, hmem _, hmem _, hmem _, hmem _, hmem _, hmem _⟩

end Sys2Proof.Machine
end

section
/-! PROOFS. Bit manipulation (46_bit_manipulation.md R300–R304): the static and the dynamic forms are one body after the
bit number, which each form takes in its own way. -/

namespace Sys2Proof.Machine

theorem staticBit_ok {s : State} (h : s.streamReady 1 = true) :
    staticBit s = .ok (wordLowByte (s.streamWord 0)).toNat (s.skip 1) := fetch16_bind_of_ready h

theorem dynamicBit_ok (dn : Fin 8) (s : State) : dynamicBit dn s = .ok s.d[dn].toNat s := rfl

section
variable {number : M Nat} {k : Nat} {ea : Ea} {s t : State}

/-- BTST reads the flags after its operand, which leaves them as they were (R301). -/
theorem run_testBody (hnum : number s = .ok k t) (hea : t.eaReady ea (bitSize ea) = true) :
    run (testBody number ea) s = .next ((t.afterReadEa ea (bitSize ea)).setCcr
      (bitFlags (bitSize ea) k (t.eaValue ea (bitSize ea)) t.ccr)) := by
  rw [testBody, run, M.bind_ok hnum, ← run, run_readEa_upd hea, State.afterReadEa_ccr]

/-- The data alterable modes are the same at every size (30_encoding.md R104), so the class of a byte serves both sizes of
R300. -/
theorem run_bitBody (op : BitOp) (hnum : number s = .ok k t) (hea : t.eaReady ea (bitSize ea) = true)
    (hc : EaClass.dataAlterable.admits .b ea = true) :
    run (bitBody op number ea) s = .next (t.modified (aluBit op (bitSize ea) k) (bitSize ea) ea) := by
  rw [bitBody, run, M.bind_ok hnum]
  exact run_modifyEa hc hea

end

/-- Settles O29: each form is one of two bodies, after a bit number from one extension word or from Dn. -/
theorem bitResult : Obligations.BitResult := by
  unfold Obligations.BitResult
  intro dn ea s sz op k r
  refine ⟨fun hword hea => ?_, fun hea => ?_⟩
  · have hnum : staticBit s = .ok k (s.skip 1) := staticBit_ok hword
    refine ⟨?_, fun hc =>
      ⟨run_bitBody .change hnum hea hc, run_bitBody .clear hnum hea hc, run_bitBody .set hnum hea hc⟩⟩
    rw [← State.skip_ccr s 1]
    exact run_testBody hnum hea
  · have hnum : dynamicBit dn s = .ok r s := dynamicBit_ok dn s
    exact ⟨run_testBody hnum hea, fun hc =>
      ⟨run_bitBody .change hnum hea hc, run_bitBody .clear hnum hea hc, run_bitBody .set hnum hea hc⟩⟩

end Sys2Proof.Machine
end

section
/-! PROOFS. Decimal arithmetic (47_bcd.md R310–R313): two decimal digits as bits and as a number, and ABCD,
SBCD and NBCD. -/

namespace Sys2Proof.Machine

/-! The digits. -/

/-- The digits of a number below 100 stand in the two halves of a byte. -/
theorem toNat_bcdByte {t : Nat} (ht : t < 100) : (bcdByte t).toNat = t / 10 * 16 + t % 10 := by
  have hor : (t / 10) <<< 4 ||| t % 10 = t / 10 * 16 + t % 10 := by
    rw [← Nat.shiftLeft_add_eq_or_of_lt (by omega), Nat.shiftLeft_eq]
  rw [bcdByte, hor, BitVec.toNat_ofNat, Nat.mod_eq_of_lt (by omega)]

theorem validBcd_iff {v : Long} : validBcd v = true ↔ v.toNat / 16 % 16 ≤ 9 ∧ v.toNat % 16 ≤ 9 := by
  simp [validBcd, Nat.shiftRight_eq_div_pow]

theorem bcdValue_eq (v : Long) : bcdValue v = 10 * (v.toNat / 16 % 16) + v.toNat % 16 := by
  simp [bcdValue, Nat.shiftRight_eq_div_pow]

theorem bcdValue_lt_hundred {v : Long} (h : validBcd v = true) : bcdValue v < 100 := by
  obtain ⟨htens, hunits⟩ := validBcd_iff.mp h
  rw [bcdValue_eq]
  omega

theorem validBcd_bcdByte {t : Nat} (ht : t < 100) : validBcd (bcdByte t) = true := by
  rw [validBcd_iff, toNat_bcdByte ht]
  omega

theorem bcdValue_bcdByte {t : Nat} (ht : t < 100) : bcdValue (bcdByte t) = t := by
  rw [bcdValue_eq, toNat_bcdByte ht]
  omega

/-! Sums and differences. -/

theorem validBcd_decimalAdd (src dst : Long) (x : Bool) : validBcd (decimalAdd src dst x).1 = true :=
  validBcd_bcdByte (Nat.mod_lt _ (by decide))

theorem validBcd_decimalSub (src dst : Long) (x : Bool) : validBcd (decimalSub src dst x).1 = true :=
  validBcd_bcdByte (by omega)

section
variable {src dst : Long} (hs : validBcd src = true) (hd : validBcd dst = true) (x : Bool)
include hs hd

/-- The sum is below 200, so one carry of 100 makes up for the reduction (R311). -/
theorem bcdValue_decimalAdd :
    bcdValue (decimalAdd src dst x).1 + 100 * (decimalAdd src dst x).2.toNat =
      bcdValue dst + bcdValue src + x.toNat := by
  have hsrc := bcdValue_lt_hundred hs
  have hdst := bcdValue_lt_hundred hd
  simp only [decimalAdd, Bool.toNat, Bool.cond_eq_ite, decide_eq_true_eq]
  rw [bcdValue_bcdByte (Nat.mod_lt _ (by decide))]
  split <;> split <;> omega

/-- The difference is at least −100, so one borrow of 100 makes up for the reduction (R312). -/
theorem bcdValue_decimalSub :
    (bcdValue (decimalSub src dst x).1 : Int) - 100 * (decimalSub src dst x).2.toNat =
      (bcdValue dst : Int) - bcdValue src - x.toNat := by
  have hsrc := bcdValue_lt_hundred hs
  have hdst := bcdValue_lt_hundred hd
  simp only [decimalSub, Bool.toNat, Bool.cond_eq_ite, decide_eq_true_eq]
  rw [bcdValue_bcdByte (by omega)]
  split <;> split <;> omega

end

/-- Settles O16: a number below 100 is the value of its byte, and both results are reduced to one. -/
theorem decimalArithmetic : Obligations.DecimalArithmetic := by
  unfold Obligations.DecimalArithmetic
  intro src dst x _ _ hs hd
  exact ⟨⟨validBcd_decimalAdd src dst x, bcdValue_decimalAdd hs hd x⟩,
    validBcd_decimalSub src dst x, bcdValue_decimalSub hs hd x⟩

/-! The instructions. -/

/-- The memory form stores at Ax as the second predecrement has left it (R311, R312). -/
theorem run_bcdBody_mem {f : Long → Long → Bool → Long × Bool} {x y : Fin 8} {s : State} :
    let u := (s.afterPred y .b).afterPred x .b
    let valid := validBcd (s.predValue y .b) && validBcd ((s.afterPred y .b).predValue x .b)
    let o := s.bcdOutcome valid (f (s.predValue y .b) ((s.afterPred y .b).predValue x .b) s.ccr.x)
    run (bcdBody f x .mem y) s = .next ((u.afterBcd valid o).store .b u.dataFc u.a[x] o.1) := by
  intro u valid o
  have hx : u.a[x] = (s.afterPred y .b).predAddress x .b := State.afterPred_get (s.afterPred y .b) x .b
  rw [hx]
  exact run_ok bcdBody_mem

/-- NBCD reads X and the free values after its operand, which leaves both as they were (R313). -/
theorem execNbcd_eq {ea : Ea} {s : State} (hc : EaClass.dataAlterable.admits .b ea = true)
    (hea : s.eaReady ea .b = true) :
    let dst := s.eaValue ea .b
    let o := s.bcdOutcome (validBcd dst) (decimalSub dst 0 s.ccr.x)
    execNbcd ea s =
      .next (((s.afterReadEa ea .b).afterBcd (validBcd dst) o).afterWrite (s.eaDesc ea .b) .b o.1) := by
  intro dst o
  obtain ⟨hstream, haligned⟩ := Bool.and_eq_true_iff.mp hea
  refine run_ok ?_
  rw [M.bind_ok (resolve_ok hstream), M.bind_ok (eaRead_ok haligned), M.look_bind, bcdResult_bind, bcdFlags_bind]
  have houtcome :
      (s.afterReadEa ea .b).bcdOutcome (validBcd dst) (decimalSub dst 0 (s.afterReadEa ea .b).ccr.x) = o := by
    simp only [State.bcdOutcome, State.afterReadEa_ccr, State.afterReadEa_draws, o]
  rw [← houtcome]
  exact eaWrite_ok (State.writable_eaDesc s ea .b .b hc) haligned

/-- Settles O23: ABCD and SBCD are one body in each form; NBCD subtracts its operand from 0. -/
theorem decimalResult : Obligations.DecimalResult := by
  unfold Obligations.DecimalResult
  intro x y ea s
  exact ⟨⟨run_ok bcdBody_reg, run_ok bcdBody_reg⟩, ⟨run_bcdBody_mem, run_bcdBody_mem⟩, execNbcd_eq⟩

end Sys2Proof.Machine
end

section
/-! PROOFS. Branches (48_program_control.md R320–R324) and the prefetch hazard (70_reset_and_hazards.md R461, R462): a branch
is its displacement and a change of the PC, and whatever begins with a fetch faults where that fetch does. -/

namespace Sys2Proof.Machine

/-! Branches. -/

/-- The target of a branch, with the word it may fetch (R320). -/
theorem branchTarget_ok {d8 : Byte} {s : State} (h : s.streamReady (dispWords d8) = true) :
    branchTarget d8 s = .ok (s.dispTarget d8) (s.afterDisp d8) := by
  rw [branchTarget, M.look_bind]
  by_cases h0 : d8 = 0
  · subst h0
    exact fetch16_bind_of_ready h
  · rw [beq_eq_false_iff_ne.mpr h0, State.dispTarget, State.afterDisp, if_neg h0, if_neg h0]
    rfl

@[simp] theorem State.afterDisp_a (s : State) (d8 : Byte) : (s.afterDisp d8).a = s.a := by
  unfold State.afterDisp
  split <;> simp

@[simp] theorem State.afterDisp_ccr (s : State) (d8 : Byte) : (s.afterDisp d8).ccr = s.ccr := by
  unfold State.afterDisp
  split <;> simp

theorem execBsr_eq {d8 : Byte} {s : State} (h : s.streamReady (dispWords d8) = true) (hs : s.stackReady = true) :
    execBsr d8 s =
      .next (((s.afterDisp d8).pushed .l (s.afterDisp d8).pc).setPc (s.dispTarget d8)) := by
  have heven : isOdd (s.afterDisp d8).a[7] = false := by rw [State.afterDisp_a, State.stackReady_iff.mp hs]
  refine run_ok ?_
  rw [M.bind_ok (branchTarget_ok h), M.look_bind, push_bind_of_even (by decide) heven, M.upd_apply]

theorem execBcc_eq {c : Cond} {d8 : Byte} {s : State} (h : s.streamReady (dispWords d8) = true) :
    execBcc c d8 s =
      .next (if condHolds c s.ccr then (s.afterDisp d8).setPc (s.dispTarget d8) else s.afterDisp d8) := by
  refine run_ok ?_
  rw [M.bind_ok (branchTarget_ok h), M.upd_apply, State.afterDisp_ccr]

/-! DBcc. -/

/-- A meaning that ends in a fault. -/
theorem run_fault {m : M Unit} {s t : State} {r : Fault} (h : m s = .error (.fault r) t) : run m s = .fault r := by
  rw [run, h]
  rfl

/-- Whether the loop form of DBcc at `a` faults (R462). -/
def State.loopHazard (s : State) (a : Long) (e : Word) : Bool :=
  s.cfg.variant == .m68010 && e == 0xFFFC && s.storesMeetLoop a

theorem State.loopHazard_iff {s : State} {a : Long} {e : Word} :
    s.loopHazard a e = true ↔ s.cfg.variant = .m68010 ∧ e = 0xFFFC ∧ s.storesMeetLoop a = true := by
  simp [State.loopHazard, and_assoc]

theorem loopModeCheck_bind {α : Type} {a : Long} {e : Word} {f : Unit → M α} {s : State} :
    (loopModeCheck a e >>= f) s =
      if s.loopHazard a e then .error (.fault .prefetchHazard) s else f () s := by
  rw [loopModeCheck, M.require_bind, State.loopHazard]
  cases s.cfg.variant == .m68010 && e == 0xFFFC && s.storesMeetLoop a <;> rfl

section
variable {c : Cond} {dn : Fin 8} {s : State} (hr : s.streamReady 1 = true)
include hr

/-- DBcc whose condition holds (R324). -/
theorem execDbcc_ends (hc : condHolds c s.ccr = true) : execDbcc c dn s = .next (s.skip 1) := by
  refine run_ok ?_
  rw [M.look_bind, fetch16_bind_of_ready hr, M.look_bind, State.skip_ccr, hc]
  rfl

/-- DBcc whose condition fails counts before it looks at the count (R324). -/
theorem execDbcc_counts (hc : condHolds c s.ccr = false) :
    let count := lowWord s.d[dn] - 1
    let u := (s.skip 1).setDw dn .w (count.setWidth 32)
    execDbcc c dn s =
      if count = 0xFFFF then .next u
      else if s.loopHazard (s.pc - 2) (s.streamWord 0) then .fault .prefetchHazard
      else .next (u.setPc (s.pc + sext16 (s.streamWord 0))) := by
  intro count u
  have hazard : u.loopHazard (s.pc - 2) (s.streamWord 0) = s.loopHazard (s.pc - 2) (s.streamWord 0) := rfl
  rw [execDbcc, run, M.look_bind, fetch16_bind_of_ready hr, M.look_bind, State.skip_ccr, hc]
  dsimp only
  rw [M.look_bind, State.skip_d, M.upd_bind]
  by_cases h : count = 0xFFFF
  · rw [beq_iff_eq.mpr h, if_pos h]
    rfl
  · rw [beq_eq_false_iff_ne.mpr h, if_neg h]
    dsimp only
    rw [loopModeCheck_bind, hazard]
    split <;> rfl

end

/-- Settles O33: a branch by its target, DBcc by its count and the check of its loop form. -/
theorem branchResult : Obligations.BranchResult := by
  unfold Obligations.BranchResult
  intro c d8 dn s
  refine ⟨fun h => ⟨run_ok (M.bind_ok (branchTarget_ok h)), execBsr_eq h, execBcc_eq h⟩, fun hr => ?_⟩
  refine ⟨execDbcc_ends hr, fun hc h => ?_, fun hc h hn => ?_, fun hc h hv he hl => ?_⟩ <;>
    refine (execDbcc_counts hr hc).trans ?_
  · rw [if_pos h]
  · rw [if_neg h, if_neg (mt State.loopHazard_iff.mp hn)]
  · rw [if_neg h, if_pos (State.loopHazard_iff.mpr ⟨hv, he, hl⟩)]

/-! The prefetch hazard. -/

/-- A byte stored by the instruction before, inside the window after it (R461). -/
theorem State.staleByte_of_stored {s : State} {a : Long} {k : Nat} (hk : k < s.cfg.smcWindowBytes)
    (hstored : busAddr s.cfg (s.seqEnd + BitVec.ofNat 32 k) ∈ s.lastStores)
    (ha : busAddr s.cfg a = busAddr s.cfg (s.seqEnd + BitVec.ofNat 32 k)) : s.staleByte a = true := by
  have hwindow : s.inWindow (busAddr s.cfg a) = true :=
    List.any_eq_true.mpr ⟨k, List.mem_range.mpr hk, beq_iff_eq.mpr ha.symm⟩
  rw [State.staleByte, hwindow, Bool.and_true, ha]
  exact List.contains_iff_mem.mpr hstored

theorem fetch16_stale {s : State} (heven : isOdd s.pc = false) (h : s.staleWord s.pc = true) :
    fetch16 s = .error (.fault .prefetchHazard) s := by
  simp [fetch16, checkAligned, heven, h]

section
variable {s : State} {e : Exit} (h : fetch16 s = .error e s)
include h

/-- An immediate begins with a fetch (30_encoding.md R107). -/
theorem immediate_of_fetch16_error (sz : Size) : immediate sz s = .error e s := by
  cases sz with
  | b | w | l => exact M.bind_error h

/-- An operand with extension words begins with the fetch of the first (R103). -/
theorem resolve_of_fetch16_error {ea : Ea} {sz : Size} (hw : 0 < ea.extWords sz) : resolve ea sz s = .error e s := by
  cases ea with
  | dn n | an n | ind n | pi n | pd n => exact absurd hw (lt_irrefl 0)
  | d16 n | d8x n | absW => exact M.bind_error h
  | pc16 | pc8x => exact (M.look_bind ..).trans (M.bind_error h)
  | absL => exact M.bind_error (M.bind_error h)
  | imm => exact M.bind_error (immediate_of_fetch16_error h sz)

theorem readEa_of_fetch16_error {ea : Ea} {sz : Size} (hw : 0 < ea.extWords sz) : readEa ea sz s = .error e s :=
  M.bind_error (resolve_of_fetch16_error h hw)

end

section
variable {s : State} {r : Fault} (h : fetch16 s = .error (.fault r) s)
include h

theorem run_fetch16_fault (f : Word → M Unit) : run (fetch16 >>= f) s = .fault r := run_fault (M.bind_error h)

theorem run_immediate_fault (sz : Size) (f : Long → M Unit) : run (immediate sz >>= f) s = .fault r :=
  run_fault (M.bind_error (immediate_of_fetch16_error h sz))

theorem run_staticBit_fault (f : Nat → M Unit) : run (staticBit >>= f) s = .fault r :=
  run_fault (M.bind_error (M.bind_error h))

/-- A branch with a displacement word begins with its fetch (R320). -/
theorem run_branchTarget_fault (f : Long → M Unit) : run (branchTarget 0 >>= f) s = .fault r :=
  run_fault (M.bind_error ((M.look_bind ..).trans (M.bind_error h)))

section
variable {ea : Ea} {sz : Size} (hw : 0 < ea.extWords sz)
include hw

theorem run_readEa_fault (f : Long → M Unit) : run (readEa ea sz >>= f) s = .fault r :=
  run_fault (M.bind_error (readEa_of_fetch16_error h hw))

theorem run_modifyEa_fault (f : Long → Ccr → Alu) : run (modifyEa f sz ea) s = .fault r :=
  run_fault (M.bind_error (resolve_of_fetch16_error h hw))

end
end

/-- The step of a stale operation word faults before it runs anything. -/
theorem step_stale {s : State} (hs : s.runsNext = true) (heven : isOdd s.pc = false)
    (h : s.staleWord s.pc = true) : step s = .fault .prefetchHazard := by
  have hx : fetch16 s.sampleLine.beginStep.latchTrace =
      .error (.fault .prefetchHazard) s.sampleLine.beginStep.latchTrace := by
    refine fetch16_stale ?_ ?_
    · simpa using heven
    · simpa [State.staleWord, State.staleByte, State.inWindow] using h
  rw [step_of_runsNext hs, executeInstruction, hx]
  rfl

/-- Settles O48: each form of the first list begins with a fetch, and each of the second with its operand. -/
theorem prefetchHazardFaults : Obligations.PrefetchHazardFaults := by
  unfold Obligations.PrefetchHazardFaults
  intro s k heven hk hstored hpc
  have hstale : s.staleWord s.pc = true := Bool.or_eq_true_iff.mpr
    (hpc.imp (State.staleByte_of_stored hk hstored) (State.staleByte_of_stored hk hstored))
  have h : fetch16 s = .error (.fault .prefetchHazard) s := fetch16_stale heven hstale
  refine ⟨h, fun hs => step_stale hs heven hstale, fun c n dir sz ea => ⟨?_, fun hw => ?_⟩⟩
  · simp only [List.forall_mem_cons, List.not_mem_nil, false_imp_iff, implies_true, and_true]
    exact ⟨run_branchTarget_fault h _, run_branchTarget_fault h _, run_branchTarget_fault h _, run_fetch16_fault h _,
      run_fetch16_fault h _, run_fetch16_fault h _, run_fetch16_fault h _, run_fetch16_fault h _, run_fetch16_fault h _,
      run_fetch16_fault h _, run_fetch16_fault h _, run_immediate_fault h sz _, run_immediate_fault h sz _,
      run_immediate_fault h sz _, run_immediate_fault h sz _, run_immediate_fault h sz _, run_immediate_fault h sz _,
      run_staticBit_fault h _, run_staticBit_fault h _, run_staticBit_fault h _, run_staticBit_fault h _⟩
  · simp only [List.forall_mem_cons, List.not_mem_nil, false_imp_iff, implies_true, and_true]
    exact ⟨run_readEa_fault h hw _, run_modifyEa_fault h hw _, run_readEa_fault h hw _, run_modifyEa_fault h hw _,
      run_readEa_fault h hw _⟩

end Sys2Proof.Machine
end

section
/-! PROOFS. Privileged instructions (49_system_control.md R340; 60_exceptions.md R405), the status register (R341–R351), the
control registers (R352, R353, R360) and MOVES (R361): in supervisor mode a privileged body is what follows its check, in
user mode the check alone. -/

namespace Sys2Proof.Machine

/-! The check of the mode. -/

theorem privileged_bind {α : Type} {f : Unit → M α} {s : State} (h : s.sBit = true) : (privileged >>= f) s = f () s := by
  simp [privileged, h]

theorem run_privileged {f : Unit → M Unit} {s : State} (h : s.sBit = true) :
    run (privileged >>= f) s = run (f ()) s := by rw [run, privileged_bind h, ← run]

/-- What starts with the check of the mode is a privilege violation in user mode, whatever follows (R340). -/
theorem run_privileged_user {f : Unit → M Unit} {s : State} (hu : s.sBit = false) (he : s.entryReady 8 = true) :
    run (privileged >>= f) s = .next (s.entry 8 (s.pc - 2) none) := by
  have hx : (privileged >>= f) s = .error (.exception 8 s.ipc) s := by simp [privileged, hu]
  exact run_raise hx he

theorem run_onM68010_privileged_user {f : Unit → Unit → M Unit} {s : State} (hv : s.cfg.variant = .m68010)
    (hu : s.sBit = false) (he : s.entryReady 8 = true) :
    run (onM68010 >>= fun x => privileged >>= f x) s = .next (s.entry 8 (s.pc - 2) none) := by
  rw [run, onM68010_bind hv, ← run, run_privileged_user hu he]

theorem privilegedOnM68010_bind {α : Type} {f : Unit → M α} {s : State}
    (h : s.sBit = true ∨ s.cfg.variant ≠ .m68010) : (privilegedOnM68010 >>= f) s = f () s := by
  rcases h with h | h <;> simp [privilegedOnM68010, h]

theorem run_privilegedOnM68010_user {f : Unit → M Unit} {s : State} (hv : s.cfg.variant = .m68010)
    (hu : s.sBit = false) (he : s.entryReady 8 = true) :
    run (privilegedOnM68010 >>= f) s = .next (s.entry 8 (s.pc - 2) none) := by
  have hx : (privilegedOnM68010 >>= f) s = .error (.exception 8 s.ipc) s := by simp [privilegedOnM68010, hu, hv]
  exact run_raise hx he

/-- Settles O45: the check comes first, on M68010 alone after that of the variant, which passes there. -/
theorem privilegeViolation : Obligations.PrivilegeViolation := by
  unfold Obligations.PrivilegeViolation
  intro i s hi hu he
  cases i with
  | andiToSr | oriToSr | eoriToSr | moveToSr ea | moveAnUsp n | moveUspAn n | reset | rte | stop =>
    exact run_privileged_user hu he
  | moveFromSr ea => exact run_privilegedOnM68010_user (beq_iff_eq.mp hi) hu he
  | movecRcRn | movecRnRc | moves sz ea => exact run_onM68010_privileged_user (beq_iff_eq.mp hi) hu he
  | _ => cases hi

/-! The status register. -/

theorem State.afterEa_sr (s : State) (ea : Ea) (sz : Size) : (s.afterEa ea sz).sr = s.sr := by simp [State.sr]

theorem State.skip_sr (s : State) (n : Nat) : (s.skip n).sr = s.sr := by simp [State.sr]

section
variable {s : State}

theorem run_ccrImmBody {f : Byte → Byte → Byte} (h : s.streamReady 1 = true) :
    run (ccrImmBody f) s = .next ((s.skip 1).writeCcr (f s.ccr.toByte (wordLowByte (s.streamWord 0)))) := by
  refine run_ok ?_
  rw [ccrImmBody, fetch16_bind_of_ready h, M.upd_apply, State.skip_ccr]

theorem run_srImmBody {f : Word → Word → Word} (h : s.streamReady 1 = true) (hs : s.sBit = true) :
    run (srImmBody f) s = .next ((s.skip 1).writeSr (f s.sr (s.streamWord 0))) := by
  refine run_ok ?_
  rw [srImmBody, privileged_bind hs, fetch16_bind_of_ready h, M.upd_apply, State.skip_sr]

theorem execStop_eq (h : s.streamReady 1 = true) (hs : s.sBit = true) :
    execStop s = .next { (s.skip 1).writeSr (s.streamWord 0) with runState := .stopped } := by
  refine run_ok ?_
  rw [privileged_bind hs, fetch16_bind_of_ready h, M.upd_apply]

variable {ea : Ea}

theorem execMoveToSr_eq (hea : s.eaReady ea .w = true) (hs : s.sBit = true) :
    execMoveToSr ea s = .next ((s.afterReadEa ea .w).writeSr (lowWord (s.eaValue ea .w))) :=
  (run_privileged hs).trans (run_readEa_upd hea)

/-- A word read off the state, stored through an operand (40_ea_resolver.md R155). -/
theorem run_storeEa {g : State → Long} (hea : s.eaReady ea .w = true)
    (hc : EaClass.dataAlterable.admits .w ea = true) :
    run (resolve ea .w >>= fun d => look g >>= fun v => eaWrite d .w v) s =
      .next ((s.afterEa ea .w).afterWrite (s.eaDesc ea .w) .w (g (s.afterEa ea .w))) := by
  obtain ⟨hwords, haligned⟩ := Bool.and_eq_true_iff.mp hea
  refine run_ok ?_
  rw [M.bind_ok (resolve_ok hwords), M.look_bind, eaWrite_ok (State.writable_eaDesc s ea .w .w hc) haligned]

theorem execMoveFromCcr_eq (hea : s.eaReady ea .w = true) (hc : EaClass.dataAlterable.admits .w ea = true)
    (hv : s.cfg.variant = .m68010) :
    execMoveFromCcr ea s =
      .next ((s.afterEa ea .w).afterWrite (s.eaDesc ea .w) .w (s.ccr.toByte.setWidth 32)) := by
  rw [execMoveFromCcr, run, onM68010_bind hv, ← run, run_storeEa hea hc, State.afterEa_ccr]

theorem execMoveFromSr_eq (hea : s.eaReady ea .w = true) (hc : EaClass.dataAlterable.admits .w ea = true)
    (h : s.sBit = true ∨ s.cfg.variant ≠ .m68010) :
    execMoveFromSr ea s = .next ((s.afterEa ea .w).afterWrite (s.eaDesc ea .w) .w (s.sr.setWidth 32)) := by
  rw [execMoveFromSr, run, privilegedOnM68010_bind h, ← run, run_storeEa hea hc, State.afterEa_sr]

end

/-- Settles O35: the immediate forms are two bodies, and fetches and operands leave the status register as it was. -/
theorem statusRegisterResult : Obligations.StatusRegisterResult := by
  unfold Obligations.StatusRegisterResult
  intro ea s
  refine ⟨fun h => ⟨⟨run_ccrImmBody h, run_ccrImmBody h, run_ccrImmBody h⟩, fun hs =>
      ⟨run_srImmBody h hs, run_srImmBody h hs, run_srImmBody h hs, execStop_eq h hs⟩⟩,
    fun hea => ⟨run_readEa_upd hea, execMoveToSr_eq hea, fun hc => ⟨execMoveFromCcr_eq hea hc, execMoveFromSr_eq hea hc⟩⟩⟩

/-! The control registers. -/

theorem State.react_of_script_nil {s : State} (h : s.script = []) : s.react = s := by
  have hmark : s.refusedMark.or none = s.refusedMark := Option.or_none
  simp only [State.react, h, nextReaction, callbackLevel, callbackRefusal, hmark, List.tail_nil]
  rw [← h]

theorem State.skip_genReg (s : State) (n : Nat) (r : GenReg) : (s.skip n).genReg r = s.genReg r := by
  cases r <;> simp [State.genReg]

theorem State.usp_of_supervisor {s : State} (h : s.sBit = true) : s.usp = s.spInactive := if_pos h

section
variable {f : ControlReg → GenReg → State → State} {s : State} (hs : s.sBit = true) (hv : s.cfg.variant = .m68010)
  (hr : s.streamReady 1 = true)
include hs hv hr

theorem run_movecBody {r : ControlReg} (hcode : controlReg ((s.streamWord 0).toNat % 4096) = some r) :
    run (movecBody f) s = .next (f r (extGenReg (s.streamWord 0)) (s.skip 1)) := by
  refine run_ok ?_
  rw [movecBody, onM68010_bind hv, privileged_bind hs, M.look_bind, fetch16_bind_of_ready hr, hcode]
  rfl

/-- MOVEC of a code that names no register saves the instruction's own address (R360). -/
theorem run_movecBody_illegal (hcode : controlReg ((s.streamWord 0).toNat % 4096) = none)
    (he : (s.skip 1).entryReady 4 = true) :
    run (movecBody f) s = .next ((s.skip 1).entry 4 (s.pc - 2) none) := by
  have hx : movecBody f s = .error (.exception 4 s.ipc) (s.skip 1) := by
    rw [movecBody, onM68010_bind hv, privileged_bind hs, M.look_bind, fetch16_bind_of_ready hr, hcode]
    rfl
  exact run_raise hx he

end

theorem controlReg_eq_none {code : Nat} (h : code ∉ [0x000, 0x001, 0x800, 0x801]) : controlReg code = none := by
  simp only [List.mem_cons, List.not_mem_nil, or_false, not_or] at h
  obtain ⟨hsfc, hdfc, husp, hvbr⟩ := h
  unfold controlReg
  split
  exacts [absurd rfl hsfc, absurd rfl hdfc, absurd rfl husp, absurd rfl hvbr, rfl]

/-- Settles O36: MOVEC is one body, and its fetch leaves the registers as they were. -/
theorem controlRegisterResult : Obligations.ControlRegisterResult := by
  unfold Obligations.ControlRegisterResult
  intro an s hs
  refine ⟨run_ok (privileged_bind hs), run_ok (privileged_bind hs), run_ok (privileged_bind hs),
    State.react_of_script_nil, fun hv hr => ?_⟩
  intro e r code t v
  have hv' : v = t.genReg r := (State.skip_genReg s 1 r).symm
  have hcodes {c : ControlReg} (hc : controlReg code = some c) :
      exec .movecRcRn s = .next (t.setGenReg r (t.controlValue c)) ∧ exec .movecRnRc s = .next (t.setControl c v) := by
    rw [hv']
    exact ⟨run_movecBody hs hv hr hc, run_movecBody hs hv hr hc⟩
  rw [State.usp_of_supervisor hs]
  refine ⟨fun hc => hcodes (congrArg controlReg hc), fun hc => hcodes (congrArg controlReg hc),
    fun hc => hcodes (congrArg controlReg hc), fun hc => hcodes (congrArg controlReg hc), fun hc he => ?_⟩
  have hnone : controlReg code = none := controlReg_eq_none hc
  exact ⟨run_movecBody_illegal hs hv hr hnone he, run_movecBody_illegal hs hv hr hnone he⟩

/-! MOVES. -/

/-- An operand that does not step a register leaves it as it was (40_ea_resolver.md R143). -/
theorem State.afterEa_genReg (s : State) {r : GenReg} {ea : Ea} (sz : Size) (h : movesSelfUpdate r ea = false) :
    (s.afterEa ea sz).genReg r = s.genReg r := by
  cases r with
  | d n => simp [State.genReg]
  | a n =>
    cases ea with
    | pi m | pd m =>
      have hne : n ≠ m := fun hnm => beq_eq_false_iff_ne.mp h (congrArg GenReg.a hnm)
      exact (State.setA_getElem s m n _).trans (if_neg hne)
    | _ => simp [State.genReg, State.afterEa]

theorem movesSource_bind {α : Type} {r : GenReg} {ea : Ea} {before : Long} {f : Long → M α} {s : State}
    (h : movesSelfUpdate r ea = false) : (movesSource r ea before >>= f) s = f (s.genReg r) s := by
  rw [movesSource, M.bind_bind, M.look_bind, h]
  rfl

theorem movesSource_bind_selfUpdate {α : Type} {r : GenReg} {ea : Ea} {before : Long} {f : Long → M α} {s : State}
    (h : movesSelfUpdate r ea = true) :
    (movesSource r ea before >>= f) s = f (if Config.freeBit s.draws then s.genReg r else before) (s.drawn 1) := by
  rw [movesSource, M.bind_bind, M.look_bind, h]
  rfl

/-- Memory alterable operands are in memory (30_encoding.md R104). -/
theorem State.eaDesc_of_memoryAlterable (s : State) {ea : Ea} {sz : Size}
    (h : EaClass.memoryAlterable.admits sz ea = true) : s.eaDesc ea sz = .mem (s.eaAddress ea sz) .data := by
  cases ea with
  | dn n | an n | pc16 | pc8x | imm => cases h
  | _ => rfl

theorem State.alignedAt_eaAddress {ea : Ea} {sz : Size} {s : State} (hc : EaClass.memoryAlterable.admits sz ea = true)
    (hea : s.eaReady ea sz = true) : alignedAt sz (s.eaAddress ea sz) = true := by
  have haligned : (s.eaDesc ea sz).aligned sz = true := (Bool.and_eq_true_iff.mp hea).2
  rwa [State.eaDesc_of_memoryAlterable s hc] at haligned

theorem addressEa_bind_of_memoryAlterable {α : Type} {ea : Ea} {sz : Size} {f : Long → M α} {s : State}
    (hc : EaClass.memoryAlterable.admits sz ea = true) (hr : s.streamReady (ea.extWords sz) = true) :
    (addressEa ea sz >>= f) s = f (s.eaAddress ea sz) (s.afterEa ea sz) := by
  rw [addressEa, M.bind_bind, M.bind_ok (resolve_ok hr), State.eaDesc_of_memoryAlterable s hc]
  rfl

section
variable {sz : Size} {ea : Ea} {s : State} (hv : s.cfg.variant = .m68010) (hs : s.sBit = true)
  (hr : s.streamReady 1 = true) (hc : EaClass.memoryAlterable.admits sz ea = true)
  (hea : (s.skip 1).streamReady (ea.extWords sz) = true)
include hv hs hr hc hea

/-- MOVES of a register to memory, after the operand's address (R361). -/
theorem execMoves_store (hdir : (s.streamWord 0).getLsbD 11 = true) :
    let r := extGenReg (s.streamWord 0)
    execMoves sz ea s = run (movesSource r ea (s.genReg r) >>= fun v => look State.dfc >>= fun fc =>
      memWrite sz fc ((s.skip 1).eaAddress ea sz) v) ((s.skip 1).afterEa ea sz) := by
  intro r
  rw [execMoves, run, onM68010_bind hv, privileged_bind hs, fetch16_bind_of_ready hr, M.look_bind,
    addressEa_bind_of_memoryAlterable hc hea, hdir, State.skip_genReg]
  rfl

/-- MOVES of memory to a register, after the operand's address (R361). -/
theorem execMoves_load (hdir : (s.streamWord 0).getLsbD 11 = false) :
    execMoves sz ea s = run (look State.sfc >>= fun fc => memRead sz fc ((s.skip 1).eaAddress ea sz) >>= fun v =>
      upd fun s' => s'.setMoves (extGenReg (s.streamWord 0)) sz v) ((s.skip 1).afterEa ea sz) := by
  rw [execMoves, run, onM68010_bind hv, privileged_bind hs, fetch16_bind_of_ready hr, M.look_bind,
    addressEa_bind_of_memoryAlterable hc hea, hdir]
  rfl

end

/-- Settles O37: only the operand's own register is stepped before the register is read or written. -/
theorem movesResult : Obligations.MovesResult := by
  unfold Obligations.MovesResult
  intro sz ea s hv hs hc hr hea r a t
  have hwords : (s.skip 1).streamReady (ea.extWords sz) = true := (Bool.and_eq_true_iff.mp hea).1
  have haligned : alignedAt sz a = true := State.alignedAt_eaAddress hc hea
  have hdfc : t.dfc = s.dfc := by simp [t]
  have hsfc : t.sfc = s.sfc := by simp [t]
  refine ⟨fun hdir hself => (execMoves_store hv hs hr hc hwords hdir).trans (run_ok ?_),
    fun hdir hself => (execMoves_store hv hs hr hc hwords hdir).trans (run_ok ?_),
    fun hdir => (execMoves_load hv hs hr hc hwords hdir).trans (run_ok ?_)⟩
  · have hsame : t.genReg r = s.genReg r := (State.afterEa_genReg _ sz hself).trans (State.skip_genReg s 1 r)
    rw [movesSource_bind hself, M.look_bind, memWrite_ok haligned, hdfc, hsame]
  · have hdraws : t.draws = s.draws := by simp [t]
    rw [movesSource_bind_selfUpdate hself, M.look_bind, memWrite_ok haligned, State.drawn_dfc, hdfc, hdraws]
  · rw [M.look_bind, M.bind_ok (memRead_ok haligned), M.upd_apply, hsfc]

end Sys2Proof.Machine
end

section
/-! PROOFS. RTE (49_system_control.md R354; 60_exceptions.md R409, R415), the traps and the emulator lines (R356–R359, R362,
R363; R404), and the trace (R424, R425, R431). -/

namespace Sys2Proof.Machine

/-! RTE. -/

theorem extractLsb'_lowWord (v : Long) : (lowWord v).extractLsb' 12 4 = v.extractLsb' 12 4 :=
  BitVec.extractLsb'_setWidth_of_le (by decide)

/-- The end of RTE: the frame popped, SR written, the PC taken (R354). -/
def State.returned (s : State) (sp : Long) (sr : Word) (pc : Long) : State := ((s.setA 7 sp).writeSr sr).setPc pc

theorem readData_bind_of_supervisor {α : Type} {sz : Size} {a : Long} {f : Long → M α} {s : State}
    (hs : s.sBit = true) (ha : isOdd a = false) :
    (readData sz a >>= f) s = f (s.loaded sz 5 a) (s.load sz 5 a) := by
  rw [M.bind_ok (readData_ok (alignedAt_of_even sz ha)), State.dataFc, if_pos hs]

/-- The frame of the variant: six bytes, on M68010 eight with the format in the last word (60_exceptions.md R409, R415). -/
theorem returnFromException_eq {s : State} (hs : s.sBit = true) (heven : isOdd s.a[7] = false) :
    let sr := lowWord (s.loaded .w 5 s.a[7])
    let pc := (s.load .w 5 s.a[7]).loaded .l 5 (s.a[7] + 2)
    let t := (s.load .w 5 s.a[7]).load .l 5 (s.a[7] + 2)
    let u := t.load .w 5 (s.a[7] + 6)
    let format := (lowWord (t.loaded .w 5 (s.a[7] + 6))).extractLsb' 12 4
    returnFromException s =
      if s.cfg.variant = .m68010 then
        if format = 0 then .ok () (u.returned (s.a[7] + 8) sr pc)
        else if format = 8 then .error (.fault .unsupportedFrame) u
        else .error (.exception 14 s.ipc) u
      else .ok () (t.returned (s.a[7] + 6) sr pc) := by
  intro sr pc t u format
  have hpc : isOdd (s.a[7] + 2) = false := (isOdd_add _ _ rfl).trans heven
  have hword : isOdd (s.a[7] + 6) = false := (isOdd_add _ _ rfl).trans heven
  have hvariant : t.cfg.variant = s.cfg.variant := rfl
  rw [returnFromException, M.look_bind, M.look_bind, readData_bind_of_supervisor hs heven,
    readData_bind_of_supervisor (s := s.load .w 5 s.a[7]) hs hpc, M.look_bind, hvariant]
  cases s.cfg.variant with
  | m68000 | m68008 => rfl
  | m68010 =>
    dsimp only
    rw [readData_bind_of_supervisor (s := t) hs hword, ← extractLsb'_lowWord, if_pos rfl]
    by_cases h0 : format = 0
    · rw [if_pos h0, show (lowWord _).extractLsb' 12 4 = 0 from h0]
      rfl
    · rw [if_neg h0]
      by_cases h8 : format = 8
      · rw [if_pos h8, show (lowWord _).extractLsb' 12 4 = 8 from h8]
        rfl
      · rw [if_neg h8]
        generalize hn : BitVec.toNat _ = n
        split
        next => exact absurd (BitVec.eq_of_toNat_eq hn) h0
        next => exact absurd (BitVec.eq_of_toNat_eq hn) h8
        next => rfl

/-- Settles O38: the words of the frame are read before anything is popped. -/
theorem rteResult : Obligations.RteResult := by
  unfold Obligations.RteResult
  intro s hs hstack sp t back format u
  have hreturn := returnFromException_eq hs (State.stackReady_iff.mp hstack)
  refine ⟨fun hv => ?_, fun hv h0 => ?_, fun hv h8 => ?_, fun hv h0 h8 he => ?_⟩ <;>
    refine (run_privileged hs).trans ?_
  · exact run_ok (hreturn.trans (if_neg hv))
  · exact run_ok (hreturn.trans ((if_pos hv).trans (if_pos h0)))
  · have hne : format ≠ 0 := by rw [h8]; decide
    exact run_fault (hreturn.trans ((if_pos hv).trans ((if_neg hne).trans (if_pos h8))))
  · exact run_raise (hreturn.trans ((if_pos hv).trans ((if_neg h0).trans (if_neg h8)))) he

/-! The traps and the emulator lines. -/

/-- Settles O39: each word has the value of its instruction's encoding, and each meaning raises at once. -/
theorem trapResult : Obligations.TrapResult := by
  unfold Obligations.TrapResult
  intro v b low s
  refine ⟨⟨?_, ?_, ?_, ?_, ?_, ?_⟩, fun he => ?_, fun hv => ?_, fun hv he => ?_,
    fun he => ⟨run_raiseAtIpc he, run_raiseAtIpc he⟩, run_raiseAtIpc, run_raiseAtIpc⟩
  · exact decodeWord_of_toNat (toNat_append_eq_add _ _)
  · exact decodeWord_of_toNat rfl
  · exact decodeWord_of_toNat rfl
  · exact decodeWord_of_toNat (toNat_append_eq_add _ _)
  · exact decodeWord_of_toNat (toNat_append_eq_add _ _)
  · exact decodeWord_of_toNat (toNat_append_eq_add _ _)
  · exact run_raise (t := s) rfl he
  · exact run_ok (by rw [M.require_apply, hv]; rfl)
  · exact run_raise (by rw [M.require_apply, hv]; rfl) he

/-! Trace. -/

theorem step_of_tracePending {s : State} (ha : s.active = true) (ht : s.tracePending = true) :
    step s = takeException 9 s.pc none s.beginStep := by
  simp only [State.active, Bool.and_eq_true, Option.isNone_iff_eq_none, bne_iff_ne] at ha
  obtain ⟨⟨⟨hf, hm⟩, hb⟩, hr⟩ := ha
  have hactive : activeStep s = takeException 9 s.pc none s.beginStep := by rw [activeStep, ht]
  rw [step, boundaryStep, hf, hm, hb]
  cases hrun : s.runState with
  | halted => exact absurd hrun hr
  | running | stopped => exact hactive

/-- Settles O51: the step of an active core looks at a pending trace first. -/
theorem traceTaken : Obligations.TraceTaken := by
  unfold Obligations.TraceTaken
  intro s ha
  refine ⟨fun ht he => ?_, fun w => ?_⟩
  · have hready : s.beginStep.entryReady 9 = true := he
    rw [step_of_tracePending ha ht, takeException_ok hready]
  · simp [State.atMeaning, State.latchTrace]

end Sys2Proof.Machine
end

section
/-! PROOFS. The step between instructions (60_exceptions.md R423, R431; 70_reset_and_hazards.md R465) and its bus calls (20_memory.md R70,
R74, R76): two relations that every elementary operation of the core keeps, so every step does. -/

namespace Sys2Proof.Machine

/-! The step of an instruction, and the hold. -/

/-- Settles O4: the PC is past the operation word when the meaning starts. -/
theorem stepRunsDecoded : Obligations.StepRunsDecoded := by
  unfold Obligations.StepRunsDecoded
  intro s i hs hw w hd
  have hpc : (s.atMeaning w).ipc = s.pc := by simp [State.ipc, State.atMeaning]
  rw [step_eq_runOpcode hs hw, runOpcode, hd]
  show commitOutcome ((s.atMeaning w).ipc + _) _ = _
  rw [hpc]

/-- An active core at a boundary with no trace pending (R431). -/
theorem step_of_active {s : State} (ha : s.active = true) : step s = activeStep s := by
  simp only [State.active, Bool.and_eq_true, Option.isNone_iff_eq_none, bne_iff_ne] at ha
  obtain ⟨⟨⟨hf, hm⟩, hb⟩, hr⟩ := ha
  rw [step, boundaryStep, hf, hm, hb]
  cases hrun : s.runState with
  | halted => exact absurd hrun hr
  | running | stopped => rfl

/-- Settles O50: below 7 only a level above the mask is recognized. -/
theorem maskedRequestWaits : Obligations.MaskedRequestWaits := by
  unfold Obligations.MaskedRequestWaits
  intro s ha ht hmask h7
  have hlevel : s.intLevel.val ≠ 7 := fun h => h7 (Fin.ext h)
  have hrec : s.recognized = false := by simp [State.recognized, hmask, hlevel]
  refine ⟨hrec, fun hstop => ⟨?_, by simp, by simp, fun hq => ?_⟩⟩
  · rw [step_of_active ha, activeStep, ht, hrec, hstop]
  · rw [State.beginStep_mem_of_quiet (by simpa using hq), State.sampleLine_mem]

/-! The bus calls of a step. -/

/-- Every call made so far is a byte or at an even address, if the calls before were. -/
def AlignedCalls (s t : State) : Prop := (∀ c ∈ s.calls, c.aligned = true) → ∀ c ∈ t.calls, c.aligned = true

theorem AlignedCalls.of_eq {s t : State} (h : t.calls = s.calls := by simp) : AlignedCalls s t := fun hs => h ▸ hs

theorem AlignedCalls.of_cons {s t : State} {c : BusCall} (hc : c.aligned = true)
    (h : t.calls = c :: s.calls := by simp) : AlignedCalls s t := fun hs => by
  rw [h]
  exact List.forall_mem_cons.mpr ⟨hc, hs⟩

theorem alignedCalls_coreFrame : CoreFrame AlignedCalls where
  refl s := id
  trans h h' := h' ∘ h
  setD s n v := .of_eq
  setA s n v := .of_eq
  setPc s v := .of_eq
  setCcr s c := .of_eq
  drawn s n := .of_eq
  load {s sz fc a} h := .of_cons (c := .read sz a fc) h
  store {s sz fc a v} h := .of_cons (c := .write sz a fc (low sz v)) h
  skipWord {s} h := .of_cons (c := .fetch16 s.pc s.progFc) (Bool.and_eq_true_iff.mp h).1
  setS s := .of_eq
  maskTrace s i := .of_eq
  inHandler s v discard := .of_eq rfl
  writeSr s v := .of_eq
  setSpInactive s v := .of_eq
  setControl r v _ := .of_eq
  stopped s := .of_eq
  resetOut s := .of_cons (c := .resetOut) rfl

theorem State.commit_calls (s : State) (n : Long) : (s.commit n).calls = s.calls := by
  unfold State.commit
  split <;> rfl

theorem alignedCalls_boundaryFrame : BoundaryFrame AlignedCalls where
  sampleLine s := .of_eq
  latchTrace s := .of_eq
  setIr s w := .of_eq
  commit s n := .of_eq (s.commit_calls n)

/-- Settles O58: a step starts with no calls. -/
theorem accessesAreAligned : Obligations.AccessesAreAligned := by
  unfold Obligations.AccessesAreAligned
  intro s t ht
  refine alignedCalls_coreFrame.rel_of_step alignedCalls_boundaryFrame (fun s l => ?_) ht (by simp)
  exact .of_cons (c := .iack l 7) rfl

theorem writtenKeys_append (cfg : Config) (cs ds : List BusCall) :
    writtenKeys cfg (cs ++ ds) = writtenKeys cfg cs ++ writtenKeys cfg ds := by
  induction cs with
  | nil => rfl
  | cons c cs ih => cases c <;> simp [writtenKeys, ih]

/-- From `s` to `t` the calls `cs` are made, newest first: each takes its entry of the script, and only a byte that one of
them writes may change. -/
structure Issues (cs : List BusCall) (s t : State) : Prop where
  calls : t.calls = cs ++ s.calls
  script : t.script = s.script.drop cs.length
  agents : t.agents = s.agents
  cfg : t.cfg = s.cfg
  mem : ∀ k ∉ writtenKeys s.cfg cs, Memory.read t.mem k = Memory.read s.mem k

/-- Memory changes only by calls made. -/
def CallsOnly (s t : State) : Prop := ∃ cs, Issues cs s t

theorem CallsOnly.of_eq {s t : State} (hc : t.calls = s.calls := by simp) (hs : t.script = s.script := by simp)
    (ha : t.agents = s.agents := by simp) (hg : t.cfg = s.cfg := by simp) (hm : t.mem = s.mem := by simp) :
    CallsOnly s t := ⟨[], hc, hs, ha, hg, fun _ _ => hm ▸ rfl⟩

theorem CallsOnly.trans {s t u : State} : CallsOnly s t → CallsOnly t u → CallsOnly s u := by
  rintro ⟨cs, h⟩ ⟨ds, h'⟩
  refine ⟨ds ++ cs, ?_, ?_, h'.agents.trans h.agents, h'.cfg.trans h.cfg, fun k hk => ?_⟩
  · rw [h'.calls, h.calls, List.append_assoc]
  · rw [h'.script, h.script, List.drop_drop, List.length_append, Nat.add_comm]
  · rw [writtenKeys_append, List.mem_append, not_or] at hk
    exact (h'.mem k (h.cfg ▸ hk.1)).trans (h.mem k hk.2)

/-- A call whose store, if it is a write, is not made yet. -/
theorem CallsOnly.addCall (s : State) (c : BusCall) : CallsOnly s (s.addCall c) :=
  ⟨[c], rfl, List.drop_one.symm, rfl, rfl, fun _ _ => rfl⟩

theorem CallsOnly.store (s : State) (sz : Size) (fc : BitVec 3) (a v : Long) : CallsOnly s (s.store sz fc a v) := by
  refine ⟨[.write sz a fc (low sz v)], by simp, by simp, by simp, by simp, fun k hk => ?_⟩
  have hkeys : k ∉ accessKeys s.cfg sz fc a := by simpa [writtenKeys] using hk
  exact State.read_poke_other (s.addCall (.write sz a fc (low sz v))) sz fc a v k hkeys

theorem callsOnly_coreFrame : CoreFrame CallsOnly where
  refl s := .of_eq
  trans := .trans
  setD s n v := .of_eq
  setA s n v := .of_eq
  setPc s v := .of_eq
  setCcr s c := .of_eq
  drawn s n := .of_eq
  load {s sz fc a} _ := .addCall s (.read sz a fc)
  store {s sz fc a v} _ := .store s sz fc a v
  skipWord {s} _ := (CallsOnly.addCall s (.fetch16 s.pc s.progFc)).trans .of_eq
  setS s := .of_eq
  maskTrace s i := .of_eq
  inHandler s v discard := .of_eq rfl rfl rfl rfl rfl
  writeSr s v := .of_eq
  setSpInactive s v := .of_eq
  setControl r v _ := .of_eq
  stopped s := .of_eq
  resetOut s := .addCall s .resetOut

theorem callsOnly_boundaryFrame : BoundaryFrame CallsOnly where
  sampleLine s := .of_eq
  latchTrace s := .of_eq
  setIr s w := .of_eq
  commit s n := by
    unfold State.commit
    split <;> exact .of_eq

/-- Settles O59: a step starts with no calls, and what has changed outside the core is in memory when it starts. -/
theorem memoryChangesOnlyByWrites : Obligations.MemoryChangesOnlyByWrites := by
  unfold Obligations.MemoryChangesOnlyByWrites
  intro s t ht
  have hstep : CallsOnly s.beginStep t :=
    callsOnly_coreFrame.rel_of_step callsOnly_boundaryFrame
      (fun s l => (CallsOnly.of_eq (t := s.consumeRequest)).trans (.addCall ..)) ht
  obtain ⟨cs, hcalls, hscript, hagents, hcfg, hmem⟩ := hstep
  obtain rfl : t.calls = cs := by simpa using hcalls
  refine ⟨hscript, hagents, fun fc a => ⟨fun hk => ?_, State.read_beginStep⟩⟩
  rw [State.peekByte, State.peekByte, hcfg]
  exact hmem _ hk

end Sys2Proof.Machine
end

section
/-! PROOFS. The byte store (20_memory.md R72, R73): the bytes of an access have keys of their own, so a store reads back and
leaves what lies beside it. -/

namespace Sys2Proof.Machine

/-! Keys. -/

theorem addressBits_ge (cfg : Config) : 20 ≤ addressBits cfg := by
  unfold addressBits
  split
  · decide
  · decide
  · split <;> decide

/-- Byte addresses less than `2^20` apart stand at bus addresses of their own (R72). -/
theorem memKey_inj {cfg : Config} {fc : BitVec 3} {a : Long} {i j : Nat} (hi : i < 2 ^ 20) (hj : j < 2 ^ 20)
    (h : memKey cfg fc (a + BitVec.ofNat 32 i) = memKey cfg fc (a + BitVec.ofNat 32 j)) : i = j := by
  have hbus : (a.toNat + i) % 2 ^ addressBits cfg = (a.toNat + j) % 2 ^ addressBits cfg := by
    have hdvd : 2 ^ addressBits cfg ∣ 4294967296 := Nat.pow_dvd_pow 2 ((addressBits_le cfg).trans (by decide : 24 ≤ 32))
    simpa [memKey, busAddr, Nat.mod_mod_of_dvd _ hdvd] using h
  have hle : 2 ^ 20 ≤ 2 ^ addressBits cfg := Nat.pow_le_pow_right (by decide) (addressBits_ge cfg)
  have hij : i % 2 ^ addressBits cfg = j % 2 ^ addressBits cfg := Nat.ModEq.add_left_cancel' a.toNat hbus
  rwa [Nat.mod_eq_of_lt (hi.trans_le hle), Nat.mod_eq_of_lt (hj.trans_le hle)] at hij

theorem memKey_inj_iff {cfg : Config} {fc : BitVec 3} {a : Long} {i j : Nat} (hi : i < 2 ^ 20) (hj : j < 2 ^ 20) :
    memKey cfg fc (a + BitVec.ofNat 32 i) = memKey cfg fc (a + BitVec.ofNat 32 j) ↔ i = j :=
  ⟨memKey_inj hi hj, fun h => h ▸ rfl⟩

/-! A store and its bytes. -/

section
variable (v : Long)

theorem lowByte_eq : lowByte v = v.extractLsb' 0 8 := BitVec.setWidth_eq_extractLsb' (by decide)

theorem wordLowByte_lowWord : wordLowByte (lowWord v) = v.extractLsb' 0 8 := by
  refine BitVec.eq_of_getLsbD_eq fun i hi => ?_
  simp [wordLowByte, lowWord, hi]

theorem wordHighByte_lowWord : (lowWord v).extractLsb' 8 8 = v.extractLsb' 8 8 :=
  BitVec.extractLsb'_setWidth_of_le (by decide)

theorem wordLowByte_highWord : wordLowByte (highWord v) = v.extractLsb' 16 8 := by
  refine BitVec.eq_of_getLsbD_eq fun i hi => ?_
  simp [wordLowByte, highWord, hi, hi.trans (show 8 < 16 by decide)]

theorem wordHighByte_highWord : (highWord v).extractLsb' 8 8 = v.extractLsb' 24 8 := by
  refine BitVec.eq_of_getLsbD_eq fun i hi => ?_
  simp [highWord, hi, ← Nat.add_assoc, show 8 + i < 16 by omega]

theorem lowWord_eq_bytes : wordOfBytes (v.extractLsb' 8 8) (v.extractLsb' 0 8) = lowWord v :=
  (BitVec.extractLsb'_append_extractLsb'_eq_extractLsb' (h := rfl)).trans (BitVec.setWidth_eq_extractLsb' (by decide)).symm

theorem highWord_eq_bytes : wordOfBytes (v.extractLsb' 24 8) (v.extractLsb' 16 8) = highWord v :=
  BitVec.extractLsb'_append_extractLsb'_eq_extractLsb' (h := rfl)

theorem joinWords_highWord_lowWord : joinWords (highWord v) (lowWord v) = v := by
  rw [joinWords, highWord, lowWord, BitVec.setWidth_eq_extractLsb' (by decide)]
  exact (BitVec.extractLsb'_append_extractLsb'_eq_extractLsb' (h := rfl)).trans BitVec.extractLsb'_eq_self

/-- A value cut to a byte or to a word. -/
theorem setWidth_lowByte : (lowByte v).setWidth 32 = low .b v := by
  apply BitVec.eq_of_toNat_eq
  rw [low_toNat, lowByte, BitVec.toNat_setWidth, BitVec.toNat_setWidth]
  exact Nat.mod_eq_of_lt ((Nat.mod_lt _ (by decide)).trans (by decide))

theorem setWidth_lowWord : (lowWord v).setWidth 32 = low .w v := by
  apply BitVec.eq_of_toNat_eq
  rw [low_toNat, lowWord, BitVec.toNat_setWidth, BitVec.toNat_setWidth]
  exact Nat.mod_eq_of_lt ((Nat.mod_lt _ (by decide)).trans (by decide))

end

/-- The bytes of a store, most significant byte first (R73). -/
theorem State.peekByte_poke (s : State) (sz : Size) (fc : BitVec 3) (a v : Long) {k : Nat} (hk : k < sz.bytes) :
    (s.poke sz fc a v).peekByte fc (a + BitVec.ofNat 32 k) = v.extractLsb' (8 * (sz.bytes - 1 - k)) 8 := by
  have hkey (j : Nat) (hj : j < 4) : memKey s.cfg fc (a + BitVec.ofNat 32 k) = memKey s.cfg fc (a + BitVec.ofNat 32 j) ↔
      k = j := memKey_inj_iff (hk.trans (by cases sz <;> decide)) (hj.trans (by decide))
  have h0 : memKey s.cfg fc (a + BitVec.ofNat 32 k) = memKey s.cfg fc a ↔ k = 0 := by simpa using hkey 0 (by decide)
  have h1 : memKey s.cfg fc (a + BitVec.ofNat 32 k) = memKey s.cfg fc (a + 1) ↔ k = 1 := hkey 1 (by decide)
  have h2 : memKey s.cfg fc (a + BitVec.ofNat 32 k) = memKey s.cfg fc (a + 2) ↔ k = 2 := hkey 2 (by decide)
  have h3 : memKey s.cfg fc (a + BitVec.ofNat 32 k) = memKey s.cfg fc (a + (2 + 1)) ↔ k = 3 := hkey 3 (by decide)
  cases sz <;> simp only [Size.bytes] at hk <;>
    simp only [State.poke, State.pokeLong, State.pokeWord, State.peekByte_pokeByte, State.pokeByte_cfg, BitVec.add_assoc,
      h0, h1, h2, h3, lowByte_eq, wordLowByte_lowWord, wordHighByte_lowWord, wordLowByte_highWord, wordHighByte_highWord] <;>
    interval_cases k <;> rfl

/-- A value is read where its bytes stand (R73). -/
theorem State.peek_of_bytes {s : State} {sz : Size} {fc : BitVec 3} {a v : Long}
    (h : ∀ k < sz.bytes, s.peekByte fc (a + BitVec.ofNat 32 k) = v.extractLsb' (8 * (sz.bytes - 1 - k)) 8) :
    s.peek sz fc a = low sz v := by
  have h0 := h 0 (by cases sz <;> decide)
  rw [BitVec.add_zero] at h0
  cases sz with
  | b =>
    have hb : v.extractLsb' (8 * (Size.b.bytes - 1 - 0)) 8 = lowByte v := (lowByte_eq v).symm
    rw [State.peek, h0, hb, setWidth_lowByte]
  | w =>
    have h1 : s.peekByte fc (a + 1) = v.extractLsb' 0 8 := h 1 (by decide)
    rw [State.peek, State.peekWord, h0, h1, ← setWidth_lowWord, ← lowWord_eq_bytes]
    rfl
  | l =>
    have h1 : s.peekByte fc (a + 1) = v.extractLsb' 16 8 := h 1 (by decide)
    have h2 : s.peekByte fc (a + 2) = v.extractLsb' 8 8 := h 2 (by decide)
    have h3 : s.peekByte fc (a + 2 + 1) = v.extractLsb' 0 8 := by
      rw [BitVec.add_assoc]
      exact h 3 (by decide)
    rw [State.peek, State.peekLong, State.peekWord, State.peekWord, h0, h1, h2, h3, lowWord_eq_bytes, low_long]
    exact (congrArg (joinWords · (lowWord v)) (highWord_eq_bytes v)).trans (joinWords_highWord_lowWord v)

/-- Settles O8: the bytes of a store, and what a value read from them is. -/
theorem memoryReadsBack : Obligations.MemoryReadsBack := by
  unfold Obligations.MemoryReadsBack
  intro s sz fc a v
  refine ⟨State.peek_of_bytes fun k => s.peekByte_poke sz fc a v, fun k => s.peekByte_poke sz fc a v, fun fc' b hk => ?_⟩
  rw [State.peekByte, State.poke_cfg, State.read_poke_other s sz fc a v _ hk, State.peekByte]

end Sys2Proof.Machine
end

section
/-! PROOFS. The forms with one operand that is read and written (43_integer_arithmetic.md R245–R249, 44_logical.md R277,
R278), and Scc (48_program_control.md R325): all but CLR and Scc are bodies met before. -/

namespace Sys2Proof.Machine

/-- CLR's read is made where the configuration and the variant have it, and leaves a register alone (R247). -/
theorem clrDummyRead_ok {s : State} {d : Desc} {sz : Size} (h : d.aligned sz = true) :
    clrDummyRead sz d s = .ok () (if s.clrReads then s.afterRead d sz else s) := by
  cases d with
  | mem a sp =>
    rw [clrDummyRead, M.look_bind]
    cases s.clrReads with
    | true => exact M.bind_ok (eaRead_ok h)
    | false => rfl
  | regD n | regA n | imm v => exact congrArg _ (ite_self s).symm

section
variable {ea : Ea} {sz sz' : Size} {s : State} (hc : EaClass.dataAlterable.admits sz' ea = true)
include hc

theorem execClr_eq (hea : s.eaReady ea sz = true) :
    execClr sz ea s = .next
      (((if s.clrReads then s.afterReadEa ea sz else s.afterEa ea sz).afterWrite (s.eaDesc ea sz) sz 0).setCcr
        ⟨s.ccr.x, false, true, false, false⟩) := by
  obtain ⟨hwords, haligned⟩ := Bool.and_eq_true_iff.mp hea
  have hreads : (s.afterEa ea sz).clrReads = s.clrReads := by simp [State.clrReads]
  have hccr : (if s.clrReads then s.afterReadEa ea sz else s.afterEa ea sz).ccr = s.ccr := by split <;> simp
  refine run_ok ?_
  rw [M.bind_ok (resolve_ok hwords), M.bind_ok (clrDummyRead_ok haligned), hreads,
    M.bind_ok (eaWrite_ok (State.writable_eaDesc s ea sz sz' hc) haligned), M.upd_apply, State.afterWrite_ccr]
  rw [← hccr]
  rfl

/-- Scc reads the flags after its operand is resolved, which leaves them as they were (R325). -/
theorem execScc_eq {c : Cond} (hea : s.eaReady ea .b = true) :
    execScc c ea s = .next ((s.afterEa ea .b).afterWrite (s.eaDesc ea .b) .b
      (if condHolds c s.ccr then 0xFF else 0)) := by
  obtain ⟨hwords, haligned⟩ := Bool.and_eq_true_iff.mp hea
  refine run_ok ?_
  rw [M.bind_ok (resolve_ok hwords), M.look_bind, State.afterEa_ccr,
    eaWrite_ok (State.writable_eaDesc s ea .b sz' hc) haligned]

end

/-- Settles O24: the data alterable modes are the same at every size (30_encoding.md R104), so their class serves TAS and
Scc too; TST and TAS take N and Z from a value that fits its size. -/
theorem unaryResult : Obligations.UnaryResult := by
  unfold Obligations.UnaryResult
  intro sz ea c s hc
  refine ⟨fun hea => ⟨run_modifyEa hc hea, run_modifyEa hc hea, run_modifyEa hc hea, ?_, execClr_eq hc hea⟩,
    fun hea => ⟨(run_modifyEa (sz := .b) hc hea).trans ?_, execScc_eq hc hea⟩⟩
  · rw [← nz00_of_low s.ccr (s.low_eaValue ea sz), ← State.afterReadEa_ccr s ea sz]
    exact run_readEa_upd hea
  · rw [State.modified, aluTas, nz00_of_low s.ccr (s.low_eaValue ea .b)]
    rfl

end Sys2Proof.Machine
end

section
/-! PROOFS. Exception frames (60_exceptions.md R410–R414, R426): a frame is what a few pushes leave on the supervisor stack, read
upwards from its top; both frames, the handler of a vector and the acknowledge of an interrupt are read off it. -/

namespace Sys2Proof.Machine

/-! Values that stand one above the other. -/

/-- The bytes of a frame, its items from the top of the stack upwards. -/
def frameBytes : List (Size × Long) → Nat
  | [] => 0
  | i :: items => i.1.bytes + frameBytes items

/-- The items of a frame as memory holds them from an address on. -/
def State.holdsFrame (s : State) : Long → List (Size × Long) → Prop
  | _, [] => True
  | a, i :: items => s.peek i.1 5 a = i.2 ∧ s.holdsFrame (a + BitVec.ofNat 32 i.1.bytes) items

/-- The writes of a frame, the last made first. -/
def frameCalls : Long → List (Size × Long) → List BusCall
  | _, [] => []
  | a, i :: items => .write i.1 a 5 i.2 :: frameCalls (a + BitVec.ofNat 32 i.1.bytes) items

theorem State.peek_congr_bytes {s t : State} {sz : Size} {fc : BitVec 3} {a : Long}
    (h : ∀ k < sz.bytes, t.peekByte fc (a + BitVec.ofNat 32 k) = s.peekByte fc (a + BitVec.ofNat 32 k)) :
    t.peek sz fc a = s.peek sz fc a := by
  have h0 := h 0 (by cases sz <;> decide)
  rw [BitVec.add_zero] at h0
  cases sz with
  | b => rw [State.peek, State.peek, h0]
  | w =>
    have h1 : t.peekByte fc (a + 1) = s.peekByte fc (a + 1) := h 1 (by decide)
    rw [State.peek, State.peek, State.peekWord, State.peekWord, h0, h1]
  | l =>
    have h1 : t.peekByte fc (a + 1) = s.peekByte fc (a + 1) := h 1 (by decide)
    have h2 : t.peekByte fc (a + 2) = s.peekByte fc (a + 2) := h 2 (by decide)
    have h3 : t.peekByte fc (a + 2 + 1) = s.peekByte fc (a + 2 + 1) := by
      rw [BitVec.add_assoc]
      exact h 3 (by decide)
    simp only [State.peek, State.peekLong, State.peekWord, h0, h1, h2, h3]

theorem add_ofNat_add (a : Long) (m n : Nat) :
    a + BitVec.ofNat 32 m + BitVec.ofNat 32 n = a + BitVec.ofNat 32 (m + n) := by
  rw [BitVec.add_assoc, BitVec.ofNat_add]

/-- A frame is held where its bytes are. -/
theorem State.holdsFrame_congr {s t : State} {a : Long} {items : List (Size × Long)}
    (h : ∀ k < frameBytes items, t.peekByte 5 (a + BitVec.ofNat 32 k) = s.peekByte 5 (a + BitVec.ofNat 32 k))
    (hs : s.holdsFrame a items) : t.holdsFrame a items := by
  induction items generalizing a with
  | nil => trivial
  | cons i items ih =>
    obtain ⟨htop, hrest⟩ := hs
    refine ⟨(State.peek_congr_bytes fun k hk => h k (Nat.lt_add_right _ hk)).trans htop, ih (fun k hk => ?_) hrest⟩
    rw [add_ofNat_add]
    exact h _ (Nat.add_lt_add_left hk _)

/-! Pushes. -/

/-- What neither a push nor a draw changes of the registers that an entry speaks of. -/
def State.entryPart (s : State) :
    Config × Vector Long 8 × Long × Bool × Bool × BitVec 3 × Ccr × (Long × BitVec 3 × BitVec 3) × Bool × Option Word :=
  (s.cfg, s.d, s.spInactive, s.tBit, s.sBit, s.iMask, s.ccr, s.controlPart, s.tracePending, s.ir)

/-- From `s` to `t`, both in supervisor mode, the items of a frame are pushed on an even stack pointer. -/
structure Frame (items : List (Size × Long)) (s t : State) : Prop where
  supervisor : s.sBit = true
  even : isOdd t.a[7] = false
  kept : t.entryPart = s.entryPart
  a7 : t.a[7] = s.a[7] - BitVec.ofNat 32 (frameBytes items)
  a : ∀ n : Fin 8, n ≠ 7 → t.a[n] = s.a[n]
  calls : t.calls = frameCalls t.a[7] items ++ s.calls
  script : t.script = s.script.drop items.length
  holds : t.holdsFrame t.a[7] items
  mem : ∀ k, (∀ j < frameBytes items, k ≠ memKey s.cfg 5 (t.a[7] + BitVec.ofNat 32 j)) →
    Memory.read t.mem k = Memory.read s.mem k

section
variable {items : List (Size × Long)} {s t : State}

theorem Frame.refl (hs : s.sBit = true) (heven : isOdd s.a[7] = false) : Frame [] s s where
  supervisor := hs
  even := heven
  kept := rfl
  a7 := (BitVec.sub_zero _).symm
  a _ _ := rfl
  calls := rfl
  script := rfl
  holds := trivial
  mem _ _ := rfl

theorem Frame.drawn (h : Frame items s t) (n : Nat) : Frame items s (t.drawn n) where
  supervisor := h.supervisor
  even := h.even
  kept := h.kept
  a7 := h.a7
  a := h.a
  calls := h.calls
  script := h.script
  holds := State.holdsFrame_congr (s := t) (fun _ _ => rfl) h.holds
  mem := h.mem

/-- A byte at or above the end of an access has a key of its own. -/
theorem memKey_notMem_accessKeys {cfg : Config} {fc : BitVec 3} {sp : Long} {sz : Size} {j : Nat} (hj : j < 2 ^ 20)
    (hjk : sz.bytes ≤ j) : memKey cfg fc (sp + BitVec.ofNat 32 j) ∉ accessKeys cfg sz fc sp := by
  intro hmem
  obtain ⟨i, hi, hkey⟩ := List.mem_map.mp hmem
  have hi : i < sz.bytes := List.mem_range.mp hi
  have := memKey_inj (hi.trans_le hjk |>.trans hj) hj hkey
  omega

theorem State.read_pushed (s : State) (sz : Size) (v : Long) {k : Nat}
    (hk : k ∉ accessKeys s.cfg sz s.dataFc (s.pushed sz v).a[7]) :
    Memory.read (s.pushed sz v).mem k = Memory.read s.mem k := by
  rw [State.pushed_a7] at hk
  exact State.read_poke_other ((s.setA 7 _).addCall _) sz s.dataFc _ v k hk

theorem State.peek_pushed (s : State) (sz : Size) (v : Long) :
    (s.pushed sz v).peek sz s.dataFc (s.pushed sz v).a[7] = low sz v := by
  rw [State.pushed_a7]
  exact State.peek_of_bytes fun k => ((s.setA 7 _).addCall _).peekByte_poke sz s.dataFc _ v

theorem Frame.pushed (h : Frame items s t) {sz : Size} (hsz : sz ≠ .b) (v : Long)
    (hsmall : sz.bytes + frameBytes items < 2 ^ 20) : Frame ((sz, low sz v) :: items) s (t.pushed sz v) := by
  have hpart := h.kept
  simp only [State.entryPart, Prod.mk.injEq] at hpart
  obtain ⟨hcfg, -, -, -, hS, -⟩ := hpart
  have hfc : t.dataFc = 5 := by simp [State.dataFc, hS, h.supervisor]
  have htop : (t.pushed sz v).a[7] + BitVec.ofNat 32 sz.bytes = t.a[7] := by
    rw [State.pushed_a7, BitVec.sub_add_cancel]
  have habove (j : Nat) : t.a[7] + BitVec.ofNat 32 j = (t.pushed sz v).a[7] + BitVec.ofNat 32 (sz.bytes + j) := by
    rw [← htop, add_ofNat_add]
  refine ⟨h.supervisor, ?_, ?_, ?_, fun n hn => ?_, ?_, ?_, ⟨?_, ?_⟩, fun k hk => ?_⟩
  · rw [State.pushed_a7]
    exact (alignedAt_push sz hsz h.even).2
  · rw [← h.kept]
    simp [State.entryPart, State.controlPart]
  · rw [State.pushed_a7, h.a7, frameBytes, BitVec.ofNat_add, sub_sub, add_comm]
  · rw [← h.a n hn, State.pushed_a]
    exact Vector.getElem_set_ne (by decide) n.isLt fun h' => hn (Fin.ext h'.symm)
  · rw [State.pushed_calls, h.calls, hfc, frameCalls, htop, State.pushed_a7]
    rfl
  · rw [State.pushed_script, h.script, List.tail_drop]
    rfl
  · rw [← hfc]
    exact t.peek_pushed sz v
  · rw [htop]
    refine State.holdsFrame_congr (fun j hj => ?_) h.holds
    rw [State.peekByte, State.peekByte, State.pushed_cfg, habove]
    refine State.read_pushed t sz v ?_
    rw [hfc]
    exact memKey_notMem_accessKeys (by omega) (Nat.le_add_right _ _)
  · rw [State.read_pushed, h.mem]
    · intro j hj
      rw [habove]
      exact hk _ (Nat.add_lt_add_left hj _)
    · rw [hfc, hcfg]
      intro hmem
      obtain ⟨i, hi, rfl⟩ := List.mem_map.mp hmem
      exact hk i (Nat.lt_add_right _ (List.mem_range.mp hi)) rfl

theorem Frame.pushedWord (h : Frame items s t) (w : Word) (hsmall : frameBytes items < 2 ^ 19) :
    Frame ((.w, w.setWidth 32) :: items) s (t.pushed .w (w.setWidth 32)) := by
  have hpush := h.pushed (sz := .w) (by decide) (w.setWidth 32) (by simp only [Size.bytes]; omega)
  have hcut : low .w (w.setWidth 32) = w.setWidth 32 := low_setWidth .w w
  rwa [hcut] at hpush

theorem Frame.pushedLong (h : Frame items s t) (v : Long) (hsmall : frameBytes items < 2 ^ 19) :
    Frame ((.l, v) :: items) s (t.pushed .l v) := by
  have hpush := h.pushed (sz := .l) (by decide) v (by simp only [Size.bytes]; omega)
  rwa [low_long] at hpush

end

/-! Entry. -/

/-- The address of a vector in supervisor mode (R412), as the statements write it. -/
theorem State.vectorAddr_eq (s : State) (v : Byte) :
    s.vectorAddr v = (if s.cfg.variant = .m68010 then s.vbr else 0) + 4 * v.setWidth 32 := rfl

/-- An exception with this frame has been entered from `s` through vector `v` (R410, R426). -/
structure Entered (items : List (Size × Long)) (newI : Option (BitVec 3)) (v : Byte) (discard : Bool) (s t : State) :
    Prop where
  sBit : t.sBit = true
  tBit : t.tBit = false
  iMask : t.iMask = newI.getD s.iMask
  ccr : t.ccr = s.ccr
  d : t.d = s.d
  a : ∀ n : Fin 8, n ≠ 7 → t.a[n] = s.a[n]
  usp : t.usp = s.usp
  a7 : t.a[7] = s.ssp - BitVec.ofNat 32 (frameBytes items)
  tracePending : t.tracePending = (s.tracePending && !discard)
  runState : t.runState = .running
  lastStores : t.lastStores = []
  entered : t.entered = some v
  control : t.controlPart = s.controlPart
  pc : t.pc = (nextReaction (s.script.drop items.length)).value .l (t.peekLong 5 (s.vectorAddr v))
  calls : t.calls = .read .l (s.vectorAddr v) 5 :: (frameCalls t.a[7] items ++ s.calls)
  holds : t.holdsFrame t.a[7] items
  mem : ∀ (fc : BitVec 3) (a : Long),
    (∀ k < frameBytes items, memKey s.cfg fc a ≠ memKey s.cfg 5 (t.a[7] + BitVec.ofNat 32 k)) →
      t.peekByte fc a = s.peekByte fc a

/-- The handler's address taken on top of a frame. -/
theorem Frame.entered {items : List (Size × Long)} {s f : State} {newI : Option (BitVec 3)}
    (h : Frame items (s.enterMode newI) f) (v : Byte) (discard : Bool) :
    Entered items newI v discard s (f.vectored v discard) := by
  have hpart := h.kept
  simp only [State.entryPart, State.controlPart, Prod.mk.injEq] at hpart
  obtain ⟨hcfg, hd, hsp, hT, hS, hI, hccr, ⟨hvbr, hsfc, hdfc⟩, htrace, -⟩ := hpart
  simp only [State.enterMode_cfg, State.enterMode_d, State.enterMode_tBit, State.enterMode_sBit, State.enterMode_iMask,
    State.enterMode_ccr, State.enterMode_vbr, State.enterMode_sfc, State.enterMode_dfc, State.enterMode_tracePending]
    at hcfg hd hT hS hI hccr hvbr hsfc hdfc htrace
  have hva : f.vectorAddr v = s.vectorAddr v := by simp [State.vectorAddr_eq, hcfg, hvbr]
  exact {
    sBit := hS
    tBit := hT
    iMask := hI
    ccr := hccr
    d := hd
    a n hn := by
      refine (h.a n hn).trans ?_
      rw [State.enterMode_a]
      exact s.setS_a_of_ne true hn
    usp := by
      rw [← s.usp_setS true]
      simp [State.usp, hS, hsp]
    a7 := by
      rw [← s.setS_a7, ← State.enterMode_a s newI]
      exact h.a7
    tracePending := by rw [State.vectored_tracePending, htrace]
    runState := rfl
    lastStores := rfl
    entered := rfl
    control := by simp [State.controlPart, hvbr, hsfc, hdfc]
    pc := by
      rw [State.vectored_pc, hva, State.loaded, h.script, State.enterMode_script]
      rfl
    calls := by
      rw [State.vectored_calls, hva, h.calls, State.enterMode_calls, State.vectored_a]
    holds := State.holdsFrame_congr (s := f) (fun _ _ => rfl) h.holds
    mem fc a hk := by
      have hcfg' : (f.vectored v discard).cfg = s.cfg := hcfg
      rw [State.peekByte, State.peekByte, hcfg', ← State.enterMode_mem s newI]
      exact h.mem _ (by simpa using hk) }

theorem State.frame_enterMode {s : State} (newI : Option (BitVec 3)) (h : isOdd s.ssp = false) :
    Frame [] (s.enterMode newI) (s.enterMode newI) :=
  .refl (s.enterMode_sBit newI) (by rw [State.enterMode_a, State.setS_a7, h])

/-- The format word of an M68010 frame (R411). -/
def formatFrame (cfg : Config) (v : Byte) : List (Size × Long) :=
  if cfg.variant = .m68010 then [(.w, (formatWord v).setWidth 32)] else []

/-- The frame of an exception, from the top of the stack upwards (R410, R411). -/
def entryFrame (cfg : Config) (v : Byte) (savedPc : Long) (sr : Word) : List (Size × Long) :=
  (.w, sr.setWidth 32) :: (.l, savedPc) :: formatFrame cfg v

theorem frameBytes_formatFrame (cfg : Config) (v : Byte) :
    frameBytes (formatFrame cfg v) = if cfg.variant = .m68010 then 2 else 0 := by
  unfold formatFrame
  split <;> rfl

theorem frameBytes_entryFrame (cfg : Config) (v : Byte) (p : Long) (sr : Word) :
    frameBytes (entryFrame cfg v p sr) = if cfg.variant = .m68010 then 8 else 6 := by
  rw [entryFrame, frameBytes, frameBytes, frameBytes_formatFrame]
  split <;> rfl

theorem length_entryFrame (cfg : Config) (v : Byte) (p : Long) (sr : Word) :
    (entryFrame cfg v p sr).length = if cfg.variant = .m68010 then 3 else 2 := by
  unfold entryFrame formatFrame
  split <;> rfl

theorem frameCalls_entryFrame (cfg : Config) (v : Byte) (p : Long) (sr : Word) (a : Long) :
    frameCalls a (entryFrame cfg v p sr) = .write .w a 5 (sr.setWidth 32) :: .write .l (a + 2) 5 p ::
      if cfg.variant = .m68010 then [.write .w (a + 6) 5 (4 * v.setWidth 32)] else [] := by
  have hformat : (formatWord v).setWidth 32 = 4 * v.setWidth 32 := by
    unfold formatWord
    apply BitVec.eq_of_toNat_eq
    simp
    omega
  unfold entryFrame formatFrame
  split
  · simp only [frameCalls, hformat, add_ofNat_add]
    rfl
  · rfl

theorem Frame.withFrame {b s : State} (h : Frame [] b s) (v : Byte) (p : Long) (old : Word) :
    Frame (entryFrame s.cfg v p old) b (s.withFrame v p old) := by
  have hformat : Frame (formatFrame s.cfg v) b (s.withFormatWord v) := by
    unfold formatFrame State.withFormatWord
    cases s.cfg.variant with
    | m68010 => exact h.pushedWord (formatWord v) (by decide)
    | m68000 | m68008 => exact h
  have hbytes : frameBytes (formatFrame s.cfg v) ≤ 2 := by
    rw [frameBytes_formatFrame]
    split <;> decide
  refine (hformat.pushedLong p (by omega)).pushedWord old ?_
  rw [frameBytes, Size.bytes]
  omega

/-- An exception entered (R410). -/
theorem State.entered_entry {s : State} {v : Byte} (p : Long) (newI : Option (BitVec 3)) (h : s.entryReady v = true) :
    Entered (entryFrame s.cfg v p s.sr) newI v (discardsTrace v) s (s.entry v p newI) := by
  have heven : isOdd s.ssp = false := by
    simpa using (Bool.and_eq_true_iff.mp h).1
  exact State.enterMode_cfg s newI ▸ ((s.frame_enterMode newI heven).withFrame v p s.sr).entered v (discardsTrace v)

theorem State.peekWord_of_peek {s : State} {fc : BitVec 3} {a : Long} {w : Word}
    (h : s.peek .w fc a = w.setWidth 32) : s.peekWord fc a = w := by
  have hcut (x : Word) : (x.setWidth 32).setWidth 16 = x := by simp
  rw [← hcut (s.peekWord fc a), ← hcut w, ← h]
  rfl

/-- Settles O44: the frame and its calls, unfolded from the top for either variant. -/
theorem entryState : Obligations.EntryState := by
  unfold Obligations.EntryState
  intro s v p i hready
  obtain ⟨hS, hT, hI, hccr, hd, ha, husp, ha7, htrace, hrun, hlast, -, hcontrol, hpc, hcalls, hholds, hmem⟩ :=
    s.entered_entry p i hready
  rw [frameBytes_entryFrame] at ha7 hmem
  rw [length_entryFrame, State.vectorAddr_eq] at hpc
  rw [frameCalls_entryFrame, State.vectorAddr_eq] at hcalls
  obtain ⟨hvbr, hsfc, hdfc⟩ : _ ∧ _ ∧ _ := by simpa only [State.controlPart, Prod.mk.injEq] using hcontrol
  have hdiscard : discardsTrace v = decide (v ∈ [(4 : Byte), 8, 9, 10, 11]) := List.contains_eq_mem _ _
  rw [hdiscard] at htrace
  obtain ⟨hsr, hp, hformat⟩ := hholds
  refine ⟨s.entry v p i, takeException_ok hready, hS, hT, hI, hccr, hd, ha, husp, ?_, ⟨hpc, hcalls⟩,
    ⟨State.peekWord_of_peek hsr, hp, fun hv => ?_⟩, htrace, hrun, hlast, hvbr, hsfc, hdfc, hmem⟩
  · rw [ha7]
    split <;> rfl
  · rw [formatFrame, if_pos hv, add_ofNat_add] at hformat
    exact State.peekWord_of_peek hformat.1

end Sys2Proof.Machine
end

section
/-! PROOFS. Interrupts (60_exceptions.md R416–R422, R441): the acknowledge is made before the entry, which leaves the request as the
acknowledge has left it unless the host calls back again. -/

namespace Sys2Proof.Machine

/-- With no calls back to come the request is kept, and none are to come. -/
def RequestKept (s t : State) : Prop := s.noCallbacks = true → t.noCallbacks = true ∧ t.intLevel = s.intLevel

theorem RequestKept.of_eq {s t : State} (hs : t.script = s.script := by simp) (hl : t.intLevel = s.intLevel := by simp) :
    RequestKept s t := fun h => ⟨by simpa [State.noCallbacks, hs] using h, hl⟩

theorem RequestKept.trans {s t u : State} (h : RequestKept s t) (h' : RequestKept t u) : RequestKept s u := fun hs =>
  have ⟨ht, hl⟩ := h hs
  have ⟨hu, hl'⟩ := h' ht
  ⟨hu, hl'.trans hl⟩

theorem RequestKept.addCall (s : State) (c : BusCall) : RequestKept s (s.addCall c) := fun h =>
  ⟨State.noCallbacks_addCall c h, (State.addCall_of_noCallbacks c h).1⟩

theorem requestKept_coreFrame : CoreFrame RequestKept where
  refl s := .of_eq
  trans := .trans
  setD s n v := .of_eq
  setA s n v := .of_eq
  setPc s v := .of_eq
  setCcr s c := .of_eq
  drawn s n := .of_eq
  load {s sz fc a} _ := .addCall s (.read sz a fc)
  store {s sz fc a v} _ := (RequestKept.addCall s (.write sz a fc (low sz v))).trans .of_eq
  skipWord {s} _ := (RequestKept.addCall s (.fetch16 s.pc s.progFc)).trans .of_eq
  setS s := .of_eq
  maskTrace s i := .of_eq
  inHandler s v discard := .of_eq rfl rfl
  writeSr s v := .of_eq
  setSpInactive s v := .of_eq
  setControl r v _ := .of_eq
  stopped s := .of_eq
  resetOut s := .addCall s .resetOut

/-- The state in which an interrupt's exception is entered: the request consumed where the mode has it, then the acknowledge
made (R421). -/
def State.acknowledged (s : State) : State :=
  s.sampleLine.beginStep.consumeRequest.addCall (.iack s.intLevel 7)

theorem State.recognized_of_level {s : State} {l : Fin 8} (hl : s.intLevel = l) (h0 : l ≠ 0)
    (h : s.iMask.toNat < l.val ∨
      (l = 7 ∧ s.cfg.level7Nmi = true ∧ (s.cfg.intLineMode = .consumed ∨ s.prevLevel ≠ 7))) : s.recognized = true := by
  have hne : l.val ≠ 0 := fun h => h0 (Fin.ext h)
  have hprev (h7 : s.prevLevel ≠ 7) : s.prevLevel.val < 7 := by
    have := fun h => h7 (Fin.ext h)
    omega
  subst hl
  rcases h with h | ⟨h7, hnmi, h | h⟩
  · simp [State.recognized, hne, h]
  · simp [State.recognized, h7, hnmi, h]
  · simp [State.recognized, h7, hnmi, hprev h]

/-- The step of a recognized interrupt (R431). -/
theorem step_of_recognized {s : State} (ha : s.active = true) (ht : s.tracePending = false) (hr : s.recognized = true) :
    step s = takeException (iackVector s.cfg.iack[s.intLevel] s.intLevel) s.pc (some (BitVec.ofNat 3 s.intLevel.val))
      s.acknowledged := by
  rw [step_of_active ha, activeStep, ht, hr]
  simp [interruptEntry, State.acknowledged]

theorem State.acknowledged_script (s : State) : s.acknowledged.script = s.script.tail := by simp [State.acknowledged]

theorem State.acknowledged_calls (s : State) : s.acknowledged.calls = [.iack s.intLevel 7] := by simp [State.acknowledged]

theorem State.acknowledged_cfg (s : State) : s.acknowledged.cfg = s.cfg := by simp [State.acknowledged]

/-- The acknowledge leaves what the entry's frame holds. -/
theorem State.acknowledged_kept (s : State) :
    s.acknowledged.sr = s.sr ∧ s.acknowledged.ssp = s.ssp ∧ ∀ v, s.acknowledged.vectorAddr v = s.vectorAddr v := by
  simp [State.acknowledged, State.sr, State.ssp, State.vectorAddr, State.vbase]

theorem State.acknowledged_intLevel (s : State) : s.acknowledged.intLevel =
    callbackLevel (nextReaction s.script).callbacks (if s.cfg.intLineMode = .consumed then 0 else s.intLevel) := by
  have hconsume (t : State) : t.consumeRequest.intLevel = if t.cfg.intLineMode = .consumed then 0 else t.intLevel := by
    unfold State.consumeRequest
    split <;> simp [*]
  simp [State.acknowledged, hconsume]

/-- A call back that raises a level leaves that level (R441). -/
theorem callbackLevel_raise (k l : Fin 8) : callbackLevel [.raiseInterrupt k.val] l = k := by
  have hvalid : validLevel (k.val : Int) = true := by
    have := k.isLt
    simp only [validLevel, Bool.and_eq_true, decide_eq_true_eq]
    omega
  rw [callbackLevel, callbackLevel, Callback.level, hvalid, if_pos rfl]
  exact Fin.ofNat_val_eq_self k

theorem callbackLevel_of_noCallbacks {s : State} (h : s.noCallbacks = true) (l : Fin 8) :
    callbackLevel (nextReaction s.script).callbacks l = l := by
  have := (State.addCall_of_noCallbacks (s := { s with intLevel := l }) .resetOut h).1
  exact this

/-- The step of a recognized interrupt enters its vector from the acknowledge and leaves the request that the acknowledge
has left, unless the host calls back again. -/
theorem step_entered_of_recognized {s : State} (ha : s.active = true) (ht : s.tracePending = false)
    (hr : s.recognized = true) (hready : s.entryReady (iackVector s.cfg.iack[s.intLevel] s.intLevel) = true) :
    ∃ t, step s = .next t ∧ RequestKept s.acknowledged t ∧
      Entered (entryFrame s.cfg (iackVector s.cfg.iack[s.intLevel] s.intLevel) s.pc s.sr)
        (some (BitVec.ofNat 3 s.intLevel.val)) (iackVector s.cfg.iack[s.intLevel] s.intLevel)
        (discardsTrace (iackVector s.cfg.iack[s.intLevel] s.intLevel)) s.acknowledged t := by
  obtain ⟨hsr, hssp, hva⟩ := s.acknowledged_kept
  rw [← hsr, ← s.acknowledged_cfg]
  have hready' : s.acknowledged.entryReady (iackVector s.acknowledged.cfg.iack[s.intLevel] s.intLevel) = true := by
    rwa [State.entryReady, hssp, hva, s.acknowledged_cfg]
  have hentry := takeException_ok (p := s.pc) (i := some (BitVec.ofNat 3 s.intLevel.val)) hready'
  exact ⟨_, (step_of_recognized ha ht hr).trans (s.acknowledged_cfg ▸ hentry),
    requestKept_coreFrame.rel_of_takeException hentry, s.acknowledged.entered_entry _ _ hready'⟩

/-- Settles O49: what the entry from the acknowledge has saved, and the request it leaves. -/
theorem interruptTaken : Obligations.InterruptTaken := by
  unfold Obligations.InterruptTaken
  rintro s l ha ht rfl h0 hlevel v hready
  obtain ⟨t, hstep, hrequest, hentered⟩ :=
    step_entered_of_recognized ha ht (State.recognized_of_level rfl h0 hlevel) hready
  change Entered (entryFrame s.cfg v s.pc s.sr) _ v (discardsTrace v) s.acknowledged t at hentered
  obtain ⟨hS, hT, hI, -, -, -, -, -, -, hrun, -, hvector, -, hpc, hcalls, ⟨hsrHeld, hpcHeld, -⟩, -⟩ := hentered
  rw [length_entryFrame, State.acknowledged_script, s.acknowledged_kept.2.2, State.vectorAddr_eq] at hpc
  rw [frameCalls_entryFrame, State.acknowledged_calls] at hcalls
  refine ⟨t, hstep, ?_, hS, hT, hvector, ?_, hrun, ?_, ?_, ?_, hpcHeld, State.peekWord_of_peek hsrHeld,
    fun hq => ?_, fun k x rest hs hq => ?_⟩
  · rw [hI]
    exact Nat.mod_eq_of_lt s.intLevel.isLt
  · rw [hcalls]
    split <;> simp
  · rw [hpc, ← List.drop_one, List.drop_drop]
    split <;> rfl
  · simp [hcalls]
  · simp [hcalls]
  · have hquiet : s.acknowledged.noCallbacks = true := State.noCallbacks_addCall _ (by simpa [State.noCallbacks] using hq)
    rw [(hrequest hquiet).2, State.acknowledged_intLevel, callbackLevel_of_noCallbacks hq]
  · have hquiet : s.acknowledged.noCallbacks = true := by
      rw [State.noCallbacks, State.acknowledged_script, hs]
      exact hq
    rw [(hrequest hquiet).2, State.acknowledged_intLevel, hs]
    exact callbackLevel_raise k _

end Sys2Proof.Machine
end

section
/-! PROOFS. Address errors (20_memory.md R74; 60_exceptions.md R426, R427; 70_reset_and_hazards.md R451): which accesses exit with one, that
an instruction takes it from the state it has come to, and the group-0 frame. -/

namespace Sys2Proof.Machine

/-! Accesses that exit. -/

section
variable {sz : Size} {fc : BitVec 3} {a v : Long} {s : State}

theorem memRead_error (h : alignedAt sz a = false) :
    memRead sz fc a s = .error (.addressError ⟨a, false, fc, false⟩) s := by
  simp only [alignedAt] at h
  simp [memRead, checkAligned, h]

theorem memWrite_error (h : alignedAt sz a = false) :
    memWrite sz fc a v s = .error (.addressError ⟨a, true, fc, false⟩) s := by
  simp only [alignedAt] at h
  simp [memWrite, checkAligned, h]

theorem readData_error (h : alignedAt sz a = false) :
    readData sz a s = .error (.addressError ⟨a, false, s.dataFc, false⟩) s := memRead_error h

theorem writeData_error (h : alignedAt sz a = false) :
    writeData sz a v s = .error (.addressError ⟨a, true, s.dataFc, false⟩) s := memWrite_error h

theorem fetch16_odd (h : isOdd s.pc = true) :
    fetch16 s = .error (.addressError ⟨s.pc, false, s.progFc, false⟩) s := by
  simp [fetch16, checkAligned, h]

theorem alignedAt_of_odd (hsz : sz ≠ .b) (h : isOdd a = true) : alignedAt sz a = false := by
  simp [alignedAt, h, hsz]

theorem isOdd_ofNat_bytes (hsz : sz ≠ .b) : isOdd (BitVec.ofNat 32 sz.bytes) = false := by
  cases sz with
  | b => exact absurd rfl hsz
  | w | l => rfl

/-- A push on an odd stack pointer moves it and writes nothing (20_memory.md R86). -/
theorem push_error (hsz : sz ≠ .b) (h : isOdd s.a[7] = true) :
    push sz v s = .error (.addressError ⟨s.a[7] - BitVec.ofNat 32 sz.bytes, true, s.dataFc, false⟩)
      (s.setA 7 (s.a[7] - BitVec.ofNat 32 sz.bytes)) := by
  have hodd : isOdd (s.a[7] - BitVec.ofNat 32 sz.bytes) = true := by
    rw [isOdd_sub _ _ (isOdd_ofNat_bytes hsz), h]
  simp only [push, M.upd_bind, M.look_bind, State.setA_a7]
  exact writeData_error (alignedAt_of_odd hsz hodd)

theorem pop_error (hsz : sz ≠ .b) (h : isOdd s.a[7] = true) :
    pop sz s = .error (.addressError ⟨s.a[7], false, s.dataFc, false⟩) s :=
  (M.look_bind ..).trans (M.bind_error (readData_error (alignedAt_of_odd hsz h)))

/-- A meaning that exits with an address error takes it from the state written so far (R20, R74). -/
theorem run_addressError {m : M Unit} {s t : State} {e : AddressError} (h : m s = .error (.addressError e) t) :
    run m s = takeAddressError e t := by
  rw [run, h]
  rfl

end

/-! Instructions with a misaligned operand. -/

section
variable {ea : Ea} {sz : Size} {s : State} {a : Long} {sp : Space} (hd : s.eaDesc ea sz = .mem a sp)
  (ha : alignedAt sz a = false)
include hd ha

theorem eaRead_afterEa_error : eaRead (s.eaDesc ea sz) sz (s.afterEa ea sz) =
    .error (.addressError ⟨a, false, s.spaceFc sp, false⟩) (s.afterEa ea sz) := by
  have hfc : (s.afterEa ea sz).spaceFc sp = s.spaceFc sp := by cases sp <;> simp [State.spaceFc, State.dataFc, State.progFc]
  rw [hd, eaRead, M.look_bind, hfc]
  exact memRead_error ha

variable (hr : s.streamReady (ea.extWords sz) = true)
include hr

theorem run_readEa_misaligned (f : Long → M Unit) :
    run (readEa ea sz >>= f) s = takeAddressError ⟨a, false, s.spaceFc sp, false⟩ (s.afterEa ea sz) :=
  run_addressError (M.bind_error ((M.bind_ok (resolve_ok hr)).trans (eaRead_afterEa_error hd ha)))

theorem run_modifyEa_misaligned (f : Long → Ccr → Alu) :
    run (modifyEa f sz ea) s = takeAddressError ⟨a, false, s.spaceFc sp, false⟩ (s.afterEa ea sz) :=
  run_addressError ((M.bind_ok (resolve_ok hr)).trans (M.bind_error (eaRead_afterEa_error hd ha)))

/-- An operand in memory is no address register, which ADDQ and SUBQ treat apart (43_integer_arithmetic.md R234, R239). -/
theorem exec_quick_misaligned (q : BitVec 3) :
    exec (.addq q sz ea) s = takeAddressError ⟨a, false, s.spaceFc sp, false⟩ (s.afterEa ea sz) ∧
      exec (.subq q sz ea) s = takeAddressError ⟨a, false, s.spaceFc sp, false⟩ (s.afterEa ea sz) := by
  have hmodify := run_modifyEa_misaligned hd ha hr
  cases ea with
  | an n => cases hd
  | _ => exact ⟨hmodify _, hmodify _⟩

end

/-- MOVE of a data register to a misaligned operand exits with its write (42_data_movement.md R201). -/
theorem run_moveBody_misaligned {dn : Fin 8} {ea : Ea} {sz : Size} {s : State} {a : Long}
    (hd : s.eaDesc ea sz = .mem a .data) (ha : alignedAt sz a = false) (hr : s.streamReady (ea.extWords sz) = true) :
    run (moveBody sz (.dn dn) ea) s = takeAddressError ⟨a, true, s.dataFc, false⟩ (s.afterEa ea sz) := by
  have hread : readEa (.dn dn) sz s = .ok (low sz s.d[dn]) s := rfl
  have hfc : (s.afterEa ea sz).dataFc = s.dataFc := by simp [State.dataFc]
  refine run_addressError ((M.bind_ok hread).trans ((M.bind_ok (resolve_ok hr)).trans (M.bind_error ?_)))
  rw [hd, ← hfc]
  exact writeData_error ha

/-- Each instruction of the first list reads the operand it modifies, or reads it, before anything else. -/
theorem misaligned_operand_taken {ea : Ea} {sz : Size} {s : State} {a : Long} {sp : Space} (dn : Fin 8) (q : BitVec 3)
    (hd : s.eaDesc ea sz = .mem a sp) (ha : alignedAt sz a = false) (hr : s.streamReady (ea.extWords sz) = true) :
    ∀ i ∈ [Instr.tst sz ea, .addEaDn dn sz ea, .subEaDn dn sz ea, .andEaDn dn sz ea, .orEaDn dn sz ea, .cmp dn sz ea,
      .adda dn sz ea, .suba dn sz ea, .cmpa dn sz ea, .neg sz ea, .negx sz ea, .notOp sz ea, .addDnEa dn sz ea,
      .subDnEa dn sz ea, .andDnEa dn sz ea, .orDnEa dn sz ea, .eor dn sz ea, .addq q sz ea, .subq q sz ea],
      exec i s = takeAddressError ⟨a, false, s.spaceFc sp, false⟩ (s.afterEa ea sz) := by
  have hread := run_readEa_misaligned hd ha hr
  have hmodify := run_modifyEa_misaligned hd ha hr
  have hquick := exec_quick_misaligned hd ha hr q
  simp only [List.forall_mem_cons, List.not_mem_nil, false_imp_iff, implies_true, and_true]
  exact ⟨hread _, hread _, hread _, hread _, hread _, hread _, hread _, hread _, hread _, hmodify _, hmodify _, hmodify _,
    hmodify _, hmodify _, hmodify _, hmodify _, hmodify _, hquick⟩

theorem misaligned_word_taken {ea : Ea} {s : State} {a : Long} {sp : Space} (dn : Fin 8)
    (hd : s.eaDesc ea .w = .mem a sp) (ha : alignedAt .w a = false) (hr : s.streamReady (ea.extWords .w) = true) :
    ∀ i ∈ [Instr.moveW ea (.dn dn), .moveaW dn ea, .mulu dn ea, .muls dn ea, .divu dn ea, .divs dn ea, .chk dn ea,
      .moveToCcr ea, .aslEa ea, .asrEa ea, .lslEa ea, .lsrEa ea, .rolEa ea, .rorEa ea, .roxlEa ea, .roxrEa ea],
      exec i s = takeAddressError ⟨a, false, s.spaceFc sp, false⟩ (s.afterEa ea .w) := by
  have hread := run_readEa_misaligned hd ha hr
  have hmodify := run_modifyEa_misaligned hd ha hr
  simp only [List.forall_mem_cons, List.not_mem_nil, false_imp_iff, implies_true, and_true]
  exact ⟨hread _, hread _, hread _, hread _, hread _, hread _, hread _, hread _, hmodify _, hmodify _, hmodify _, hmodify _,
    hmodify _, hmodify _, hmodify _, hmodify _⟩

theorem misaligned_long_taken {ea : Ea} {s : State} {a : Long} {sp : Space} (dn : Fin 8)
    (hd : s.eaDesc ea .l = .mem a sp) (ha : alignedAt .l a = false) (hr : s.streamReady (ea.extWords .l) = true) :
    ∀ i ∈ [Instr.moveL ea (.dn dn), .moveaL dn ea],
      exec i s = takeAddressError ⟨a, false, s.spaceFc sp, false⟩ (s.afterEa ea .l) := by
  have hread := run_readEa_misaligned hd ha hr
  simp only [List.forall_mem_cons, List.not_mem_nil, false_imp_iff, implies_true, and_true]
  exact ⟨hread _, hread _⟩

/-! A fetch at an odd PC, and an odd stack pointer. -/

/-- The first fetch after reset is part of reset processing (70_reset_and_hazards.md R451; log 20). -/
theorem step_of_odd_pc {s : State} (hruns : s.runsNext = true) (hodd : isOdd s.pc = true) :
    step s = takeFetchError s.resetFetch ⟨s.pc, false, s.progFc, false⟩ s.sampleLine.beginStep.latchTrace := by
  have hfetch : fetch16 s.sampleLine.beginStep.latchTrace =
      .error (.addressError ⟨s.pc, false, s.progFc, false⟩) s.sampleLine.beginStep.latchTrace := by
    have hpc : s.sampleLine.beginStep.latchTrace.pc = s.pc := by simp
    have hfc : s.sampleLine.beginStep.latchTrace.progFc = s.progFc := by simp [State.progFc]
    rw [fetch16_odd (hpc ▸ hodd), hpc, hfc]
  rw [step_of_runsNext hruns, executeInstruction, hfetch]

theorem takeFetchError_double {e : AddressError} {s : State} (hmode : s.cfg.addressErrorMode = .exception)
    (hv : s.cfg.variant ≠ .m68010) : takeFetchError true e s = .fault .haltedDoubleFault := by
  unfold takeFetchError
  rw [hmode]
  cases hv' : s.cfg.variant with
  | m68010 => exact absurd hv' hv
  | m68000 | m68008 => rfl

theorem takeFetchError_single {r : Bool} {e : AddressError} {s : State}
    (h : ¬(r = true ∧ s.cfg.addressErrorMode = .exception ∧ s.cfg.variant ≠ .m68010)) :
    takeFetchError r e s = takeAddressError e s := by
  unfold takeFetchError
  split
  next hmode hv => exact absurd ⟨rfl, hmode, by simp [hv]⟩ h
  next hmode hv => exact absurd ⟨rfl, hmode, by simp [hv]⟩ h
  all_goals rfl

theorem exec_bsr_odd {s : State} {d8 : Byte} (hd : d8 ≠ 0) (hodd : isOdd s.a[7] = true) :
    exec (.bsr d8) s = takeAddressError ⟨s.a[7] - 4, true, s.dataFc, false⟩ (s.setA 7 (s.a[7] - 4)) := by
  have htarget : branchTarget d8 s = .ok (s.pc + sext8 d8) s := by
    have hne : (d8 == 0) = false := by simpa using hd
    rw [branchTarget, M.look_bind, hne]
    rfl
  exact run_addressError ((M.bind_ok htarget).trans
    ((M.look_bind ..).trans (M.bind_error (push_error (sz := .l) (by decide) hodd))))

/-! An entry that cannot use its stack or its vector. -/

theorem enter_eq (s : State) (v : Byte) (p : Long) (i : Option (BitVec 3)) :
    enter v p i s = (do
      pushFormatWord v
      push .l p
      push .w (s.sr.setWidth 32)
      loadVector v (discardsTrace v)) (s.enterMode i) := by
  have hmode : { s.setS true with tBit := false, iMask := i.getD (s.setS true).iMask } = s.enterMode i := by
    simp [State.enterMode]
  rw [← hmode]
  rfl

theorem isOdd_ssp_afterFailedPush {s : State} {sz : Size} (hsz : sz ≠ .b) (hs : s.sBit = true) (h : isOdd s.a[7] = true) :
    isOdd (s.setA 7 (s.a[7] - BitVec.ofNat 32 sz.bytes)).ssp = true := by
  rw [State.ssp, State.setA_sBit, if_pos hs, State.setA_a7, isOdd_sub _ _ (isOdd_ofNat_bytes hsz), h]

/-- An entry on an odd stack exits with its first push. -/
theorem enter_error_of_odd_ssp {s : State} (v : Byte) (p : Long) (i : Option (BitVec 3)) (h : isOdd s.ssp = true) :
    ∃ e t, enter v p i s = .error (.addressError e) t ∧ t.cfg = s.cfg ∧ isOdd t.ssp = true := by
  have hs := s.enterMode_sBit i
  have hcfg := s.enterMode_cfg i
  have hodd : isOdd (s.enterMode i).a[7] = true := by rw [State.enterMode_a, State.setS_a7, h]
  rw [enter_eq, pushFormatWord, bind_assoc, M.look_bind, hcfg]
  cases hv : s.cfg.variant with
  | m68010 => exact ⟨_, _, M.bind_error (push_error (by decide) hodd), hcfg, isOdd_ssp_afterFailedPush (by decide) hs hodd⟩
  | m68000 | m68008 =>
    simp only [pure_bind]
    exact ⟨_, _, M.bind_error (push_error (by decide) hodd), hcfg, isOdd_ssp_afterFailedPush (by decide) hs hodd⟩

/-- An entry through an odd vector exits with the read of the handler's address, its frame pushed. -/
theorem enter_error_of_odd_vector {s : State} {v : Byte} (p : Long) (i : Option (BitVec 3)) (h : isOdd s.ssp = false)
    (hv : isOdd (s.vectorAddr v) = true) :
    ∃ e t, enter v p i s = .error (.addressError e) t ∧ t.cfg = s.cfg := by
  have heven : isOdd (s.enterMode i).a[7] = false := by rw [State.enterMode_a, State.setS_a7, h]
  obtain ⟨hformat, heven⟩ := pushFormatWord_ok (v := v) heven
  have heven' : isOdd (((s.enterMode i).withFormatWord v).pushed .l p).a[7] = false := by
    rw [State.pushed_a7]
    exact (alignedAt_push .l (by decide) heven).2
  have hva : (((s.enterMode i).withFormatWord v).pushed .l p |>.pushed .w (s.sr.setWidth 32)).vectorAddr v =
      s.vectorAddr v := by simp [State.vectorAddr_eq]
  rw [enter_eq, M.bind_ok hformat, push_bind_of_even (by decide) heven, push_bind_of_even (by decide) heven', loadVector,
    M.look_bind]
  exact ⟨_, _, M.bind_error (readData_error (alignedAt_of_odd (by decide) (hva ▸ hv))), by simp⟩

/-- Only the M68010's vector base can be odd (60_exceptions.md R412). -/
theorem isOdd_vectorAddr {s : State} (v : Byte) (h : s.cfg.variant ≠ .m68010) : isOdd (s.vectorAddr v) = false := by
  have hbit : (4 * v.toNat) % 2 = 0 := by omega
  rw [State.vectorAddr_eq, if_neg h, zero_add, isOdd, BitVec.getLsbD, Nat.testBit_zero]
  simp
  omega

/-! An address error taken. -/

theorem takeAddressError_fault {e : AddressError} {s : State} (h : s.cfg.addressErrorMode = .fault) :
    takeAddressError e s = .fault .addressErrorFault := by
  rw [takeAddressError, h]

theorem takeAddressError_m68010 {e : AddressError} {s : State} (h : s.cfg.addressErrorMode = .exception)
    (hv : s.cfg.variant = .m68010) : takeAddressError e s = .fault .unsupportedFrame := by
  rw [takeAddressError, h, hv]

/-- The group-0 sequence decides what is left (60_exceptions.md R427). -/
theorem takeAddressError_groupZero {e : AddressError} {s : State} (h : s.cfg.addressErrorMode = .exception)
    (hv : s.cfg.variant ≠ .m68010) : takeAddressError e s = match enterGroupZero e s with
      | .ok _ t => .next t
      | .error _ _ => .fault .haltedDoubleFault := by
  rw [takeAddressError, h]
  cases hv' : s.cfg.variant with
  | m68010 => exact absurd hv' hv
  | m68000 | m68008 => rfl

theorem enterGroupZero_eq (e : AddressError) (s : State) :
    enterGroupZero e s = (do
      push .l (Config.freeLong s.draws)
      push .w (s.sr.setWidth 32)
      let ir ← groupZeroIr
      push .w (ir.setWidth 32)
      let freeAddr ← drawLong
      let cfg ← look State.cfg
      push .l (groupZeroAddress cfg freeAddr e.access)
      let freeStatus ← drawWord
      push .w ((groupZeroStatus freeStatus e).setWidth 32)
      loadVector 3 true) ((s.enterMode none).drawn 1) := by
  have hmode : { s.setS true with tBit := false } = s.enterMode none := by simp [State.enterMode]
  have hdraws : s.draws = (s.enterMode none).draws := by simp
  rw [hdraws, ← hmode]
  rfl

theorem takeAddressError_double {e : AddressError} {s : State} (h : s.cfg.addressErrorMode = .exception)
    (hv : s.cfg.variant ≠ .m68010) (hodd : isOdd s.ssp = true) : takeAddressError e s = .fault .haltedDoubleFault := by
  have hodd' : isOdd ((s.enterMode none).drawn 1).a[7] = true := by
    rw [State.drawn_a, State.enterMode_a, State.setS_a7, hodd]
  rw [takeAddressError_groupZero h hv, enterGroupZero_eq, M.bind_error (push_error (by decide) hodd')]

theorem takeException_not_ready {s : State} {v : Byte} (p : Long) (i : Option (BitVec 3)) (h : s.entryReady v = false) :
    takeException v p i s = .fault (match s.cfg.addressErrorMode, s.cfg.variant with
      | .fault, _ => .addressErrorFault
      | .exception, .m68010 => .unsupportedFrame
      | .exception, .m68000 => .haltedDoubleFault
      | .exception, .m68008 => .haltedDoubleFault) := by
  have herror : ∃ e t, enter v p i s = .error (.addressError e) t ∧ t.cfg = s.cfg ∧
      (s.cfg.variant ≠ .m68010 → isOdd t.ssp = true) := by
    cases hssp : isOdd s.ssp with
    | true =>
      obtain ⟨e, t, he, hcfg, hodd⟩ := enter_error_of_odd_ssp v p i hssp
      exact ⟨e, t, he, hcfg, fun _ => hodd⟩
    | false =>
      have hva : isOdd (s.vectorAddr v) = true := by simpa [State.entryReady, hssp] using h
      obtain ⟨e, t, he, hcfg⟩ := enter_error_of_odd_vector p i hssp hva
      exact ⟨e, t, he, hcfg, fun hv => absurd (isOdd_vectorAddr v hv) (by simp [hva])⟩
  obtain ⟨e, t, he, hcfg, hodd⟩ := herror
  rw [takeException, he]
  show takeAddressError _ t = _
  cases hmode : s.cfg.addressErrorMode with
  | fault => exact takeAddressError_fault (hcfg ▸ hmode)
  | exception =>
    cases hv : s.cfg.variant with
    | m68010 => exact takeAddressError_m68010 (hcfg ▸ hmode) (hcfg ▸ hv)
    | m68000 | m68008 =>
      exact takeAddressError_double (hcfg ▸ hmode) (by simp [hcfg, hv]) (hodd (by simp [hv]))

/-! The 14-byte frame. -/

/-- The group-0 frame, from the top of the stack upwards (60_exceptions.md R426). -/
def groupZeroFrame (status ir sr : Word) (access saved : Long) : List (Size × Long) :=
  [(.w, status.setWidth 32), (.l, access), (.w, ir.setWidth 32), (.w, sr.setWidth 32), (.l, saved)]

theorem groupZeroIr_ok (s : State) : ∃ ir n, groupZeroIr s = .ok ir (s.drawn n) ∧ ∀ w, s.ir = some w → ir = w := by
  rw [groupZeroIr, M.look_bind]
  cases s.ir with
  | none => exact ⟨_, 1, rfl, fun w hw => nomatch hw⟩
  | some w => exact ⟨w, 0, rfl, fun w' hw => Option.some.inj hw⟩

section
variable {items : List (Size × Long)} {s t : State}

theorem Frame.push_word (h : Frame items s t) (w : Word) (hsmall : frameBytes items < 2 ^ 19) :
    ∃ u, push .w (w.setWidth 32) t = .ok () u ∧ Frame ((.w, w.setWidth 32) :: items) s u :=
  ⟨_, push_ok (alignedAt_push .w (by decide) h.even).1, h.pushedWord w hsmall⟩

theorem Frame.push_long (h : Frame items s t) (v : Long) (hsmall : frameBytes items < 2 ^ 19) :
    ∃ u, push .l v t = .ok () u ∧ Frame ((.l, v) :: items) s u :=
  ⟨_, push_ok (alignedAt_push .l (by decide) h.even).1, h.pushedLong v hsmall⟩

theorem Frame.vectorAddr (h : Frame items s t) (v : Byte) : t.vectorAddr v = s.vectorAddr v := by
  have hpart := h.kept
  simp only [State.entryPart, State.controlPart, Prod.mk.injEq] at hpart
  obtain ⟨hcfg, -, -, -, -, -, -, ⟨hvbr, -, -⟩, -⟩ := hpart
  rw [State.vectorAddr_eq, State.vectorAddr_eq, hcfg, hvbr]

theorem Frame.cfg_sBit_ir (h : Frame items s t) : t.cfg = s.cfg ∧ t.sBit = true ∧ t.ir = s.ir := by
  have hpart := h.kept
  simp only [State.entryPart, Prod.mk.injEq] at hpart
  obtain ⟨hcfg, -, -, -, hS, -, -, -, -, hir⟩ := hpart
  exact ⟨hcfg, hS.trans h.supervisor, hir⟩

end

/-- The group-0 sequence completes on an even stack pointer, with its frame pushed. -/
theorem enterGroupZero_ok (e : AddressError) {s : State} (heven : isOdd s.ssp = false)
    (hva : isOdd (s.vectorAddr 3) = false) :
    ∃ (freeStatus ir : Word) (freeAddr saved : Long) (f : State), enterGroupZero e s = .ok () (f.vectored 3 true) ∧
      Frame (groupZeroFrame (groupZeroStatus freeStatus e) ir s.sr (groupZeroAddress s.cfg freeAddr e.access) saved)
        (s.enterMode none) f ∧ ∀ w, s.ir = some w → ir = w := by
  obtain ⟨s1, hpush1, hsaved⟩ := ((s.frame_enterMode none heven).drawn 1).push_long (Config.freeLong s.draws)
    (by simp [frameBytes])
  obtain ⟨s2, hpush2, hsr⟩ := hsaved.push_word s.sr (by simp [frameBytes, Size.bytes])
  obtain ⟨ir, n, hread, hir⟩ := groupZeroIr_ok s2
  obtain ⟨s3, hpush3, hirw⟩ := (hsr.drawn n).push_word ir (by simp [frameBytes, Size.bytes])
  obtain ⟨s4, hpush4, haccess⟩ := (hirw.drawn 1).push_long (groupZeroAddress s.cfg (Config.freeLong s3.draws) e.access)
    (by simp [frameBytes, Size.bytes])
  obtain ⟨s5, hpush5, hstatus⟩ := (haccess.drawn 1).push_word (groupZeroStatus (Config.freeWord s4.draws) e)
    (by simp [frameBytes, Size.bytes])
  have hcfg : (s3.drawn 1).cfg = s.cfg := hirw.cfg_sBit_ir.1.trans (s.enterMode_cfg none)
  have hir2 : s2.ir = s.ir := hsr.cfg_sBit_ir.2.2.trans (s.enterMode_ir none)
  have hva5 : isOdd (s5.vectorAddr 3) = false := by rw [hstatus.vectorAddr, State.vectorAddr_enterMode, hva]
  refine ⟨_, ir, _, _, s5, ?_, hstatus, fun w hw => hir w (hir2.trans hw)⟩
  rw [enterGroupZero_eq, M.bind_ok hpush1, M.bind_ok hpush2, M.bind_ok hread, M.bind_ok hpush3, M.drawLong_bind, M.look_bind,
    hcfg, M.bind_ok hpush4, M.drawWord_bind, M.bind_ok hpush5]
  exact loadVector_ok hva5 hstatus.cfg_sBit_ir.2.1

theorem groupZeroAddress_bits (cfg : Config) (free a : Long) {k : Nat} (hk : k < addressBits cfg) :
    (groupZeroAddress cfg free a).getLsbD k = a.getLsbD k := by
  have h32 : k < 32 := by have := addressBits_le cfg; omega
  have hmask : (BitVec.ofNat 32 (2 ^ addressBits cfg - 1)).getLsbD k = true := by
    rw [BitVec.getLsbD_ofNat, Nat.testBit_two_pow_sub_one]
    simp [h32, hk]
  simp only [groupZeroAddress, BitVec.getLsbD_or, BitVec.getLsbD_and, BitVec.getLsbD_not, hmask]
  simp

theorem groupZeroStatus_bits (free : Word) (e : AddressError) :
    (groupZeroStatus free e).extractLsb' 0 5 =
      (BitVec.ofBool (!e.write) ++ BitVec.ofBool e.inException ++ e.fc : BitVec 5) := by
  have hfree : (free &&& 0xFFE0).extractLsb' 0 5 = 0 := by
    rw [BitVec.extractLsb'_and]
    exact BitVec.and_zero
  have hbits : ∀ (write inException : Bool) (fc : BitVec 3), 0 ||| (if write then 0 else 0x0010 : Word).extractLsb' 0 5 |||
      (if inException then 0x0008 else 0 : Word).extractLsb' 0 5 ||| (fc.setWidth 16).extractLsb' 0 5 =
        (BitVec.ofBool (!write) ++ BitVec.ofBool inException ++ fc : BitVec 5) := by decide
  simp only [groupZeroStatus, BitVec.extractLsb'_or, hfree]
  exact hbits e.write e.inException e.fc

/-- Settles O47: the group-0 frame is unfolded from its top. -/
theorem addressErrorTaken : Obligations.AddressErrorTaken := by
  unfold Obligations.AddressErrorTaken
  intro s
  refine ⟨fun sz fc a v hsz hodd => ?_, fun hruns hodd => ?_, fun dn q sz ea a sp hr hd ha => ?_, fun hodd => ?_,
    fun v p i => takeException_not_ready p i, fun e => ⟨takeAddressError_fault, takeAddressError_m68010,
      takeAddressError_double, fun hmode hv heven => ?_⟩⟩
  · have ha : alignedAt sz a = false := alignedAt_of_odd hsz hodd
    refine ⟨memRead_error ha, memWrite_error ha, fun hpc => ?_⟩
    rw [← hpc] at hodd ⊢
    exact fetch16_odd hodd
  · rw [step_of_odd_pc hruns hodd]
    refine ⟨fun ⟨hreset, hmode, hv⟩ => ?_, fun hsingle => takeFetchError_single (by simpa using hsingle)⟩
    rw [hreset]
    exact takeFetchError_double (by simpa using hmode) (by simpa using hv)
  · refine ⟨misaligned_operand_taken dn q hd ha hr, ?_, ?_, ?_⟩
    · rintro rfl
      exact misaligned_word_taken dn hd ha hr
    · rintro rfl
      exact misaligned_long_taken dn hd ha hr
    · rintro rfl
      refine ⟨?_, ?_⟩ <;> rintro rfl <;> exact run_moveBody_misaligned hd ha hr
  · exact ⟨run_addressError (M.bind_error (pop_error (sz := .l) (by decide) hodd)),
      run_addressError (M.bind_error (pop_error (sz := .w) (by decide) hodd)), fun d8 hd => exec_bsr_odd hd hodd⟩
  · obtain ⟨freeStatus, ir, freeAddr, saved, f, hok, hframe, hir⟩ := enterGroupZero_ok e heven (isOdd_vectorAddr 3 hv)
    obtain ⟨hS, hT, hI, hccr, hd, ha, husp, ha7, -, hrun, hlast, -, -, hpc, hcalls, hholds, -⟩ := hframe.entered 3 true
    have hva : s.vectorAddr 3 = 12 := by
      rw [State.vectorAddr_eq, if_neg hv]
      rfl
    obtain ⟨hstatus, haccess, hirw, hsr, hsaved, -⟩ := hholds
    simp only [groupZeroFrame, frameCalls, add_ofNat_add, hva] at hcalls hpc
    simp only [add_ofNat_add] at haccess hirw hsr hsaved
    refine ⟨_, groupZeroStatus freeStatus e, ir, groupZeroAddress s.cfg freeAddr e.access, saved, ?_, hS, hT, hI, hccr, hd, ha,
      husp, ha7, by simp, hrun, hlast, hpc, hcalls, hir, fun k hk => groupZeroAddress_bits s.cfg freeAddr _ hk,
      groupZeroStatus_bits freeStatus e, State.peekWord_of_peek hstatus, haccess, State.peekWord_of_peek hirw,
      State.peekWord_of_peek hsr, hsaved⟩
    rw [takeAddressError_groupZero hmode hv, hok]

end Sys2Proof.Machine
end

section
/-! PROOFS. The bytes that an instruction leaves alone (20_memory.md R73, R76, R77). A form that stores nothing is made of
operations that leave memory as it is; a form that stores ends with stores on a state that differs from the first in
neither memory nor what its spans are computed from. -/

namespace Sys2Proof.Machine

/-! Computations that store nothing. -/

/-- A computation that leaves memory as it was wherever it completes. -/
structure Quiet {α : Type} (m : M α) : Prop where
  mem : ∀ {s a t}, m s = .ok a t → t.mem = s.mem

section
variable {α β : Type}

theorem Quiet.bind {m : M α} {f : α → M β} (hm : Quiet m) (hf : ∀ a, Quiet (f a)) : Quiet (m >>= f) := by
  refine ⟨fun h => ?_⟩
  obtain ⟨a, t, h1, h2⟩ := M.of_bind_ok h
  rw [(hf a).mem h2, hm.mem h1]

theorem quiet_pure (a : α) : Quiet (pure a : M α) := ⟨fun h => by cases h; rfl⟩

theorem quiet_look (f : State → α) : Quiet (look f) := ⟨fun h => by cases h; rfl⟩

theorem quiet_stop (e : Exit) : Quiet (stop e : M α) := ⟨nofun⟩

theorem quiet_require (p : State → Bool) (e : State → Exit) : Quiet (require p e) := by
  refine ⟨fun h => ?_⟩
  rw [M.require_apply] at h
  split at h <;> cases h
  rfl

theorem quiet_upd {g : State → State} (hg : ∀ s, (g s).mem = s.mem := by exact fun _ => rfl) : Quiet (upd g) :=
  ⟨fun h => by cases h; exact hg _⟩

theorem quiet_look_bind {g : State → α} {f : α → M β} (hf : ∀ a, Quiet (f a)) : Quiet (look g >>= f) :=
  (quiet_look g).bind hf

theorem quiet_upd_bind {g : State → State} {f : Unit → M β} (hf : ∀ a, Quiet (f a))
    (hg : ∀ s, (g s).mem = s.mem := by exact fun _ => rfl) : Quiet (upd g >>= f) := (quiet_upd hg).bind hf

theorem quiet_drawBit_bind {f : Bool → M β} (hf : ∀ a, Quiet (f a)) : Quiet (drawBit >>= f) :=
  Quiet.bind ⟨fun h => by cases h; rfl⟩ hf

theorem quiet_drawByte_bind {f : Byte → M β} (hf : ∀ a, Quiet (f a)) : Quiet (drawByte >>= f) :=
  Quiet.bind ⟨fun h => by cases h; rfl⟩ hf

theorem quiet_fetch16_bind {f : Word → M β} (hf : ∀ w, Quiet (f w)) : Quiet (fetch16 >>= f) :=
  Quiet.bind ⟨fun h => by obtain ⟨-, -, rfl⟩ := fetch16_of_ok h; rfl⟩ hf

theorem quiet_memRead (sz : Size) (fc : BitVec 3) (x : Long) : Quiet (memRead sz fc x) :=
  ⟨fun h => by obtain ⟨-, -, rfl⟩ := memRead_of_ok h; rfl⟩

theorem quiet_readData (sz : Size) (x : Long) : Quiet (readData sz x) := quiet_look_bind fun fc => quiet_memRead sz fc x

theorem quiet_pop (sz : Size) : Quiet (pop sz) := ⟨fun h => by obtain ⟨-, -, rfl⟩ := pop_of_ok h; rfl⟩

theorem quiet_immediate (sz : Size) : Quiet (immediate sz) :=
  ⟨fun h => by obtain ⟨-, -, rfl⟩ := immediate_of_ok h; exact State.skip_mem ..⟩

theorem quiet_resolve (ea : Ea) (sz : Size) : Quiet (resolve ea sz) :=
  ⟨fun h => by obtain ⟨-, -, rfl⟩ := resolve_of_ok h; exact State.afterEa_mem ..⟩

theorem quiet_eaRead (d : Desc) (sz : Size) : Quiet (eaRead d sz) :=
  ⟨fun h => by obtain ⟨-, -, rfl⟩ := eaRead_of_ok h; exact State.afterRead_mem ..⟩

theorem quiet_readEa (ea : Ea) (sz : Size) : Quiet (readEa ea sz) := (quiet_resolve ea sz).bind fun d => quiet_eaRead d sz

/-- An operand read and the state changed by it, memory apart. -/
theorem quiet_readEa_upd (ea : Ea) (sz : Size) {g : Long → State → State}
    (hg : ∀ v s, (g v s).mem = s.mem := by exact fun _ _ => rfl) : Quiet (readEa ea sz >>= fun v => upd (g v)) :=
  (quiet_readEa ea sz).bind fun v => quiet_upd (hg v)

theorem quiet_eaAddr (d : Desc) : Quiet (eaAddr d) := by
  cases d with
  | mem x sp => exact quiet_pure _
  | regD n | regA n | imm v => exact quiet_stop _

theorem quiet_addressEa (ea : Ea) (sz : Size) : Quiet (addressEa ea sz) :=
  (quiet_resolve ea sz).bind fun d => (quiet_eaAddr d).bind fun _ => quiet_pure _

theorem quiet_readPostincrement (n : Fin 8) (sz : Size) : Quiet (readPostincrement n sz) :=
  quiet_look_bind fun _ => quiet_upd_bind fun _ => quiet_readData ..

theorem quiet_loadUp (sz : Size) (sp : Space) (rs : List GenReg) (x : Long) : Quiet (loadUp sz sp rs x) := by
  induction rs generalizing x with
  | nil => exact quiet_pure x
  | cons r rs ih =>
    exact quiet_look_bind fun _ => (quiet_memRead ..).bind fun _ =>
      (quiet_upd (State.setGenReg_mem · _ _)).bind fun _ => ih _

theorem quiet_movemDummyRead (sp : Space) (x : Long) : Quiet (movemDummyRead sp x) := by
  refine quiet_look_bind fun on => ?_
  cases on with
  | true => exact quiet_look_bind fun _ => (quiet_memRead ..).bind fun _ => quiet_pure _
  | false => exact quiet_pure _

theorem quiet_movepLoad (dn : Fin 8) (n : Nat) (ks : List Nat) (x : Long) : Quiet (movepLoad dn n ks x) := by
  induction ks generalizing x with
  | nil => exact quiet_pure ()
  | cons k ks ih => exact (quiet_readData ..).bind fun _ => quiet_upd_bind fun _ => ih _

theorem quiet_branchTarget (d8 : Byte) : Quiet (branchTarget d8) := by
  refine quiet_look_bind fun base => ?_
  cases d8 == 0 with
  | true => exact quiet_fetch16_bind fun _ => quiet_pure _
  | false => exact quiet_pure _

theorem quiet_raiseAtIpc (v : Byte) : Quiet (raiseAtIpc v) := quiet_look_bind fun _ => quiet_stop _

theorem quiet_movecBody {f : ControlReg → GenReg → State → State} (hf : ∀ r g s, (f r g s).mem = s.mem) :
    Quiet (movecBody f) := by
  refine (quiet_require ..).bind fun _ => (quiet_require ..).bind fun _ => quiet_look_bind fun _ =>
    quiet_fetch16_bind fun e => ?_
  cases controlReg (e.toNat % 4096) with
  | some r => exact quiet_upd (hf r _)
  | none => exact quiet_stop _

theorem quiet_divideBody (f : Long → Long → Division) (dn : Fin 8) (ea : Ea) : Quiet (divideBody f dn ea) := by
  refine (quiet_readEa ea .w).bind fun src => ?_
  cases isZero .w src with
  | true =>
    exact quiet_drawBit_bind fun _ => quiet_drawBit_bind fun _ => quiet_drawBit_bind fun _ =>
      quiet_upd_bind fun _ => quiet_look_bind fun _ => quiet_stop _
  | false =>
    refine quiet_look_bind fun o => ?_
    cases o with
    | overflow => exact quiet_drawBit_bind fun _ => quiet_drawBit_bind fun _ => quiet_upd
    | result r n z => exact quiet_upd

theorem quiet_bcdResult (valid : Bool) (exact : Long × Bool) : Quiet (bcdResult valid exact) := by
  cases valid with
  | true => exact quiet_pure _
  | false => exact quiet_drawByte_bind fun _ => quiet_drawBit_bind fun _ => quiet_pure _

theorem quiet_bcdFlags (o : Long × Bool) : Quiet (bcdFlags o) :=
  quiet_drawBit_bind fun _ => quiet_drawBit_bind fun _ => quiet_upd

theorem quiet_ccrImmBody (f : Byte → Byte → Byte) : Quiet (ccrImmBody f) := quiet_fetch16_bind fun _ => quiet_upd

theorem quiet_srImmBody (f : Word → Word → Word) : Quiet (srImmBody f) :=
  (quiet_require ..).bind fun _ => quiet_fetch16_bind fun _ => quiet_upd (State.writeSr_mem · _)

theorem quiet_testBody {number : M Nat} (hn : Quiet number) (ea : Ea) : Quiet (testBody number ea) :=
  hn.bind fun _ => quiet_readEa_upd ea _

theorem quiet_returnFromException : Quiet returnFromException := by
  have restore (sp sr pcv : Long) :
      Quiet (upd (fun s => s.setA 7 sp) >>= fun _ => upd fun s => (s.writeSr (lowWord sr)).setPc pcv) :=
    quiet_upd_bind fun _ => quiet_upd (State.writeSr_mem · _)
  refine quiet_look_bind fun ipc => quiet_look_bind fun sp => (quiet_readData ..).bind fun sr =>
    (quiet_readData ..).bind fun pcv => quiet_look_bind fun variant => ?_
  cases variant with
  | m68000 => exact restore ..
  | m68008 => exact restore ..
  | m68010 =>
    refine (quiet_readData ..).bind fun fv => ?_
    split
    · exact restore ..
    · exact quiet_stop _
    · exact quiet_stop _

end

/-! Stores. -/

/-- From `s` to `t` memory keeps every byte outside these spans. -/
def State.SparesOff (s : State) (ps : List Span) (t : State) : Prop :=
  ∀ k, (∀ p ∈ ps, k ∉ spanKeys s.cfg p) → Memory.read t.mem k = Memory.read s.mem k

/-- Memory, and what the keys and the function code of a store are computed from. -/
def State.busPart (s : State) : List Host.Cell × Config × Bool := (s.mem, s.cfg, s.sBit)

section
variable {s t u : State} {ps qs : List Span} {sz : Size} {fc : BitVec 3} {a v : Long} {ea : Ea}

theorem State.busPart_iff : u.busPart = s.busPart ↔ u.mem = s.mem ∧ u.cfg = s.cfg ∧ u.sBit = s.sBit := by
  simp [State.busPart]

theorem State.dataFc_of_busPart (h : u.busPart = s.busPart) : u.dataFc = s.dataFc := by
  obtain ⟨-, -, hS⟩ := State.busPart_iff.mp h
  rw [State.dataFc, State.dataFc, hS]

theorem State.SparesOff.of_mem (h : t.mem = s.mem) : s.SparesOff ps t := fun _ _ => by rw [h]

theorem Quiet.sparesOff {m : M Unit} (hm : Quiet m) (ht : run m s = .next t) (he : t.entered = none) : s.SparesOff ps t :=
  .of_mem (hm.mem (ok_of_run ht he))

/-- What changes neither memory nor the configuration may come first. -/
theorem State.SparesOff.from_busPart (hu : u.busPart = s.busPart) (h : u.SparesOff ps t) : s.SparesOff ps t := by
  obtain ⟨hmem, hcfg, -⟩ := State.busPart_iff.mp hu
  intro k hk
  rw [h k (hcfg ▸ hk), hmem]

theorem State.SparesOff.append (hu : s.SparesOff ps u) (hcfg : u.cfg = s.cfg) (ht : u.SparesOff qs t) :
    s.SparesOff (ps ++ qs) t := by
  intro k hk
  rw [ht k (hcfg ▸ fun p hp => hk p (List.mem_append_right _ hp)), hu k fun p hp => hk p (List.mem_append_left _ hp)]

theorem State.SparesOff.mono (h : s.SparesOff ps t) (hsub : ps ⊆ qs) : s.SparesOff qs t :=
  fun k hk => h k fun p hp => hk p (hsub hp)

theorem State.SparesOff.congr_mem (h : s.SparesOff ps u) (ht : t.mem = u.mem) : s.SparesOff ps t :=
  fun k hk => by rw [ht, h k hk]

theorem State.sparesOff_store (s : State) (sz : Size) (fc : BitVec 3) (a v : Long) :
    s.SparesOff [(sz, fc, a)] (s.store sz fc a v) := fun k hk =>
  State.read_poke_other (s.addCall _) sz fc a v k (hk _ List.mem_cons_self)

/-- An operand written at the place it was resolved to. -/
theorem State.sparesOff_afterWrite (h : u.busPart = s.busPart) :
    s.SparesOff (s.eaSpan ea sz) (u.afterWrite (s.eaDesc ea sz) sz v) := by
  obtain ⟨hmem, -⟩ := State.busPart_iff.mp h
  unfold State.eaSpan
  cases s.eaDesc ea sz with
  | mem a sp =>
    rw [← State.dataFc_of_busPart h]
    exact .from_busPart h (u.sparesOff_store sz _ a v)
  | regD n | regA n | imm v => exact .of_mem hmem

theorem State.sparesOff_modified (f : Long → Ccr → Alu) : s.SparesOff (s.eaSpan ea sz) (s.modified f sz ea) :=
  State.sparesOff_afterWrite (u := s.afterReadEa ea sz) (by simp [State.busPart, State.afterReadEa])

theorem sparesOff_eaWrite {w : Unit} (h : u.busPart = s.busPart) (hw : eaWrite (s.eaDesc ea sz) sz v u = .ok w t) :
    s.SparesOff (s.eaSpan ea sz) t := by
  obtain ⟨-, -, rfl⟩ := eaWrite_of_ok hw
  exact State.sparesOff_afterWrite h

theorem sparesOff_modifyEa {f : Long → Ccr → Alu} (ht : run (modifyEa f sz ea) s = .next t) (he : t.entered = none) :
    s.SparesOff (s.eaSpan ea sz) t := by
  obtain ⟨-, -, rfl⟩ := modifyEa_iff.mp (ok_of_run ht he)
  exact State.sparesOff_modified f

theorem State.busPart_skip (s : State) (n : Nat) : (s.skip n).busPart = s.busPart := by simp [State.busPart]

theorem State.busPart_afterEa (s : State) (ea : Ea) (sz : Size) : (s.afterEa ea sz).busPart = s.busPart := by
  simp [State.busPart]

theorem State.busPart_afterReadEa (s : State) (ea : Ea) (sz : Size) : (s.afterReadEa ea sz).busPart = s.busPart := by
  simp [State.busPart, State.afterReadEa]

theorem sparesOff_immEaBody {f : AluOp} (ht : run (immEaBody f sz ea) s = .next t) (he : t.entered = none) :
    s.SparesOff ((s.skip (immWords sz)).eaSpan ea sz) t := by
  obtain ⟨-, -, -, rfl⟩ := immEaBody_iff.mp (ok_of_run ht he)
  exact .from_busPart (s.busPart_skip _) (State.sparesOff_modified _)

theorem sparesOff_bitBody_static {op : BitOp} (ht : run (bitBody op staticBit ea) s = .next t) (he : t.entered = none) :
    s.SparesOff ((s.skip 1).eaSpan ea (bitSize ea)) t := by
  have h := ok_of_run ht he
  rw [bitBody, staticBit, M.bind_bind, fetch16_bind_iff, M.pure_bind, modifyEa_iff] at h
  obtain ⟨-, -, -, rfl⟩ := h
  exact .from_busPart (s.busPart_skip _) (State.sparesOff_modified _)

theorem sparesOff_moveBody {src dst : Ea} (ht : run (moveBody sz src dst) s = .next t) (he : t.entered = none) :
    s.SparesOff ((s.afterReadEa src sz).eaSpan dst sz) t := by
  have h := ok_of_run ht he
  rw [moveBody, readEa_bind_iff, resolve_bind_iff, eaWrite_bind_iff] at h
  obtain ⟨-, -, -, -, h⟩ := h
  cases h
  exact .from_busPart (s.busPart_afterReadEa src sz) (State.sparesOff_afterWrite (State.busPart_afterEa ..))

/-- A value written to an operand that has been resolved. -/
theorem sparesOff_resolve_eaWrite {g : State → Long} {w : Unit}
    (h : (resolve ea sz >>= fun d => look g >>= fun v => eaWrite d sz v) s = .ok w t) : s.SparesOff (s.eaSpan ea sz) t := by
  rw [resolve_bind_iff, M.look_bind] at h
  exact sparesOff_eaWrite (s.busPart_afterEa ea sz) h.2

theorem busPart_of_clrDummyRead {d : Desc} {w : Unit} (h : clrDummyRead sz d s = .ok w t) : t.busPart = s.busPart := by
  cases d with
  | mem a sp =>
    rw [clrDummyRead, M.look_bind] at h
    cases hreads : s.clrReads with
    | true =>
      simp only [hreads, eaRead_bind_iff] at h
      cases h.2
      rfl
    | false =>
      rw [hreads] at h
      cases h
      rfl
  | regD n | regA n | imm v => cases h; rfl

theorem sparesOff_clr (ht : exec (.clr sz ea) s = .next t) (he : t.entered = none) : s.SparesOff (s.eaSpan ea sz) t := by
  obtain ⟨-, h⟩ := resolve_bind_iff.mp (ok_of_run ht he)
  obtain ⟨w, u, hread, h⟩ := M.of_bind_ok h
  obtain ⟨-, -, h⟩ := eaWrite_bind_iff.mp h
  cases h
  exact State.sparesOff_afterWrite ((busPart_of_clrDummyRead hread).trans (s.busPart_afterEa ea sz))

theorem sparesOff_nbcd (ht : exec (.nbcd ea) s = .next t) (he : t.entered = none) : s.SparesOff (s.eaSpan ea .b) t := by
  obtain ⟨-, h⟩ := resolve_bind_iff.mp (ok_of_run ht he)
  obtain ⟨-, h⟩ := eaRead_bind_iff.mp h
  rw [M.look_bind, bcdResult_bind, bcdFlags_bind] at h
  exact sparesOff_eaWrite (u := State.afterBcd ..) (s.busPart_afterReadEa ea .b) h

/-! Predecremented operands. -/

theorem sparesOff_extendBody {f : AluOp} {x y : Fin 8} (ht : run (extendBody f x sz .mem y) s = .next t)
    (he : t.entered = none) : s.SparesOff (s.predSpan x y sz) t := by
  obtain ⟨-, rfl⟩ := extendBody_mem_iff.mp (ok_of_run ht he)
  exact .from_busPart (u := (s.afterPred y sz).afterPred x sz) rfl (State.sparesOff_store _ sz _ _ _)

theorem State.busPart_afterBcdPair (s : State) (x y : Fin 8) (valid : Bool) (o : Long × Bool) :
    (((s.afterPred y .b).afterPred x .b).afterBcd valid o).busPart = s.busPart := rfl

theorem sparesOff_bcdBody {f : Long → Long → Bool → Long × Bool} {x y : Fin 8}
    (ht : run (bcdBody f x .mem y) s = .next t) (he : t.entered = none) : s.SparesOff (s.predSpan x y .b) t := by
  have h := ok_of_run ht he
  rw [bcdBody_mem] at h
  cases h
  exact .from_busPart (s.busPart_afterBcdPair ..) (State.sparesOff_store _ .b _ _ _)

theorem quiet_extendBody_reg (f : AluOp) (x : Fin 8) (sz : Size) (y : Fin 8) : Quiet (extendBody f x sz .reg y) :=
  ⟨fun h => by cases h; rfl⟩

theorem quiet_bcdBody_reg (f : Long → Long → Bool → Long × Bool) (x y : Fin 8) : Quiet (bcdBody f x .reg y) :=
  quiet_look_bind fun _ => quiet_look_bind fun _ => quiet_look_bind fun _ => (quiet_bcdResult ..).bind fun o =>
    (quiet_bcdFlags o).bind fun _ => quiet_upd

/-! The stack. -/

theorem State.sparesOff_pushed (h : u.busPart = s.busPart) (ha : u.a = s.a) : s.SparesOff s.pushSpan (u.pushed .l v) := by
  rw [State.pushSpan, ← State.dataFc_of_busPart h, ← ha]
  exact .from_busPart h ((u.setA 7 _).sparesOff_store .l _ _ v)

theorem branchTarget_of_ok {d8 : Byte} {x : Long} (h : branchTarget d8 s = .ok x u) :
    u.busPart = s.busPart ∧ u.a = s.a := by
  rw [branchTarget, M.look_bind] at h
  cases hd : d8 == 0 with
  | true =>
    simp only [hd, fetch16_bind_iff] at h
    cases h.2
    exact ⟨s.busPart_skip 1, State.skip_a s 1⟩
  | false =>
    rw [hd] at h
    cases h
    exact ⟨rfl, rfl⟩

theorem sparesOff_push_setPc {x : Long} {w : Unit} (h : u.busPart = s.busPart) (ha : u.a = s.a)
    (hpush : (look State.pc >>= fun pc => push .l pc >>= fun _ => upd fun s => s.setPc x) u = .ok w t) :
    s.SparesOff s.pushSpan t := by
  rw [M.look_bind, push_bind_iff] at hpush
  cases hpush.2
  exact State.sparesOff_pushed h ha

theorem sparesOff_link {an : Fin 8} (ht : exec (.link an) s = .next t) (he : t.entered = none) :
    s.SparesOff s.pushSpan t := by
  obtain ⟨-, h⟩ := fetch16_bind_iff.mp (ok_of_run ht he)
  rw [M.upd_bind, M.look_bind, M.look_bind] at h
  obtain ⟨w, u, hwrite, h⟩ := M.of_bind_ok h
  obtain ⟨-, rfl⟩ := writeData_of_ok hwrite
  have hu : ((s.skip 1).setA 7 ((s.skip 1).a[7] - 4)).busPart = s.busPart := s.busPart_skip 1
  have hrest : Quiet (upd (fun s => s.setA an s.a[7]) >>= fun _ =>
      upd fun s' => s'.setA 7 (s'.a[7] + sext16 (s.streamWord 0))) := quiet_upd_bind fun _ => quiet_upd
  refine .congr_mem (.from_busPart hu ?_) (hrest.mem h)
  rw [State.pushSpan, ← State.dataFc_of_busPart hu, State.setA_a7, State.skip_a]
  exact State.sparesOff_store _ .l _ _ _

/-! Several stores. -/

theorem spansUp_succ_last (sz : Size) (fc : BitVec 3) (n : Nat) (a : Long) :
    spansUp sz fc (BitVec.ofNat 32 sz.bytes) (n + 1) a =
      spansUp sz fc (BitVec.ofNat 32 sz.bytes) n a ++ [(sz, fc, addressUp sz n a)] := by
  induction n generalizing a with
  | zero => simp [spansUp, addressUp_zero]
  | succ n ih => rw [spansUp, ih, addressUp_succ, spansUp, List.cons_append]

theorem State.dataFc_store (s : State) (sz : Size) (fc : BitVec 3) (a v : Long) :
    (s.store sz fc a v).dataFc = s.dataFc := by
  simp [State.dataFc]

theorem storeUp_sparesOff {rs : List GenReg} {w : Unit} (h : storeUp sz rs a s = .ok w t) :
    s.SparesOff (spansUp sz s.dataFc (BitVec.ofNat 32 sz.bytes) rs.length a) t := by
  induction rs generalizing a s with
  | nil =>
    cases h
    exact .of_mem rfl
  | cons r rs ih =>
    rw [storeUp, M.look_bind, writeData_bind_iff] at h
    have hrest := ih h.2
    rw [State.dataFc_store] at hrest
    exact (s.sparesOff_store sz _ a _).append (by simp) hrest

theorem storeDown_sparesOff {rs : List GenReg} {x : Long} (h : storeDown sz rs a s = .ok x t) :
    s.SparesOff (spansUp sz s.dataFc (BitVec.ofNat 32 sz.bytes) rs.length (addressDown sz rs.length a)) t := by
  induction rs generalizing a s with
  | nil =>
    cases h
    exact .of_mem rfl
  | cons r rs ih =>
    rw [storeDown, M.look_bind, writeData_bind_iff] at h
    have hrest := ih h.2
    rw [State.dataFc_store] at hrest
    have htop : addressUp sz rs.length (addressDown sz rs.length (a - BitVec.ofNat 32 sz.bytes)) =
        a - BitVec.ofNat 32 sz.bytes := by
      rw [addressUp, addressDown, BitVec.sub_add_cancel]
    rw [List.length_cons, addressDown_succ, spansUp_succ_last, htop]
    exact ((s.sparesOff_store sz _ _ _).append (by simp) hrest).mono List.perm_append_comm.subset

theorem movepStore_sparesOff {dn : Fin 8} {n : Nat} {ks : List Nat} {w : Unit} (h : movepStore dn n ks a s = .ok w t) :
    s.SparesOff (spansUp .b s.dataFc 2 ks.length a) t := by
  induction ks generalizing a s with
  | nil =>
    cases h
    exact .of_mem rfl
  | cons k ks ih =>
    rw [movepStore, M.look_bind, writeData_bind_iff] at h
    have hrest := ih h.2
    rw [State.dataFc_store] at hrest
    exact (s.sparesOff_store .b _ a _).append (by simp) hrest

theorem sparesOff_movem (ht : exec (.movemToMem sz ea) s = .next t) (he : t.entered = none) :
    s.SparesOff (s.movemSpans sz ea) t := by
  obtain ⟨-, h⟩ := fetch16_bind_iff.mp (ok_of_run ht he)
  have hskip := s.busPart_skip 1
  have hfc := State.dataFc_of_busPart hskip
  unfold State.movemSpans
  split at h
  next n =>
    rw [M.look_bind] at h
    obtain ⟨x, u, hstore, h⟩ := M.of_bind_ok h
    cases h
    have hspans := storeDown_sparesOff hstore
    rw [hfc, State.skip_a] at hspans
    exact .from_busPart hskip hspans
  next hpd =>
    obtain ⟨-, -, hstore⟩ := addressEa_bind_iff.mp h
    have hafter := ((s.skip 1).busPart_afterEa ea sz).trans hskip
    have hspans := storeUp_sparesOff hstore
    rw [State.dataFc_of_busPart hafter] at hspans
    cases ea with
    | pd n => exact absurd rfl (hpd n)
    | _ => exact .from_busPart hafter hspans

theorem sparesOff_movep {dn an : Fin 8} (ht : exec (.movep dn .regToMem sz an) s = .next t) (he : t.entered = none) :
    s.SparesOff (spansUp .b s.dataFc 2 (movepIndexes sz).length (s.a[an] + sext16 (s.streamWord 0))) t := by
  obtain ⟨-, h⟩ := fetch16_bind_iff.mp (ok_of_run ht he)
  rw [M.look_bind] at h
  have hspans := movepStore_sparesOff h
  rw [State.dataFc_of_busPart (s.busPart_skip 1), State.skip_a] at hspans
  exact .from_busPart (s.busPart_skip 1) hspans

theorem movesSource_of_ok {r : GenReg} {x y : Long} (h : movesSource r ea x s = .ok y u) :
    u.busPart = s.busPart ∧ u.dfc = s.dfc := by
  rw [movesSource, M.look_bind] at h
  cases hself : movesSelfUpdate r ea with
  | true | false =>
    rw [hself] at h
    cases h
    exact ⟨rfl, rfl⟩

theorem sparesOff_moves (ht : exec (.moves sz ea) s = .next t) (he : t.entered = none) :
    s.SparesOff (Instr.stores s (.moves sz ea)) t := by
  obtain ⟨-, h⟩ := require_bind_iff.mp (ok_of_run ht he)
  obtain ⟨-, h⟩ := require_bind_iff.mp h
  obtain ⟨-, h⟩ := fetch16_bind_iff.mp h
  rw [M.look_bind] at h
  obtain ⟨-, -, h⟩ := addressEa_bind_iff.mp h
  have hafter := ((s.skip 1).busPart_afterEa ea sz).trans (s.busPart_skip 1)
  rw [Instr.stores]
  cases hdir : (s.streamWord 0).getLsbD 11 with
  | true =>
    rw [hdir] at h
    obtain ⟨x, u, hsource, h⟩ := M.of_bind_ok h
    obtain ⟨hbus, hdfc⟩ := movesSource_of_ok hsource
    obtain ⟨-, rfl⟩ := memWrite_of_ok h
    rw [State.afterEa_dfc, State.skip_dfc] at hdfc
    rw [← hdfc]
    exact .from_busPart (hbus.trans hafter) (u.sparesOff_store sz _ _ x)
  | false =>
    rw [hdir] at h
    have hload : Quiet (look State.sfc >>= fun fc => memRead sz fc ((s.skip 1).eaAddress ea sz) >>= fun v =>
      upd fun s' => s'.setMoves (extGenReg (s.streamWord 0)) sz v) :=
      quiet_look_bind fun _ => (quiet_memRead ..).bind fun _ => quiet_upd (State.setMoves_mem · _ _ _)
    exact .from_busPart hafter (.of_mem (hload.mem h))

end

/-- An instruction that enters no exception leaves every byte outside its stores alone. -/
theorem exec_sparesOff {i : Instr} {s t : State} (hw : i.wellFormed = true) (ht : exec i s = .next t)
    (he : t.entered = none) : s.SparesOff (i.stores s) t := by
  cases i with
  -- Forms that store to their operand.
  | ori sz ea | andi sz ea | subi sz ea | addi sz ea | eori sz ea => exact sparesOff_immEaBody ht he
  | bchgImm ea | bclrImm ea | bsetImm ea => exact sparesOff_bitBody_static ht he
  | bchgReg dn ea | bclrReg dn ea | bsetReg dn ea | negx sz ea | neg sz ea | notOp sz ea | tas ea | orDnEa dn sz ea
  | subDnEa dn sz ea | eor dn sz ea | andDnEa dn sz ea | addDnEa dn sz ea | asrEa ea | aslEa ea | lsrEa ea | lslEa ea
  | roxrEa ea | roxlEa ea | rorEa ea | rolEa ea => exact sparesOff_modifyEa ht he
  | addq q sz ea | subq q sz ea =>
    dsimp only [exec] at ht
    cases ea with
    | an n =>
      refine Quiet.sparesOff ?_ ht he
      exact quiet_upd
    | _ => exact sparesOff_modifyEa (show run (modifyEa _ sz _) s = _ from ht) he
  | moveB src dst | moveW src dst | moveL src dst => exact sparesOff_moveBody ht he
  | moveFromSr ea | moveFromCcr ea => exact sparesOff_resolve_eaWrite (require_bind_iff.mp (ok_of_run ht he)).2
  | scc c ea => exact sparesOff_resolve_eaWrite (ok_of_run ht he)
  | clr sz ea => exact sparesOff_clr ht he
  | nbcd ea => exact sparesOff_nbcd ht he
  | sbcd x form y | abcd x form y =>
    cases form with
    | reg => exact (quiet_bcdBody_reg ..).sparesOff ht he
    | mem => exact sparesOff_bcdBody ht he
  | subx x sz form y | addx x sz form y =>
    cases form with
    | reg => exact (quiet_extendBody_reg ..).sparesOff ht he
    | mem => exact sparesOff_extendBody ht he
  -- Forms that push.
  | pea ea =>
    obtain ⟨-, -, h⟩ := addressEa_bind_iff.mp (ok_of_run ht he)
    obtain ⟨-, rfl⟩ := push_of_ok h
    exact State.sparesOff_pushed (s.busPart_afterEa ea .l) (s.afterEa_a_of_control hw)
  | jsr ea =>
    obtain ⟨-, -, h⟩ := addressEa_bind_iff.mp (ok_of_run ht he)
    exact sparesOff_push_setPc (s.busPart_afterEa ea .l) (s.afterEa_a_of_control hw) h
  | bsr d8 =>
    obtain ⟨x, u, htarget, h⟩ := M.of_bind_ok (ok_of_run ht he)
    obtain ⟨hbus, ha⟩ := branchTarget_of_ok htarget
    exact sparesOff_push_setPc hbus ha h
  | link an => exact sparesOff_link ht he
  -- Forms that store several times, or in a space of their own.
  | movemToMem sz ea => exact sparesOff_movem ht he
  | movep dn dir sz an =>
    cases dir with
    | memToReg => exact Quiet.sparesOff (quiet_fetch16_bind fun _ => quiet_look_bind fun _ => quiet_movepLoad ..) ht he
    | regToMem => exact sparesOff_movep ht he
  | moves sz ea => exact sparesOff_moves ht he
  -- Forms that store nothing.
  | oriToCcr | andiToCcr | eoriToCcr => exact (quiet_ccrImmBody _).sparesOff ht he
  | oriToSr | andiToSr | eoriToSr => exact (quiet_srImmBody _).sparesOff ht he
  | btstImm ea => exact (quiet_testBody (quiet_fetch16_bind fun _ => quiet_pure _) ea).sparesOff ht he
  | btstReg dn ea => exact (quiet_testBody (quiet_look _) ea).sparesOff ht he
  | cmpi sz ea => exact ((quiet_immediate sz).bind fun _ => quiet_readEa_upd ea sz).sparesOff ht he
  | tst sz ea | cmp dn sz ea | cmpa an sz ea | suba an sz ea | adda an sz ea | orEaDn dn sz ea | subEaDn dn sz ea
  | andEaDn dn sz ea | addEaDn dn sz ea => exact (quiet_readEa_upd ea sz).sparesOff ht he
  | moveaW an src | moveaL an src => exact (quiet_readEa_upd src _).sparesOff ht he
  | moveToCcr ea | mulu dn ea | muls dn ea => exact (quiet_readEa_upd ea .w).sparesOff ht he
  | moveToSr ea =>
    exact ((quiet_require ..).bind fun _ => quiet_readEa_upd ea .w fun _ s => State.writeSr_mem s _).sparesOff ht he
  | divu dn ea | divs dn ea => exact (quiet_divideBody _ dn ea).sparesOff ht he
  | chk dn ea =>
    refine ((quiet_readEa ea .w).bind fun bound => quiet_drawBit_bind fun _ => quiet_drawBit_bind fun _ =>
      quiet_drawBit_bind fun _ => quiet_look_bind fun _ => quiet_look_bind fun value => ?_).sparesOff ht he
    split
    · exact quiet_upd_bind fun _ => quiet_stop _
    · exact quiet_upd_bind fun _ => quiet_stop _
    · exact quiet_drawBit_bind fun _ => quiet_upd
  | cmpm x sz y =>
    exact ((quiet_readPostincrement y sz).bind fun _ => (quiet_readPostincrement x sz).bind fun _ =>
      quiet_upd).sparesOff ht he
  | swap dn | extW dn | extL dn | moveq dn d8 | exgDxDy x y | exgAxAy x y | exgDxAy x y | asrReg k sz g y
  | aslReg k sz g y | lsrReg k sz g y | lslReg k sz g y | roxrReg k sz g y | roxlReg k sz g y | rorReg k sz g y
  | rolReg k sz g y =>
    dsimp only [exec] at ht
    refine Quiet.sparesOff ?_ ht he
    exact quiet_upd
  | bkpt v | illegal | lineA low | lineF low => exact (quiet_raiseAtIpc _).sparesOff ht he
  | trap v =>
    -- Without `show`, the unifier evaluates the vector's sum before it unfolds `exec`.
    exact Quiet.sparesOff (quiet_look_bind fun _ => quiet_stop _) (show execTrap v s = _ from ht) he
  | trapv => exact (quiet_require ..).sparesOff ht he
  | nop => exact (quiet_pure ()).sparesOff ht he
  | reset | moveAnUsp an | moveUspAn an => exact ((quiet_require ..).bind fun _ => quiet_upd).sparesOff ht he
  | stop =>
    exact ((quiet_require ..).bind fun _ => quiet_fetch16_bind fun w =>
      quiet_upd (g := fun s => { s.writeSr w with runState := .stopped }) (State.writeSr_mem · w)).sparesOff ht he
  | rte => exact ((quiet_require ..).bind fun _ => quiet_returnFromException).sparesOff ht he
  | rtd =>
    exact ((quiet_require ..).bind fun _ => quiet_fetch16_bind fun _ => (quiet_pop .l).bind fun _ =>
      quiet_upd_bind fun _ => quiet_upd).sparesOff ht he
  | rts => exact ((quiet_pop .l).bind fun _ => quiet_upd).sparesOff ht he
  | rtr =>
    exact ((quiet_pop .w).bind fun _ => quiet_upd_bind fun _ => (quiet_pop .l).bind fun _ => quiet_upd).sparesOff ht he
  | unlk an => exact Quiet.sparesOff (quiet_upd_bind fun _ => (quiet_pop .l).bind fun _ => quiet_upd) ht he
  | movecRcRn => exact (quiet_movecBody fun _ g s => State.setGenReg_mem s g _).sparesOff ht he
  | movecRnRc => exact (quiet_movecBody fun r _ s => State.setControl_mem s r _).sparesOff ht he
  | movemToRegs sz ea =>
    refine Quiet.sparesOff (quiet_fetch16_bind fun mask => ?_) ht he
    split
    · exact quiet_look_bind fun _ => (quiet_loadUp ..).bind fun _ => (quiet_movemDummyRead ..).bind fun _ => quiet_upd
    · exact (quiet_resolve ..).bind fun d => (quiet_eaAddr d).bind fun _ => (quiet_loadUp ..).bind fun _ =>
        quiet_movemDummyRead ..
  | lea an ea | jmp ea => exact ((quiet_addressEa ea .l).bind fun _ => quiet_upd).sparesOff ht he
  | bra d8 => exact ((quiet_branchTarget d8).bind fun _ => quiet_upd).sparesOff ht he
  | bcc c d8 =>
    exact ((quiet_branchTarget d8).bind fun _ => quiet_upd fun s => by split <;> rfl).sparesOff ht he
  | dbcc c dn =>
    refine Quiet.sparesOff (quiet_look_bind fun _ => quiet_fetch16_bind fun _ => quiet_look_bind fun term => ?_) ht he
    split
    · exact quiet_pure _
    refine quiet_look_bind fun count => quiet_upd_bind fun _ => ?_
    split
    · exact quiet_pure _
    · exact (quiet_require ..).bind fun _ => quiet_upd

/-- Settles O43: the key of a byte depends on the configuration alone, which no instruction changes. -/
theorem memoryFrame : Obligations.MemoryFrame := by
  unfold Obligations.MemoryFrame
  intro i s t fc a hw ht he hk
  have hcfg : t.cfg = s.cfg := by
    have hfixed := (exec_within ht he).fixed
    simp only [State.fixedPart, Prod.mk.injEq] at hfixed
    exact hfixed.1
  rw [State.peekByte, State.peekByte, hcfg]
  exact exec_sparesOff hw ht he _ hk

end Sys2Proof.Machine
end
